-- ==== Sys2Proof/Word.lean ====
section
/-! DEFINITION. The word types of the HDU and their plainest arithmetic (00_scope.md R11, R12). -/

namespace Sys2Proof

/-- A host register or an accumulator: 32 bits (00_scope.md R9, `REG_W`, `ACC_W`). -/
abbrev Word := BitVec 32

/-- A memory byte (20_memory.md R86). -/
abbrev Byte := BitVec 8

/-- A coefficient (read as s16) or a quantisation entry (u16) (10_state.md R60, R61). -/
abbrev Half := BitVec 16

/-- `trunc_32` of a number (00_scope.md R12). -/
def Word.ofNat (n : Nat) : Word := BitVec.ofNat 32 n

/-- `trunc_32` of an integer, in two's complement (00_scope.md R12). -/
def Word.ofInt (i : Int) : Word := BitVec.ofInt 32 i

/-- `trunc_8` of a number (00_scope.md R12). -/
def Byte.ofNat (n : Nat) : Byte := BitVec.ofNat 8 n

end Sys2Proof
end

