-- ==== Sys2Proof/Config.lean ====
section
/-! DEFINITION. What the spec leaves free, and the structural constants of the implementation.
A free value is an opaque constant without a body: nothing can prove a value of it. -/

namespace Sys2Proof

/-- `FAST_BITS` (00_scope.md R9). It has no observable effect (R10, 42_huffman.md R214). -/
abbrev Config.fastBits : Nat := 9

/-- FREE VALUE (log 7): after how many of the running command's assignments a host read in BUSY shows
the registers that the command passes through other values (10_state.md R52). Applied to the counter
`Env.freeCount`. -/
opaque Config.busyDraw : Nat → Nat

/-- FREE VALUE (log 8): after how many of the running command's assignments, its byte writes among
them, a reset aborts it (70_reset_and_hazards.md R421). Applied to the counter `Env.freeCount`. -/
opaque Config.abortPrefix : Nat → Nat

end Sys2Proof
end

