-- ==== Sys2Proof/Syntax.lean ====
section
/-! DEFINITION. The commands of HDU-CMD version 1 as syntax: one constructor for each row of
spec/opcode_table.json, its fields as the formats R112 to R122 of 30_encoding.md name them.
A field keeps the width its format gives it, so every term is some command word; which field
values are legal is WellFormed's question (R128). -/

namespace Sys2Proof

/-- The reader mode (10_state.md R56): 0 is LSB-first (DEFLATE), 1 is MSB-first (JPEG). -/
inductive Mode where
  | lsb
  | msb
  deriving DecidableEq, Repr

/-- The class of a JPEG table (10_state.md R59): 0 is DC, 1 is AC. -/
inductive JClass where
  | dc
  | ac
  deriving DecidableEq, Repr

/-- The commands (30_encoding.md R124). -/
inductive Instr where
  /-- R140. -/
  | nop
  /-- R165, format M. -/
  | brInit (mode : Mode)
  /-- R166, format B: `n` is legal in 1..16. -/
  | brGetbits (n : BitVec 5)
  /-- R167, format B: `n` is legal in 1..16. -/
  | brPeekbits (n : BitVec 5)
  /-- R168. -/
  | brAlign
  /-- R169, format R: `sz` is legal in {1, 2, 4}; `chk` asks for a length-checked read. -/
  | brReadbytes (sz : BitVec 3) (chk : Bool)
  /-- R218, format T: `tid` 0 LITLEN, 1 DIST, 2 CLEN, 3 illegal. -/
  | hbZlib (tid : BitVec 2)
  /-- R219, format J. -/
  | hbJpeg (cls : JClass) (idx : BitVec 2)
  /-- R220, format T. -/
  | hdZlib (tid : BitVec 2)
  /-- R221, format J. -/
  | hdJpeg (cls : JClass) (idx : BitVec 2)
  /-- R257. -/
  | zHeader
  /-- R258, format Z: `stepMode` stops after one block. -/
  | inflate (stepMode : Bool)
  /-- R310, format F: `bpp` is `bppm1 + 1`. -/
  | pngUnfilter (bppm1 : BitVec 3) (first alpha a16 : Bool)
  /-- R334, format Q. -/
  | qtLoad (idx : BitVec 2) (p16 : Bool)
  /-- R332, format B: `n` is legal in 0..16. -/
  | jReceive (n : BitVec 5)
  /-- R335, format K. -/
  | jDecodeBlock (dct act comp : BitVec 2)
  /-- R339. -/
  | jReset
  /-- R340. -/
  | jRestart
  /-- R341. -/
  | coefLoad
  /-- R342. -/
  | coefStore
  /-- R343, format I: `qidx` must be 0 when `deq` is 0. -/
  | idct (deq : Bool) (qidx : BitVec 2)
  deriving DecidableEq, Repr

end Sys2Proof
end

