-- ==== Sys2Proof/Machine/Legal.lean ====
section
/-! DEFINITION. The legal field values of a command word (30_encoding.md R128), one predicate for
each kind of field. WellFormed and the meanings share them: an illegal value raises `E_ILLEGAL`. -/

namespace Sys2Proof.Machine

/-- N of BR_GETBITS and BR_PEEKBITS is in 1..16 (30_encoding.md R114, R128). -/
def readBitsLegal (n : BitVec 5) : Bool := decide (1 ≤ n.toNat) && decide (n.toNat ≤ 16)

/-- N of J_RECEIVE is in 0..16 (30_encoding.md R114, R128). -/
def receiveBitsLegal (n : BitVec 5) : Bool := decide (n.toNat ≤ 16)

/-- SZ of BR_READBYTES is 1, 2 or 4 (30_encoding.md R115, R128). -/
def byteCountLegal (sz : BitVec 3) : Bool := sz == 1 || sz == 2 || sz == 4

/-- TID 3 names no table (30_encoding.md R116, R128). -/
def tableIdLegal (tid : BitVec 2) : Bool := tid != 3

/-- `bpp = BPPM1 + 1` (30_encoding.md R119). -/
def bytesPerPixel (bppm1 : BitVec 3) : Nat := bppm1.toNat + 1

/-- A16 needs ALPHA = 1 and an even `bpp` (30_encoding.md R128). -/
def alphaLegal (bppm1 : BitVec 3) (alpha a16 : Bool) : Bool :=
  !a16 || (alpha && bytesPerPixel bppm1 % 2 == 0)

/-- QIDX is 0 when DEQ = 0 (30_encoding.md R122, R128). -/
def idctLegal (deq : Bool) (qidx : BitVec 2) : Bool := deq || qidx == 0

end Sys2Proof.Machine
end

