-- ==== Sys2Proof/WellFormed.lean ====
section
/-! DEFINITION. Which command terms have legal field values (30_encoding.md R128, the part that the
command word alone decides; the ARG values are checked by the meanings). -/

namespace Sys2Proof

/-- The fields of the command are legal (30_encoding.md R128). -/
def Instr.wellFormed : Instr → Bool
  | .nop => true
  | .brInit _ => true
  | .brGetbits n => Machine.readBitsLegal n
  | .brPeekbits n => Machine.readBitsLegal n
  | .brAlign => true
  | .brReadbytes sz _ => Machine.byteCountLegal sz
  | .hbZlib tid => Machine.tableIdLegal tid
  | .hbJpeg _ _ => true
  | .hdZlib tid => Machine.tableIdLegal tid
  | .hdJpeg _ _ => true
  | .zHeader => true
  | .inflate _ => true
  | .pngUnfilter bppm1 _ alpha a16 => Machine.alphaLegal bppm1 alpha a16
  | .qtLoad _ _ => true
  | .jReceive n => Machine.receiveBitsLegal n
  | .jDecodeBlock _ _ _ => true
  | .jReset => true
  | .jRestart => true
  | .coefLoad => true
  | .coefStore => true
  | .idct deq qidx => Machine.idctLegal deq qidx

end Sys2Proof
end

