-- ==== Sys2Proof/Decode.lean ====
section
/-! DEFINITION. The decoder from command words to commands, total, and the encoder back
(30_encoding.md R110 to R127). Decoding makes steps 1 and 2 of the decode order R130: it refuses a
reserved opcode and a set reserved bit, each by name. An illegal field VALUE (step 3) is still a
command of its row: its meaning raises `E_ILLEGAL` (log 20). -/

namespace Sys2Proof

/-- Why a word is no command (30_encoding.md R130, steps 1 and 2). Both raise `E_ILLEGAL`. -/
inductive DecodeError where
  /-- OP is not in the opcode map (R126). -/
  | reservedOpcode
  /-- A bit that the command's format does not name is 1 (R127). -/
  | reservedBits
  deriving DecidableEq, Repr

/-- The 1-bit field at bit `i` (30_encoding.md R123). -/
def fieldBit (w : Word) (i : Nat) : Bool := w.getLsbD i

/-- The `len`-bit field whose lowest bit is `lo` (30_encoding.md R123). -/
def fieldBits (w : Word) (lo len : Nat) : BitVec len := w.extractLsb' lo len

/-- MODE of format M (30_encoding.md R113). -/
def decodeMode (b : Bool) : Mode := if b then .msb else .lsb

/-- CLS of format J (30_encoding.md R117). -/
def decodeClass (b : Bool) : JClass := if b then .ac else .dc

/-- The command `i`, whose format names the bits below `hi`, unless a higher bit is set (R127). -/
def withoutReserved (w : Word) (hi : Nat) (i : Instr) : Except DecodeError Instr :=
  if w.toNat / 2 ^ hi = 0 then .ok i else .error .reservedBits

/-- Format N (30_encoding.md R112). -/
def decodeN (w : Word) (i : Instr) : Except DecodeError Instr := withoutReserved w 8 i

/-- Format M (30_encoding.md R113). -/
def decodeM (w : Word) : Except DecodeError Instr :=
  withoutReserved w 9 (.brInit (decodeMode (fieldBit w 8)))

/-- Format B (30_encoding.md R114). -/
def decodeB (w : Word) (i : BitVec 5 → Instr) : Except DecodeError Instr :=
  withoutReserved w 13 (i (fieldBits w 8 5))

/-- Format R (30_encoding.md R115). -/
def decodeR (w : Word) : Except DecodeError Instr :=
  withoutReserved w 12 (.brReadbytes (fieldBits w 8 3) (fieldBit w 11))

/-- Format T (30_encoding.md R116). -/
def decodeT (w : Word) (i : BitVec 2 → Instr) : Except DecodeError Instr :=
  withoutReserved w 10 (i (fieldBits w 8 2))

/-- Format J (30_encoding.md R117). -/
def decodeJ (w : Word) (i : JClass → BitVec 2 → Instr) : Except DecodeError Instr :=
  withoutReserved w 11 (i (decodeClass (fieldBit w 8)) (fieldBits w 9 2))

/-- Format Z (30_encoding.md R118). -/
def decodeZ (w : Word) : Except DecodeError Instr :=
  withoutReserved w 9 (.inflate (fieldBit w 8))

/-- Format F (30_encoding.md R119). -/
def decodeF (w : Word) : Except DecodeError Instr :=
  withoutReserved w 14
    (.pngUnfilter (fieldBits w 8 3) (fieldBit w 11) (fieldBit w 12) (fieldBit w 13))

/-- Format Q (30_encoding.md R120). -/
def decodeQ (w : Word) : Except DecodeError Instr :=
  withoutReserved w 11 (.qtLoad (fieldBits w 8 2) (fieldBit w 10))

/-- Format K (30_encoding.md R121). -/
def decodeK (w : Word) : Except DecodeError Instr :=
  withoutReserved w 14 (.jDecodeBlock (fieldBits w 8 2) (fieldBits w 10 2) (fieldBits w 12 2))

/-- Format I (30_encoding.md R122). -/
def decodeI (w : Word) : Except DecodeError Instr :=
  withoutReserved w 11 (.idct (fieldBit w 8) (fieldBits w 9 2))

/-- OP, bits [7:0] (30_encoding.md R111). -/
def opcodeOf (w : Word) : Byte := fieldBits w 0 8

/-- The command a word is (30_encoding.md R124), or why it is none. -/
def decode (w : Word) : Except DecodeError Instr :=
  match (opcodeOf w).toNat with
  | 0x00 => decodeN w .nop
  | 0x01 => decodeM w
  | 0x02 => decodeB w .brGetbits
  | 0x03 => decodeB w .brPeekbits
  | 0x04 => decodeN w .brAlign
  | 0x05 => decodeR w
  | 0x10 => decodeT w .hbZlib
  | 0x11 => decodeJ w .hbJpeg
  | 0x12 => decodeT w .hdZlib
  | 0x13 => decodeJ w .hdJpeg
  | 0x20 => decodeN w .zHeader
  | 0x21 => decodeZ w
  | 0x30 => decodeF w
  | 0x40 => decodeQ w
  | 0x41 => decodeB w .jReceive
  | 0x42 => decodeK w
  | 0x43 => decodeN w .jReset
  | 0x44 => decodeN w .jRestart
  | 0x45 => decodeN w .coefLoad
  | 0x46 => decodeN w .coefStore
  | 0x47 => decodeI w
  | _ => .error .reservedOpcode

/-- The word that the host stores for a row's bits: a command is one 32-bit word (30_encoding.md
R110), so the bits above `nbits` are 0 and nothing lies above bit 31. -/
def tableWord (nbits w : Nat) : Word := Word.ofNat (w % 2 ^ nbits)

/-- What the decoder reads from a row's bits, numbered as spec/opcode_table.json numbers them. -/
def decodeTableWord (nbits w : Nat) : Option Instr := (decode (tableWord nbits w)).toOption

/-- The bit of MODE (30_encoding.md R113). -/
def Mode.bit : Mode → BitVec 1
  | .lsb => 0
  | .msb => 1

/-- The bit of CLS (30_encoding.md R117). -/
def JClass.bit : JClass → BitVec 1
  | .dc => 0
  | .ac => 1

/-- A one-bit field. -/
def flagBit (b : Bool) : BitVec 1 := BitVec.ofBool b

/-- The opcode of a command (30_encoding.md R124). -/
def opcode : Instr → Byte
  | .nop => 0x00
  | .brInit _ => 0x01
  | .brGetbits _ => 0x02
  | .brPeekbits _ => 0x03
  | .brAlign => 0x04
  | .brReadbytes _ _ => 0x05
  | .hbZlib _ => 0x10
  | .hbJpeg _ _ => 0x11
  | .hdZlib _ => 0x12
  | .hdJpeg _ _ => 0x13
  | .zHeader => 0x20
  | .inflate _ => 0x21
  | .pngUnfilter _ _ _ _ => 0x30
  | .qtLoad _ _ => 0x40
  | .jReceive _ => 0x41
  | .jDecodeBlock _ _ _ => 0x42
  | .jReset => 0x43
  | .jRestart => 0x44
  | .coefLoad => 0x45
  | .coefStore => 0x46
  | .idct _ _ => 0x47

/-- The bits [31:8] of a command: its format's fields, the higher field first, above them zeros
(30_encoding.md R112 to R122). -/
def encodeFields : Instr → BitVec 24
  | .nop => 0
  | .brInit mode => 0#23 ++ mode.bit
  | .brGetbits n => 0#19 ++ n
  | .brPeekbits n => 0#19 ++ n
  | .brAlign => 0
  | .brReadbytes sz chk => 0#20 ++ (flagBit chk ++ sz)
  | .hbZlib tid => 0#22 ++ tid
  | .hbJpeg cls idx => 0#21 ++ (idx ++ cls.bit)
  | .hdZlib tid => 0#22 ++ tid
  | .hdJpeg cls idx => 0#21 ++ (idx ++ cls.bit)
  | .zHeader => 0
  | .inflate stepMode => 0#23 ++ flagBit stepMode
  | .pngUnfilter bppm1 first alpha a16 =>
    0#18 ++ (flagBit a16 ++ (flagBit alpha ++ (flagBit first ++ bppm1)))
  | .qtLoad idx p16 => 0#21 ++ (flagBit p16 ++ idx)
  | .jReceive n => 0#19 ++ n
  | .jDecodeBlock dct act comp => 0#18 ++ (comp ++ (act ++ dct))
  | .jReset => 0
  | .jRestart => 0
  | .coefLoad => 0
  | .coefStore => 0
  | .idct deq qidx => 0#21 ++ (qidx ++ flagBit deq)

/-- The word of a command (30_encoding.md R110, R111). -/
def encode (i : Instr) : Word := encodeFields i ++ opcode i

end Sys2Proof
end

