-- ==== Sys2Proof/Machine/State.lean ====
section
/-! DEFINITION. The state of the HDU as plain data (10_state.md R30 to R66), the reasons a step can
stop, and the state right after reset (70_reset_and_hazards.md R422). -/

namespace Sys2Proof.Machine

open Sys2Proof

/-- The engine's control state (10_state.md R63). -/
inductive EState where
  | idle
  | busy
  | fault
  deriving DecidableEq, Repr

/-- The HDU's own faults (60_exceptions.md R382). Each is TAKEN (fault entry, R384): it is a next
state, not a stop of the machine. -/
inductive FaultCode where
  | eIllegal
  | eMode
  | eNotable
  | eRange
  | eOverlap
  | eBus
  | eEof
  | eAlign
  | eBadlen
  | eBadcode
  | eZhdr
  | eBtype
  | eNlen
  | eDist
  | eOutfull
  | eFilter
  | eRun
  deriving DecidableEq, Repr

/-- How a command's pseudocode ends early. -/
inductive Stop where
  /-- `raise code(info)` (00_scope.md R15). -/
  | raised (code : FaultCode) (info : Word)
  /-- The model's own: a loop outran the bound of 70_reset_and_hazards.md R433 (log 15). -/
  | bound
  deriving DecidableEq, Repr

/-- Whether a fetched byte came from the input or is padding (41_bitreader.md R155, R156). -/
inductive ByteKind where
  | real
  | pad
  deriving DecidableEq, Repr

/-- What `ZT[t]` holds of one symbol: `ZL[t][s]` and `ZCODE[t][s]` (10_state.md R58,
42_huffman.md R203). Length 0 means that the symbol is absent. -/
structure ZCode where
  len : Nat
  code : Nat
  deriving DecidableEq, Repr

/-- A built DEFLATE table: its symbols' entries in symbol order (10_state.md R58). -/
structure ZTable where
  syms : List ZCode
  deriving DecidableEq, Repr

/-- Entry k of a JPEG table: `SIZE[k]`, `CODE[k]`, `VAL[k]` (10_state.md R59). -/
structure JCode where
  size : Nat
  code : Nat
  val : Byte
  deriving DecidableEq, Repr

/-- A built JPEG table: its entries in canonical order; `NSYM` is their number (10_state.md R59). -/
structure JTable where
  entries : List JCode
  deriving DecidableEq, Repr

/-- One event of the schedule (the model's own, log 4): who acts next. -/
inductive Event where
  /-- The engine takes its turn: it runs the command it is BUSY with. -/
  | engine
  /-- The host writes `v` at host address `addr` with an access of `size` bytes. -/
  | regWrite (addr size : Nat) (v : Word)
  /-- The host reads at host address `addr` with an access of `size` bytes. -/
  | regRead (addr size : Nat)
  /-- The host writes byte `a` of MEM. -/
  | memWrite (a : Nat) (v : Byte)
  /-- The host reads byte `a` of MEM. -/
  | memRead (a : Nat)
  /-- The platform's hard reset (70_reset_and_hazards.md R420). -/
  | hardReset
  deriving DecidableEq, Repr

/-- MEM as the bytes that differ from what an unlisted address reads as, by rising address
(20_memory.md R80; log 1). -/
abbrev Memory := List Host.Cell

/-- The host's control registers and the engine's control state (10_state.md R30, classes 1 and 8). -/
structure Control where
  /-- ESTATE (R63). -/
  estate : EState
  /-- The command word that CMD's write latched (R40; log 18). -/
  cmd : Word
  /-- RES (R33). -/
  res : Word
  /-- ERR.CODE (R41). -/
  errCode : Byte
  /-- ERR.OP (R41). -/
  errOp : Byte
  /-- FADDR (R42). -/
  faddr : Word
  /-- CMDCNT (R50). -/
  cmdcnt : Word
  /-- STATUS.DROP (R38). -/
  drop : Bool
  /-- CTRL.IE_DONE (R37). -/
  ieDone : Bool
  /-- CTRL.IE_ERR (R37). -/
  ieErr : Bool
  /-- IRQ.DONE (R39). -/
  irqDone : Bool
  /-- IRQ.ERR (R39). -/
  irqErr : Bool
  deriving DecidableEq, Repr

/-- ARG0 to ARG3 (10_state.md R32). -/
structure Args where
  arg0 : Word
  arg1 : Word
  arg2 : Word
  arg3 : Word
  deriving DecidableEq, Repr

/-- The bitstream reader (10_state.md R30 class 2, R43 to R46, R55 to R57). -/
structure Reader where
  /-- MODE (R56). -/
  mode : Mode
  inBase : Word
  inLen : Word
  /-- CUR (R44). -/
  cur : Word
  /-- ACC (R45). -/
  acc : Word
  /-- BITCNT, 0..32 (R55). -/
  bitcnt : Nat
  /-- PADBITS, 0..BITCNT (R55). -/
  padbits : Nat
  eof : Bool
  ovr : Bool
  nomore : Bool
  marker : Byte
  deriving DecidableEq, Repr

/-- The DEFLATE output state (10_state.md R30 class 3, R47, R64). -/
structure Output where
  outBase : Word
  outCap : Word
  outLen : Word
  zfinal : Bool
  zbtype : BitVec 2
  deriving DecidableEq, Repr

/-- The table RAMs (10_state.md R30 classes 4 and 5, R58 to R60); `none` is an invalid table, whose
TVALID bit is 0 and whose contents are UNSPECIFIED (R49; log 12). -/
structure Tables where
  /-- ZT[0..2]. -/
  zt : Vector (Option ZTable) 3
  /-- JT[DC][0..3]. -/
  jdc : Vector (Option JTable) 4
  /-- JT[AC][0..3]. -/
  jac : Vector (Option JTable) 4
  /-- QT[0..3], each in natural order. -/
  qt : Vector (Option (Vector Half 64)) 4
  deriving DecidableEq, Repr

/-- The memory behind the engine's bus. -/
structure Bus where
  /-- MEM (20_memory.md R80). -/
  mem : Memory
  /-- The address intervals [lo, hi) that are NOT in MEMMAP (20_memory.md R88; log 2). -/
  holes : List (Nat × Nat)
  deriving DecidableEq, Repr

/-- What lies outside the HDU: where the platform put it, and the model's own schedule. -/
structure Env where
  /-- REG_BASE (10_state.md R35; log 3). -/
  regBase : Nat
  /-- The model's own: the schedule still to come (log 4). -/
  events : List Event
  /-- The model's own: what the last host read returned (log 17). -/
  hostData : Word
  /-- The model's own: how many free values have been drawn (log 7). -/
  freeCount : Nat
  deriving DecidableEq, Repr

/-- The state (10_state.md R30). The names are the spec's. -/
structure State where
  ctl : Control
  args : Args
  rd : Reader
  out : Output
  tab : Tables
  /-- COEF[0..63], natural order (R61). -/
  coef : Vector Half 64
  /-- DCPRED[0..3] (R48, R62). -/
  dcpred : Vector Word 4
  bus : Bus
  env : Env
  deriving DecidableEq, Repr

/-- Why the machine stops. No command stops: every fault of a command is a fault entry. -/
inductive Fault where
  /-- Raised by a HOST access to a MEM address outside MEMMAP: the spec gives the host's side of such
  an access no effect (20_memory.md R88; log 11). Safe. -/
  | hostMemUnmapped (a : Nat)
  /-- Raised by INFLATE's meaning when its loop outran the bound of 70_reset_and_hazards.md R433,
  which R433 says never happens (log 15). Safe. -/
  | boundExceeded
  deriving DecidableEq, Repr

/-- Why a step has no meaning. -/
inductive Refusal where
  /-- Raised by exec's arm of a command that has no meaning yet. Safe. -/
  | notModelled (mnemonic : String)
  /-- Raised by a host register access that is not an aligned 32-bit one (10_state.md R54,
  93_implementation_defined.md U3; log 10). Safe. -/
  | hostAccessForm (addr size : Nat)
  /-- Raised by a host register access outside the 256 bytes of the block (10_state.md R51;
  log 10). Safe. -/
  | hostOutsideBlock (addr : Nat)
  /-- Raised by a host access to a running command's memory regions (20_memory.md R93,
  93_implementation_defined.md U4; log 9). Safe. -/
  | hostRace (a : Nat)
  deriving DecidableEq, Repr

/-- The state right after reset (70_reset_and_hazards.md R422), nothing placed in MEM and nothing
scheduled (log 1 to log 4, log 17, log 18). -/
def State.reset : State where
  ctl :=
    { estate := .idle, cmd := 0, res := 0, errCode := 0, errOp := 0, faddr := 0, cmdcnt := 0
      drop := false, ieDone := false, ieErr := false, irqDone := false, irqErr := false }
  args := { arg0 := 0, arg1 := 0, arg2 := 0, arg3 := 0 }
  rd :=
    { mode := .lsb, inBase := 0, inLen := 0, cur := 0, acc := 0, bitcnt := 0, padbits := 0
      eof := false, ovr := false, nomore := false, marker := 0xFF }
  out := { outBase := 0, outCap := 0, outLen := 0, zfinal := false, zbtype := 0 }
  tab :=
    { zt := Vector.replicate 3 none, jdc := Vector.replicate 4 none
      jac := Vector.replicate 4 none, qt := Vector.replicate 4 none }
  coef := Vector.replicate 64 0
  dcpred := Vector.replicate 4 0
  bus := { mem := [], holes := [] }
  env := { regBase := 0, events := [], hostData := 0, freeCount := 0 }

end Sys2Proof.Machine
end

