-- ==== Sys2Proof/Machine/Operands.lean ====
section
/-! DEFINITION. The operand forms of the commands: table selectors, intervals of addresses, the
layout of an unfiltered row, and the bit-field helpers (30_encoding.md R123; 20_memory.md R85). -/

namespace Sys2Proof.Machine

open Sys2Proof

/-- `ID` (10_state.md R36). -/
def idValue : Word := 0x48550001

/-- `ZMAXSYM[t]`: 288 LITLEN, 32 DIST, 19 CLEN (00_scope.md R9, 42_huffman.md R202). -/
def zMaxSym (t : Fin 3) : Nat :=
  match t with
  | 0 => 288
  | 1 => 32
  | 2 => 19

/-- `ZMAXLEN` (00_scope.md R9). -/
def zMaxLen : Nat := 15

/-- `JMAXLEN` (00_scope.md R9). -/
def jMaxLen : Nat := 16

/-- `JMAXSYM` (00_scope.md R9). -/
def jMaxSym : Nat := 256

/-- TID as a table selector; TID 3 is illegal and never gets here (30_encoding.md R116, R128). -/
def tableSel (tid : BitVec 2) : Fin 3 := Fin.ofNat 3 tid.toNat

/-- A 2-bit index field as the index of one of four (30_encoding.md R117, R120 to R122). -/
def sel4 (idx : BitVec 2) : Fin 4 := idx.toFin

/-- The TVALID bit of DEFLATE table t (10_state.md R35). -/
def zvBit (t : Fin 3) : Nat := t.val

/-- The TVALID bit of JPEG table (c, i) (10_state.md R35). -/
def jvBit (c : JClass) (i : Fin 4) : Nat :=
  match c with
  | .dc => 4 + i.val
  | .ac => 8 + i.val

/-- The TVALID bit of quantisation table q (10_state.md R35). -/
def qvBit (q : Fin 4) : Nat := 12 + q.val

/-- The end of the address space, `2^32` (20_memory.md R80). -/
def addrEnd : Nat := 2 ^ 32

/-- An interval of byte addresses `[lo, lo + len)`, in unbounded integers (20_memory.md R85). -/
structure Region where
  lo : Nat
  len : Nat
  deriving DecidableEq, Repr

/-- The address lies in the region. -/
def inRegion (a : Nat) (r : Region) : Bool := decide (r.lo ≤ a) && decide (a < r.lo + r.len)

/-- The region's end does not pass 2^32 (20_memory.md R85). -/
def regionFits (r : Region) : Bool := decide (r.lo + r.len ≤ addrEnd)

/-- Two intervals share an address (20_memory.md R94). An empty one shares none. -/
def regionsMeet (r q : Region) : Bool :=
  decide (0 < r.len) && decide (0 < q.len) &&
    decide (r.lo < q.lo + q.len) && decide (q.lo < r.lo + r.len)

/-- `[IN_BASE, IN_BASE + IN_LEN)` (10_state.md R43). -/
def inputRegion (s : State) : Region := ⟨s.rd.inBase.toNat, s.rd.inLen.toNat⟩

/-- `[OUT_BASE, OUT_BASE + OUT_CAP)` (10_state.md R47). -/
def outputRegion (s : State) : Region := ⟨s.out.outBase.toNat, s.out.outCap.toNat⟩

/-- `bitreverse_l(w)`: bit 0 of `w` becomes bit `l - 1` (42_huffman.md R210). -/
def bitReverse : Nat → Nat → Nat
  | 0, _ => 0
  | l + 1, w => (w % 2) * 2 ^ l + bitReverse l (w / 2)

/-- `s16` then sign-extension to a register: a coefficient as an s32 (00_scope.md R12). -/
def halfToWord (h : Half) : Word := h.signExtend 32

/-- `Extend(v, n)` (45_jpeg_idct.md R331), for n in 1..16. -/
def extend (v n : Nat) : Int :=
  if 2 ^ (n - 1) ≤ v then (v : Int) else (v : Int) - 2 ^ n + 1

/-- The synthesised alpha sample's size `SB` (44_png_filter.md R308), 0 when there is none. -/
def alphaBytes (alpha a16 : Bool) : Nat :=
  if alpha then (if a16 then 2 else 1) else 0

/-- `pos(k)`: where filtered byte k stands in an output row (44_png_filter.md R308). -/
def rowPos (bpp sb k : Nat) : Nat := k / bpp * (bpp + sb) + k % bpp

/-- `OUTLEN`: the length of an output row of N filtered bytes (44_png_filter.md R308). -/
def rowLen (bpp sb n : Nat) : Nat := n + n / bpp * sb

/-- The zigzag order `ZZ` (45_jpeg_idct.md R333). -/
def zigzag : List Nat :=
  [ 0,  1,  8, 16,  9,  2,  3, 10, 17, 24, 32, 25, 18, 11,  4,  5] ++
  [12, 19, 26, 33, 40, 48, 41, 34, 27, 20, 13,  6,  7, 14, 21, 28] ++
  [35, 42, 49, 56, 57, 50, 43, 36, 29, 22, 15, 23, 30, 37, 44, 51] ++
  [58, 59, 52, 45, 38, 31, 39, 46, 53, 60, 61, 54, 47, 55, 62, 63]

/-- `ZZ[k]` (45_jpeg_idct.md R333). -/
def zz (k : Nat) : Nat := zigzag.getD k 0

end Sys2Proof.Machine
end

