-- ==== Sys2Proof/Machine/Flags.lean ====
section
/-! DEFINITION. The status flags as the host reads them: STATUS, IRQ, CTRL, ERR, BR_CNT and TVALID
words, and the interrupt output (10_state.md R35 to R49, R65; 60_exceptions.md R393). The HDU has no
condition codes (R65). -/

namespace Sys2Proof.Machine

open Sys2Proof

/-- A word whose bit `i` is `b` and whose other bits are 0. -/
def bitAt (b : Bool) (i : Nat) : Word := if b then Word.ofNat (2 ^ i) else 0

/-- A number placed at bit `i` of a word. -/
def fieldAt (v i : Nat) : Word := Word.ofNat (v * 2 ^ i)

/-- STATUS.MODE as a number (10_state.md R38). -/
def modeBit (m : Mode) : Bool :=
  match m with
  | .lsb => false
  | .msb => true

/-- The STATUS bits of the engine's control state: BUSY, FAULT, DROP (10_state.md R38). -/
def statusControl (s : State) : Word :=
  bitAt (s.ctl.estate == .busy) 0 ||| bitAt (s.ctl.estate == .fault) 1 ||| bitAt s.ctl.drop 2

/-- The STATUS bits a running command may change: MODE, EOF, OVR, NOMORE, ZFINAL, ZBTYPE
(10_state.md R38). -/
def statusReader (s : State) : Word :=
  bitAt (modeBit s.rd.mode) 3 ||| bitAt s.rd.eof 4 ||| bitAt s.rd.ovr 5 ||| bitAt s.rd.nomore 6 |||
    bitAt s.out.zfinal 7 ||| fieldAt s.out.zbtype.toNat 8

/-- STATUS (10_state.md R38). -/
def statusWord (s : State) : Word := statusControl s ||| statusReader s

/-- CTRL as it reads: the strobes read 0 (10_state.md R37). -/
def ctrlWord (s : State) : Word := bitAt s.ctl.ieDone 2 ||| bitAt s.ctl.ieErr 3

/-- IRQ (10_state.md R39). -/
def irqWord (s : State) : Word := bitAt s.ctl.irqDone 0 ||| bitAt s.ctl.irqErr 1

/-- ERR (10_state.md R41). -/
def errWord (s : State) : Word := fieldAt s.ctl.errCode.toNat 0 ||| fieldAt s.ctl.errOp.toNat 8

/-- BR_CNT: BITCNT in [5:0], PADBITS in [13:8] (10_state.md R45). -/
def brCntWord (s : State) : Word := fieldAt (s.rd.bitcnt % 64) 0 ||| fieldAt (s.rd.padbits % 64) 8

/-- ZVt (10_state.md R49). -/
def zValid (s : State) (t : Fin 3) : Bool := s.tab.zt[t].isSome

/-- The JPEG tables of a class (10_state.md R59). -/
def jTables (s : State) (c : JClass) : Vector (Option JTable) 4 :=
  match c with
  | .dc => s.tab.jdc
  | .ac => s.tab.jac

/-- JDCV[i] or JACV[i] (10_state.md R49). -/
def jValid (s : State) (c : JClass) (i : Fin 4) : Bool := (jTables s c)[i].isSome

/-- QTV[q] (10_state.md R49). -/
def qValid (s : State) (q : Fin 4) : Bool := s.tab.qt[q].isSome

/-- TVALID (10_state.md R35, R49). -/
def tvalidWord (s : State) : Word :=
  bitAt (zValid s 0) 0 ||| bitAt (zValid s 1) 1 ||| bitAt (zValid s 2) 2 |||
    (bitAt (jValid s .dc 0) 4 ||| bitAt (jValid s .dc 1) 5 |||
      bitAt (jValid s .dc 2) 6 ||| bitAt (jValid s .dc 3) 7) |||
    (bitAt (jValid s .ac 0) 8 ||| bitAt (jValid s .ac 1) 9 |||
      bitAt (jValid s .ac 2) 10 ||| bitAt (jValid s .ac 3) 11) |||
    (bitAt (qValid s 0) 12 ||| bitAt (qValid s 1) 13 |||
      bitAt (qValid s 2) 14 ||| bitAt (qValid s 3) 15)

/-- `IRQ_OUT` (60_exceptions.md R393). -/
def irqOut (s : State) : Bool := (s.ctl.irqDone && s.ctl.ieDone) || (s.ctl.irqErr && s.ctl.ieErr)

/-- `ERR.CODE` of each fault (60_exceptions.md R382). -/
def faultByte (c : FaultCode) : Byte :=
  match c with
  | .eIllegal => 0x01
  | .eMode => 0x02
  | .eNotable => 0x03
  | .eRange => 0x04
  | .eOverlap => 0x05
  | .eBus => 0x06
  | .eEof => 0x07
  | .eAlign => 0x08
  | .eBadlen => 0x09
  | .eBadcode => 0x0A
  | .eZhdr => 0x0B
  | .eBtype => 0x0C
  | .eNlen => 0x0D
  | .eDist => 0x0E
  | .eOutfull => 0x0F
  | .eFilter => 0x10
  | .eRun => 0x11

end Sys2Proof.Machine
end

