-- ==== Sys2Proof/Machine/Ops.lean ====
section
/-! DEFINITION. The named operations that every meaning is written over: bytes of MEM, the engine's
sequencing, raising and taking a fault, leaving FAULT, completing a command, resetting, and the
decode-time checks of 30_encoding.md R130. -/

namespace Sys2Proof.Machine

open Sys2Proof

/-! ### MEM -/

/-- What a byte of MEM that nothing has written reads as (log 1). -/
def memDefault : Byte := 0

/-- The byte of MEM at an address: 0 where nothing is listed (20_memory.md R80; log 1). -/
def memGet : Memory → Nat → Byte
  | [], _ => memDefault
  | (k, v) :: m, a => if k < a then memGet m a else if k = a then v else memDefault

/-- MEM with byte `a` set, in canonical form. -/
def memSet : Memory → Nat → Byte → Memory
  | [], a, v => if v = memDefault then [] else [(a, v)]
  | (k, w) :: m, a, v =>
    if k < a then (k, w) :: memSet m a v
    else if k = a then (if v = memDefault then m else (a, v) :: m)
    else if v = memDefault then (k, w) :: m else (a, v) :: (k, w) :: m

/-- Every listed address is above `lo`, the addresses rise strictly, lie in the 32-bit space, and
no listed byte is what an unlisted one reads as. -/
def memWfFrom : Option Nat → Memory → Bool
  | _, [] => true
  | lo, (k, v) :: m =>
    (match lo with
      | none => true
      | some l => decide (l < k)) &&
    decide (k < addrEnd) && decide (v ≠ memDefault) && memWfFrom (some k) m

/-- The canonical form of MEM holds. -/
def Memory.wf (m : Memory) : Bool := memWfFrom none m

/-- The address responds on the engine's bus: it is a 32-bit address in MEMMAP (20_memory.md R80,
R88; log 2). -/
def inMap (holes : List (Nat × Nat)) (a : Nat) : Bool :=
  decide (a < addrEnd) && holes.all (fun h => !(decide (h.1 ≤ a) && decide (a < h.2)))

/-! ### The engine's sequencing -/

/-- A command under way: the state it has reached, and how many further assignments of its pseudocode
are still to happen; `none` is all of them. The number is no state of the machine: it tells how far a
command has come where the host reads a register in BUSY or a reset aborts it (10_state.md R52,
70_reset_and_hazards.md R421; log 7, log 8). -/
structure Run where
  st : State
  left : Option Nat
  deriving DecidableEq, Repr

/-- A command at its start, that runs whole. -/
abbrev Run.whole (s : State) : Run := { st := s, left := none }

/-- One assignment happens, unless the command gets no further. -/
def Run.after (f : State → State) (r : Run) : Run :=
  match r.left with
  | none => { st := f r.st, left := none }
  | some 0 => r
  | some (n + 1) => { st := f r.st, left := some n }

/-- Assignments happen one after the other, as far as the command gets. -/
def Run.afterAll (fs : List (State → State)) (r : Run) : Run := fs.foldl (fun r f => r.after f) r

/-- The state after assignments that all happen. -/
def applied (fs : List (State → State)) (s : State) : State := fs.foldl (fun s f => f s) s

/-- A piece of a command's pseudocode: it reads and changes the state, and it ends with a value or
stops early; the changes made before the stop stay (00_scope.md R15). -/
abbrev Engine := EStateM Stop Run

/-- The state as the pseudocode finds it. -/
def look : Engine State := do
  let r ← get
  return r.st

/-- An assignment of the pseudocode. -/
def assign (f : State → State) : Engine Unit := modify (Run.after f)

/-- Assignments of the pseudocode in order. -/
def assignAll (fs : List (State → State)) : Engine Unit := modify (Run.afterAll fs)

/-- `raise E_X(info)` (00_scope.md R15). -/
def raise {α : Type} (code : FaultCode) (info : Word) : Engine α := throw (.raised code info)

/-- The loop outran the bound of 70_reset_and_hazards.md R433 (log 15). -/
def outran {α : Type} : Engine α := throw .bound

/-- The bus's answer to an access: `E_BUS` with the address outside MEMMAP (60_exceptions.md R392). -/
def needBus (a : Nat) : Engine Unit := do
  let s ← look
  if inMap s.bus.holes a then return () else raise .eBus (Word.ofNat a)

/-- `MemRead(a, 1)` (00_scope.md R14; 60_exceptions.md R392). -/
def memRead (a : Nat) : Engine Byte := do
  needBus a
  let s ← look
  return memGet s.bus.mem a

/-- The state after a byte write that the bus accepts (20_memory.md R80). -/
def landWrite (a : Nat) (v : Byte) (s : State) : State :=
  { s with bus.mem := memSet s.bus.mem a v }

/-- `MemWrite(a, 1, v)` (00_scope.md R14; 60_exceptions.md R392). -/
def memWrite (a : Nat) (v : Byte) : Engine Unit := do
  needBus a
  assign (landWrite a v)

/-- The bytes of a list, written from address `a` on. -/
def writeBytes : List Byte → Nat → Engine Unit
  | [], _ => return ()
  | b :: bs, a => do
    memWrite a b
    writeBytes bs (a + 1)

/-- `n` bytes of MEM from address `a`, read in rising order. -/
def readBytes : Nat → Nat → Engine (List Byte)
  | 0, _ => return []
  | n + 1, a => do
    let b ← memRead a
    let rest ← readBytes n (a + 1)
    return b :: rest

/-! ### Completion, fault entry, return from FAULT, reset -/

/-- The command completes without fault: RES, `IRQ.DONE`, `CMDCNT` and IDLE (10_state.md R33, R50,
R63). -/
def complete (res : Word) (s : State) : State :=
  { s with ctl.res := res, ctl.irqDone := true, ctl.cmdcnt := s.ctl.cmdcnt + 1, ctl.estate := .idle }

/-- TAKING A FAULT: fault entry (60_exceptions.md R384). -/
def faultEntry (code : FaultCode) (info : Word) (s : State) : State :=
  { s with
    ctl.errCode := faultByte code
    ctl.errOp := s.ctl.cmd.extractLsb' 0 8
    ctl.faddr := info
    ctl.estate := .fault
    ctl.irqErr := true }

/-- LEAVING FAULT: `CTRL.CLRERR` written while ESTATE = FAULT (60_exceptions.md R388). -/
def clearError (s : State) : State :=
  { s with ctl.errCode := 0, ctl.errOp := 0, ctl.faddr := 0, ctl.drop := false, ctl.estate := .idle }

/-- The whole of one command: its pseudocode, then completion or fault entry (10_state.md R63). -/
def runCommand (act : Engine Word) (s : State) : Host.Outcome State Fault Refusal :=
  match act (Run.whole s) with
  | .ok res r => .next (complete res r.st)
  | .error (.raised code info) r => .next (faultEntry code info r.st)
  | .error .bound _ => .fault .boundExceeded

/-- Every register at its reset value; MEM and the platform stay (70_reset_and_hazards.md R422), and
so do the model's own fields that lie outside the HDU. -/
def resetState (s : State) : State :=
  { State.reset with
    bus := s.bus
    env := s.env }

/-! ### The decode-time checks (30_encoding.md R130) -/

/-- Steps 3 and 4: an illegal field or ARG value raises `E_ILLEGAL` with the command word
(30_encoding.md R128; 60_exceptions.md R383). -/
def needLegal (legal : Bool) : Engine Unit := do
  let s ← look
  if legal then return () else raise .eIllegal s.ctl.cmd

/-- The MODE bit as fault information (60_exceptions.md R383). -/
def modeInfo (m : Mode) : Word := bitAt (modeBit m) 0

/-- Step 5: the reader mode the command needs (30_encoding.md R125). -/
def needMode (m : Mode) : Engine Unit := do
  let s ← look
  if s.rd.mode = m then return () else raise .eMode (modeInfo s.rd.mode)

/-- Step 6: a table that the command uses, by its TVALID bit number (60_exceptions.md R383). -/
def needTable (valid : Bool) (bit : Nat) : Engine Unit :=
  if valid then return () else raise .eNotable (Word.ofNat bit)

/-- Step 7: a region that must not pass 2^32; the information is its base (20_memory.md R85;
60_exceptions.md R383). -/
def needRange (r : Region) : Engine Unit :=
  if regionFits r then return () else raise .eRange (Word.ofNat r.lo)

/-- Step 7 for the input region (30_encoding.md R125). -/
def needInput : Engine Unit := do
  let s ← look
  needRange (inputRegion s)

/-- Step 8: two regions that must not meet; the information is the output's base
(20_memory.md R94; 60_exceptions.md R383). -/
def needApart (output other : Region) : Engine Unit :=
  if regionsMeet output other then raise .eOverlap (Word.ofNat output.lo) else return ()

end Sys2Proof.Machine
end

