-- ==== Sys2Proof/Machine/Reader.lean ====
section
/-! DEFINITION. The bitstream reader's primitives (41_bitreader.md R156 to R163), and the JPEG
receive primitive over them (45_jpeg_idct.md R331). -/

namespace Sys2Proof.Machine

open Sys2Proof

/-- `CUR <- CUR + 1` (41_bitreader.md R156). -/
def advanceCur (s : State) : State := { s with rd.cur := s.rd.cur + 1 }

/-- `EOF <- 1` (41_bitreader.md R156). -/
def markEof (s : State) : State := { s with rd.eof := true }

/-- `OVR <- 1` (41_bitreader.md R162). -/
def markOvr (s : State) : State := { s with rd.ovr := true }

/-- `MARKER <- c; NOMORE <- 1` (41_bitreader.md R158), in that order. -/
def markerSteps (c : Byte) : List (State → State) :=
  [fun s => { s with rd.marker := c }, fun s => { s with rd.nomore := true }]

/-- The state after a marker has been cached. -/
def cacheMarker (c : Byte) (s : State) : State := applied (markerSteps c) s

/-- `FetchByte()` (41_bitreader.md R156). -/
def fetchByte : Engine (Byte × ByteKind) := do
  let s ← look
  if s.rd.cur.toNat < s.rd.inLen.toNat then
    let b ← memRead (s.rd.inBase.toNat + s.rd.cur.toNat)
    assign advanceCur
    return (b, .real)
  else
    assign markEof
    return (0, .pad)

/-- A byte enters ACC: ACC, BITCNT and PADBITS in that order (41_bitreader.md R151, R152, R155, R157,
R158). -/
def enterSteps (b : Byte) (k : ByteKind) : List (State → State) :=
  [ fun s => { s with
      rd.acc := s.rd.acc |||
        (match s.rd.mode with
          | .lsb => b.zeroExtend 32 <<< s.rd.bitcnt
          | .msb => b.zeroExtend 32 <<< (24 - s.rd.bitcnt)) },
    fun s => { s with rd.bitcnt := s.rd.bitcnt + 8 },
    fun s => { s with
      rd.padbits := match k with
        | .real => s.rd.padbits
        | .pad => s.rd.padbits + 8 } ]

/-- The state after a byte has entered ACC. -/
def enterByte (b : Byte) (k : ByteKind) (s : State) : State := applied (enterSteps b k) s

/-- The byte after 0xFF, any further 0xFF skipped (41_bitreader.md R158). `n` further input bytes at
most can be 0xFF. -/
def skipFill : Nat → Engine (Byte × ByteKind)
  | 0 => fetchByte
  | n + 1 => do
    let (c, q) ← fetchByte
    match q with
    | .pad => return (c, q)
    | .real => if c = 0xFF then skipFill n else return (c, q)

/-- What follows a fetched 0xFF: the end of the input, a marker, or a stuffed data byte
(41_bitreader.md R153, R158). -/
def afterFF : Engine (Byte × ByteKind) := do
  let s ← look
  let (c, q) ← skipFill (s.rd.inLen.toNat - s.rd.cur.toNat)
  match q with
  | .pad => return (0, .pad)
  | .real =>
    if c = 0x00 then return (0xFF, .real)
    else
      assignAll (markerSteps c)
      return (0, .pad)

/-- The next byte for ACC in MODE 1 (41_bitreader.md R158). -/
def nextMsbByte : Engine (Byte × ByteKind) := do
  let s ← look
  if s.rd.nomore then return (0, .pad)
  else
    let (b, k) ← fetchByte
    match k with
    | .pad => return (b, k)
    | .real => if b = 0xFF then afterFF else return (b, k)

/-- The next byte for ACC (41_bitreader.md R157, R158). -/
def nextByte : Engine (Byte × ByteKind) := do
  let s ← look
  match s.rd.mode with
  | .lsb => fetchByte
  | .msb => nextMsbByte

/-- The loop of `Fill`: while BITCNT ≤ 24, at most `n` more bytes. -/
def fillLoop : Nat → Engine Unit
  | 0 => return ()
  | n + 1 => do
    let s ← look
    if s.rd.bitcnt ≤ 24 then
      let (b, k) ← nextByte
      assignAll (enterSteps b k)
      fillLoop n
    else return ()

/-- `Fill()` (41_bitreader.md R157, R158). Four bytes always reach BITCNT ≥ 25. -/
def fill : Engine Unit := fillLoop 4

/-- `Need(n)` (41_bitreader.md R159). -/
def need (n : Nat) : Engine Unit := do
  let s ← look
  if s.rd.bitcnt < n then fill else return ()

/-- `Peek(n)` (41_bitreader.md R161). -/
def peekBits (s : State) (n : Nat) : Nat :=
  match s.rd.mode with
  | .lsb => s.rd.acc.toNat % 2 ^ n
  | .msb => if n = 0 then 0 else s.rd.acc.toNat / 2 ^ (32 - n)

/-- One of the next n bits is a pad bit (41_bitreader.md R155, R160). -/
def takesPad (s : State) (n : Nat) : Bool := decide (s.rd.bitcnt - s.rd.padbits < n)

/-- The next n bits leave ACC, `ovr` telling whether one of them is a pad bit: OVR, PADBITS, ACC and
BITCNT in that order (41_bitreader.md R160). -/
def dropSteps (n : Nat) (ovr : Bool) : List (State → State) :=
  [ fun s => { s with rd.ovr := s.rd.ovr || ovr },
    fun s => { s with rd.padbits := if ovr then s.rd.bitcnt - n else s.rd.padbits },
    fun s => { s with
      rd.acc := match s.rd.mode with
        | .lsb => s.rd.acc >>> n
        | .msb => s.rd.acc <<< n },
    fun s => { s with rd.bitcnt := s.rd.bitcnt - n } ]

/-- The state after the next n bits have left ACC. -/
def dropBits (n : Nat) (s : State) : State := applied (dropSteps n (takesPad s n)) s

/-- `Consume(n)` (41_bitreader.md R160). -/
def consume (n : Nat) : Engine (Nat × Bool) := do
  let s ← look
  assignAll (dropSteps n (takesPad s n))
  return (peekBits s n, takesPad s n)

/-- `ReadAlignedByte()` (41_bitreader.md R162): the byte, and whether it was a pad byte. -/
def readAlignedByte : Engine (Nat × Bool) := do
  let s ← look
  if 8 ≤ s.rd.bitcnt then consume 8
  else
    let (b, k) ← fetchByte
    match k with
    | .real => return (b.toNat, false)
    | .pad =>
      assign markOvr
      return (b.toNat, true)

/-- `Avail()` (41_bitreader.md R163). -/
def availBytes (s : State) : Nat :=
  (s.rd.bitcnt - s.rd.padbits) / 8 + (s.rd.inLen.toNat - s.rd.cur.toNat)

/-- The reader becomes empty, with no marker: the part that J_RESET and the host's write of IN_CUR
share (45_jpeg_idct.md R339; 10_state.md R44). -/
def emptySteps : List (State → State) :=
  [ fun s => { s with rd.acc := 0 }, fun s => { s with rd.bitcnt := 0 },
    fun s => { s with rd.padbits := 0 }, fun s => { s with rd.nomore := false },
    fun s => { s with rd.marker := 0xFF } ]

/-- The state with an empty reader. -/
def emptyReader (s : State) : State := applied emptySteps s

/-- `Receive(n)` (45_jpeg_idct.md R331). -/
def receive (n : Nat) : Engine Int := do
  if n = 0 then return 0
  else
    need n
    let (v, _) ← consume n
    return extend v n

end Sys2Proof.Machine
end

