-- ==== Sys2Proof/Machine/BitReader.lean ====
section
/-! DEFINITION. The reader commands (41_bitreader.md R165 to R169). Their checks are those of
30_encoding.md R125, in the order of R130. -/

namespace Sys2Proof.Machine

open Sys2Proof

/-- BR_INIT's assignments but RES, in order (41_bitreader.md R165). -/
def initSteps (m : Mode) : List (State → State) :=
  [ fun s => { s with rd.mode := m }, fun s => { s with rd.cur := 0 },
    fun s => { s with rd.acc := 0 }, fun s => { s with rd.bitcnt := 0 },
    fun s => { s with rd.padbits := 0 }, fun s => { s with rd.eof := false },
    fun s => { s with rd.ovr := false }, fun s => { s with rd.nomore := false },
    fun s => { s with rd.marker := 0xFF }, fun s => { s with out.zfinal := false },
    fun s => { s with out.zbtype := 0 } ]

/-- The state BR_INIT leaves, but for RES (41_bitreader.md R165). -/
def initReader (m : Mode) (s : State) : State := applied (initSteps m) s

/-- BR_INIT's pseudocode (41_bitreader.md R165). -/
def brInit (m : Mode) : Engine Word := do
  needInput
  assignAll (initSteps m)
  return 0

/-- BR_INIT (41_bitreader.md R165). -/
def execBrInit (m : Mode) (s : State) : Host.Outcome State Fault Refusal := runCommand (brInit m) s

/-- BR_GETBITS's pseudocode (41_bitreader.md R166). -/
def brGetbits (n : BitVec 5) : Engine Word := do
  needLegal (readBitsLegal n)
  needInput
  need n.toNat
  let (v, _) ← consume n.toNat
  return Word.ofNat v

/-- BR_GETBITS (41_bitreader.md R166). -/
def execBrGetbits (n : BitVec 5) (s : State) : Host.Outcome State Fault Refusal :=
  runCommand (brGetbits n) s

/-- BR_PEEKBITS's pseudocode (41_bitreader.md R167). -/
def brPeekbits (n : BitVec 5) : Engine Word := do
  needLegal (readBitsLegal n)
  needInput
  need n.toNat
  let s ← look
  return Word.ofNat (peekBits s n.toNat)

/-- BR_PEEKBITS (41_bitreader.md R167). -/
def execBrPeekbits (n : BitVec 5) (s : State) : Host.Outcome State Fault Refusal :=
  runCommand (brPeekbits n) s

/-- BR_ALIGN's pseudocode (41_bitreader.md R168; its range check is R125's, log 14). -/
def brAlign : Engine Word := do
  needInput
  let s ← look
  let _ ← consume (s.rd.bitcnt % 8)
  return Word.ofNat (s.rd.bitcnt % 8)

/-- BR_ALIGN (41_bitreader.md R168). -/
def execBrAlign (s : State) : Host.Outcome State Fault Refusal := runCommand brAlign s

/-- `n` whole bytes, the first the most significant, after the bytes read so far, `v`
(41_bitreader.md R169). -/
def readBytesBE : Nat → Nat → Engine Nat
  | 0, v => return v
  | n + 1, v => do
    let (b, _) ← readAlignedByte
    readBytesBE n (v * 256 + b)

/-- BR_READBYTES's pseudocode (41_bitreader.md R169). -/
def brReadbytes (sz : BitVec 3) (chk : Bool) : Engine Word := do
  needLegal (byteCountLegal sz)
  needInput
  let s ← look
  if s.rd.bitcnt % 8 ≠ 0 then raise .eAlign (Word.ofNat s.rd.bitcnt)
  if chk && decide (availBytes s < sz.toNat) then raise .eEof s.rd.cur
  let v ← readBytesBE sz.toNat 0
  return Word.ofNat v

/-- BR_READBYTES (41_bitreader.md R169). -/
def execBrReadbytes (sz : BitVec 3) (chk : Bool) (s : State) :
    Host.Outcome State Fault Refusal :=
  runCommand (brReadbytes sz chk) s

end Sys2Proof.Machine
end

