-- ==== Sys2Proof/Machine/Control.lean ====
section
/-! DEFINITION. The control command (40_control.md). -/

namespace Sys2Proof.Machine

open Sys2Proof

/-- NOP (40_control.md R140). -/
def execNop (s : State) : Host.Outcome State Fault Refusal := runCommand (return 0) s

end Sys2Proof.Machine
end

