-- ==== Sys2Proof/Machine/Huffman.lean ====
section
/-! DEFINITION. The Huffman table builders and decoders and their four commands (42_huffman.md R200
to R222). The decoders are the direct ones of R210 and R211; the lookup structures of R212 to R216
are views (FastTables.lean). -/

namespace Sys2Proof.Machine

open Sys2Proof

/-! ### Building a DEFLATE table -/

/-- The first symbol, counting from `s`, whose length is above 15 (42_huffman.md R203). -/
def firstTooLong : List Nat → Nat → Option Nat
  | [], _ => none
  | l :: ls, s => if zMaxLen < l then some s else firstTooLong ls (s + 1)

/-- The two checks of one length: the count alone, then the cumulative one. `code` is the first code
of length `l` and `n` the number of codes (42_huffman.md R203, R207; 90_conflicts.md C2). -/
def lengthFits (l n code : Nat) : Bool :=
  decide (n ≤ 2 ^ l) && (decide (n = 0) || decide (code + n - 1 < 2 ^ l))

/-- `first[l]` for each length of the list, or the length that does not fit (42_huffman.md R203). -/
def firstCodes (lens : List Nat) : List Nat → Nat → Except Word (List Nat)
  | [], _ => .ok []
  | l :: ls, code =>
    if lengthFits l (lens.count l) code then
      match firstCodes lens ls ((code + lens.count l) * 2) with
      | .ok rest => .ok (code :: rest)
      | .error e => .error e
    else .error (Word.ofNat l)

/-- Canonical assignment: each symbol takes the next code of its length; `next` is indexed by length
(42_huffman.md R205). -/
def assignCodes : List Nat → List Nat → List ZCode
  | [], _ => []
  | l :: ls, next =>
    if l = 0 then { len := 0, code := 0 } :: assignCodes ls next
    else
      { len := l, code := next.getD l 0 } :: assignCodes ls (next.set l (next.getD l 0 + 1))

/-- The DEFLATE lengths 1..15 (42_huffman.md R203). -/
def zLengths : List Nat := [1, 2, 3, 4, 5, 6, 7, 8, 9, 10, 11, 12, 13, 14, 15]

/-- `ZBuild` as a function of the lengths: the table, or `E_BADLEN`'s information
(42_huffman.md R203, R222). -/
def zBuild (lens : List Nat) : Except Word ZTable :=
  match firstTooLong lens 0 with
  | some s => .error (Word.ofNat (0x80000000 + s))
  | none =>
    match firstCodes lens zLengths 0 with
    | .error e => .error e
    | .ok firsts => .ok { syms := assignCodes lens (0 :: firsts) }

/-- The lengths of `m` symbols: the given ones, then zeros (42_huffman.md R218). -/
def padLengths (m : Nat) (lens : List Nat) : List Nat := lens ++ List.replicate (m - lens.length) 0

/-- DEFLATE table t becomes `tbl`; `none` clears its TVALID bit (10_state.md R49, R58). -/
def setZTable (t : Fin 3) (tbl : Option ZTable) (s : State) : State :=
  { s with tab.zt := s.tab.zt.set t tbl }

/-- A table's TVALID bit is cleared: its contents are no longer anything (42_huffman.md R217). -/
def dropZTable (t : Fin 3) : Engine Unit := assign (setZTable t none)

/-- `TVALID.ZVt <- 0; ZBuild(t, L); TVALID.ZVt <- 1`, the bit cleared before (42_huffman.md R217). -/
def installZTable (t : Fin 3) (lens : List Nat) : Engine Unit :=
  match zBuild lens with
  | .error e => raise .eBadlen e
  | .ok tbl => assign (setZTable t (some tbl))

/-! ### Building a JPEG table -/

/-- The `n` codes of length `l` from `code` on, with the first `n` values (42_huffman.md R207). -/
def jCodes (l : Nat) : Nat → Nat → List Byte → List JCode
  | 0, _, _ => []
  | n + 1, code, vals =>
    { size := l, code := code, val := vals.headD 0 } :: jCodes l n (code + 1) vals.tail

/-- The entries of the lengths from `l` on: `bits` are the counts left and `vals` the values left
(42_huffman.md R207). -/
def jEntries : List Nat → Nat → Nat → List Byte → Except Word (List JCode)
  | [], _, _, _ => .ok []
  | n :: bits, l, code, vals =>
    if lengthFits l n code then
      match jEntries bits (l + 1) ((code + n) * 2) (vals.drop n) with
      | .ok rest => .ok (jCodes l n code vals ++ rest)
      | .error e => .error e
    else .error (Word.ofNat l)

/-- `JBuild` as a function of the counts `BITS[1..16]` and the values: the table, or `E_BADLEN`'s
information (42_huffman.md R207, R222). -/
def jBuild (bits : List Nat) (vals : List Byte) : Except Word JTable :=
  match jEntries bits 1 0 vals with
  | .error e => .error e
  | .ok entries => .ok { entries := entries }

/-- JPEG table (c, i) becomes `tbl` (10_state.md R49, R59). -/
def setJTable (c : JClass) (i : Fin 4) (tbl : Option JTable) (s : State) : State :=
  match c with
  | .dc => { s with tab.jdc := s.tab.jdc.set i tbl }
  | .ac => { s with tab.jac := s.tab.jac.set i tbl }

/-- `JBuild(c, i, ...)` and its TVALID bit, cleared before (42_huffman.md R217, R219). -/
def installJTable (c : JClass) (i : Fin 4) (bits : List Nat) (vals : List Byte) : Engine Unit :=
  match jBuild bits vals with
  | .error e => raise .eBadlen e
  | .ok tbl => assign (setJTable c i (some tbl))

/-! ### Decoding -/

/-- The symbol whose code is the `l`-bit number `w` (42_huffman.md R210). -/
def findSymbol (tbl : ZTable) (l w : Nat) : Option Nat :=
  tbl.syms.findIdx? (fun e => e.len == l && e.code == w)

/-- The first length of the list at which the next bits are a code, with its symbol
(42_huffman.md R208, R210). -/
def zSearch (tbl : ZTable) (s : State) : List Nat → Option (Nat × Nat)
  | [] => none
  | l :: ls =>
    match findSymbol tbl l (bitReverse l (peekBits s l)) with
    | some sym => some (l, sym)
    | none => zSearch tbl s ls

/-- "No code matches" (42_huffman.md R210; 60_exceptions.md R383). -/
def noCode : Word := 0xFFFFFFFF

/-- `ZDecode(t)` (42_huffman.md R210): the symbol, and whether its code used pad bits. An invalid
table raises `E_NOTABLE` (70_reset_and_hazards.md R429). -/
def zDecode (t : Fin 3) : Engine (Nat × Bool) := do
  need 16
  let s ← look
  match s.tab.zt[t] with
  | none => raise .eNotable (Word.ofNat (zvBit t))
  | some tbl =>
    match zSearch tbl s zLengths with
    | none => raise .eBadcode noCode
    | some (l, sym) =>
      let (_, ovr) ← consume l
      return (sym, ovr)

/-- The value whose code is the `l`-bit number `w` (42_huffman.md R211). -/
def findValue (tbl : JTable) (l w : Nat) : Option Byte :=
  (tbl.entries.find? (fun e => e.size == l && e.code == w)).map (fun e => e.val)

/-- The JPEG lengths 1..16 (42_huffman.md R207). -/
def jLengths : List Nat := [1, 2, 3, 4, 5, 6, 7, 8, 9, 10, 11, 12, 13, 14, 15, 16]

/-- The first length of the list at which the next bits are a code, with its value
(42_huffman.md R209, R211). -/
def jSearch (tbl : JTable) (s : State) : List Nat → Option (Nat × Byte)
  | [] => none
  | l :: ls =>
    match findValue tbl l (peekBits s l) with
    | some v => some (l, v)
    | none => jSearch tbl s ls

/-- `JDecode(c, i)` (42_huffman.md R211). An invalid table raises `E_NOTABLE`
(70_reset_and_hazards.md R429). -/
def jDecode (c : JClass) (i : Fin 4) : Engine Byte := do
  need 16
  let s ← look
  match (jTables s c)[i] with
  | none => raise .eNotable (Word.ofNat (jvBit c i))
  | some tbl =>
    match jSearch tbl s jLengths with
    | none => raise .eBadcode noCode
    | some (l, v) =>
      let _ ← consume l
      return v

/-! ### The commands -/

/-- HB_ZLIB's ARG1 is in 1..ZMAXSYM[TID] (30_encoding.md R128). -/
def symCountLegal (t : Fin 3) (n : Nat) : Bool := decide (1 ≤ n) && decide (n ≤ zMaxSym t)

/-- HB_ZLIB's pseudocode (42_huffman.md R218). -/
def hbZlib (tid : BitVec 2) : Engine Word := do
  let s ← look
  needLegal (tableIdLegal tid)
  needLegal (symCountLegal (tableSel tid) s.args.arg1.toNat)
  needRange ⟨s.args.arg0.toNat, s.args.arg1.toNat⟩
  dropZTable (tableSel tid)
  let bytes ← readBytes s.args.arg1.toNat s.args.arg0.toNat
  installZTable (tableSel tid)
    (padLengths (zMaxSym (tableSel tid)) (bytes.map (fun b => b.toNat)))
  return 0

/-- HB_ZLIB (42_huffman.md R218). -/
def execHbZlib (tid : BitVec 2) (s : State) : Host.Outcome State Fault Refusal :=
  runCommand (hbZlib tid) s

/-- HB_JPEG's pseudocode (42_huffman.md R219; 90_conflicts.md C10). -/
def hbJpeg (cls : JClass) (idx : BitVec 2) : Engine Word := do
  let s ← look
  needRange ⟨s.args.arg0.toNat, 16⟩
  assign (setJTable cls (sel4 idx) none)
  let counts ← readBytes 16 s.args.arg0.toNat
  let bits := counts.map (fun b => b.toNat)
  let total := bits.sum
  if jMaxSym < total then raise .eBadlen (Word.ofNat (0x40000000 + total))
  needRange ⟨s.args.arg0.toNat, 16 + total⟩
  let vals ← readBytes total (s.args.arg0.toNat + 16)
  installJTable cls (sel4 idx) bits vals
  return Word.ofNat (16 + total)

/-- HB_JPEG (42_huffman.md R219). -/
def execHbJpeg (cls : JClass) (idx : BitVec 2) (s : State) : Host.Outcome State Fault Refusal :=
  runCommand (hbJpeg cls idx) s

/-- HD_ZLIB's pseudocode (42_huffman.md R220). -/
def hdZlib (tid : BitVec 2) : Engine Word := do
  let s ← look
  needLegal (tableIdLegal tid)
  needMode .lsb
  needTable (zValid s (tableSel tid)) (zvBit (tableSel tid))
  needInput
  let (sym, _) ← zDecode (tableSel tid)
  return Word.ofNat sym

/-- HD_ZLIB (42_huffman.md R220). -/
def execHdZlib (tid : BitVec 2) (s : State) : Host.Outcome State Fault Refusal :=
  runCommand (hdZlib tid) s

/-- HD_JPEG's pseudocode (42_huffman.md R221). -/
def hdJpeg (cls : JClass) (idx : BitVec 2) : Engine Word := do
  let s ← look
  needMode .msb
  needTable (jValid s cls (sel4 idx)) (jvBit cls (sel4 idx))
  needInput
  let v ← jDecode cls (sel4 idx)
  return v.zeroExtend 32

/-- HD_JPEG (42_huffman.md R221). -/
def execHdJpeg (cls : JClass) (idx : BitVec 2) (s : State) : Host.Outcome State Fault Refusal :=
  runCommand (hdJpeg cls idx) s

end Sys2Proof.Machine
end

