-- ==== Sys2Proof/Machine/Jpeg.lean ====
section
/-! DEFINITION. The JPEG entropy commands, the quantisation tables and the coefficient transfers
(45_jpeg_idct.md R330 to R342). -/

namespace Sys2Proof.Machine

open Sys2Proof

/-! ### Quantisation tables -/

/-- Entry i of the input: a byte, or a big-endian 16-bit value (45_jpeg_idct.md R334). -/
def quantEntry (p16 : Bool) (base i : Nat) : Engine Half := do
  if p16 then
    let hi ← memRead (base + 2 * i)
    let lo ← memRead (base + 2 * i + 1)
    return BitVec.ofNat 16 (hi.toNat * 256 + lo.toNat)
  else
    let q ← memRead (base + i)
    return q.zeroExtend 16

/-- The table after the entries from `64 - left` on, placed in natural order
(45_jpeg_idct.md R333, R334). -/
def quantEntries (p16 : Bool) (base : Nat) : Nat → Vector Half 64 → Engine (Vector Half 64)
  | 0, tbl => return tbl
  | left + 1, tbl => do
    let i := 64 - (left + 1)
    let q ← quantEntry p16 base i
    quantEntries p16 base left (tbl.setIfInBounds (zz i) q)

/-- The bytes of a table in memory (45_jpeg_idct.md R334). -/
def quantBytes (p16 : Bool) : Nat := if p16 then 128 else 64

/-- Quantisation table q becomes `tbl`; `none` clears its TVALID bit (10_state.md R49, R60). -/
def setQTable (q : Fin 4) (tbl : Option (Vector Half 64)) (s : State) : State :=
  { s with tab.qt := s.tab.qt.set q tbl }

/-- QT_LOAD's pseudocode (45_jpeg_idct.md R334). -/
def qtLoad (idx : BitVec 2) (p16 : Bool) : Engine Word := do
  let s ← look
  needRange ⟨s.args.arg0.toNat, quantBytes p16⟩
  assign (setQTable (sel4 idx) none)
  let tbl ← quantEntries p16 s.args.arg0.toNat 64 (Vector.replicate 64 0)
  assign (setQTable (sel4 idx) (some tbl))
  return Word.ofNat (quantBytes p16)

/-- QT_LOAD (45_jpeg_idct.md R334). -/
def execQtLoad (idx : BitVec 2) (p16 : Bool) (s : State) : Host.Outcome State Fault Refusal :=
  runCommand (qtLoad idx p16) s

/-! ### Receive and blocks -/

/-- J_RECEIVE's pseudocode (45_jpeg_idct.md R332). -/
def jReceive (n : BitVec 5) : Engine Word := do
  needLegal (receiveBitsLegal n)
  needMode .msb
  needInput
  let v ← receive n.toNat
  return Word.ofInt v

/-- J_RECEIVE (45_jpeg_idct.md R332). -/
def execJReceive (n : BitVec 5) (s : State) : Host.Outcome State Fault Refusal :=
  runCommand (jReceive n) s

/-- `COEF[0..63] <- 0` (45_jpeg_idct.md R335). -/
def clearCoefs (s : State) : State := { s with coef := Vector.replicate 64 0 }

/-- `COEF[i] <- s16(v)` (45_jpeg_idct.md R335). -/
def setCoef (i : Nat) (v : Int) (s : State) : State :=
  { s with coef := s.coef.setIfInBounds i (BitVec.ofInt 16 v) }

/-- The AC loop from zigzag position k on (45_jpeg_idct.md R335, R337). Each round moves k by at
least one, so 64 rounds always reach the loop's end. -/
def acLoop (ac : Fin 4) : Nat → Nat → Engine Nat
  | 0, k => return k
  | rounds + 1, k => do
    if k < 64 then
      let rs ← jDecode .ac ac
      let r := rs.toNat / 16
      let size := rs.toNat % 16
      if size = 0 then
        if rs = 0xF0 then acLoop ac rounds (k + 16) else return k
      else if 63 < k + r then raise .eRun (Word.ofNat (k + r))
      else
        let v ← receive size
        assign (setCoef (zz (k + r)) v)
        acLoop ac rounds (k + r + 1)
    else return k

/-- The DC coefficient and its predictor (45_jpeg_idct.md R335, R336). -/
def addDc (comp : Fin 4) (diff : Int) (s : State) : State :=
  let pred := s.dcpred[comp] + Word.ofInt diff
  { s with
    dcpred := s.dcpred.set comp pred
    coef := s.coef.set 0 (pred.setWidth 16) }

/-- J_DECODE_BLOCK's pseudocode (45_jpeg_idct.md R335). -/
def jDecodeBlock (dct act comp : BitVec 2) : Engine Word := do
  let s ← look
  needMode .msb
  needTable (jValid s .dc (sel4 dct)) (jvBit .dc (sel4 dct))
  needTable (jValid s .ac (sel4 act)) (jvBit .ac (sel4 act))
  needInput
  let t ← jDecode .dc (sel4 dct)
  if 15 < t.toNat then raise .eBadcode (t.zeroExtend 32)
  assign clearCoefs
  let diff ← receive t.toNat
  assign (addDc (sel4 comp) diff)
  let k ← acLoop (sel4 act) 64 1
  return Word.ofNat (min k 64)

/-- J_DECODE_BLOCK (45_jpeg_idct.md R335). -/
def execJDecodeBlock (dct act comp : BitVec 2) (s : State) : Host.Outcome State Fault Refusal :=
  runCommand (jDecodeBlock dct act comp) s

/-! ### Restart -/

/-- J_RESET's assignments but RES, in order (45_jpeg_idct.md R339). -/
def entropySteps : List (State → State) :=
  emptySteps ++ [fun s => { s with dcpred := Vector.replicate 4 0 }]

/-- The effects of J_RESET, but for RES (45_jpeg_idct.md R339). -/
def resetEntropy (s : State) : State := applied entropySteps s

/-- J_RESET's pseudocode (45_jpeg_idct.md R339). -/
def jReset : Engine Word := do
  needMode .msb
  assignAll entropySteps
  return 0

/-- J_RESET (45_jpeg_idct.md R339). -/
def execJReset (s : State) : Host.Outcome State Fault Refusal := runCommand jReset s

/-- MARKER is a restart marker (45_jpeg_idct.md R340). -/
def isRestart (m : Byte) : Bool := decide (0xD0 ≤ m.toNat) && decide (m.toNat ≤ 0xD7)

/-- J_RESTART's pseudocode (45_jpeg_idct.md R340). -/
def jRestart : Engine Word := do
  needMode .msb
  needInput
  let s ← look
  if s.rd.bitcnt < 24 then fill
  let t ← look
  if isRestart t.rd.marker then
    assignAll entropySteps
    return 1
  else return 0

/-- J_RESTART (45_jpeg_idct.md R340). -/
def execJRestart (s : State) : Host.Outcome State Fault Refusal := runCommand jRestart s

/-! ### Coefficient transfer -/

/-- The little-endian 16-bit value at an address (20_memory.md R82). -/
def memHalf (m : Memory) (a : Nat) : Half := memGet m (a + 1) ++ memGet m a

/-- `COEF[i]` from memory (45_jpeg_idct.md R341). -/
def loadCoef (base i : Nat) (s : State) : State :=
  { s with coef := s.coef.setIfInBounds i (memHalf s.bus.mem (base + 2 * i)) }

/-- `left` entries of COEF from entry `i` on, each after the bus has answered its two reads, the low
byte's first (45_jpeg_idct.md R341). -/
def loadCoefs (base : Nat) : Nat → Nat → Engine Unit
  | 0, _ => return ()
  | left + 1, i => do
    needBus (base + 2 * i)
    needBus (base + 2 * i + 1)
    assign (loadCoef base i)
    loadCoefs base left (i + 1)

/-- COEF_LOAD's pseudocode (45_jpeg_idct.md R341). -/
def coefLoad : Engine Word := do
  let s ← look
  needRange ⟨s.args.arg0.toNat, 128⟩
  loadCoefs s.args.arg0.toNat 64 0
  return 0

/-- COEF_LOAD (45_jpeg_idct.md R341). -/
def execCoefLoad (s : State) : Host.Outcome State Fault Refusal := runCommand coefLoad s

/-- `COEF[i]` (10_state.md R61). -/
def coefAt (s : State) (i : Nat) : Half := s.coef.getD i 0

/-- A 16-bit value's two bytes, the low one first (20_memory.md R82). -/
def halfBytes (h : Half) : List Byte := [h.extractLsb' 0 8, h.extractLsb' 8 8]

/-- COEF as its 128 bytes in memory order (45_jpeg_idct.md R342). -/
def coefBytes (s : State) : List Byte := s.coef.toList.flatMap halfBytes

/-- COEF_STORE's pseudocode (45_jpeg_idct.md R342). -/
def coefStore : Engine Word := do
  let s ← look
  needRange ⟨s.args.arg0.toNat, 128⟩
  writeBytes (coefBytes s) s.args.arg0.toNat
  return 0

/-- COEF_STORE (45_jpeg_idct.md R342). -/
def execCoefStore (s : State) : Host.Outcome State Fault Refusal := runCommand coefStore s

end Sys2Proof.Machine
end

