-- ==== Sys2Proof/Machine/Idct.lean ====
section
/-! DEFINITION. Dequantisation and the 8x8 fixed-point IDCT (45_jpeg_idct.md R343 to R349). Every
operation is on 32-bit two's-complement words and wraps (R349). -/

namespace Sys2Proof.Machine

open Sys2Proof

/-- The constants C0 to C11, the last column of 45_jpeg_idct.md R345. -/
def idctConsts : List Int :=
  [2217, -7567, 3135, 4816, 1223, 8410, 12586, 6149, -3685, -10497, -8034, -1597]

/-- `C<i>` (45_jpeg_idct.md R345). -/
def idctConst (i : Nat) : Word := Word.ofInt (idctConsts.getD i 0)

/-- What `IDCT1D` returns (45_jpeg_idct.md R346). -/
structure Idct1d where
  x0 : Word
  x1 : Word
  x2 : Word
  x3 : Word
  t0 : Word
  t1 : Word
  t2 : Word
  t3 : Word
  deriving DecidableEq, Repr

/-- The 1-D kernel `IDCT1D` (45_jpeg_idct.md R346). -/
def idct1d (s0 s1 s2 s3 s4 s5 s6 s7 : Word) : Idct1d :=
  let pe := (s2 + s6) * idctConst 0
  let e2 := pe + s6 * idctConst 1
  let e3 := pe + s2 * idctConst 2
  let e0 := (s0 + s4) * 4096
  let e1 := (s0 - s4) * 4096
  let p5 := (s7 + s3 + (s5 + s1)) * idctConst 3
  let p1 := p5 + (s7 + s1) * idctConst 8
  let p2 := p5 + (s5 + s3) * idctConst 9
  let p3 := (s7 + s3) * idctConst 10
  let p4 := (s5 + s1) * idctConst 11
  { x0 := e0 + e3
    x3 := e0 - e3
    x1 := e1 + e2
    x2 := e1 - e2
    t3 := s1 * idctConst 7 + p1 + p4
    t2 := s3 * idctConst 6 + p2 + p3
    t1 := s5 * idctConst 5 + p2 + p4
    t0 := s7 * idctConst 4 + p1 + p3 }

/-- The eight outputs of one pass: the kernel, the bias added to the x values, the sums and the
differences, each shifted right arithmetically (45_jpeg_idct.md R347, R348). -/
def idctOutputs (bias : Word) (shift : Nat) (r : Idct1d) : List Word :=
  [ (r.x0 + bias + r.t3).sshiftRight shift,
    (r.x1 + bias + r.t2).sshiftRight shift,
    (r.x2 + bias + r.t1).sshiftRight shift,
    (r.x3 + bias + r.t0).sshiftRight shift,
    (r.x3 + bias - r.t0).sshiftRight shift,
    (r.x2 + bias - r.t1).sshiftRight shift,
    (r.x1 + bias - r.t2).sshiftRight shift,
    (r.x0 + bias - r.t3).sshiftRight shift ]

/-- The kernel on the eight words of a list. -/
def idctOnList (bias : Word) (shift : Nat) (v : List Word) : List Word :=
  idctOutputs bias shift
    (idct1d (v.getD 0 0) (v.getD 1 0) (v.getD 2 0) (v.getD 3 0)
      (v.getD 4 0) (v.getD 5 0) (v.getD 6 0) (v.getD 7 0))

/-- The indices of a row or a column. -/
def eight : List Nat := [0, 1, 2, 3, 4, 5, 6, 7]

/-- Column i of the column pass: `V[i], V[8 + i], ..., V[56 + i]` (45_jpeg_idct.md R347). -/
def columnPass (x : Nat → Word) (i : Nat) : List Word :=
  idctOnList 512 10 (eight.map (fun r => x (8 * r + i)))

/-- The row bias: rounding and the level shift of +128 (45_jpeg_idct.md R348). -/
def rowBias : Word := 65536 + (128 <<< 17)

/-- `clamp(o, 0, 255)` of an s32 (45_jpeg_idct.md R348, R349). -/
def clampByte (o : Word) : Byte :=
  if o.toInt < 0 then 0 else if 255 < o.toInt then 255 else Byte.ofNat o.toNat

/-- Row r of the row pass, from the columns of the column pass (45_jpeg_idct.md R348). -/
def rowPass (cols : List (List Word)) (r : Nat) : List Byte :=
  (idctOnList rowBias 17 (cols.map (fun col => col.getD r 0))).map clampByte

/-- `PIX`, its rows in order (45_jpeg_idct.md R343, R347, R348). -/
def idctPixels (x : Nat → Word) : List (List Byte) :=
  let cols := eight.map (columnPass x)
  eight.map (rowPass cols)

/-- `X[i]`: the coefficient, or its product with the quantisation entry modulo 2^16
(45_jpeg_idct.md R343, R344). -/
def idctInput (s : State) (q : Option (Vector Half 64)) (i : Nat) : Word :=
  match q with
  | none => halfToWord (coefAt s i)
  | some tbl => halfToWord (coefAt s i * tbl.getD i 0)

/-- The table that dequantises, if any (45_jpeg_idct.md R343). -/
def dequantTable (deq : Bool) (qidx : BitVec 2) (s : State) : Option (Vector Half 64) :=
  if deq then s.tab.qt[sel4 qidx] else none

/-- The rows, each `stride` after the one before (45_jpeg_idct.md R343). -/
def writeRows (stride : Nat) : List (List Byte) → Nat → Engine Unit
  | [], _ => return ()
  | row :: rows, a => do
    writeBytes row a
    writeRows stride rows (a + stride)

/-- IDCT's pseudocode (45_jpeg_idct.md R343). -/
def idct (deq : Bool) (qidx : BitVec 2) : Engine Word := do
  let s ← look
  needLegal (idctLegal deq qidx)
  needTable (!deq || qValid s (sel4 qidx)) (qvBit (sel4 qidx))
  needRange ⟨s.args.arg0.toNat, 7 * s.args.arg1.toNat + 8⟩
  writeRows s.args.arg1.toNat (idctPixels (idctInput s (dequantTable deq qidx s))) s.args.arg0.toNat
  return 0

/-- IDCT (45_jpeg_idct.md R343). -/
def execIdct (deq : Bool) (qidx : BitVec 2) (s : State) : Host.Outcome State Fault Refusal :=
  runCommand (idct deq qidx) s

end Sys2Proof.Machine
end

