-- ==== Sys2Proof/Machine/Inflate.lean ====
section
/-! DEFINITION. The DEFLATE inflater: its constant tables, its primitives, Z_HEADER and INFLATE
(43_inflate.md R250 to R276). -/

namespace Sys2Proof.Machine

open Sys2Proof

/-! ### Constant tables -/

/-- `LBASE` (43_inflate.md R251). -/
def lengthBases : List Nat :=
  [3, 4, 5, 6, 7, 8, 9, 10, 11, 13, 15, 17, 19, 23, 27] ++
  [31, 35, 43, 51, 59, 67, 83, 99, 115, 131, 163, 195, 227, 258]

/-- `LEXT` (43_inflate.md R251). -/
def lengthExtras : List Nat :=
  [0, 0, 0, 0, 0, 0, 0, 0, 1, 1, 1, 1, 2, 2, 2] ++
  [2, 3, 3, 3, 3, 4, 4, 4, 4, 5, 5, 5, 5, 0]

/-- `DBASE` (43_inflate.md R252). -/
def distBases : List Nat :=
  [1, 2, 3, 4, 5, 7, 9, 13, 17, 25, 33, 49, 65, 97, 129] ++
  [193, 257, 385, 513, 769, 1025, 1537, 2049, 3073, 4097, 6145, 8193, 12289, 16385, 24577]

/-- `DEXT` (43_inflate.md R252). -/
def distExtras : List Nat :=
  [0, 0, 0, 0, 1, 1, 2, 2, 3, 3, 4, 4, 5, 5, 6] ++
  [6, 7, 7, 8, 8, 9, 9, 10, 10, 11, 11, 12, 12, 13, 13]

/-- `CLORDER` (43_inflate.md R253). -/
def clOrder : List Nat := [16, 17, 18, 0, 8, 7, 9, 6, 10, 5, 11, 4, 12, 3, 13, 2, 14, 1, 15]

/-- `FIXED_LL` (43_inflate.md R254). -/
def fixedLitlen : List Nat :=
  List.replicate 144 8 ++ List.replicate 112 9 ++ List.replicate 24 7 ++ List.replicate 8 8

/-- `FIXED_D` (43_inflate.md R254). -/
def fixedDist : List Nat := List.replicate 32 5

/-! ### Primitives -/

/-- `raise E_EOF(CUR)` (60_exceptions.md R383). -/
def raiseEof {α : Type} : Engine α := do
  let s ← look
  raise .eEof s.rd.cur

/-- `Bits(n)` (43_inflate.md R255). -/
def bits (n : Nat) : Engine Nat := do
  if n = 0 then return 0
  else
    need n
    let (v, ovr) ← consume n
    if ovr then raiseEof else return v

/-- `ZSym(t)` (43_inflate.md R255). -/
def zSym (t : Fin 3) : Engine Nat := do
  let (s, ovr) ← zDecode t
  if ovr then raiseEof else return s

/-- `OUT_LEN <- OUT_LEN + 1` (43_inflate.md R256). -/
def growOutput (s : State) : State := { s with out.outLen := s.out.outLen + 1 }

/-- One more byte of output, at `OUT_BASE + OUT_LEN` (43_inflate.md R256, R269). -/
def appendByte (b : Byte) : Engine Unit := do
  let s ← look
  memWrite (s.out.outBase.toNat + s.out.outLen.toNat) b
  assign growOutput

/-- `Out(b)` (43_inflate.md R256). -/
def outByte (b : Byte) : Engine Unit := do
  let s ← look
  if s.out.outCap.toNat ≤ s.out.outLen.toNat then raise .eOutfull (Word.ofNat (s.out.outLen.toNat + 1))
  else appendByte b

/-- A byte read that must not be padding (43_inflate.md R260). -/
def headerByte : Engine Nat := do
  let (b, p) ← readAlignedByte
  if p then raiseEof else return b

/-! ### Stored blocks -/

/-- The copy of a stored block: `n` more input bytes, raw (43_inflate.md R260). -/
def copyStored : Nat → Engine Unit
  | 0 => return ()
  | n + 1 => do
    let s ← look
    let b ← memRead (s.rd.inBase.toNat + s.rd.cur.toNat)
    assign advanceCur
    appendByte b
    copyStored n

/-- `StoredBlock()` (43_inflate.md R260). -/
def storedBlock : Engine Unit := do
  let s ← look
  let (_, ovr) ← consume (s.rd.bitcnt % 8)
  if ovr then raiseEof
  let h0 ← headerByte
  let h1 ← headerByte
  let h2 ← headerByte
  let h3 ← headerByte
  let len := h0 + h1 * 256
  let nlen := h2 + h3 * 256
  if nlen ≠ len ^^^ 0xFFFF then raise .eNlen (Word.ofNat (nlen * 65536 + len))
  let t ← look
  if t.rd.inLen.toNat - t.rd.cur.toNat < len then raiseEof
  if t.out.outCap.toNat - t.out.outLen.toNat < len then
    raise .eOutfull (Word.ofNat (t.out.outLen.toNat + len))
  copyStored len

/-! ### Tables of compressed blocks -/

/-- A table's bit is cleared, the table built, the bit set (43_inflate.md R261, R263). -/
def rebuildZTable (t : Fin 3) (lens : List Nat) : Engine Unit := do
  dropZTable t
  installZTable t lens

/-- `FixedTables()` (43_inflate.md R261). -/
def fixedTables : Engine Unit := do
  rebuildZTable 0 fixedLitlen
  rebuildZTable 1 fixedDist

/-- The code-length lengths: one 3-bit read for each symbol of the list (43_inflate.md R262). -/
def readClLengths : List Nat → List Nat → Engine (List Nat)
  | [], cl => return cl
  | sym :: syms, cl => do
    let l ← bits 3
    readClLengths syms (cl.set sym l)

/-- "A run passes HLIT + HDIST, or there is no previous length" (43_inflate.md R263). -/
def badRun (c : Nat) : Word := Word.ofNat (0x20000000 + c)

/-- What code c ≥ 16 appends to the lengths read so far, which stand in `lens` latest first: how
often, and which length (43_inflate.md R263). -/
def lengthRun (c : Nat) (lens : List Nat) : Engine (Nat × Nat) := do
  if c = 16 then
    match lens with
    | [] => raise .eBadlen (badRun 16)
    | prev :: _ =>
      let r ← bits 2
      return (r + 3, prev)
  else if c = 17 then
    let r ← bits 3
    return (r + 3, 0)
  else
    let r ← bits 7
    return (r + 11, 0)

/-- The loop over the HLIT + HDIST lengths (43_inflate.md R263). `lens` holds those read so far,
latest first; each round appends at least one, so `total` rounds always suffice. -/
def readLengths (total : Nat) : Nat → List Nat → Engine (List Nat)
  | 0, lens => return lens
  | rounds + 1, lens => do
    if lens.length < total then
      let c ← zSym 2
      if c < 16 then readLengths total rounds (c :: lens)
      else
        let (r, v) ← lengthRun c lens
        if total < lens.length + r then raise .eBadlen (badRun c)
        else readLengths total rounds (List.replicate r v ++ lens)
    else return lens

/-- `DynamicTables()` (43_inflate.md R262, R263). -/
def dynamicTables : Engine Unit := do
  let hlit := (← bits 5) + 257
  let hdist := (← bits 5) + 1
  let hclen := (← bits 4) + 4
  let cl ← readClLengths (clOrder.take hclen) (List.replicate 19 0)
  rebuildZTable 2 cl
  let rev ← readLengths (hlit + hdist) (hlit + hdist) []
  let lens := rev.reverse
  rebuildZTable 0 (padLengths 288 (lens.take hlit))
  rebuildZTable 1 (padLengths 32 (lens.drop hlit))

/-! ### Compressed blocks -/

/-- `Copy(dist, len)` (43_inflate.md R269). -/
def copyMatch (dist : Nat) : Nat → Engine Unit
  | 0 => return ()
  | n + 1 => do
    let s ← look
    let b ← memRead (s.out.outBase.toNat + s.out.outLen.toNat - dist)
    appendByte b
    copyMatch dist n

/-- A length symbol 257..285 and the distance after it (43_inflate.md R264, R267 to R271). -/
def lengthAndDistance (sym : Nat) : Engine Unit := do
  let extraLen ← bits (lengthExtras.getD (sym - 257) 0)
  let len := lengthBases.getD (sym - 257) 0 + extraLen
  let d ← zSym 1
  if 30 ≤ d then raise .eBadcode (Word.ofNat d)
  let extraDist ← bits (distExtras.getD d 0)
  let dist := distBases.getD d 0 + extraDist
  let s ← look
  if s.out.outLen.toNat < dist then raise .eDist (Word.ofNat dist)
  if s.out.outCap.toNat - s.out.outLen.toNat < len then
    raise .eOutfull (Word.ofNat (s.out.outLen.toNat + len))
  copyMatch dist len

/-- `HuffBlock()` (43_inflate.md R264): at most `bound` symbols (70_reset_and_hazards.md R433). -/
def huffBlock : Nat → Engine Unit
  | 0 => outran
  | bound + 1 => do
    let sym ← zSym 0
    if sym < 256 then
      outByte (Byte.ofNat sym)
      huffBlock bound
    else if sym = 256 then return ()
    else if 286 ≤ sym then raise .eBadcode (Word.ofNat sym)
    else
      lengthAndDistance sym
      huffBlock bound

/-! ### Blocks -/

/-- The real bits that the reader can still deliver, and one: every symbol and every block takes at
least one of them (70_reset_and_hazards.md R433), so a loop never makes more rounds. -/
def bitBound (s : State) : Nat :=
  (s.rd.bitcnt - s.rd.padbits) + 8 * (s.rd.inLen.toNat - s.rd.cur.toNat) + 1

/-- The compressed part of a block, its tables built (43_inflate.md R258, R264). -/
def compressedBlock : Engine Unit := do
  let s ← look
  huffBlock (bitBound s)

/-- The body of a block of type `btype` (43_inflate.md R258, R259). -/
def blockBody (btype : Nat) : Engine Unit := do
  if btype = 0 then storedBlock
  else if btype = 1 then
    fixedTables
    compressedBlock
  else if btype = 2 then
    dynamicTables
    compressedBlock
  else
    let s ← look
    raise .eBtype s.rd.cur

/-- `ZBTYPE <- btype; ZFINAL <- 0` (43_inflate.md R258). -/
def noteBlock (btype : Nat) (s : State) : State :=
  { s with out.zbtype := BitVec.ofNat 2 btype, out.zfinal := false }

/-- `ZFINAL <- 1` (43_inflate.md R258). -/
def markFinal (s : State) : State := { s with out.zfinal := true }

/-- One block: its header, which sets ZBTYPE and clears ZFINAL, and its body. The answer is whether
BFINAL was 1 (43_inflate.md R258). -/
def inflateBlock : Engine Bool := do
  let final ← bits 1
  let btype ← bits 2
  assign (noteBlock btype)
  blockBody btype
  return final == 1

/-- The block loop (43_inflate.md R258): at most `bound` blocks (70_reset_and_hazards.md R433);
`nblk` are done. -/
def inflateBlocks (stepMode : Bool) : Nat → Nat → Engine Nat
  | 0, _ => outran
  | bound + 1, nblk => do
    let final ← inflateBlock
    if final then
      assign markFinal
      return nblk + 1
    else if stepMode then return nblk + 1
    else inflateBlocks stepMode bound (nblk + 1)

/-! ### The commands -/

/-- Z_HEADER's pseudocode (43_inflate.md R257). -/
def zHeader : Engine Word := do
  needMode .lsb
  needInput
  let s ← look
  if s.rd.bitcnt % 8 ≠ 0 then raise .eAlign (Word.ofNat s.rd.bitcnt)
  let (cmf, p1) ← readAlignedByte
  let (flg, p2) ← readAlignedByte
  if p1 || p2 then raiseEof
  if (cmf * 256 + flg) % 31 ≠ 0 then raise .eZhdr 1
  if flg / 32 % 2 = 1 then raise .eZhdr 2
  if cmf % 16 ≠ 8 then raise .eZhdr 3
  return Word.ofNat (cmf * 256 + flg)

/-- Z_HEADER (43_inflate.md R257). -/
def execZHeader (s : State) : Host.Outcome State Fault Refusal := runCommand zHeader s

/-- `OUT_LEN ≤ OUT_CAP`, else `E_RANGE(OUT_LEN)` (43_inflate.md R258). -/
def needOutLen : Engine Unit := do
  let s ← look
  if s.out.outLen.toNat ≤ s.out.outCap.toNat then return () else raise .eRange s.out.outLen

/-- INFLATE's pseudocode (43_inflate.md R258). -/
def inflate (stepMode : Bool) : Engine Word := do
  let s ← look
  needMode .lsb
  needInput
  needRange (outputRegion s)
  needOutLen
  needApart (outputRegion s) (inputRegion s)
  let nblk ← inflateBlocks stepMode (bitBound s) 0
  return Word.ofNat nblk

/-- INFLATE (43_inflate.md R258). -/
def execInflate (stepMode : Bool) (s : State) : Host.Outcome State Fault Refusal :=
  runCommand (inflate stepMode) s

end Sys2Proof.Machine
end

