-- ==== Sys2Proof/Machine/Unfilter.lean ====
section
/-! DEFINITION. The PNG scanline unfilter (44_png_filter.md R300 to R312). -/

namespace Sys2Proof.Machine

open Sys2Proof

/-- `Paeth(a, b, c)` (44_png_filter.md R306). -/
def paeth (a b c : Nat) : Nat :=
  let p : Int := (a : Int) + b - c
  let pa := (p - a).natAbs
  let pb := (p - b).natAbs
  let pc := (p - c).natAbs
  if pa ≤ pb ∧ pa ≤ pc then a
  else if pb ≤ pc then b
  else c

/-- The predictor `P(a, b, c)` of filter type `ft` in 0..4 (44_png_filter.md R301, R305). -/
def predictor (ft a b c : Nat) : Nat :=
  match ft with
  | 0 => 0
  | 1 => a
  | 2 => b
  | 3 => (a + b) / 2
  | _ => paeth a b c

/-- `out[k] = trunc_8(x + P)` (44_png_filter.md R303). -/
def reconstruct (ft : Nat) (x a b c : Byte) : Byte :=
  Byte.ofNat (x.toNat + predictor ft a.toNat b.toNat c.toNat)

/-- The operands of one unfilter command (44_png_filter.md R307, R308). -/
structure RowJob where
  raw : Nat
  dst : Nat
  prior : Nat
  n : Nat
  bpp : Nat
  sb : Nat
  first : Bool
  deriving DecidableEq, Repr

/-- The filter types that read the prior row (44_png_filter.md R310). -/
def usesPrior (j : RowJob) (ft : Nat) : Bool := !j.first && (ft == 2 || ft == 3 || ft == 4)

/-- `b` for byte k (44_png_filter.md R302, R310). -/
def priorAbove (j : RowJob) (ft k : Nat) : Engine Byte :=
  if usesPrior j ft then memRead (j.prior + rowPos j.bpp j.sb k) else return 0

/-- `c` for byte k (44_png_filter.md R302, R310). -/
def priorAboveLeft (j : RowJob) (ft k : Nat) : Engine Byte :=
  if usesPrior j ft && ft == 4 && decide (j.bpp ≤ k) then
    memRead (j.prior + rowPos j.bpp j.sb (k - j.bpp))
  else return 0

/-- `n` bytes 0xFF from address `a` on (44_png_filter.md R308). -/
def writeAlpha : Nat → Nat → Engine Unit
  | 0, _ => return ()
  | n + 1, a => do
    memWrite a 0xFF
    writeAlpha n (a + 1)

/-- The row from byte k on, `left` bytes of it. `out` holds the bytes reconstructed so far, latest
first, so that `out[k - bpp]` is its entry `bpp - 1` (44_png_filter.md R310). -/
def unfilterFrom (j : RowJob) (ft : Nat) : Nat → Nat → List Byte → Engine Unit
  | 0, _, _ => return ()
  | left + 1, k, out => do
    let x ← memRead (j.raw + 1 + k)
    let a := if j.bpp ≤ k then out.getD (j.bpp - 1) 0 else 0
    let b ← priorAbove j ft k
    let c ← priorAboveLeft j ft k
    let y := reconstruct ft x a b c
    memWrite (j.dst + rowPos j.bpp j.sb k) y
    if k % j.bpp = j.bpp - 1 then
      writeAlpha j.sb (j.dst + k / j.bpp * (j.bpp + j.sb) + j.bpp)
    unfilterFrom j ft left (k + 1) (y :: out)

/-- The selector byte, then the row (44_png_filter.md R310). -/
def unfilterRow (j : RowJob) : Engine Word := do
  let ft ← memRead j.raw
  if 4 < ft.toNat then raise .eFilter (ft.zeroExtend 32)
  unfilterFrom j ft.toNat j.n 0 []
  return ft.zeroExtend 32

/-- The raw row's region (44_png_filter.md R307, R310). -/
def rawRegion (j : RowJob) : Region := ⟨j.raw, 1 + j.n⟩

/-- The output row's region (44_png_filter.md R308, R312). -/
def rowRegion (j : RowJob) : Region := ⟨j.dst, rowLen j.bpp j.sb j.n⟩

/-- The prior row's region (44_png_filter.md R308, R312); empty for a first row, which reads none. -/
def priorRegion (j : RowJob) : Region :=
  ⟨j.prior, if j.first then 0 else rowLen j.bpp j.sb j.n⟩

/-- The operands from the command word and the ARG registers (44_png_filter.md R307). -/
def rowJob (bppm1 : BitVec 3) (first alpha a16 : Bool) (s : State) : RowJob where
  raw := s.args.arg0.toNat
  dst := s.args.arg1.toNat
  prior := s.args.arg2.toNat
  n := s.args.arg3.toNat
  bpp := bytesPerPixel bppm1
  sb := alphaBytes alpha a16
  first := first

/-- ARG3 is at least 1, and a multiple of `bpp` when alpha is synthesised (30_encoding.md R128). -/
def rowLengthLegal (alpha : Bool) (bpp n : Nat) : Bool :=
  decide (n ≠ 0) && (!alpha || n % bpp == 0)

/-- PNG_UNFILTER's pseudocode (44_png_filter.md R310, R312). -/
def pngUnfilter (bppm1 : BitVec 3) (first alpha a16 : Bool) : Engine Word := do
  let s ← look
  let j := rowJob bppm1 first alpha a16 s
  needLegal (alphaLegal bppm1 alpha a16)
  needLegal (rowLengthLegal alpha j.bpp j.n)
  needRange (rawRegion j)
  needRange (rowRegion j)
  if first then pure () else needRange (priorRegion j)
  needApart (rowRegion j) (rawRegion j)
  needApart (rowRegion j) (priorRegion j)
  unfilterRow j

/-- PNG_UNFILTER (44_png_filter.md R310). -/
def execPngUnfilter (bppm1 : BitVec 3) (first alpha a16 : Bool) (s : State) :
    Host.Outcome State Fault Refusal :=
  runCommand (pngUnfilter bppm1 first alpha a16) s

end Sys2Proof.Machine
end

