-- ==== Sys2Proof/Machine/Dispatch.lean ====
section
/-! DEFINITION. The dispatch from a command to its meaning (30_encoding.md R124). -/

namespace Sys2Proof.Machine

def exec (i : Instr) (s : State) : Host.Outcome State Fault Refusal :=
  match i with
  -- control
  | .nop => Sys2Proof.Machine.execNop s
  -- bitstream reader
  | .brInit mode => Sys2Proof.Machine.execBrInit mode s
  | .brGetbits n => Sys2Proof.Machine.execBrGetbits n s
  | .brPeekbits n => Sys2Proof.Machine.execBrPeekbits n s
  | .brAlign => Sys2Proof.Machine.execBrAlign s
  | .brReadbytes sz chk => Sys2Proof.Machine.execBrReadbytes sz chk s
  -- Huffman
  | .hbZlib tid => Sys2Proof.Machine.execHbZlib tid s
  | .hbJpeg cls idx => Sys2Proof.Machine.execHbJpeg cls idx s
  | .hdZlib tid => Sys2Proof.Machine.execHdZlib tid s
  | .hdJpeg cls idx => Sys2Proof.Machine.execHdJpeg cls idx s
  -- inflate
  | .zHeader => Sys2Proof.Machine.execZHeader s
  | .inflate stepMode => Sys2Proof.Machine.execInflate stepMode s
  -- unfilter
  | .pngUnfilter bppm1 first alpha a16 => Sys2Proof.Machine.execPngUnfilter bppm1 first alpha a16 s
  -- JPEG and IDCT
  | .qtLoad idx p16 => Sys2Proof.Machine.execQtLoad idx p16 s
  | .jReceive n => Sys2Proof.Machine.execJReceive n s
  | .jDecodeBlock dct act comp => Sys2Proof.Machine.execJDecodeBlock dct act comp s
  | .jReset => Sys2Proof.Machine.execJReset s
  | .jRestart => Sys2Proof.Machine.execJRestart s
  | .coefLoad => Sys2Proof.Machine.execCoefLoad s
  | .coefStore => Sys2Proof.Machine.execCoefStore s
  | .idct deq qidx => Sys2Proof.Machine.execIdct deq qidx s

end Sys2Proof.Machine
end

