-- ==== Sys2Proof/Machine/HostPort.lean ====
section
/-! DEFINITION. The host's side: the register file (10_state.md R35 to R54), resets
(70_reset_and_hazards.md R420, R421), the host's accesses to MEM (20_memory.md R91 to R93), and the
engine's turn (10_state.md R40, R63). -/

namespace Sys2Proof.Machine

open Sys2Proof

/-! ### The engine's turn -/

/-- The command whose word CMD latched, if it decodes (30_encoding.md R130, steps 1 and 2). -/
def latched (s : State) : Option Instr := (decode s.ctl.cmd).toOption

/-- The engine runs the command it is BUSY with, to completion or to a fault (10_state.md R40, R63).
A word that is no command raises `E_ILLEGAL` with the word (30_encoding.md R126, R127). -/
def runLatched (s : State) : Host.Outcome State Fault Refusal :=
  match latched s with
  | some i => exec i s
  | none => .next (faultEntry .eIllegal s.ctl.cmd s)

/-- The engine's turn: nothing happens unless it is BUSY (60_exceptions.md R386, R402). -/
def engineTurn (s : State) : Host.Outcome State Fault Refusal :=
  match s.ctl.estate with
  | .busy => runLatched s
  | .idle => .next s
  | .fault => .next s

/-! ### A command part of the way -/

/-- The pseudocode of each command: exec runs it whole. -/
def pseudocode (i : Instr) : Engine Word :=
  match i with
  | .nop => return 0
  | .brInit mode => brInit mode
  | .brGetbits n => brGetbits n
  | .brPeekbits n => brPeekbits n
  | .brAlign => brAlign
  | .brReadbytes sz chk => brReadbytes sz chk
  | .hbZlib tid => hbZlib tid
  | .hbJpeg cls idx => hbJpeg cls idx
  | .hdZlib tid => hdZlib tid
  | .hdJpeg cls idx => hdJpeg cls idx
  | .zHeader => zHeader
  | .inflate stepMode => inflate stepMode
  | .pngUnfilter bppm1 first alpha a16 => pngUnfilter bppm1 first alpha a16
  | .qtLoad idx p16 => qtLoad idx p16
  | .jReceive n => jReceive n
  | .jDecodeBlock dct act comp => jDecodeBlock dct act comp
  | .jReset => jReset
  | .jRestart => jRestart
  | .coefLoad => coefLoad
  | .coefStore => coefStore
  | .idct deq qidx => idct deq qidx

/-- The running command's pseudocode; a latched word that is no command raises `E_ILLEGAL`
(30_encoding.md R126, R127). -/
def latchedPseudocode (s : State) : Engine Word :=
  match latched s with
  | some i => pseudocode i
  | none => raise .eIllegal s.ctl.cmd

/-- The registers that completion and fault entry write and R52 names, one after the other: RES; or
`ERR.CODE`, `ERR.OP` and FADDR (10_state.md R33; 60_exceptions.md R384). -/
def lastSteps (s : State) (o : EStateM.Result Stop Run Word) : List (State → State) :=
  match o with
  | .ok res _ => [fun t => { t with ctl.res := res }]
  | .error (.raised code info) _ =>
    [ fun t => { t with ctl.errCode := faultByte code },
      fun t => { t with ctl.errOp := s.ctl.cmd.extractLsb' 0 8 },
      fun t => { t with ctl.faddr := info } ]
  | .error .bound _ => []

/-- Where a run of pseudocode has got to. -/
def runOf {α : Type} (o : EStateM.Result Stop Run α) : Run :=
  match o with
  | .ok _ r => r
  | .error _ r => r

/-- The state that the running command passes through after `n` of its assignments: for 0 the state at
its start, and from the last one on the state at its end, still BUSY (10_state.md R52; log 7). -/
def passing (n : Nat) (s : State) : State :=
  let o := latchedPseudocode s { st := s, left := some n }
  ((runOf o).afterAll (lastSteps s o)).st

/-! ### Reset -/

/-- Hard or soft reset in any engine state (70_reset_and_hazards.md R420 to R422). While BUSY it
aborts the command at a free point, and MEM keeps what the command had written by then (R421; log 8;
for the hard reset log 22). -/
def doReset (s : State) : State :=
  match s.ctl.estate with
  | .busy =>
    resetState
      { s with
        bus.mem := (passing (Config.abortPrefix s.env.freeCount) s).bus.mem
        env.freeCount := s.env.freeCount + 1 }
  | .idle => resetState s
  | .fault => resetState s

/-! ### Register reads -/

/-- The register at an offset reads as this when no command is running (10_state.md R35). -/
def regValue (off : Nat) (s : State) : Word :=
  match off with
  | 0x00 => idValue
  | 0x04 => ctrlWord s
  | 0x08 => statusWord s
  | 0x0C => irqWord s
  | 0x10 => 0
  | 0x14 => s.args.arg0
  | 0x18 => s.args.arg1
  | 0x1C => s.args.arg2
  | 0x20 => s.args.arg3
  | 0x24 => s.ctl.res
  | 0x28 => errWord s
  | 0x2C => s.ctl.faddr
  | 0x30 => s.rd.inBase
  | 0x34 => s.rd.inLen
  | 0x38 => s.rd.cur
  | 0x3C => s.rd.acc
  | 0x40 => brCntWord s
  | 0x44 => s.rd.marker.zeroExtend 32
  | 0x48 => s.out.outBase
  | 0x4C => s.out.outCap
  | 0x50 => s.out.outLen
  | 0x54 => s.dcpred[0]
  | 0x58 => s.dcpred[1]
  | 0x5C => s.dcpred[2]
  | 0x60 => s.dcpred[3]
  | 0x64 => tvalidWord s
  | 0x68 => s.ctl.cmdcnt
  | _ => 0

/-- The bits of a register that a read while BUSY draws from the values the command passes through:
RES, ERR, FADDR, OUT_LEN, IN_CUR, BR_ACC, BR_CNT, MARKER, DCPREDn, TVALID and the STATUS reader flags
EOF, OVR and NOMORE (10_state.md R52, R57; log 7). -/
def drawMask (off : Nat) : Word :=
  match off with
  | 0x08 => 0x00000070
  | 0x24 => 0xFFFFFFFF
  | 0x28 => 0x0000FFFF
  | 0x2C => 0xFFFFFFFF
  | 0x38 => 0xFFFFFFFF
  | 0x3C => 0xFFFFFFFF
  | 0x40 => 0x00003F3F
  | 0x44 => 0x000000FF
  | 0x50 => 0xFFFFFFFF
  | 0x54 => 0xFFFFFFFF
  | 0x58 => 0xFFFFFFFF
  | 0x5C => 0xFFFFFFFF
  | 0x60 => 0xFFFFFFFF
  | 0x64 => 0x0000FFF7
  | _ => 0

/-- The value of a register read while BUSY: the current one, but the drawn bits are those of a state
that the command passes through, which one being free (10_state.md R52; log 7). -/
def busyValue (off : Nat) (s : State) : Word :=
  (regValue off s &&& ~~~ drawMask off) |||
    (regValue off (passing (Config.busyDraw s.env.freeCount) s) &&& drawMask off)

/-- A host read of the register at an offset (10_state.md R35, R52). The value goes to the model's
own `hostData`; no read has a side effect on the HDU. -/
def regRead (off : Nat) (s : State) : State :=
  match s.ctl.estate with
  | .busy => { s with env.hostData := busyValue off s, env.freeCount := s.env.freeCount + 1 }
  | .idle => { s with env.hostData := regValue off s }
  | .fault => { s with env.hostData := regValue off s }

/-! ### Register writes -/

/-- A write that the engine's state makes the HDU ignore (10_state.md R52, R53). -/
def dropWrite (s : State) : State := { s with ctl.drop := true }

/-- A write of `t` that is ignored while BUSY (10_state.md R52). -/
def unlessBusy (t s : State) : State := if s.ctl.estate = .busy then dropWrite s else t

/-- A host write to CMD (10_state.md R40, R52, R53). -/
def writeCmd (v : Word) (s : State) : State :=
  match s.ctl.estate with
  | .idle => { s with ctl.estate := .busy, ctl.cmd := v }
  | .busy => dropWrite s
  | .fault => dropWrite s

/-- A 1 written to CLRERR (10_state.md R37; 60_exceptions.md R388). -/
def writeClrerr (s : State) : State :=
  match s.ctl.estate with
  | .idle => { s with ctl.drop := false }
  | .busy => dropWrite s
  | .fault => clearError s

/-- A host write to CTRL (10_state.md R37). SRESET alone acts when it is 1. -/
def writeCtrl (v : Word) (s : State) : State :=
  if v.getLsbD 0 then doReset s
  else
    let t := { s with ctl.ieDone := v.getLsbD 2, ctl.ieErr := v.getLsbD 3 }
    if v.getLsbD 1 then writeClrerr t else t

/-- A host write to IRQ: a 1 clears the bit (10_state.md R39). -/
def writeIrq (v : Word) (s : State) : State :=
  { s with ctl.irqDone := s.ctl.irqDone && !v.getLsbD 0, ctl.irqErr := s.ctl.irqErr && !v.getLsbD 1 }

/-- A host write to IN_CUR repositions the reader; OVR and MODE stay (10_state.md R44). -/
def writeInCur (v : Word) (s : State) : State := { emptyReader s with rd.cur := v, rd.eof := false }

/-- A host write of DCPREDn (10_state.md R48). -/
def writeDcpred (n : Fin 4) (v : Word) (s : State) : State :=
  { s with dcpred := s.dcpred.set n v }

/-- A host write to the register at an offset (10_state.md R35 to R53). A write to a read-only or
reserved register is ignored. -/
def regWrite (off : Nat) (v : Word) (s : State) : State :=
  match off with
  | 0x04 => writeCtrl v s
  | 0x0C => writeIrq v s
  | 0x10 => writeCmd v s
  | 0x14 => unlessBusy { s with args.arg0 := v } s
  | 0x18 => unlessBusy { s with args.arg1 := v } s
  | 0x1C => unlessBusy { s with args.arg2 := v } s
  | 0x20 => unlessBusy { s with args.arg3 := v } s
  | 0x30 => unlessBusy { s with rd.inBase := v } s
  | 0x34 => unlessBusy { s with rd.inLen := v } s
  | 0x38 => unlessBusy (writeInCur v s) s
  | 0x48 => unlessBusy { s with out.outBase := v } s
  | 0x4C => unlessBusy { s with out.outCap := v } s
  | 0x50 => unlessBusy { s with out.outLen := v } s
  | 0x54 => unlessBusy (writeDcpred 0 v s) s
  | 0x58 => unlessBusy (writeDcpred 1 v s) s
  | 0x5C => unlessBusy (writeDcpred 2 v s) s
  | 0x60 => unlessBusy (writeDcpred 3 v s) s
  | _ => s

/-! ### The host's accesses to MEM -/

/-- The regions that a command reads (20_memory.md R81). -/
def readRegions (i : Instr) (s : State) : List Region :=
  match i with
  | .nop => []
  | .brInit _ => []
  | .brGetbits _ => [inputRegion s]
  | .brPeekbits _ => [inputRegion s]
  | .brAlign => [inputRegion s]
  | .brReadbytes _ _ => [inputRegion s]
  | .hbZlib _ => [⟨s.args.arg0.toNat, s.args.arg1.toNat⟩]
  | .hbJpeg _ _ =>
    [⟨s.args.arg0.toNat,
      16 + ((List.range 16).map (fun i => (memGet s.bus.mem (s.args.arg0.toNat + i)).toNat)).sum⟩]
  | .hdZlib _ => [inputRegion s]
  | .hdJpeg _ _ => [inputRegion s]
  | .zHeader => [inputRegion s]
  | .inflate _ => [inputRegion s, ⟨s.out.outBase.toNat, s.out.outLen.toNat⟩]
  | .pngUnfilter bppm1 first alpha a16 =>
    [rawRegion (rowJob bppm1 first alpha a16 s), priorRegion (rowJob bppm1 first alpha a16 s)]
  | .qtLoad _ p16 => [⟨s.args.arg0.toNat, quantBytes p16⟩]
  | .jReceive _ => [inputRegion s]
  | .jDecodeBlock _ _ _ => [inputRegion s]
  | .jReset => []
  | .jRestart => [inputRegion s]
  | .coefLoad => [⟨s.args.arg0.toNat, 128⟩]
  | .coefStore => []
  | .idct _ _ => []

/-- The regions that a command writes (20_memory.md R81). -/
def writeRegions (i : Instr) (s : State) : List Region :=
  match i with
  | .nop => []
  | .brInit _ => []
  | .brGetbits _ => []
  | .brPeekbits _ => []
  | .brAlign => []
  | .brReadbytes _ _ => []
  | .hbZlib _ => []
  | .hbJpeg _ _ => []
  | .hdZlib _ => []
  | .hdJpeg _ _ => []
  | .zHeader => []
  | .inflate _ =>
    [⟨s.out.outBase.toNat + s.out.outLen.toNat, s.out.outCap.toNat - s.out.outLen.toNat⟩]
  | .pngUnfilter bppm1 first alpha a16 => [rowRegion (rowJob bppm1 first alpha a16 s)]
  | .qtLoad _ _ => []
  | .jReceive _ => []
  | .jDecodeBlock _ _ _ => []
  | .jReset => []
  | .jRestart => []
  | .coefLoad => []
  | .coefStore => [⟨s.args.arg0.toNat, 128⟩]
  | .idct _ _ => eight.map (fun r => ⟨s.args.arg0.toNat + r * s.args.arg1.toNat, 8⟩)

/-- The address lies in one of the regions. -/
def inRegions (a : Nat) (rs : List Region) : Bool := rs.any (inRegion a)

/-- The running command reads the byte (20_memory.md R93). -/
def engineReads (a : Nat) (s : State) : Bool :=
  match s.ctl.estate, latched s with
  | .busy, some i => inRegions a (readRegions i s)
  | _, _ => false

/-- The running command writes the byte (20_memory.md R93). -/
def engineWrites (a : Nat) (s : State) : Bool :=
  match s.ctl.estate, latched s with
  | .busy, some i => inRegions a (writeRegions i s)
  | _, _ => false

/-- A host write of a byte of MEM (20_memory.md R91, R93; log 9, log 11). -/
def hostMemWrite (a : Nat) (v : Byte) (s : State) : Host.Outcome State Fault Refusal :=
  if !inMap s.bus.holes a then .fault (.hostMemUnmapped a)
  else if engineReads a s || engineWrites a s then .refused (.hostRace a)
  else .next { s with bus.mem := memSet s.bus.mem a v }

/-- A host read of a byte of MEM (20_memory.md R91, R93; log 9, log 11). -/
def hostMemRead (a : Nat) (s : State) : Host.Outcome State Fault Refusal :=
  if !inMap s.bus.holes a then .fault (.hostMemUnmapped a)
  else if engineWrites a s then .refused (.hostRace a)
  else .next { s with env.hostData := (memGet s.bus.mem a).zeroExtend 32 }

/-! ### Events -/

/-- The block decodes the offsets 0x00 to 0xFF (10_state.md R51). -/
def blockBytes : Nat := 0x100

/-- The offset of a legal host register access: inside the block, 32 bits wide, aligned
(10_state.md R35, R51, R54; log 10). -/
def regOffset (addr size : Nat) (s : State) : Except Refusal Nat :=
  if addr < s.env.regBase ∨ s.env.regBase + blockBytes ≤ addr then
    .error (.hostOutsideBlock addr)
  else if size ≠ 4 ∨ (addr - s.env.regBase) % 4 ≠ 0 then .error (.hostAccessForm addr size)
  else .ok (addr - s.env.regBase)

/-- A host register write (10_state.md R35). -/
def hostRegWrite (addr size : Nat) (v : Word) (s : State) : Host.Outcome State Fault Refusal :=
  match regOffset addr size s with
  | .error r => .refused r
  | .ok off => .next (regWrite off v s)

/-- A host register read (10_state.md R35). -/
def hostRegRead (addr size : Nat) (s : State) : Host.Outcome State Fault Refusal :=
  match regOffset addr size s with
  | .error r => .refused r
  | .ok off => .next (regRead off s)

/-- One event of the schedule happens (log 4). -/
def happen (e : Event) (s : State) : Host.Outcome State Fault Refusal :=
  match e with
  | .engine => engineTurn s
  | .regWrite addr size v => hostRegWrite addr size v s
  | .regRead addr size => hostRegRead addr size s
  | .memWrite a v => hostMemWrite a v s
  | .memRead a => hostMemRead a s
  | .hardReset => .next (doReset s)

/-- The schedule still to come (log 4). -/
def withEvents (es : List Event) (s : State) : State := { s with env.events := es }

/-- The next thing that happens: the first event of the schedule, or, with nothing scheduled, the
engine's turn (log 4). -/
def advance (s : State) : Host.Outcome State Fault Refusal :=
  match s.env.events with
  | [] => engineTurn s
  | e :: rest => happen e (withEvents rest s)

/-- The engine is BUSY with the word `w` and has the next turn: what the host's write of `w` to CMD
in IDLE, and the engine's turn after it, bring about (10_state.md R40; log 5). -/
def busyWith (w : Word) (s : State) : State :=
  { s with ctl.estate := .busy, ctl.cmd := w, env.events := .engine :: s.env.events }

end Sys2Proof.Machine
end

