-- ==== Sys2Proof/Machine/Step.lean ====
section
/-! DEFINITION. One step of the machine (70_reset_and_hazards.md R432; log 4, log 6). -/

namespace Sys2Proof.Machine

open Sys2Proof

/-- One step: the next event happens. -/
def step (s : State) : Host.Outcome State Fault Refusal := advance s

/-- The state whose very next step runs the command of a row's bits (log 5). -/
def State.withFetchWord (s : State) (nbits w : Nat) : State := busyWith (tableWord nbits w) s

end Sys2Proof.Machine
end

