-- ==== Sys2Proof/Machine/FastTables.lean ====
section
/-! DEFINITION. The lookup structures of 42_huffman.md R212 to R216, as the functions of the built
tables that they are (log 16), and the decodes that use them. No meaning calls them: R214 says that
they give the direct decoders' results, and the statements say it of this model. -/

namespace Sys2Proof.Machine

open Sys2Proof

/-- The codes of length `l` of a DEFLATE table: `count[l]` (42_huffman.md R215). -/
def zCount (tbl : ZTable) (l : Nat) : Nat := tbl.syms.countP (fun e => e.len == l)

/-- `ZFAST[t][i]` (42_huffman.md R212): the symbol and the length of the code of at most FAST_BITS
bits that index `i` begins with, first bit lowest. -/
def zFast (tbl : ZTable) (i : Nat) : Option (Nat × Nat) :=
  (tbl.syms.findIdx? (fun e =>
    decide (1 ≤ e.len) && decide (e.len ≤ Config.fastBits) &&
      bitReverse e.len (i % 2 ^ e.len) == e.code)).map
    (fun sym => (sym, ((tbl.syms.getD sym { len := 0, code := 0 }).len)))

/-- `first[l]` from the counts (42_huffman.md R203, R215). -/
def firstFrom (count : Nat → Nat) : Nat → Nat
  | 0 => 0
  | l + 1 => (firstFrom count l + (if l = 0 then 0 else count l)) * 2

/-- `MAXCODE[l]`: the end of length l's code range, at 16 bits (42_huffman.md R215). -/
def maxCode (count : Nat → Nat) (l : Nat) : Nat := (firstFrom count l + count l) * 2 ^ (16 - l)

/-- The first length of the list whose code range ends above `w16` (42_huffman.md R215). -/
def slowLength (count : Nat → Nat) (w16 : Nat) : List Nat → Option Nat
  | [] => none
  | l :: ls => if w16 < maxCode count l then some l else slowLength count w16 ls

/-- `w16`: the next 16 stream bits, the first one most significant (42_huffman.md R215). -/
def nextSixteen (s : State) : Nat :=
  match s.rd.mode with
  | .lsb => bitReverse 16 (peekBits s 16)
  | .msb => peekBits s 16

/-- The place of a code among the codes of its length (42_huffman.md R215). -/
def slowRank (count : Nat → Nat) (w16 l : Nat) : Nat := w16 / 2 ^ (16 - l) - firstFrom count l

/-- The `n`-th symbol of length l, counting from 0 (42_huffman.md R205, R215). -/
def nthSymbol (syms : List ZCode) (l n : Nat) : Option Nat :=
  ((List.range syms.length).filter
    (fun sym => (syms.getD sym { len := 0, code := 0 }).len == l))[n]?

/-- The lengths that the slow path searches (42_huffman.md R215). -/
def slowLengths (longest : Nat) : List Nat :=
  List.range' (Config.fastBits + 1) (longest - Config.fastBits)

/-- The slow path of a DEFLATE decode (42_huffman.md R215): length and symbol. -/
def zSlow (tbl : ZTable) (s : State) : Option (Nat × Nat) :=
  match slowLength (zCount tbl) (nextSixteen s) (slowLengths zMaxLen) with
  | none => none
  | some l =>
    (nthSymbol tbl.syms l (slowRank (zCount tbl) (nextSixteen s) l)).map (fun sym => (l, sym))

/-- The fast-then-slow search of a DEFLATE decode (42_huffman.md R212, R215). -/
def zFastSearch (tbl : ZTable) (s : State) : Option (Nat × Nat) :=
  match zFast tbl (peekBits s Config.fastBits) with
  | some (sym, l) => some (l, sym)
  | none => zSlow tbl s

/-- The codes of length `l` of a JPEG table (42_huffman.md R215). -/
def jCount (tbl : JTable) (l : Nat) : Nat := tbl.entries.countP (fun e => e.size == l)

/-- `JFAST[c][i][index]` (42_huffman.md R213): the code index k whose code the 9-bit index begins
with, first bit highest. -/
def jFast (tbl : JTable) (i : Nat) : Option Nat :=
  tbl.entries.findIdx? (fun e =>
    decide (e.size ≤ Config.fastBits) && i / 2 ^ (Config.fastBits - e.size) == e.code)

/-- Entry k of a JPEG table. -/
def jEntry (tbl : JTable) (k : Nat) : JCode :=
  tbl.entries.getD k { size := 0, code := 0, val := 0 }

/-- `FIRSTSYM[l]`: how many codes are shorter than l (42_huffman.md R215). -/
def firstSym (tbl : JTable) (l : Nat) : Nat := tbl.entries.countP (fun e => decide (e.size < l))

/-- The slow path of a JPEG decode (42_huffman.md R215): length and value. -/
def jSlow (tbl : JTable) (s : State) : Option (Nat × Byte) :=
  match slowLength (jCount tbl) (nextSixteen s) (slowLengths jMaxLen) with
  | none => none
  | some l =>
    (tbl.entries[firstSym tbl l + slowRank (jCount tbl) (nextSixteen s) l]?).map
      (fun e => (l, e.val))

/-- The fast-then-slow search of a JPEG decode (42_huffman.md R213, R215). -/
def jFastSearch (tbl : JTable) (s : State) : Option (Nat × Byte) :=
  match jFast tbl (peekBits s Config.fastBits) with
  | some k => some ((jEntry tbl k).size, (jEntry tbl k).val)
  | none => jSlow tbl s

/-- `JFASTAC[i][index]` (42_huffman.md R216): value, run and total length, when the symbol and its
extra bits fit in the index. -/
def jFastAc (tbl : JTable) (i : Nat) : Option (Int × Nat × Nat) :=
  match jFast tbl i with
  | none => none
  | some k =>
    let e := jEntry tbl k
    let cat := e.val.toNat % 16
    if cat ≠ 0 ∧ e.size + cat ≤ Config.fastBits then
      some (extend (i / 2 ^ (Config.fastBits - e.size - cat) % 2 ^ cat) cat,
        e.val.toNat / 16, e.size + cat)
    else none

end Sys2Proof.Machine
end

