-- ==== Sys2Proof/Safety.lean ====
section
/-! DEFINITION. What counts as a good state of the machine, and the terms that the statements use:
the invariant, the outcomes of a command, which memory answers, the bit stream that the reader
delivers, canonical codes. Each is written from the spec's rule, beside the meanings and without
calling them where it can be. -/

namespace Sys2Proof.Machine

open Sys2Proof

/-! ### The invariant -/

/-- The bits of ACC outside the valid window are 0 (10_state.md R55). -/
def windowClear (r : Reader) : Bool :=
  match r.mode with
  | .lsb => decide (r.acc.toNat < 2 ^ r.bitcnt)
  | .msb => decide (r.acc.toNat % 2 ^ (32 - r.bitcnt) = 0)

/-- The reader's invariant (10_state.md R55), and the two facts about MARKER that 41_bitreader.md
R158 and 10_state.md R46 give: it holds a code exactly while NOMORE is 1, in MODE 1 only, and never
the code 0x00. -/
def readerOk (r : Reader) : Bool :=
  decide (r.bitcnt ≤ 32) && decide (r.padbits ≤ r.bitcnt) && windowClear r &&
    (r.nomore == (r.marker != 0xFF)) && (r.marker != 0x00) && (!r.nomore || r.mode == .msb)

/-- ERR and FADDR tell of a fault exactly while the engine is in FAULT (10_state.md R41, R42;
60_exceptions.md R382, R389). -/
def errorsOk (c : Control) : Bool :=
  match c.estate with
  | .fault => decide (1 ≤ c.errCode.toNat) && decide (c.errCode.toNat ≤ 0x11)
  | .idle => c.errCode == 0 && c.errOp == 0 && c.faddr == 0
  | .busy => c.errCode == 0 && c.errOp == 0 && c.faddr == 0

/-- A DEFLATE table is the canonical table of its own lengths, one for each symbol (10_state.md R58,
42_huffman.md R205). -/
def zTableOk (t : Fin 3) (tbl : ZTable) : Bool :=
  decide (tbl.syms.length = zMaxSym t) &&
    (match zBuild (tbl.syms.map (fun e => e.len)) with
      | .ok built => built == tbl
      | .error _ => false)

/-- A slot holds no table or a canonical one. -/
def zSlotOk (t : Fin 3) (slot : Option ZTable) : Bool :=
  match slot with
  | none => true
  | some tbl => zTableOk t tbl

/-- A JPEG table is the canonical table of its own counts and values (10_state.md R59, 42_huffman.md
R207). -/
def jTableOk (tbl : JTable) : Bool :=
  decide (tbl.entries.length ≤ jMaxSym) &&
    (match jBuild (jLengths.map (jCount tbl)) (tbl.entries.map (fun e => e.val)) with
      | .ok built => built == tbl
      | .error _ => false)

/-- A slot holds no table or a canonical one. -/
def jSlotOk (slot : Option JTable) : Bool :=
  match slot with
  | none => true
  | some tbl => jTableOk tbl

/-- Every table slot is good. -/
def tablesOk (t : Tables) : Bool :=
  zSlotOk 0 t.zt[0] && zSlotOk 1 t.zt[1] && zSlotOk 2 t.zt[2] &&
    t.jdc.toList.all jSlotOk && t.jac.toList.all jSlotOk

/-- The invariant: the reader, the error registers and the tables are good, and MEM is in canonical
form. -/
def State.inv (s : State) : Bool :=
  readerOk s.rd && errorsOk s.ctl && tablesOk s.tab && Memory.wf s.bus.mem

/-! ### The outcomes of a command -/

/-- What completion makes of the state `s` that the command's pseudocode has left (10_state.md R33,
R50, R63). -/
def completed (res : Word) (s : State) : State :=
  { s with
    ctl :=
      { s.ctl with res := res, irqDone := true, cmdcnt := s.ctl.cmdcnt + 1, estate := .idle } }

/-- What fault entry makes of the state `s` at the point of the fault (60_exceptions.md R384), `code`
being the number of 60_exceptions.md R382. -/
def faulted (code : Byte) (info : Word) (s : State) : State :=
  { s with
    ctl :=
      { s.ctl with
        errCode := code
        errOp := s.ctl.cmd.extractLsb' 0 8
        faddr := info
        estate := .fault
        irqErr := true } }

/-! ### Illegal commands -/

/-- The number of the first reserved bit of an opcode's format (30_encoding.md R112 to R122, R124);
0 for a reserved opcode. -/
def firstReservedBit (op : Nat) : Nat :=
  if op ∈ [0x00, 0x04, 0x20, 0x43, 0x44, 0x45, 0x46] then 8
  else if op ∈ [0x01, 0x21] then 9
  else if op ∈ [0x10, 0x12] then 10
  else if op ∈ [0x11, 0x13, 0x40, 0x47] then 11
  else if op = 0x05 then 12
  else if op ∈ [0x02, 0x03, 0x41] then 13
  else if op ∈ [0x30, 0x42] then 14
  else 0

/-- The opcode values that 30_encoding.md R126 reserves. -/
def reservedOp (op : Nat) : Bool :=
  (decide (0x06 ≤ op) && decide (op ≤ 0x0F)) || (decide (0x14 ≤ op) && decide (op ≤ 0x1F)) ||
    (decide (0x22 ≤ op) && decide (op ≤ 0x2F)) || (decide (0x31 ≤ op) && decide (op ≤ 0x3F)) ||
    (decide (0x48 ≤ op) && decide (op ≤ 0xFF))

/-- The illegal field and operand values of 30_encoding.md R128. -/
def illegalValues (i : Instr) (s : State) : Bool :=
  match i with
  | .brGetbits n => n.toNat == 0 || decide (16 < n.toNat)
  | .brPeekbits n => n.toNat == 0 || decide (16 < n.toNat)
  | .jReceive n => decide (16 < n.toNat)
  | .brReadbytes sz _ => !(sz.toNat ∈ [1, 2, 4])
  | .hbZlib tid =>
    tid == 3 || s.args.arg1 == 0 ||
      decide ((if tid = 0 then 288 else if tid = 1 then 32 else 19) < s.args.arg1.toNat)
  | .hdZlib tid => tid == 3
  | .pngUnfilter bppm1 _ alpha a16 =>
    s.args.arg3 == 0 || (a16 && !alpha) ||
      (alpha && s.args.arg3.toNat % (bppm1.toNat + 1) != 0) ||
      (a16 && (bppm1.toNat + 1) % 2 == 1)
  | .idct deq qidx => !deq && qidx != 0
  | .nop => false
  | .brInit _ => false
  | .brAlign => false
  | .hbJpeg _ _ => false
  | .hdJpeg _ _ => false
  | .zHeader => false
  | .inflate _ => false
  | .qtLoad _ _ => false
  | .jDecodeBlock _ _ _ => false
  | .jReset => false
  | .jRestart => false
  | .coefLoad => false
  | .coefStore => false

/-! ### The decode-time checks -/

/-- The MODE bit that the command does not need but finds (30_encoding.md R125, step 5 of R130). -/
def wrongMode (i : Instr) (s : State) : Option Word :=
  if (opcode i).toNat ∈ [0x12, 0x20, 0x21] ∧ s.rd.mode = .msb then some 1
  else if (opcode i).toNat ∈ [0x13, 0x41, 0x42, 0x43, 0x44] ∧ s.rd.mode = .lsb then some 0
  else none

/-- The TVALID bit of the first table that the command uses and that is invalid (30_encoding.md R125,
step 6 of R130; 60_exceptions.md R383). -/
def missingTable (i : Instr) (s : State) : Option Nat :=
  match i with
  | .hdZlib tid => if s.tab.zt[tableSel tid] = none then some tid.toNat else none
  | .hdJpeg .dc idx => if s.tab.jdc[sel4 idx] = none then some (4 + idx.toNat) else none
  | .hdJpeg .ac idx => if s.tab.jac[sel4 idx] = none then some (8 + idx.toNat) else none
  | .jDecodeBlock dct act _ =>
    if s.tab.jdc[sel4 dct] = none then some (4 + dct.toNat)
    else if s.tab.jac[sel4 act] = none then some (8 + act.toNat)
    else none
  | .idct deq qidx => if deq ∧ s.tab.qt[sel4 qidx] = none then some (12 + qidx.toNat) else none
  | _ => none

/-- The bytes that an unfiltered row of the command takes (44_png_filter.md R308). -/
def outputRow (bppm1 : BitVec 3) (alpha a16 : Bool) (s : State) : Nat :=
  s.args.arg3.toNat +
    (if alpha then s.args.arg3.toNat / (bppm1.toNat + 1) * (if a16 then 2 else 1) else 0)

/-- The regions that are checked at decode, each as its base and its length, in order
(30_encoding.md R125, step 7 of R130; 20_memory.md R85). -/
def checkedRegions (i : Instr) (s : State) : List (Word × Nat) :=
  match i with
  | .nop => []
  | .jReset => []
  | .hbZlib _ => [(s.args.arg0, s.args.arg1.toNat)]
  | .hbJpeg _ _ => [(s.args.arg0, 16)]
  | .inflate _ => [(s.rd.inBase, s.rd.inLen.toNat), (s.out.outBase, s.out.outCap.toNat)]
  | .pngUnfilter bppm1 first alpha a16 =>
    [(s.args.arg0, 1 + s.args.arg3.toNat), (s.args.arg1, outputRow bppm1 alpha a16 s)] ++
      (if first then [] else [(s.args.arg2, outputRow bppm1 alpha a16 s)])
  | .qtLoad _ p16 => [(s.args.arg0, if p16 then 128 else 64)]
  | .coefLoad => [(s.args.arg0, 128)]
  | .coefStore => [(s.args.arg0, 128)]
  | .idct _ _ => [(s.args.arg0, 7 * s.args.arg1.toNat + 8)]
  | _ => [(s.rd.inBase, s.rd.inLen.toNat)]

/-- The information of the first range check that fails: the region's base, or OUT_LEN for INFLATE's
`OUT_LEN ≤ OUT_CAP` (30_encoding.md R125; 60_exceptions.md R383). -/
def badRange (i : Instr) (s : State) : Option Word :=
  match (checkedRegions i s).find? (fun r => decide (2 ^ 32 < r.1.toNat + r.2)) with
  | some r => some r.1
  | none =>
    if (opcode i).toNat = 0x21 ∧ s.out.outCap.toNat < s.out.outLen.toNat then some s.out.outLen
    else none

/-- Two intervals, each a base and a length, share an address (20_memory.md R94). -/
def meets (a n b m : Nat) : Bool :=
  decide (0 < n) && decide (0 < m) && decide (a < b + m) && decide (b < a + n)

/-- The base of the output region, if it meets a region that the command reads (20_memory.md R94,
44_png_filter.md R312, 43_inflate.md R258). -/
def overlapping (i : Instr) (s : State) : Option Word :=
  match i with
  | .inflate _ =>
    if meets s.out.outBase.toNat s.out.outCap.toNat s.rd.inBase.toNat s.rd.inLen.toNat then
      some s.out.outBase
    else none
  | .pngUnfilter bppm1 first alpha a16 =>
    if meets s.args.arg1.toNat (outputRow bppm1 alpha a16 s) s.args.arg0.toNat
        (1 + s.args.arg3.toNat) ||
      (!first && meets s.args.arg1.toNat (outputRow bppm1 alpha a16 s) s.args.arg2.toNat
        (outputRow bppm1 alpha a16 s)) then
      some s.args.arg1
    else none
  | _ => none

/-- The fault that the checks of a decoded command raise first, as its code and its information
(30_encoding.md R130, steps 3 to 8; 60_exceptions.md R382, R383). -/
def valueFault (i : Instr) (s : State) : Option (Byte × Word) :=
  if illegalValues i s then some (0x01, s.ctl.cmd)
  else if let some m := wrongMode i s then some (0x02, m)
  else if let some b := missingTable i s then some (0x03, Word.ofNat b)
  else if let some a := badRange i s then some (0x04, a)
  else if let some a := overlapping i s then some (0x05, a)
  else none

/-- The fault that the decode of the latched word raises first (30_encoding.md R130). -/
def decodeFault (s : State) : Option (Byte × Word) :=
  if reservedOp (s.ctl.cmd.toNat % 256) then some (0x01, s.ctl.cmd)
  else if s.ctl.cmd.toNat / 2 ^ firstReservedBit (s.ctl.cmd.toNat % 256) ≠ 0 then
    some (0x01, s.ctl.cmd)
  else
    match decode s.ctl.cmd with
    | .ok i => valueFault i s
    | .error _ => none

/-! ### Memory -/

/-- Every address of the region answers on the engine's bus (20_memory.md R85, R88): it lies below
2^32, and no hole of MEMMAP meets it. -/
def answers (s : State) (r : Region) : Bool :=
  regionFits r &&
    s.bus.holes.all (fun h =>
      decide (r.len = 0) || decide (h.2 ≤ h.1) || decide (h.2 ≤ r.lo) || decide (r.lo + r.len ≤ h.1))

/-- The whole input buffer answers. -/
def inputAnswers (s : State) : Bool := answers s (inputRegion s)

/-- The byte of MEM at an address. -/
def byteAt (s : State) (a : Nat) : Byte := memGet s.bus.mem a

/-- Input byte `k` after the cursor (10_state.md R43, R44). -/
def inputByte (s : State) (k : Nat) : Byte :=
  byteAt s (s.rd.inBase.toNat + (s.rd.cur.toNat + k))

/-- How many input bytes the reader has not fetched yet (41_bitreader.md R163). -/
def inputLeft (s : State) : Nat := s.rd.inLen.toNat - s.rd.cur.toNat

/-- The address lies in the interval. -/
def within (a lo len : Nat) : Bool := decide (lo ≤ a) && decide (a < lo + len)

/-- The bytes that a command may write (20_memory.md R81). -/
def storedTo (i : Instr) (s : State) (a : Nat) : Bool :=
  match i with
  | .inflate _ =>
    within a (s.out.outBase.toNat + s.out.outLen.toNat) (s.out.outCap.toNat - s.out.outLen.toNat)
  | .pngUnfilter bppm1 _ alpha a16 => within a s.args.arg1.toNat (outputRow bppm1 alpha a16 s)
  | .coefStore => within a s.args.arg0.toNat 128
  | .idct _ _ =>
    (List.range 8).any (fun r => within a (s.args.arg0.toNat + r * s.args.arg1.toNat) 8)
  | _ => false

/-- The bytes that a command may read (20_memory.md R81); INFLATE reads back what it writes, which
`storedTo` counts. -/
def loadedFrom (i : Instr) (s : State) (a : Nat) : Bool :=
  match i with
  | .nop => false
  | .brInit _ => false
  | .jReset => false
  | .coefStore => false
  | .idct _ _ => false
  | .hbZlib _ => within a s.args.arg0.toNat s.args.arg1.toNat
  | .hbJpeg _ _ =>
    within a s.args.arg0.toNat
      (16 + ((List.range 16).map (fun k => (byteAt s (s.args.arg0.toNat + k)).toNat)).sum)
  | .qtLoad _ p16 => within a s.args.arg0.toNat (if p16 then 128 else 64)
  | .coefLoad => within a s.args.arg0.toNat 128
  | .pngUnfilter bppm1 first alpha a16 =>
    within a s.args.arg0.toNat (1 + s.args.arg3.toNat) ||
      (!first && within a s.args.arg2.toNat (outputRow bppm1 alpha a16 s))
  | .inflate _ =>
    within a s.rd.inBase.toNat s.rd.inLen.toNat || within a s.out.outBase.toNat s.out.outLen.toNat
  | _ => within a s.rd.inBase.toNat s.rd.inLen.toNat

/-- Byte `j` of COEF's 128 bytes in memory order (45_jpeg_idct.md R342). -/
def coefByte (s : State) (j : Nat) : Byte := (s.coef.getD (j / 2) 0).extractLsb' (8 * (j % 2)) 8

/-! ### The bit stream -/

/-- Bit `j` of the stream that a MODE 0 reader delivers, counting from the next bit: first the bits
in ACC, then the input bytes, each from its bit 0 up, then zeros (41_bitreader.md R151, R154). -/
def lsbStream (s : State) (j : Nat) : Bool :=
  if j < s.rd.bitcnt then s.rd.acc.getLsbD j
  else if (j - s.rd.bitcnt) / 8 < inputLeft s then
    (inputByte s ((j - s.rd.bitcnt) / 8)).getLsbD ((j - s.rd.bitcnt) % 8)
  else false

/-- The real bits left in MODE 0: those in ACC that are no pad bits, and the input's
(41_bitreader.md R155). -/
def realBits (s : State) : Nat := (s.rd.bitcnt - s.rd.padbits) + 8 * inputLeft s

/-- The data bytes of entropy-coded bytes, up to a marker or the end (41_bitreader.md R153). The flag
says that a 0xFF stands before the list: a 0x00 after it is discarded, a further 0xFF is a fill byte,
any other byte makes it a marker. -/
def destuff : Bool → List Byte → List Byte
  | _, [] => []
  | false, b :: bs => if b = 0xFF then destuff true bs else b :: destuff false bs
  | true, b :: bs =>
    if b = 0xFF then destuff true bs else if b = 0x00 then 0xFF :: destuff false bs else []

/-- The data bytes that a MODE 1 reader has not fetched yet: none after a marker (41_bitreader.md
R153). -/
def dataLeft (s : State) : List Byte :=
  if s.rd.nomore then [] else destuff false ((List.range (inputLeft s)).map (inputByte s))

/-- Bit `j` of the stream that a MODE 1 reader delivers, counting from the next bit: first the bits
in ACC from bit 31 down, then the data bytes, each from its bit 7 down, then zeros
(41_bitreader.md R152, R153). -/
def msbStream (s : State) (j : Nat) : Bool :=
  if j < s.rd.bitcnt then s.rd.acc.getLsbD (31 - j)
  else ((dataLeft s).getD ((j - s.rd.bitcnt) / 8) 0).getLsbD (7 - (j - s.rd.bitcnt) % 8)

/-- The number whose bits are `n` stream bits, the first one lowest (41_bitreader.md R151). -/
def lowFirst (b : Nat → Bool) : Nat → Nat
  | 0 => 0
  | n + 1 => (b 0).toNat + 2 * lowFirst (fun j => b (j + 1)) n

/-- The number whose bits are `n` stream bits, the first one highest (41_bitreader.md R152). -/
def highFirst (b : Nat → Bool) : Nat → Nat
  | 0 => 0
  | n + 1 => 2 * highFirst b n + (b n).toNat

/-- A reader reached from `s` by consuming exactly `n` bits in MODE 0: the operands and the mode stay,
and the stream goes on at bit `n` (41_bitreader.md R151, R160). -/
def lsbAdvanced (n : Nat) (s : State) (r : Reader) : Prop :=
  r.mode = s.rd.mode ∧ r.inBase = s.rd.inBase ∧ r.inLen = s.rd.inLen ∧
    r.nomore = s.rd.nomore ∧ r.marker = s.rd.marker ∧ readerOk r = true ∧
    ∀ j, lsbStream { s with rd := r } j = lsbStream s (j + n)

/-- A reader reached from `s` by consuming exactly `n` bits in MODE 1 (41_bitreader.md R152, R160). -/
def msbAdvanced (n : Nat) (s : State) (r : Reader) : Prop :=
  r.mode = s.rd.mode ∧ r.inBase = s.rd.inBase ∧ r.inLen = s.rd.inLen ∧ readerOk r = true ∧
    ∀ j, msbStream { s with rd := r } j = msbStream s (j + n)

/-! ### Canonical codes -/

/-- `first[l]` for per-length counts (42_huffman.md R203): the counts from length 1 on. -/
def canonFirst (count : Nat → Nat) : Nat → Nat
  | 0 => 0
  | 1 => 0
  | l + 2 => (canonFirst count (l + 1) + count (l + 1)) * 2

/-- The code that 42_huffman.md R205 gives symbol `sym`: the first code of its length, and one more
for each earlier symbol of that length. -/
def canonCode (lens : List Nat) (sym : Nat) : Nat :=
  canonFirst (fun l => lens.count l) (lens.getD sym 0) + (lens.take sym).count (lens.getD sym 0)

/-- Length `l`'s codes fail the checks of 42_huffman.md R203. -/
def overfull (count : Nat → Nat) (l : Nat) : Bool :=
  decide (2 ^ l < count l) ||
    (decide (0 < count l) && decide (2 ^ l ≤ canonFirst count l + count l - 1))

/-- Code bit `j` of an `l`-bit code, counting from the first one read (42_huffman.md R208, R209). -/
def codeBit (l code j : Nat) : Bool := code.testBit (l - 1 - j)

/-- An entry's code is what the stream `b` begins with. -/
def codeNext (l code : Nat) (b : Nat → Bool) : Bool :=
  (List.range l).all (fun j => b j == codeBit l code j)

/-! ### DEFLATE blocks -/

/-- The code of a literal in the fixed LITLEN table, first bit first (43_inflate.md R254): 8 bits
from `00110000` for 0..143, 9 bits from `110010000` for 144..255. -/
def fixedLiteral (b : Byte) : List Bool :=
  if b.toNat ≤ 143 then (List.range 8).map (codeBit 8 (0x30 + b.toNat))
  else (List.range 9).map (codeBit 9 (0x190 + (b.toNat - 144)))

/-- One step of compressed data: a literal, or a match given by its length entry `i` (symbol 257 + i)
with its extra number, and its distance symbol with its extra number (43_inflate.md R264). -/
inductive Token where
  | literal (b : Byte)
  | copy (i lenExtra d distExtra : Nat)
  deriving DecidableEq, Repr

/-- The length and the code of a symbol; length 0 where it has none (42_huffman.md R203). -/
def codeOf (tbl : ZTable) (sym : Nat) : ZCode := tbl.syms.getD sym ⟨0, 0⟩

/-- The symbol has a code. -/
def hasCode (tbl : ZTable) (sym : Nat) : Bool := (codeOf tbl sym).len != 0

/-- The code of a symbol, first bit first (42_huffman.md R208). -/
def codeBits (tbl : ZTable) (sym : Nat) : List Bool :=
  (List.range (codeOf tbl sym).len).map (codeBit (codeOf tbl sym).len (codeOf tbl sym).code)

/-- No code of the table is what the stream `b` begins with. -/
def noneNext (tbl : ZTable) (b : Nat → Bool) : Bool :=
  tbl.syms.all (fun e => e.len == 0 || !codeNext e.len e.code b)

/-- The bits of an `n`-bit number, the lowest first (41_bitreader.md R151). -/
def lowBits (n v : Nat) : List Bool := (List.range n).map v.testBit

/-- The length symbol of entry `i` and its extra bits (43_inflate.md R251, R264). -/
def lengthBits (ll : ZTable) (i e : Nat) : List Bool :=
  codeBits ll (257 + i) ++ lowBits (lengthExtras.getD i 0) e

/-- The bits of a token (43_inflate.md R251, R252, R264). -/
def tokenBits (ll dt : ZTable) (t : Token) : List Bool :=
  match t with
  | .literal b => codeBits ll b.toNat
  | .copy i e d f => lengthBits ll i e ++ codeBits dt d ++ lowBits (distExtras.getD d 0) f

/-- Compressed data: the tokens, then end of block (43_inflate.md R264, R266). -/
def compressedBits (ll dt : ZTable) (ts : List Token) : List Bool :=
  ts.flatMap (tokenBits ll dt) ++ codeBits ll 256

/-- The length of a match (43_inflate.md R251, R264). -/
def matchLength (i e : Nat) : Nat := lengthBases.getD i 0 + e

/-- The distance of a match (43_inflate.md R252, R264). -/
def matchDistance (d f : Nat) : Nat := distBases.getD d 0 + f

/-- The symbols of a token are legal ones and have codes, and its extra numbers have no more bits than
they may (43_inflate.md R264, R267, R268). -/
def tokenCoded (ll dt : ZTable) (t : Token) : Bool :=
  match t with
  | .literal b => hasCode ll b.toNat
  | .copy i e d f =>
    decide (i < 29) && hasCode ll (257 + i) && decide (e < 2 ^ lengthExtras.getD i 0) &&
      decide (d < 30) && hasCode dt d && decide (f < 2 ^ distExtras.getD d 0)

/-- The output after a token, from the output `w` on: a literal appends its byte, a match repeats the
last `dist` bytes (43_inflate.md R265, R269). -/
def appendToken (t : Token) (w : List Byte) : List Byte :=
  match t with
  | .literal b => w ++ [b]
  | .copy i e d f =>
    w ++ (List.range (matchLength i e)).map
      (fun j => w.getD (w.length - matchDistance d f + j % matchDistance d f) 0)

/-- The distance of a token passes no more than the output `w` (43_inflate.md R268). -/
def tokenReaches (t : Token) (w : List Byte) : Bool :=
  match t with
  | .literal _ => true
  | .copy _ _ d f => decide (matchDistance d f ≤ w.length)

/-- The output after the tokens, from the output `w` on; `none` where one of them is no legal token
there. -/
def expandTokens (ll dt : ZTable) : List Token → List Byte → Option (List Byte)
  | [], w => some w
  | t :: ts, w =>
    if tokenCoded ll dt t && tokenReaches t w then expandTokens ll dt ts (appendToken t w) else none

/-- The fault of a token that stands where the output is `w`, in the order of 43_inflate.md R271: the
code, its information, and the bits that are consumed before it; `none` where there is none, or where
the token's bits are no codes. -/
def tokenFault (ll dt : ZTable) (cap : Nat) (w : List Byte) (t : Token) :
    Option (Byte × Nat × List Bool) :=
  match t with
  | .literal b =>
    if hasCode ll b.toNat && decide (cap ≤ w.length) then
      some (0x0F, w.length + 1, codeBits ll b.toNat)
    else none
  | .copy i e d f =>
    if !hasCode ll (257 + i) then none
    else if 29 ≤ i then some (0x0A, 257 + i, codeBits ll (257 + i))
    else if 2 ^ lengthExtras.getD i 0 ≤ e ∨ !hasCode dt d then none
    else if 30 ≤ d then some (0x0A, d, lengthBits ll i e ++ codeBits dt d)
    else if 2 ^ distExtras.getD d 0 ≤ f then none
    else if w.length < matchDistance d f then some (0x0E, matchDistance d f, tokenBits ll dt t)
    else if cap < w.length + matchLength i e then
      some (0x0F, w.length + matchLength i e, tokenBits ll dt t)
    else none

/-- One item of a dynamic header: a code-length symbol 0..18 and its extra number (43_inflate.md
R263). -/
structure LengthItem where
  code : Nat
  extra : Nat
  deriving DecidableEq, Repr

/-- How many extra bits follow a code-length symbol (43_inflate.md R263). -/
def itemExtra (c : Nat) : Nat := if c = 16 then 2 else if c = 17 then 3 else if c = 18 then 7 else 0

/-- The lengths that an item appends to the lengths so far: one length, 3 to 6 times the last one, 3 to
10 or 11 to 138 zeros; `none` where code 16 has no length before it (43_inflate.md R263). -/
def itemLengths (x : LengthItem) (lens : List Nat) : Option (List Nat) :=
  if x.code < 16 then some [x.code]
  else if x.code = 16 then lens.getLast?.map (fun v => List.replicate (3 + x.extra) v)
  else if x.code = 17 then some (List.replicate (3 + x.extra) 0)
  else some (List.replicate (11 + x.extra) 0)

/-- The item's symbol has a code, and its extra number has no more bits than it may. -/
def itemCoded (ct : ZTable) (x : LengthItem) : Bool :=
  hasCode ct x.code && decide (x.extra < 2 ^ itemExtra x.code)

/-- The bits of an item (43_inflate.md R263). -/
def lengthItemBits (ct : ZTable) (x : LengthItem) : List Bool :=
  codeBits ct x.code ++ lowBits (itemExtra x.code) x.extra

/-- The lengths after the items, from `lens` on; `none` where an item has no code, or stands after the
last of the `total` lengths, or passes it, or repeats nothing (43_inflate.md R263). -/
def expandItems (ct : ZTable) (total : Nat) : List LengthItem → List Nat → Option (List Nat)
  | [], lens => some lens
  | x :: xs, lens =>
    match itemLengths x lens with
    | none => none
    | some more =>
      if itemCoded ct x && decide (lens.length < total) && decide (lens.length + more.length ≤ total)
      then expandItems ct total xs (lens ++ more)
      else none

/-- The lengths of the 19 code-length symbols, of which `cl` gives the first ones in the order of
CLORDER (43_inflate.md R253, R262). -/
def clLengths (cl : List Nat) : List Nat :=
  (List.range 19).map (fun sym => cl.getD (clOrder.idxOf sym) 0)

/-- The LITLEN lengths: the first HLIT lengths, then zeros (43_inflate.md R263). -/
def litlenLengths (hlit : Nat) (lens : List Nat) : List Nat :=
  (List.range 288).map (fun sym => if sym < hlit then lens.getD sym 0 else 0)

/-- The DIST lengths: the lengths from HLIT on, then zeros (43_inflate.md R263). -/
def distLengths (hlit : Nat) (lens : List Nat) : List Nat :=
  (List.range 32).map (fun sym => lens.getD (hlit + sym) 0)

/-- The lengths of the fixed LITLEN table (43_inflate.md R254). -/
def fixedLitlenLengths : List Nat :=
  (List.range 288).map (fun sym =>
    if sym ≤ 143 then 8 else if sym ≤ 255 then 9 else if sym ≤ 279 then 7 else 8)

/-- What precedes the compressed data of a block: nothing, or a dynamic header with HLIT, HDIST, the
HCLEN code-length lengths and the items (43_inflate.md R261 to R263). -/
inductive BlockHead where
  | fixed
  | dynamic (hlit hdist : Nat) (cl : List Nat) (items : List LengthItem)
  deriving DecidableEq, Repr

/-- The tables of a block; `clen` where it builds one. -/
structure BlockTables where
  ll : ZTable
  dt : ZTable
  clen : Option ZTable
  deriving DecidableEq, Repr

/-- HLIT, HDIST and HCLEN are in their ranges, and each code-length length is a 3-bit number
(43_inflate.md R262). -/
def countsFit (hlit hdist : Nat) (cl : List Nat) : Bool :=
  decide (257 ≤ hlit) && decide (hlit ≤ 288) && decide (1 ≤ hdist) && decide (hdist ≤ 32) &&
    decide (4 ≤ cl.length) && decide (cl.length ≤ 19) && cl.all (fun l => decide (l < 8))

/-- The tables that a block's head builds; `none` where it is no legal one (43_inflate.md R261 to
R263). -/
def headTables (h : BlockHead) : Option BlockTables :=
  match h with
  | .fixed =>
    match zBuild fixedLitlenLengths, zBuild (List.replicate 32 5) with
    | .ok ll, .ok dt => some { ll := ll, dt := dt, clen := none }
    | _, _ => none
  | .dynamic hlit hdist cl items =>
    match zBuild (clLengths cl) with
    | .error _ => none
    | .ok ct =>
      match expandItems ct (hlit + hdist) items [] with
      | none => none
      | some lens =>
        match zBuild (litlenLengths hlit lens), zBuild (distLengths hlit lens) with
        | .ok ll, .ok dt =>
          if countsFit hlit hdist cl && lens.length == hlit + hdist then
            some { ll := ll, dt := dt, clen := some ct }
          else none
        | _, _ => none

/-- The three counts and the code-length lengths of a dynamic header (43_inflate.md R262). -/
def countBits (hlit hdist : Nat) (cl : List Nat) : List Bool :=
  lowBits 5 (hlit - 257) ++ lowBits 5 (hdist - 1) ++ lowBits 4 (cl.length - 4) ++
    cl.flatMap (lowBits 3)

/-- BTYPE as a 2-bit number (43_inflate.md R259). -/
def headType (h : BlockHead) : BitVec 2 :=
  match h with
  | .fixed => 1
  | .dynamic _ _ _ _ => 2

/-- The bits of a block before its compressed data: BFINAL, BTYPE, and the dynamic header (43_inflate.md
R259, R262, R263). -/
def headBits (final : Bool) (h : BlockHead) (b : BlockTables) : List Bool :=
  match h with
  | .fixed => [final, true, false]
  | .dynamic hlit hdist cl items =>
    [final, false, true] ++ countBits hlit hdist cl ++
      items.flatMap (lengthItemBits (b.clen.getD ⟨[]⟩))

/-- The three DEFLATE slots after a block's tables are built (43_inflate.md R261 to R263). -/
def tablesAfter (b : BlockTables) (zt : Vector (Option ZTable) 3) : Vector (Option ZTable) 3 :=
  match b.clen with
  | none => (zt.set 0 (some b.ll)).set 1 (some b.dt)
  | some ct => ((zt.set 2 (some ct)).set 0 (some b.ll)).set 1 (some b.dt)

/-- The bytes already in the output (10_state.md R47). -/
def window (s : State) : List Byte :=
  (List.range s.out.outLen.toNat).map (fun k => byteAt s (s.out.outBase.toNat + k))

/-- MEM holds the output `w` from OUT_BASE on, and is else as before. -/
def outputIs (s : State) (w : List Byte) (mem : Memory) : Prop :=
  ∀ a, memGet mem a =
    if within a s.out.outBase.toNat w.length then w.getD (a - s.out.outBase.toNat) 0 else byteAt s a

/-- INFLATE passes its checks, on an input and an output that answer, with a MODE 0 reader that holds no
pad bit (43_inflate.md R258). -/
def readyToInflate (s : State) : Bool :=
  s.rd.mode == .lsb && readerOk s.rd && s.rd.padbits == 0 && inputAnswers s &&
    answers s (outputRegion s) && decide (s.out.outLen.toNat ≤ s.out.outCap.toNat) &&
    (overlapping (.inflate false) s).isNone && Memory.wf s.bus.mem

/-- The MODE 0 stream begins with the bits; past the end of the input it goes on with zeros. -/
def beginsWith (s : State) (bits : List Bool) : Prop :=
  ∀ j, j < bits.length → lsbStream s j = bits.getD j false

/-- INFLATE in `s`, having consumed exactly `bits`, all of them real, raises a fault: ZBTYPE is written,
ZFINAL clear, the DEFLATE slots are `zt`, and the output is `w` (43_inflate.md R258; 60_exceptions.md
R384, R385). -/
def InflateFaults (stepMode : Bool) (s : State) (btype : BitVec 2) (zt : Vector (Option ZTable) 3)
    (w : List Byte) (bits : List Bool) (code : Byte) (info : Word) : Prop :=
  ∃ (r : Reader) (mem : Memory),
    exec (.inflate stepMode) s = .next
      (faulted code info
        { s with
          rd := r
          out := { s.out with outLen := Word.ofNat w.length, zfinal := false, zbtype := btype }
          tab := { s.tab with zt := zt }
          bus := { s.bus with mem := mem } }) ∧
    lsbAdvanced bits.length s r ∧ r.ovr = s.rd.ovr ∧ outputIs s w mem

/-- The stream's bit at which the first whole byte after the three header bits of a block begins: the
rest of the partly read byte is discarded (43_inflate.md R260). -/
def storedAt (s : State) : Nat := 3 + (s.rd.bitcnt + 5) % 8

/-- Byte `k` of the MODE 0 stream from that bit on. -/
def storedByte (s : State) (k : Nat) : Nat :=
  lowFirst (fun j => lsbStream s (storedAt s + 8 * k + j)) 8

/-- The reader after a stored block's `n` whole bytes: they and the header are consumed, and ACC is
empty (43_inflate.md R260). -/
def storedReader (s : State) (n : Nat) : Reader :=
  { s.rd with
    cur := s.rd.cur + Word.ofNat ((storedAt s + 8 * n - s.rd.bitcnt) / 8), acc := 0, bitcnt := 0 }

/-! ### JPEG blocks -/

/-- The bits of an `n`-bit number, the highest first (45_jpeg_idct.md R331). -/
def bitsOf (n v : Nat) : List Bool := (List.range n).map (codeBit n v)

/-- One AC item of an encoded block: the table entry of its symbol, and its extra bits as a number
(45_jpeg_idct.md R337). -/
structure AcItem where
  entry : Nat
  extra : Nat
  deriving DecidableEq, Repr

/-- The category of an item: how many extra bits follow its code (45_jpeg_idct.md R337). -/
def itemSize (ac : JTable) (x : AcItem) : Nat := (jEntry ac x.entry).val.toNat % 16

/-- The bits of an item: its code, then its extra bits (45_jpeg_idct.md R335). -/
def itemBits (ac : JTable) (x : AcItem) : List Bool :=
  bitsOf (jEntry ac x.entry).size (jEntry ac x.entry).code ++ bitsOf (itemSize ac x) x.extra

/-- COEF and the zigzag position after the items, from position `k` on; `none` where an item is no
coefficient and no ZRL, or runs past position 63, or stands after the block's end
(45_jpeg_idct.md R335, R337). -/
def placeItems (ac : JTable) : List AcItem → Nat → Vector Half 64 → Option (Nat × Vector Half 64)
  | [], k, c => some (k, c)
  | x :: xs, k, c =>
    let rs := (jEntry ac x.entry).val.toNat
    if 64 ≤ k ∨ ac.entries.length ≤ x.entry ∨ 2 ^ (rs % 16) ≤ x.extra then none
    else if rs % 16 = 0 then
      if rs = 0xF0 then placeItems ac xs (k + 16) c else none
    else if 63 < k + rs / 16 then none
    else
      placeItems ac xs (k + rs / 16 + 1)
        (c.setIfInBounds (zz (k + rs / 16)) (BitVec.ofInt 16 (extend x.extra (rs % 16))))

/-- An entry that ends a block: category 0, and not ZRL (45_jpeg_idct.md R337). -/
def isEob (ac : JTable) (e : Nat) : Bool :=
  decide (e < ac.entries.length) && decide ((jEntry ac e).val.toNat % 16 = 0) &&
    decide ((jEntry ac e).val.toNat ≠ 0xF0)

/-- The bits of an encoded block from its DC code to its items (45_jpeg_idct.md R335). -/
def openBlockBits (dc ac : JTable) (d v : Nat) (xs : List AcItem) : List Bool :=
  bitsOf (jEntry dc d).size (jEntry dc d).code ++ bitsOf (jEntry dc d).val.toNat v ++
    xs.flatMap (itemBits ac)

/-- The bits of an encoded block: the DC code and its extra bits, the items, and the end-of-block
code unless the items fill the block (45_jpeg_idct.md R335). -/
def blockBits (dc ac : JTable) (d v : Nat) (xs : List AcItem) (k eob : Nat) : List Bool :=
  openBlockBits dc ac d v xs ++
    (if k < 64 then bitsOf (jEntry ac eob).size (jEntry ac eob).code else [])

/-- The real bits left in MODE 1: those in ACC that are no pad bits, and the data bytes'
(41_bitreader.md R153, R155). -/
def realBitsMsb (s : State) : Nat := s.rd.bitcnt - s.rd.padbits + 8 * (dataLeft s).length

/-- The MODE 1 stream begins with the bits; after the data bytes it goes on with zeros. -/
def beginsWithMsb (s : State) (bits : List Bool) : Prop :=
  ∀ j, j < bits.length → msbStream s j = bits.getD j false

/-- J_DECODE_BLOCK in `s`, having consumed exactly `bits`, raises a fault with COEF and DCPRED as given
(45_jpeg_idct.md R336, R337; 60_exceptions.md R384, R385). -/
def BlockFaults (i : Instr) (s : State) (coef : Vector Half 64) (dcpred : Vector Word 4)
    (bits : List Bool) (code : Byte) (info : Word) : Prop :=
  ∃ r : Reader,
    exec i s = .next (faulted code info { s with rd := r, coef := coef, dcpred := dcpred }) ∧
    msbAdvanced bits.length s r ∧
    (s.rd.padbits = 0 → r.ovr = (s.rd.ovr || decide (realBitsMsb s < bits.length)))

/-! ### Rows and pixels -/

/-- The neighbour nearest to `a + b - c`, `a` before `b` before `c` (44_png_filter.md R306). -/
def nearest (a b c : Nat) : Nat :=
  let p : Int := (a : Int) + (b : Int) - (c : Int)
  let miss (v : Nat) : Nat := (p - (v : Int)).natAbs
  if miss a ≤ miss b ∧ miss a ≤ miss c then a else if miss b ≤ miss c then b else c

/-- The forward filter's and the unfilter's predictor, by the table of 44_png_filter.md R301: `left`
gives a reconstructed byte, `above` one of the prior row; both are 0 outside the row, and `above` is 0
in a first row (R302). -/
def predicted (ft bpp k : Nat) (left above : Nat → Byte) : Byte :=
  let a := if bpp ≤ k then (left (k - bpp)).toNat else 0
  let b := (above k).toNat
  let c := if bpp ≤ k then (above (k - bpp)).toNat else 0
  Byte.ofNat
    (if ft = 0 then 0
    else if ft = 1 then a
    else if ft = 2 then b
    else if ft = 3 then (a + b) / 2
    else nearest a b c)

/-- An integer read as an s32 (45_jpeg_idct.md R349). -/
def s32 (v : Int) : Int := v.bmod (2 ^ 32)

/-- Output `k` of the 1-D kernel on `s 0` to `s 7`, the rounding constant `bias` added, in exact integers
(45_jpeg_idct.md R345 to R348). -/
def kernelOut (bias : Int) (s : Nat → Int) (k : Nat) : Int :=
  let t0 := (s 0 + s 4) * 4096
  let t1 := (s 0 - s 4) * 4096
  let t2 := (s 2 + s 6) * 2217 + s 6 * -7567
  let t3 := (s 2 + s 6) * 2217 + s 2 * 3135
  let p5 := (s 7 + s 3 + (s 5 + s 1)) * 4816
  let p1 := p5 + (s 7 + s 1) * -3685
  let p2 := p5 + (s 5 + s 3) * -10497
  let p3 := (s 7 + s 3) * -8034
  let p4 := (s 5 + s 1) * -1597
  let even : Nat → Int := fun m =>
    if m = 0 then t0 + t3 + bias
    else if m = 1 then t1 + t2 + bias
    else if m = 2 then t1 - t2 + bias
    else t0 - t3 + bias
  let odd : Nat → Int := fun m =>
    if m = 0 then s 1 * 6149 + p1 + p4
    else if m = 1 then s 3 * 12586 + p2 + p3
    else if m = 2 then s 5 * 8410 + p2 + p4
    else s 7 * 1223 + p1 + p3
  if k < 4 then even k + odd k else even (7 - k) - odd (7 - k)

/-- `V[8r + i]`: the column pass, its shift an arithmetic one (45_jpeg_idct.md R347). -/
def columnAt (x : Nat → Word) (r i : Nat) : Int :=
  s32 (kernelOut 512 (fun j => (x (8 * j + i)).toInt) r) / 2 ^ 10

/-- `PIX[8r + c]` of the inverse transform of the words `x`: the row pass and the clamp
(45_jpeg_idct.md R343, R348). -/
def pixelAt (x : Nat → Word) (r c : Nat) : Byte :=
  Byte.ofNat
    (max 0 (min 255
      (s32 (kernelOut (65536 + 128 * 2 ^ 17) (fun j => columnAt x r j) c) / 2 ^ 17))).toNat

end Sys2Proof.Machine
end

