-- ==== Sys2Proof/Certificates/Slice0/Obligations.lean ====
section
/-! DEFINITION. The statements for the provers. Each is about every state and every operand that its
hypotheses allow; the hypotheses on a state are the spec's conditions, and parts of the invariant
`State.inv` where only a state that no run reaches could break the statement. -/

open Sys2Proof Sys2Proof.Machine

/-! ### Encoding -/

/-- 30_encoding.md R110 to R127: decoding and encoding are inverse to each other, for every command with
every operand, and for every word: no bit of a command is dropped, no two words are one command, and
every reserved bit is checked. -/
def Obligations.DecodeInvertsEncode : Prop :=
  (∀ i : Instr, decode (encode i) = .ok i) ∧
    ∀ (w : Word) (i : Instr), decode w = .ok i → encode i = w

/-- The example words of 30_encoding.md R131, one for each command. -/
def Obligations.SpelledWordsDecode : Prop :=
  decode 0x00000000 = .ok .nop ∧
  decode 0x00000101 = .ok (.brInit .msb) ∧
  decode 0x00000502 = .ok (.brGetbits 5) ∧
  decode 0x00001003 = .ok (.brPeekbits 16) ∧
  decode 0x00000004 = .ok .brAlign ∧
  decode 0x00000C05 = .ok (.brReadbytes 4 true) ∧
  decode 0x00000110 = .ok (.hbZlib 1) ∧
  decode 0x00000311 = .ok (.hbJpeg .ac 1) ∧
  decode 0x00000012 = .ok (.hdZlib 0) ∧
  decode 0x00000013 = .ok (.hdJpeg .dc 0) ∧
  decode 0x00000020 = .ok .zHeader ∧
  decode 0x00000021 = .ok (.inflate false) ∧
  decode 0x00000A30 = .ok (.pngUnfilter 2 true false false) ∧
  decode 0x00000640 = .ok (.qtLoad 2 true) ∧
  decode 0x00000341 = .ok (.jReceive 3) ∧
  decode 0x00002442 = .ok (.jDecodeBlock 0 1 2) ∧
  decode 0x00000043 = .ok .jReset ∧
  decode 0x00000044 = .ok .jRestart ∧
  decode 0x00000045 = .ok .coefLoad ∧
  decode 0x00000046 = .ok .coefStore ∧
  decode 0x00000347 = .ok (.idct true 1)

/-- 30_encoding.md R126, R127: a reserved opcode, and a set reserved bit, raise `E_ILLEGAL` with the
word, and nothing else happens; every other word is a command. -/
def Obligations.ReservedWordsRaiseIllegal : Prop :=
  (∀ w : Word,
    (decode w = .error .reservedOpcode ↔ reservedOp (w.toNat % 256) = true) ∧
    (reservedOp (w.toNat % 256) = false →
      (decode w = .error .reservedBits ↔ w.toNat / 2 ^ firstReservedBit (w.toNat % 256) ≠ 0))) ∧
  ∀ s : State, s.ctl.estate = .busy → s.env.events = [] →
    (reservedOp (s.ctl.cmd.toNat % 256) = true ∨
      s.ctl.cmd.toNat / 2 ^ firstReservedBit (s.ctl.cmd.toNat % 256) ≠ 0) →
    step s = .next (faulted 0x01 s.ctl.cmd s)

/-- 30_encoding.md R125, R128, R130: the checks in their order, from the latched word on; the first
that fails is the command's fault, and nothing else happens. Each illegal field or operand value of
R128 raises `E_ILLEGAL` with the word. -/
def Obligations.DecodeChecksInOrder : Prop :=
  (∀ (i : Instr) (s : State) (code : Byte) (info : Word), valueFault i s = some (code, info) →
    exec i s = .next (faulted code info s)) ∧
  ∀ (s : State) (code : Byte) (info : Word), s.ctl.estate = .busy → s.env.events = [] →
    decodeFault s = some (code, info) → step s = .next (faulted code info s)

/-! ### Sequencing -/

/-- A step runs the command of the latched word when the engine is BUSY and has the turn, either
because nothing is scheduled or because the schedule says so; in IDLE and FAULT the engine's turn does
nothing (10_state.md R40, R63; 60_exceptions.md R386, R402; the schedule is the model's, log 4). -/
def Obligations.StepRunsDecodedCommand : Prop :=
  ∀ (s : State) (rest : List Event) (i : Instr),
    (s.ctl.estate = .busy → decode s.ctl.cmd = .ok i →
      (s.env.events = [] → step s = exec i s) ∧
      (s.env.events = .engine :: rest →
        step s = exec i { s with env := { s.env with events := rest } })) ∧
    (s.ctl.estate ≠ .busy →
      (s.env.events = [] → step s = .next s) ∧
      (s.env.events = .engine :: rest →
        step s = .next { s with env := { s.env with events := rest } }))

/-- 10_state.md R40: a host write of CMD starts the command in IDLE, and is ignored and sets DROP in
BUSY and FAULT; the started command is the one the next engine turn runs, and a word that is no
command raises `E_ILLEGAL` then; CMD reads 0. -/
def Obligations.CmdWriteStartsCommand : Prop :=
  ∀ (s : State) (w : Word) (rest : List Event),
    (s.env.events = .regWrite (s.env.regBase + 0x10) 4 w :: rest →
      (s.ctl.estate = .idle →
        step s = .next
          { s with
            ctl := { s.ctl with estate := .busy, cmd := w }
            env := { s.env with events := rest } } ∧
        ∀ i, decode w = .ok i → rest = [] →
          step { s with
              ctl := { s.ctl with estate := .busy, cmd := w }
              env := { s.env with events := rest } } =
            exec i { s with
              ctl := { s.ctl with estate := .busy, cmd := w }
              env := { s.env with events := rest } }) ∧
      (s.ctl.estate = .idle → ∀ e, decode w = .error e → rest = [] →
        step { s with
            ctl := { s.ctl with estate := .busy, cmd := w }
            env := { s.env with events := rest } } =
          .next (faulted 0x01 w
            { s with
              ctl := { s.ctl with estate := .busy, cmd := w }
              env := { s.env with events := rest } })) ∧
      (s.ctl.estate ≠ .idle →
        step s = .next
          { s with ctl := { s.ctl with drop := true }, env := { s.env with events := rest } })) ∧
    (s.env.events = .regRead (s.env.regBase + 0x10) 4 :: rest →
      ∃ n, step s = .next
        { s with env := { s.env with events := rest, hostData := 0, freeCount := n } })

/-- 60_exceptions.md R384: a fault raised at any point of any pseudocode makes the fault entry, from
the state at that point, with the code of 60_exceptions.md R382; nothing else of the state changes. -/
def Obligations.FaultEntryRecord : Prop :=
  ∀ (act : Engine Word) (s : State) (r : Run) (c : FaultCode) (info : Word),
    act (Run.whole s) = .error (.raised c info) r →
    runCommand act s = .next (faulted (faultByte c) info r.st) ∧
    faultByte .eIllegal = 0x01 ∧ faultByte .eMode = 0x02 ∧ faultByte .eNotable = 0x03 ∧
    faultByte .eRange = 0x04 ∧ faultByte .eOverlap = 0x05 ∧ faultByte .eBus = 0x06 ∧
    faultByte .eEof = 0x07 ∧ faultByte .eAlign = 0x08 ∧ faultByte .eBadlen = 0x09 ∧
    faultByte .eBadcode = 0x0A ∧ faultByte .eZhdr = 0x0B ∧ faultByte .eBtype = 0x0C ∧
    faultByte .eNlen = 0x0D ∧ faultByte .eDist = 0x0E ∧ faultByte .eOutfull = 0x0F ∧
    faultByte .eFilter = 0x10 ∧ faultByte .eRun = 0x11

/-- 10_state.md R33, R41, R42, R50, R63; 60_exceptions.md R384: a command that ends leaves the engine
IDLE, with `IRQ.DONE` and CMDCNT written and the error registers not, or in FAULT, with the error
registers written and RES, `IRQ.DONE` and CMDCNT not. -/
def Obligations.CompletionOrFaultEntry : Prop :=
  ∀ (i : Instr) (s t : State), exec i s = .next t →
    (t.ctl.estate = .idle ∧ t.ctl.irqDone = true ∧ t.ctl.cmdcnt = s.ctl.cmdcnt + 1 ∧
      t.ctl.errCode = s.ctl.errCode ∧ t.ctl.errOp = s.ctl.errOp ∧ t.ctl.faddr = s.ctl.faddr ∧
      t.ctl.irqErr = s.ctl.irqErr) ∨
    (t.ctl.estate = .fault ∧ t.ctl.irqErr = true ∧
      1 ≤ t.ctl.errCode.toNat ∧ t.ctl.errCode.toNat ≤ 0x11 ∧
      t.ctl.errOp = s.ctl.cmd.extractLsb' 0 8 ∧
      t.ctl.res = s.ctl.res ∧ t.ctl.cmdcnt = s.ctl.cmdcnt ∧ t.ctl.irqDone = s.ctl.irqDone)

/-- 70_reset_and_hazards.md R433: every command, in every state, ends, either in IDLE or in FAULT, so the
bounds that the model puts on INFLATE's loops are never met. It says that each command ends, not where
it completes. -/
def Obligations.EveryCommandEnds : Prop :=
  ∀ (i : Instr) (s : State), ∃ t, exec i s = .next t ∧
    (t.ctl.estate = .idle ∨ t.ctl.estate = .fault)

/-- 60_exceptions.md R392: an engine access outside MEMMAP raises `E_BUS` with the address and has no
effect, so that what the accesses before it changed remains; when a command ends with `E_BUS`, FADDR
is an address outside MEMMAP; by default MEMMAP is every address. -/
def Obligations.UnmappedByteRaisesBus : Prop :=
  (∀ a, a < 2 ^ 32 → inMap State.reset.bus.holes a = true) ∧
  (∀ (r : Run) (a : Nat) (v : Byte), inMap r.st.bus.holes a = false →
    memRead a r = .error (.raised .eBus (Word.ofNat a)) r ∧
    memWrite a v r = .error (.raised .eBus (Word.ofNat a)) r) ∧
  ∀ (i : Instr) (s t : State), exec i s = .next t → t.ctl.estate = .fault → t.ctl.errCode = 0x06 →
    inMap s.bus.holes t.ctl.faddr.toNat = false

/-! ### What commands leave alone -/

/-- 10_state.md R32, R37, R43, R47: no command writes an operand register, the input and output
buffers' registers, an interrupt enable, DROP or the latched word; nor does one change the platform or
the schedule. -/
def Obligations.EngineKeepsHostRegisters : Prop :=
  ∀ (i : Instr) (s t : State), exec i s = .next t →
    t.args = s.args ∧ t.rd.inBase = s.rd.inBase ∧ t.rd.inLen = s.rd.inLen ∧
    t.out.outBase = s.out.outBase ∧ t.out.outCap = s.out.outCap ∧
    t.ctl.ieDone = s.ctl.ieDone ∧ t.ctl.ieErr = s.ctl.ieErr ∧ t.ctl.drop = s.ctl.drop ∧
    t.ctl.cmd = s.ctl.cmd ∧ t.bus.holes = s.bus.holes ∧ t.env = s.env

/-- Which commands may change each other piece of state, by opcode: MODE only BR_INIT (10_state.md
R56), the sticky flags are cleared by no other command (R57), the reader, the DEFLATE status, the
tables (R58 to R60), COEF (R61), DCPRED (R48) and MEM (20_memory.md R81) by the commands named. -/
def Obligations.StateOwnership : Prop :=
  ∀ (i : Instr) (s t : State), exec i s = .next t →
    ((opcode i).toNat ≠ 0x01 → t.rd.mode = s.rd.mode ∧
      (s.rd.eof = true → t.rd.eof = true) ∧ (s.rd.ovr = true → t.rd.ovr = true)) ∧
    ((opcode i).toNat ∈ [0x00, 0x10, 0x11, 0x30, 0x40, 0x45, 0x46, 0x47] → t.rd = s.rd) ∧
    ((opcode i).toNat ∉ [0x01, 0x21] →
      t.out.zfinal = s.out.zfinal ∧ t.out.zbtype = s.out.zbtype) ∧
    ((opcode i).toNat ≠ 0x21 → t.out.outLen = s.out.outLen) ∧
    ((opcode i).toNat ∉ [0x10, 0x21] → t.tab.zt = s.tab.zt) ∧
    ((opcode i).toNat ≠ 0x11 → t.tab.jdc = s.tab.jdc ∧ t.tab.jac = s.tab.jac) ∧
    ((opcode i).toNat ≠ 0x40 → t.tab.qt = s.tab.qt) ∧
    ((opcode i).toNat ∉ [0x42, 0x45] → t.coef = s.coef) ∧
    ((opcode i).toNat ∉ [0x42, 0x43, 0x44] → t.dcpred = s.dcpred) ∧
    ((opcode i).toNat ∉ [0x21, 0x30, 0x46, 0x47] → t.bus.mem = s.bus.mem)

/-- 20_memory.md R81: however a command ends, it has changed no byte of MEM outside the bytes the
table gives it. -/
def Obligations.StoresStayInRegions : Prop :=
  ∀ (i : Instr) (s t : State), Memory.wf s.bus.mem = true → exec i s = .next t →
    ∀ a, storedTo i s a = false → byteAt t a = byteAt s a

/-! ### The invariant -/

/-- 70_reset_and_hazards.md R423: the reset state meets the invariant. -/
def Obligations.ResetMeetsInvariant : Prop := State.reset.inv = true

/-- Every step, of the engine or of the host, keeps the invariant: the reader invariants of
10_state.md R55, the error registers of R41 and R42, canonical tables (42_huffman.md R205, R207), MEM
in its canonical form. -/
def Obligations.StepKeepsInvariant : Prop :=
  ∀ s t : State, s.inv = true → step s = .next t → t.inv = true

/-! ### The host's register accesses -/

/-- 10_state.md R32, R43, R44, R47, R48, R52, R53: in IDLE and in FAULT a host write to one of these
registers is accepted; a write of IN_CUR also empties the reader. In BUSY a write to one of them or to
CMD is ignored and sets DROP. A write to a read-only register is ignored in every state (R35). -/
def Obligations.RegisterWrites : Prop :=
  ∀ (s t : State) (off : Nat) (v : Word) (rest : List Event),
    s.env.events = .regWrite (s.env.regBase + off) 4 v :: rest →
    (s.ctl.estate ≠ .busy →
      (off, t) ∈
        [ (0x14, { s with args := { s.args with arg0 := v } }),
          (0x18, { s with args := { s.args with arg1 := v } }),
          (0x1C, { s with args := { s.args with arg2 := v } }),
          (0x20, { s with args := { s.args with arg3 := v } }),
          (0x30, { s with rd := { s.rd with inBase := v } }),
          (0x34, { s with rd := { s.rd with inLen := v } }),
          (0x38, { s with
            rd := { s.rd with
              cur := v, acc := 0, bitcnt := 0, padbits := 0, nomore := false, marker := 0xFF
              eof := false } }),
          (0x48, { s with out := { s.out with outBase := v } }),
          (0x4C, { s with out := { s.out with outCap := v } }),
          (0x50, { s with out := { s.out with outLen := v } }),
          (0x54, { s with dcpred := s.dcpred.set 0 v }),
          (0x58, { s with dcpred := s.dcpred.set 1 v }),
          (0x5C, { s with dcpred := s.dcpred.set 2 v }),
          (0x60, { s with dcpred := s.dcpred.set 3 v }) ] →
      step s = .next { t with env := { s.env with events := rest } }) ∧
    (off ∈ [0x00, 0x08, 0x24, 0x28, 0x2C, 0x3C, 0x40, 0x44, 0x64, 0x68] →
      step s = .next { s with env := { s.env with events := rest } }) ∧
    (s.ctl.estate = .busy →
      off ∈ [0x10, 0x14, 0x18, 0x1C, 0x20, 0x30, 0x34, 0x38, 0x48, 0x4C, 0x50, 0x54, 0x58, 0x5C,
        0x60] →
      step s = .next
        { s with ctl := { s.ctl with drop := true }, env := { s.env with events := rest } })

/-- 10_state.md R37, R39, 60_exceptions.md R388, R393: a host write of CTRL. SRESET, when 1, is the reset
and nothing else; else the enables take their bits in every state, and CLRERR, when 1, leaves FAULT, or
clears DROP in IDLE, or is dropped in BUSY. CTRL reads as the enables alone. A host write of IRQ, in
every engine state: a 1 clears its bit, a 0 leaves it. The interrupt output. -/
def Obligations.CtrlAndIrqWrites : Prop :=
  ∀ (s u : State) (v : Word) (rest : List Event),
    (s.env.events = .regWrite (s.env.regBase + 0x04) 4 v :: rest →
      (v.getLsbD 0 = true →
        step s = step { s with env := { s.env with events := .hardReset :: rest } }) ∧
      (v.getLsbD 0 = false →
        u = { s with
          ctl := { s.ctl with ieDone := v.getLsbD 2, ieErr := v.getLsbD 3 }
          env := { s.env with events := rest } } →
        (v.getLsbD 1 = false → step s = .next u) ∧
        (v.getLsbD 1 = true →
          (s.ctl.estate = .fault →
            step s = .next
              { u with
                ctl :=
                  { u.ctl with
                    errCode := 0, errOp := 0, faddr := 0, drop := false, estate := .idle } }) ∧
          (s.ctl.estate = .idle → step s = .next { u with ctl := { u.ctl with drop := false } }) ∧
          (s.ctl.estate = .busy → step s = .next { u with ctl := { u.ctl with drop := true } })))) ∧
    (s.env.events = .regRead (s.env.regBase + 0x04) 4 :: rest →
      ∃ n, step s = .next
        { s with
          env :=
            { s.env with
              events := rest
              hostData :=
                0#28 ++ (BitVec.ofBool s.ctl.ieErr ++ (BitVec.ofBool s.ctl.ieDone ++ 0#2))
              freeCount := n } }) ∧
    (s.env.events = .regWrite (s.env.regBase + 0x0C) 4 v :: rest →
      step s = .next
        { s with
          ctl :=
            { s.ctl with
              irqDone := s.ctl.irqDone && !v.getLsbD 0, irqErr := s.ctl.irqErr && !v.getLsbD 1 }
          env := { s.env with events := rest } }) ∧
    (irqOut s = true ↔
      (s.ctl.irqDone = true ∧ s.ctl.ieDone = true) ∨ (s.ctl.irqErr = true ∧ s.ctl.ieErr = true))

/-- 10_state.md R35, R36, R38, R41, R45, R46, R49: what a host read of each register gives when no
command is running; a read changes nothing of the HDU. The reader's counts are at most 32 in every
state that meets the invariant. -/
def Obligations.RegisterReads : Prop :=
  ∀ (s : State) (off : Nat) (v : Word) (rest : List Event),
    s.ctl.estate ≠ .busy → s.rd.bitcnt ≤ 32 → s.rd.padbits ≤ 32 →
    (off, v) ∈
      [ (0x00, 0x48550001#32),
        (0x08,
          0#22 ++ (s.out.zbtype ++ (BitVec.ofBool s.out.zfinal ++ (BitVec.ofBool s.rd.nomore ++
            (BitVec.ofBool s.rd.ovr ++ (BitVec.ofBool s.rd.eof ++
              (BitVec.ofBool (s.rd.mode == .msb) ++ (BitVec.ofBool s.ctl.drop ++
                (BitVec.ofBool (s.ctl.estate == .fault) ++
                  BitVec.ofBool (s.ctl.estate == .busy)))))))))),
        (0x0C, 0#30 ++ (BitVec.ofBool s.ctl.irqErr ++ BitVec.ofBool s.ctl.irqDone)),
        (0x14, s.args.arg0), (0x18, s.args.arg1), (0x1C, s.args.arg2), (0x20, s.args.arg3),
        (0x24, s.ctl.res),
        (0x28, 0#16 ++ (s.ctl.errOp ++ s.ctl.errCode)),
        (0x2C, s.ctl.faddr), (0x30, s.rd.inBase), (0x34, s.rd.inLen), (0x38, s.rd.cur),
        (0x3C, s.rd.acc),
        (0x40, 0#18 ++ (BitVec.ofNat 6 s.rd.padbits ++ (0#2 ++ BitVec.ofNat 6 s.rd.bitcnt))),
        (0x44, 0#24 ++ s.rd.marker),
        (0x48, s.out.outBase), (0x4C, s.out.outCap), (0x50, s.out.outLen),
        (0x54, s.dcpred[0]), (0x58, s.dcpred[1]), (0x5C, s.dcpred[2]), (0x60, s.dcpred[3]),
        (0x64,
          0#16 ++ (BitVec.ofBool s.tab.qt[3].isSome ++ (BitVec.ofBool s.tab.qt[2].isSome ++
            (BitVec.ofBool s.tab.qt[1].isSome ++ (BitVec.ofBool s.tab.qt[0].isSome ++
            (BitVec.ofBool s.tab.jac[3].isSome ++ (BitVec.ofBool s.tab.jac[2].isSome ++
            (BitVec.ofBool s.tab.jac[1].isSome ++ (BitVec.ofBool s.tab.jac[0].isSome ++
            (BitVec.ofBool s.tab.jdc[3].isSome ++ (BitVec.ofBool s.tab.jdc[2].isSome ++
            (BitVec.ofBool s.tab.jdc[1].isSome ++ (BitVec.ofBool s.tab.jdc[0].isSome ++
            (0#1 ++ (BitVec.ofBool s.tab.zt[2].isSome ++ (BitVec.ofBool s.tab.zt[1].isSome ++
              BitVec.ofBool s.tab.zt[0].isSome)))))))))))))))),
        (0x68, s.ctl.cmdcnt) ] →
    s.env.events = .regRead (s.env.regBase + off) 4 :: rest →
    step s = .next { s with env := { s.env with events := rest, hostData := v } }

/-- 10_state.md R52, R57: a host read while BUSY. A register that R52 does not name, and every bit of
STATUS but EOF, OVR and NOMORE, reads its current value, as it would in IDLE: that MODE, ZFINAL and ZBTYPE
so keep their values at the start while BR_INIT or INFLATE runs is the model's reading (log 7, DEDUCED),
not R52's words. A register that R52 names, and EOF, OVR and NOMORE, show the value in one state that the
running command passes through, from its start to its end; so one that the command never writes reads its
current value, RES, ERR and FADDR read the old value or one that the end gives, and a register that BR_INIT
clears reads the old value or the new one. Which state a read shows is the model's free value (log 7). -/
def Obligations.BusyReads : Prop :=
  ∀ (s p idle t : State) (i : Instr) (off : Nat) (rest : List Event),
    s.ctl.estate = .busy → decode s.ctl.cmd = .ok i → off < 0x100 → off % 4 = 0 →
    s.env.events = .regRead (s.env.regBase + off) 4 :: rest →
    p = { s with env := { s.env with events := rest } } →
    idle = { s with ctl := { s.ctl with estate := .idle } } → step idle = .next t →
    (passing 0 p = p ∧
      ∀ u, exec i p = .next u → ∃ last, ∀ m, last ≤ m →
        (off ∈ [0x24, 0x28, 0x2C, 0x38, 0x3C, 0x40, 0x44, 0x50, 0x54, 0x58, 0x5C, 0x60, 0x64] →
          regValue off (passing m p) = regValue off u) ∧
        (off = 0x08 → regValue off (passing m p) &&& 0x70 = regValue off u &&& 0x70)) ∧
    ∃ (n k : Nat) (v : Word),
      step s = .next
        { s with env := { s.env with events := rest, hostData := v, freeCount := n } } ∧
      (off ∉ [0x08, 0x24, 0x28, 0x2C, 0x38, 0x3C, 0x40, 0x44, 0x50, 0x54, 0x58, 0x5C, 0x60, 0x64] →
        v = t.env.hostData) ∧
      (off ∈ [0x24, 0x28, 0x2C, 0x38, 0x3C, 0x40, 0x44, 0x50, 0x54, 0x58, 0x5C, 0x60, 0x64] →
        v = regValue off (passing k p)) ∧
      (off = 0x08 → v &&& 0x70 = regValue off (passing k p) &&& 0x70) ∧
      (off = 0x08 → v &&& 0xFFFFFF8F = (t.env.hostData ||| 1) &&& 0xFFFFFF8F) ∧
      (∀ u, exec i p = .next u →
        (off = 0x24 → v = s.ctl.res ∨ v = u.ctl.res) ∧
        (off = 0x28 →
          v = 0#16 ++ (s.ctl.errOp ++ s.ctl.errCode) ∨
          v = 0#16 ++ (s.ctl.errOp ++ u.ctl.errCode) ∨
          v = 0#16 ++ (u.ctl.errOp ++ u.ctl.errCode)) ∧
        (off = 0x2C → v = s.ctl.faddr ∨ v = u.ctl.faddr)) ∧
      ((opcode i).toNat ∈ [0x00, 0x10, 0x11, 0x30, 0x40, 0x45, 0x46, 0x47] →
        (off ∈ [0x38, 0x3C, 0x40, 0x44] → v = t.env.hostData) ∧
        (off = 0x08 → v = t.env.hostData ||| 1)) ∧
      ((opcode i).toNat ≠ 0x21 → off = 0x50 → v = t.env.hostData) ∧
      ((opcode i).toNat ∉ [0x42, 0x43, 0x44] → off ∈ [0x54, 0x58, 0x5C, 0x60] →
        v = t.env.hostData) ∧
      ((opcode i).toNat ∉ [0x10, 0x11, 0x21, 0x40] → off = 0x64 → v = t.env.hostData) ∧
      (∀ m, i = .brInit m → s.rd.bitcnt ≤ 32 → s.rd.padbits ≤ 32 →
        (off = 0x38 → v = s.rd.cur ∨ v = 0) ∧
        (off = 0x3C → v = s.rd.acc ∨ v = 0) ∧
        (off = 0x40 →
          v = 0#18 ++ (BitVec.ofNat 6 s.rd.padbits ++ (0#2 ++ BitVec.ofNat 6 s.rd.bitcnt)) ∨
          v = 0#18 ++ (BitVec.ofNat 6 s.rd.padbits ++ 0#8) ∨ v = 0) ∧
        (off = 0x44 → v = 0#24 ++ s.rd.marker ∨ v = 0xFF))

/-- 10_state.md R51, R54; the refusals are the model's (log 10). The reserved offsets read 0, in every
engine state, and a write to one is ignored without setting DROP. A host access to the block that is
not an aligned 32-bit one, and an access outside the 256 bytes of the block, are refused. -/
def Obligations.ReservedOffsetsAndForms : Prop :=
  ∀ (s : State) (off size : Nat) (v : Word) (rest : List Event),
    (0x6C ≤ off → off < 0x100 → off % 4 = 0 →
      (s.env.events = .regWrite (s.env.regBase + off) 4 v :: rest →
        step s = .next { s with env := { s.env with events := rest } }) ∧
      (s.env.events = .regRead (s.env.regBase + off) 4 :: rest →
        ∃ n, step s = .next
          { s with env := { s.env with events := rest, hostData := 0, freeCount := n } })) ∧
    (off < 0x100 → (size ≠ 4 ∨ off % 4 ≠ 0) →
      (s.env.events = .regWrite (s.env.regBase + off) size v :: rest →
        step s = .refused (.hostAccessForm (s.env.regBase + off) size)) ∧
      (s.env.events = .regRead (s.env.regBase + off) size :: rest →
        step s = .refused (.hostAccessForm (s.env.regBase + off) size))) ∧
    (0x100 ≤ off →
      (s.env.events = .regWrite (s.env.regBase + off) size v :: rest →
        step s = .refused (.hostOutsideBlock (s.env.regBase + off))) ∧
      (s.env.events = .regRead (s.env.regBase + off) size :: rest →
        step s = .refused (.hostOutsideBlock (s.env.regBase + off))))

/-- 20_memory.md R81, R93: while a command runs, the host's access to a byte the command writes, and
its write of a byte the command reads, are refused as races; any other access has its effect. -/
def Obligations.RacingAccessRefused : Prop :=
  ∀ (s : State) (i : Instr) (a : Nat) (v : Byte) (rest : List Event),
    s.ctl.estate = .busy → decode s.ctl.cmd = .ok i → inMap s.bus.holes a = true →
    (s.env.events = .memWrite a v :: rest →
      ((storedTo i s a = true ∨ loadedFrom i s a = true) → step s = .refused (.hostRace a)) ∧
      (storedTo i s a = false → loadedFrom i s a = false →
        step s = .next
          { s with
            bus := { s.bus with mem := memSet s.bus.mem a v }
            env := { s.env with events := rest } })) ∧
    (s.env.events = .memRead a :: rest →
      (storedTo i s a = true → step s = .refused (.hostRace a)) ∧
      (storedTo i s a = false →
        step s = .next
          { s with env := { s.env with events := rest, hostData := 0#24 ++ byteAt s a } }))

/-! ### Reset -/

/-- 70_reset_and_hazards.md R420, R422: hard and soft reset, in every engine state, give every register
its value, and leave MEM unless a command is aborted; the reset state of the model has those values
too. -/
def Obligations.ResetValues : Prop :=
  (∀ (s : State) (e : Event) (v : Word) (rest : List Event),
    (e = .hardReset ∨ (e = .regWrite (s.env.regBase + 0x04) 4 v ∧ v.getLsbD 0 = true)) →
    s.env.events = e :: rest →
    ∃ (cmd : Word) (mem : Memory) (n : Nat),
      step s = .next
        { ctl :=
            { estate := .idle, cmd := cmd, res := 0, errCode := 0, errOp := 0, faddr := 0
              cmdcnt := 0, drop := false, ieDone := false, ieErr := false, irqDone := false
              irqErr := false }
          args := { arg0 := 0, arg1 := 0, arg2 := 0, arg3 := 0 }
          rd :=
            { mode := .lsb, inBase := 0, inLen := 0, cur := 0, acc := 0, bitcnt := 0, padbits := 0
              eof := false, ovr := false, nomore := false, marker := 0xFF }
          out := { outBase := 0, outCap := 0, outLen := 0, zfinal := false, zbtype := 0 }
          tab :=
            { zt := Vector.replicate 3 none, jdc := Vector.replicate 4 none
              jac := Vector.replicate 4 none, qt := Vector.replicate 4 none }
          coef := Vector.replicate 64 0
          dcpred := Vector.replicate 4 0
          bus := { mem := mem, holes := s.bus.holes }
          env := { s.env with events := rest, freeCount := n } } ∧
      (s.ctl.estate ≠ .busy → mem = s.bus.mem)) ∧
  State.reset.ctl =
    { estate := .idle, cmd := State.reset.ctl.cmd, res := 0, errCode := 0, errOp := 0, faddr := 0
      cmdcnt := 0, drop := false, ieDone := false, ieErr := false, irqDone := false
      irqErr := false } ∧
  State.reset.args = { arg0 := 0, arg1 := 0, arg2 := 0, arg3 := 0 } ∧
  State.reset.rd =
    { mode := .lsb, inBase := 0, inLen := 0, cur := 0, acc := 0, bitcnt := 0, padbits := 0
      eof := false, ovr := false, nomore := false, marker := 0xFF } ∧
  State.reset.out = { outBase := 0, outCap := 0, outLen := 0, zfinal := false, zbtype := 0 } ∧
  State.reset.tab =
    { zt := Vector.replicate 3 none, jdc := Vector.replicate 4 none
      jac := Vector.replicate 4 none, qt := Vector.replicate 4 none } ∧
  State.reset.coef = Vector.replicate 64 0 ∧ State.reset.dcpred = Vector.replicate 4 0

/-- 70_reset_and_hazards.md R421 for the soft reset; that a hard reset in BUSY aborts the command in the
same way is the model's reading (log 22, DEDUCED). While any command runs, its byte writes are a chain of
memories: from the one at its start, each the one before or that with one byte written which the command
may write, to the one at its end. Either reset leaves a memory of the chain, and so every byte that the
command does not write as it was; which one is the model's free value (log 8). MEM stays canonical. Under
COEF_STORE the memories of the chain are given: the first bytes of the store are in place. -/
def Obligations.AbortLeavesPrefix : Prop :=
  ∀ (s p : State) (e : Event) (v : Word) (rest : List Event) (i : Instr), s.ctl.estate = .busy →
    decode s.ctl.cmd = .ok i → Memory.wf s.bus.mem = true →
    (e = .hardReset ∨ (e = .regWrite (s.env.regBase + 0x04) 4 v ∧ v.getLsbD 0 = true)) →
    s.env.events = e :: rest → p = { s with env := { s.env with events := rest } } →
    ((passing 0 p).bus.mem = s.bus.mem ∧
      (∀ n, (passing (n + 1) p).bus.mem = (passing n p).bus.mem ∨
        ∃ a b, storedTo i s a = true ∧
          (passing (n + 1) p).bus.mem = memSet (passing n p).bus.mem a b) ∧
      ∀ u, exec i p = .next u → ∃ last, ∀ n, last ≤ n → (passing n p).bus.mem = u.bus.mem) ∧
    ∃ t : State, step s = .next t ∧ t.ctl.estate = .idle ∧ Memory.wf t.bus.mem = true ∧
      (∃ n, t.bus.mem = (passing n p).bus.mem) ∧
      (∀ a, storedTo i s a = false → byteAt t a = byteAt s a) ∧
      (i = .coefStore → answers s ⟨s.args.arg0.toNat, 128⟩ = true →
        ∃ k, k ≤ 128 ∧
          ∀ a, byteAt t a =
            if s.args.arg0.toNat ≤ a ∧ a < s.args.arg0.toNat + k then
              coefByte s (a - s.args.arg0.toNat)
            else byteAt s a)

/-- 20_memory.md R91, R92: a byte that the host writes before it writes CMD is what the command reads,
and what a later command has written is what the host then reads: a byte goes through COEF_LOAD and
COEF_STORE to another place. -/
def Obligations.HostAndEngineOrdering : Prop :=
  ∀ (s : State) (b w : Word) (j : Nat) (v : Byte),
    s.ctl.estate = .idle → Memory.wf s.bus.mem = true → j < 128 →
    answers s ⟨s.args.arg0.toNat, 128⟩ = true → answers s ⟨b.toNat, 128⟩ = true →
    w = 0x45 →
    s.env.events =
      [ .memWrite (s.args.arg0.toNat + j) v, .regWrite (s.env.regBase + 0x10) 4 w, .engine,
        .regWrite (s.env.regBase + 0x14) 4 b, .regWrite (s.env.regBase + 0x10) 4 0x46, .engine,
        .memRead (b.toNat + j) ] →
    ∃ t : State, Host.Core.run Sys2Proof.core 7 s = .next t ∧ t.env.hostData = 0#24 ++ v

/-! ### Control and the bit reader -/

/-- 40_control.md R140: NOP writes RES with 0, completes, and changes nothing else; its word is all
zeros, and with a further bit set `E_ILLEGAL`'s check refuses it. 41_bitreader.md R165: BR_INIT, where
the input region fits (else `E_RANGE`, R130's statement). -/
def Obligations.NopAndBrInitEffects : Prop :=
  decode 0 = .ok .nop ∧
  (∀ w : Word, w.toNat % 256 = 0 → w ≠ 0 → decode w = .error .reservedBits) ∧
  (∀ s : State, exec .nop s = .next (completed 0 s)) ∧
  ∀ (m : Mode) (s : State), s.rd.inBase.toNat + s.rd.inLen.toNat ≤ 2 ^ 32 →
    exec (.brInit m) s = .next
      (completed 0
        { s with
          rd :=
            { s.rd with
              mode := m, cur := 0, acc := 0, bitcnt := 0, padbits := 0, eof := false, ovr := false
              nomore := false, marker := 0xFF }
          out := { s.out with zfinal := false, zbtype := 0 } })

/-- 41_bitreader.md R151, R154, R166, R167: in MODE 0, BR_GETBITS and BR_PEEKBITS return the next n
stream bits as a number whose bit 0 is the first; BR_GETBITS consumes exactly those and sets OVR when
one was a pad bit, BR_PEEKBITS consumes none. Nothing outside the reader changes but completion. -/
def Obligations.LsbBitsFollowStream : Prop :=
  ∀ (n : BitVec 5) (s : State), 1 ≤ n.toNat → n.toNat ≤ 16 → s.rd.mode = .lsb →
    readerOk s.rd = true → inputAnswers s = true →
    (∃ r, exec (.brGetbits n) s =
        .next (completed (Word.ofNat (lowFirst (lsbStream s) n.toNat)) { s with rd := r }) ∧
      lsbAdvanced n.toNat s r ∧
      (s.rd.padbits = 0 → r.ovr = (s.rd.ovr || decide (realBits s < n.toNat)))) ∧
    (∃ r, exec (.brPeekbits n) s =
        .next (completed (Word.ofNat (lowFirst (lsbStream s) n.toNat)) { s with rd := r }) ∧
      lsbAdvanced 0 s r ∧ r.ovr = s.rd.ovr)

/-- 41_bitreader.md R152, R153, R154, R166, R167: in MODE 1 the same, the first bit the most
significant, of the destuffed bytes up to a marker. -/
def Obligations.MsbBitsFollowStream : Prop :=
  ∀ (n : BitVec 5) (s : State), 1 ≤ n.toNat → n.toNat ≤ 16 → s.rd.mode = .msb →
    readerOk s.rd = true → inputAnswers s = true →
    (∃ r, exec (.brGetbits n) s =
        .next (completed (Word.ofNat (highFirst (msbStream s) n.toNat)) { s with rd := r }) ∧
      msbAdvanced n.toNat s r ∧
      (s.rd.padbits = 0 →
        r.ovr = (s.rd.ovr || decide (s.rd.bitcnt + 8 * (dataLeft s).length < n.toNat)))) ∧
    (∃ r, exec (.brPeekbits n) s =
        .next (completed (Word.ofNat (highFirst (msbStream s) n.toNat)) { s with rd := r }) ∧
      msbAdvanced 0 s r ∧ r.ovr = s.rd.ovr)

/-- 41_bitreader.md R153, R158: an empty MODE 1 reader that meets a marker, after any number of fill
bytes, caches its code, reads no byte after it, and supplies pad bits. -/
def Obligations.MarkerHaltsReader : Prop :=
  ∀ (n : BitVec 5) (s : State) (k : Nat), 1 ≤ n.toNat → n.toNat ≤ 16 → s.rd.mode = .msb →
    readerOk s.rd = true → inputAnswers s = true → s.rd.bitcnt = 0 → s.rd.nomore = false →
    1 ≤ k → k < inputLeft s → (∀ j, j < k → inputByte s j = 0xFF) →
    inputByte s k ≠ 0xFF → inputByte s k ≠ 0x00 →
    exec (.brPeekbits n) s = .next
      (completed 0
        { s with
          rd :=
            { s.rd with
              cur := s.rd.cur + Word.ofNat (k + 1), acc := 0, bitcnt := 32, padbits := 32
              nomore := true, marker := inputByte s k } })

/-- 41_bitreader.md R168: BR_ALIGN discards the bits of the partly read byte, and fetches nothing. -/
def Obligations.AlignEffect : Prop :=
  ∀ s : State, readerOk s.rd = true → s.rd.inBase.toNat + s.rd.inLen.toNat ≤ 2 ^ 32 →
    exec .brAlign s = .next
      (completed (Word.ofNat (s.rd.bitcnt % 8))
        { s with
          rd :=
            { s.rd with
              acc :=
                if s.rd.mode = .lsb then s.rd.acc >>> (s.rd.bitcnt % 8)
                else s.rd.acc <<< (s.rd.bitcnt % 8)
              bitcnt := s.rd.bitcnt - s.rd.bitcnt % 8
              padbits := min s.rd.padbits (s.rd.bitcnt - s.rd.bitcnt % 8)
              ovr := s.rd.ovr || decide (s.rd.bitcnt - s.rd.bitcnt % 8 < s.rd.padbits) } })

/-- 41_bitreader.md R169: BR_READBYTES. A partial byte raises `E_ALIGN`; a checked read that lacks
bytes raises `E_EOF` and consumes nothing; else the SZ bytes, first those in ACC, then raw input
bytes, then zeros, are the result, the first the most significant. -/
def Obligations.ReadbytesEffect : Prop :=
  ∀ (sz : BitVec 3) (chk : Bool) (s : State) (held : Nat), sz.toNat ∈ [1, 2, 4] →
    readerOk s.rd = true → inputAnswers s = true → held = s.rd.bitcnt / 8 →
    (s.rd.bitcnt % 8 ≠ 0 →
      exec (.brReadbytes sz chk) s = .next (faulted 0x08 (Word.ofNat s.rd.bitcnt) s)) ∧
    (s.rd.bitcnt % 8 = 0 →
      (chk = true → (s.rd.bitcnt - s.rd.padbits) / 8 + inputLeft s < sz.toNat →
        exec (.brReadbytes sz chk) s = .next (faulted 0x07 s.rd.cur s)) ∧
      ((chk = true → sz.toNat ≤ (s.rd.bitcnt - s.rd.padbits) / 8 + inputLeft s) →
        exec (.brReadbytes sz chk) s = .next
          (completed
            (Word.ofNat
              ((List.range sz.toNat).foldl
                (fun v k =>
                  v * 256 +
                    (if k < held then
                      (if s.rd.mode = .lsb then s.rd.acc.extractLsb' (8 * k) 8
                        else s.rd.acc.extractLsb' (24 - 8 * k) 8).toNat
                    else if k - held < inputLeft s then (inputByte s (k - held)).toNat
                    else 0)) 0))
            { s with
              rd :=
                { s.rd with
                  cur := s.rd.cur + Word.ofNat (min (sz.toNat - held) (inputLeft s))
                  acc :=
                    if s.rd.mode = .lsb then s.rd.acc >>> (8 * sz.toNat)
                    else s.rd.acc <<< (8 * sz.toNat)
                  bitcnt := s.rd.bitcnt - 8 * sz.toNat
                  padbits := min s.rd.padbits (s.rd.bitcnt - 8 * sz.toNat)
                  eof := s.rd.eof || decide (inputLeft s < sz.toNat - held)
                  ovr :=
                    s.rd.ovr || decide (s.rd.bitcnt - 8 * sz.toNat < s.rd.padbits) ||
                      decide (inputLeft s < sz.toNat - held) } })))

/-! ### Huffman tables -/

/-- 42_huffman.md R205: a built DEFLATE table gives each symbol the canonical code of its length, an
absent symbol none; each code is an l-bit number, and no code begins with another. -/
def Obligations.CanonicalCodes : Prop :=
  ∀ (lens : List Nat) (tbl : ZTable), zBuild lens = .ok tbl →
    tbl.syms.length = lens.length ∧
    (∀ sym, sym < lens.length → ∃ e, tbl.syms[sym]? = some e ∧ e.len = lens.getD sym 0 ∧
      (e.len ≠ 0 → e.code = canonCode lens sym ∧ e.code < 2 ^ e.len) ∧
      (e.len = 0 → e.code = 0)) ∧
    (∀ a b : Nat, a < lens.length → b < lens.length → a ≠ b → lens.getD a 0 ≠ 0 →
      lens.getD a 0 ≤ lens.getD b 0 →
      canonCode lens b / 2 ^ (lens.getD b 0 - lens.getD a 0) ≠ canonCode lens a)

/-- 42_huffman.md R203, R204: which length lists are rejected, with which information; every other
list, incomplete or empty, builds. -/
def Obligations.BuildChecks : Prop :=
  ∀ lens : List Nat, lens.length ≤ 288 →
    (∀ s, (List.range lens.length).find? (fun s => decide (15 < lens.getD s 0)) = some s →
      zBuild lens = .error (0x80000000#32 ||| Word.ofNat s)) ∧
    ((∀ l, l ∈ lens → l ≤ 15) →
      (∀ l, zLengths.find? (overfull (fun l => lens.count l)) = some l →
        zBuild lens = .error (Word.ofNat l)) ∧
      (zLengths.find? (overfull (fun l => lens.count l)) = none → ∃ tbl, zBuild lens = .ok tbl))

/-- 42_huffman.md R207: JBuild over the 16 counts. An overfull length is rejected; else entry k has
value k, the sizes are the lengths repeated as the counts say, and the codes are canonical. -/
def Obligations.JpegBuildAssigns : Prop :=
  ∀ (bits : List Nat) (vals : List Byte), bits.length = 16 → vals.length = bits.sum →
    (∀ l, jLengths.find? (overfull (fun l => bits.getD (l - 1) 0)) = some l →
      jBuild bits vals = .error (Word.ofNat l)) ∧
    (jLengths.find? (overfull (fun l => bits.getD (l - 1) 0)) = none →
      ∃ tbl, jBuild bits vals = .ok tbl ∧
        tbl.entries.map (fun e => e.val) = vals ∧
        tbl.entries.map (fun e => e.size) =
          jLengths.flatMap (fun l => List.replicate (bits.getD (l - 1) 0) l) ∧
        ∀ k, k < bits.sum →
          (jEntry tbl k).code = canonCode (tbl.entries.map (fun e => e.size)) k)

/-- 42_huffman.md R217, R218: HB_ZLIB installs the table of the lengths in memory, the symbols at or
past ARG1 absent; a failed build leaves the slot invalid and raises `E_BADLEN`. -/
def Obligations.HbZlibEffect : Prop :=
  ∀ (tid : BitVec 2) (s : State) (lens : List Nat), illegalValues (.hbZlib tid) s = false →
    answers s ⟨s.args.arg0.toNat, s.args.arg1.toNat⟩ = true →
    lens =
      (List.range (zMaxSym (tableSel tid))).map (fun k =>
        if k < s.args.arg1.toNat then (byteAt s (s.args.arg0.toNat + k)).toNat else 0) →
    (∀ tbl, zBuild lens = .ok tbl →
      exec (.hbZlib tid) s = .next
        (completed 0
          { s with tab := { s.tab with zt := s.tab.zt.set (tableSel tid) (some tbl) } })) ∧
    (∀ e, zBuild lens = .error e →
      exec (.hbZlib tid) s = .next
        (faulted 0x09 e { s with tab := { s.tab with zt := s.tab.zt.set (tableSel tid) none } }))

/-- 42_huffman.md R217, R219: HB_JPEG, with its two late checks, its result `16 + total`, and the slot
left invalid by a failure. -/
def Obligations.HbJpegEffect : Prop :=
  ∀ (cls : JClass) (idx : BitVec 2) (s : State) (bits : List Nat) (vals : List Byte)
    (put : Option JTable → State),
    answers s ⟨s.args.arg0.toNat, 16⟩ = true →
    bits = (List.range 16).map (fun k => (byteAt s (s.args.arg0.toNat + k)).toNat) →
    vals = (List.range bits.sum).map (fun k => byteAt s (s.args.arg0.toNat + 16 + k)) →
    put = (fun x =>
      match cls with
      | .dc => { s with tab := { s.tab with jdc := s.tab.jdc.set (sel4 idx) x } }
      | .ac => { s with tab := { s.tab with jac := s.tab.jac.set (sel4 idx) x } }) →
    (256 < bits.sum →
      exec (.hbJpeg cls idx) s =
        .next (faulted 0x09 (0x40000000#32 ||| Word.ofNat bits.sum) (put none))) ∧
    (bits.sum ≤ 256 →
      (2 ^ 32 < s.args.arg0.toNat + 16 + bits.sum →
        exec (.hbJpeg cls idx) s = .next (faulted 0x04 s.args.arg0 (put none))) ∧
      (answers s ⟨s.args.arg0.toNat, 16 + bits.sum⟩ = true →
        (∀ tbl, jBuild bits vals = .ok tbl →
          exec (.hbJpeg cls idx) s =
            .next (completed (Word.ofNat (16 + bits.sum)) (put (some tbl)))) ∧
        (∀ e, jBuild bits vals = .error e →
          exec (.hbJpeg cls idx) s = .next (faulted 0x09 e (put none)))))

/-- 42_huffman.md R208, R210, R220: HD_ZLIB returns any symbol whose code the stream begins with,
consumes exactly that code, and sets OVR when it used pad bits. -/
def Obligations.HdZlibDecodesCode : Prop :=
  ∀ (tid : BitVec 2) (s : State) (tbl : ZTable) (sym : Nat) (e : ZCode), tid ≠ 3 →
    s.rd.mode = .lsb → s.tab.zt[tableSel tid] = some tbl → zTableOk (tableSel tid) tbl = true →
    readerOk s.rd = true → inputAnswers s = true →
    tbl.syms[sym]? = some e → e.len ≠ 0 → codeNext e.len e.code (lsbStream s) = true →
    ∃ r, exec (.hdZlib tid) s = .next (completed (Word.ofNat sym) { s with rd := r }) ∧
      lsbAdvanced e.len s r ∧
      (s.rd.padbits = 0 → r.ovr = (s.rd.ovr || decide (realBits s < e.len)))

/-- 42_huffman.md R209, R211, R221: HD_JPEG returns the value of any entry whose code the stream
begins with, and consumes exactly that code. -/
def Obligations.HdJpegDecodesCode : Prop :=
  ∀ (cls : JClass) (idx : BitVec 2) (s : State) (tbl : JTable) (k : Nat) (e : JCode),
    s.rd.mode = .msb → (if cls = .dc then s.tab.jdc else s.tab.jac)[sel4 idx] = some tbl →
    jTableOk tbl = true → readerOk s.rd = true → inputAnswers s = true →
    tbl.entries[k]? = some e → codeNext e.size e.code (msbStream s) = true →
    ∃ r, exec (.hdJpeg cls idx) s = .next (completed (0#24 ++ e.val) { s with rd := r }) ∧
      msbAdvanced e.size s r ∧
      (s.rd.padbits = 0 →
        r.ovr = (s.rd.ovr || decide (s.rd.bitcnt + 8 * (dataLeft s).length < e.size)))

/-- 42_huffman.md R204, R210, R211: where no code of a valid table begins the stream, HD_ZLIB and
HD_JPEG raise `E_BADCODE` with all ones and consume no bit. -/
def Obligations.NoCodeConsumesNothing : Prop :=
  (∀ (tid : BitVec 2) (s : State) (tbl : ZTable), tid ≠ 3 → s.rd.mode = .lsb →
    s.tab.zt[tableSel tid] = some tbl → zTableOk (tableSel tid) tbl = true →
    readerOk s.rd = true → inputAnswers s = true →
    (∀ e, e ∈ tbl.syms → e.len ≠ 0 → codeNext e.len e.code (lsbStream s) = false) →
    ∃ r, exec (.hdZlib tid) s = .next (faulted 0x0A 0xFFFFFFFF { s with rd := r }) ∧
      lsbAdvanced 0 s r ∧ r.ovr = s.rd.ovr) ∧
  (∀ (cls : JClass) (idx : BitVec 2) (s : State) (tbl : JTable), s.rd.mode = .msb →
    (if cls = .dc then s.tab.jdc else s.tab.jac)[sel4 idx] = some tbl → jTableOk tbl = true →
    readerOk s.rd = true → inputAnswers s = true →
    (∀ e, e ∈ tbl.entries → codeNext e.size e.code (msbStream s) = false) →
    ∃ r, exec (.hdJpeg cls idx) s = .next (faulted 0x0A 0xFFFFFFFF { s with rd := r }) ∧
      msbAdvanced 0 s r ∧ r.ovr = s.rd.ovr)

/-- 42_huffman.md R214: the fast tables and the slow path of R212, R213 and R215 find the length and
symbol that the direct decoders R210 and R211 find, or neither finds one, for every canonical table and
every reader state. -/
def Obligations.FastTablesAgree : Prop :=
  (∀ (t : Fin 3) (tbl : ZTable) (s : State), zTableOk t tbl = true → s.rd.mode = .lsb →
    zFastSearch tbl s = zSearch tbl s zLengths) ∧
  (∀ (tbl : JTable) (s : State), jTableOk tbl = true → s.rd.mode = .msb →
    jFastSearch tbl s = jSearch tbl s jLengths)

/-- 42_huffman.md R216: where the fast-AC table has an entry for the next 9 bits, the direct decoder
finds a symbol with that run and a category whose extra bits, extended, are the entry's value; the
entry's length is the code's and the extra bits' together. -/
def Obligations.FastAcAgrees : Prop :=
  ∀ (tbl : JTable) (s : State) (v : Int) (run total : Nat), jTableOk tbl = true →
    s.rd.mode = .msb → jFastAc tbl (peekBits s 9) = some (v, run, total) →
    ∃ (l : Nat) (rs : Byte), jSearch tbl s jLengths = some (l, rs) ∧ rs.toNat / 16 = run ∧
      l + rs.toNat % 16 = total ∧
      extend (peekBits (dropBits l s) (rs.toNat % 16)) (rs.toNat % 16) = v

/-! ### zlib and DEFLATE -/

/-- 43_inflate.md R257: Z_HEADER. A partial byte in ACC raises `E_ALIGN`. Else two bytes are read, those
in ACC first; when one of them is a pad byte, `E_EOF`; else the three header checks in order, each fault
after both bytes were read, and the result. -/
def Obligations.ZHeaderEffect : Prop :=
  ∀ (s read : State) (held : Nat) (byte : Nat → Nat) (short : Bool), s.rd.mode = .lsb →
    readerOk s.rd = true → inputAnswers s = true → held = s.rd.bitcnt / 8 →
    byte = (fun k =>
      if k < held then (s.rd.acc.extractLsb' (8 * k) 8).toNat
      else if k - held < inputLeft s then (inputByte s (k - held)).toNat
      else 0) →
    short = (decide (s.rd.bitcnt - 16 < s.rd.padbits) || decide (inputLeft s < 2 - held)) →
    read = { s with
      rd :=
        { s.rd with
          cur := s.rd.cur + Word.ofNat (min (2 - held) (inputLeft s))
          acc := s.rd.acc >>> 16, bitcnt := s.rd.bitcnt - 16
          padbits := min s.rd.padbits (s.rd.bitcnt - 16)
          eof := s.rd.eof || decide (inputLeft s < 2 - held), ovr := s.rd.ovr || short } } →
    (s.rd.bitcnt % 8 ≠ 0 → exec .zHeader s = .next (faulted 0x08 (Word.ofNat s.rd.bitcnt) s)) ∧
    (s.rd.bitcnt % 8 = 0 →
      (short = true → exec .zHeader s = .next (faulted 0x07 read.rd.cur read)) ∧
      (short = false →
        ((byte 0 * 256 + byte 1) % 31 ≠ 0 → exec .zHeader s = .next (faulted 0x0B 1 read)) ∧
        ((byte 0 * 256 + byte 1) % 31 = 0 →
          (byte 1 / 32 % 2 = 1 → exec .zHeader s = .next (faulted 0x0B 2 read)) ∧
          (byte 1 / 32 % 2 = 0 →
            (byte 0 % 16 ≠ 8 → exec .zHeader s = .next (faulted 0x0B 3 read)) ∧
            (byte 0 % 16 = 8 →
              exec .zHeader s = .next (completed (Word.ofNat (byte 0 * 256 + byte 1)) read))))))

/-- 43_inflate.md R258, R260, R276: a stored block of N bytes, final or the one block of STEP = 1,
wherever in a byte the reader stands and whatever ACC holds, with room for its output: the output grows
by exactly those N bytes, the input is consumed exactly, and nothing else changes. -/
def Obligations.StoredBlockVerbatim : Prop :=
  ∀ (final stepMode : Bool) (s : State) (data : List Byte), readyToInflate s = true →
    (final = true ∨ stepMode = true) → data.length ≤ 65535 →
    storedAt s + 8 * (4 + data.length) ≤ realBits s → beginsWith s [final, false, false] →
    storedByte s 0 + 256 * storedByte s 1 = data.length →
    storedByte s 2 + 256 * storedByte s 3 = 65535 - data.length →
    (∀ k, k < data.length → storedByte s (4 + k) = (data.getD k 0).toNat) →
    s.out.outLen.toNat + data.length ≤ s.out.outCap.toNat →
    ∃ mem, exec (.inflate stepMode) s = .next
        (completed 1
          { s with
            rd := storedReader s (4 + data.length)
            out :=
              { s.out with
                outLen := s.out.outLen + Word.ofNat data.length, zfinal := final, zbtype := 0 }
            bus := { s.bus with mem := mem } }) ∧
      outputIs s (window s ++ data) mem

/-- 43_inflate.md R254, R258, R259, R261 to R269: a block of compressed data, fixed or with any legal
dynamic header, final or the one block of STEP = 1, with any tokens, literals and matches: the tables
are those of the header, the output grows by what the tokens give, exactly the block's bits are
consumed, and nothing else changes. In the fixed table a literal has the code of R254, and the end of
block is seven zeros. -/
def Obligations.HuffmanBlockInflates : Prop :=
  (∀ b, headTables .fixed = some b →
    (∀ lit : Byte, codeBits b.ll lit.toNat = fixedLiteral lit) ∧
      codeBits b.ll 256 = List.replicate 7 false) ∧
  ∀ (final stepMode : Bool) (s : State) (h : BlockHead) (b : BlockTables) (ts : List Token)
    (w : List Byte) (bits : List Bool), readyToInflate s = true →
    (final = true ∨ stepMode = true) → headTables h = some b → hasCode b.ll 256 = true →
    expandTokens b.ll b.dt ts (window s) = some w → w.length ≤ s.out.outCap.toNat →
    bits = headBits final h b ++ compressedBits b.ll b.dt ts → beginsWith s bits →
    bits.length ≤ realBits s →
    ∃ (r : Reader) (mem : Memory),
      exec (.inflate stepMode) s = .next
        (completed 1
          { s with
            rd := r
            out :=
              { s.out with outLen := Word.ofNat w.length, zfinal := final, zbtype := headType h }
            tab := { s.tab with zt := tablesAfter b s.tab.zt }
            bus := { s.bus with mem := mem } }) ∧
      lsbAdvanced bits.length s r ∧ r.ovr = s.rd.ovr ∧ outputIs s w mem

/-- 43_inflate.md R264 to R269: the compressed part of a fixed or a dynamic block, with any canonical
tables in the LITLEN and DIST slots: the codes of any tokens, literals and matches of every length and
distance, expand to those bytes after the output that is there; exactly their bits are consumed. -/
def Obligations.CompressedDataExpands : Prop :=
  ∀ (s : State) (ll dt : ZTable) (ts : List Token) (w : List Byte), readyToInflate s = true →
    s.tab.zt[0] = some ll → s.tab.zt[1] = some dt → zTableOk 0 ll = true → zTableOk 1 dt = true →
    hasCode ll 256 = true →
    expandTokens ll dt ts (window s) = some w → w.length ≤ s.out.outCap.toNat →
    beginsWith s (compressedBits ll dt ts) → (compressedBits ll dt ts).length ≤ realBits s →
    ∃ (r : Reader) (mem : Memory),
      compressedBlock (Run.whole s) = .ok ()
        (Run.whole
          { s with
            rd := r
            out := { s.out with outLen := Word.ofNat w.length }
            bus := { s.bus with mem := mem } }) ∧
      lsbAdvanced (compressedBits ll dt ts).length s r ∧ r.ovr = s.rd.ovr ∧ outputIs s w mem

/-- 43_inflate.md R258: INFLATE with STEP = 0, by STEP = 1 and the run after it. Where the first block
faults or is final, the two are the same. Else STEP = 0 goes on with the next block, as a further
INFLATE would after the first: the blocks are counted together, the command completes once, and a fault
of a later block leaves RES, `IRQ.DONE` and CMDCNT as they were at the start. -/
def Obligations.InflateRunsOn : Prop :=
  ∀ s t : State, exec (.inflate true) s = .next t →
    ((t.ctl.estate = .fault ∨ t.out.zfinal = true) → exec (.inflate false) s = .next t) ∧
    (t.ctl.estate = .idle → t.out.zfinal = false → ∀ u, exec (.inflate false) t = .next u →
      (u.ctl.estate = .idle →
        exec (.inflate false) s = .next
          { u with ctl := { u.ctl with res := u.ctl.res + 1, cmdcnt := s.ctl.cmdcnt + 1 } }) ∧
      (u.ctl.estate = .fault →
        exec (.inflate false) s = .next
          { u with
            ctl :=
              { u.ctl with
                res := s.ctl.res, irqDone := s.ctl.irqDone, cmdcnt := s.ctl.cmdcnt } }))

/-- 43_inflate.md R258, R260: a block of type 3 raises `E_BTYPE` with its three header bits consumed and
ZBTYPE written. A stored block: `E_EOF` where the input ends in its four header bytes; `E_NLEN` with
both numbers where NLEN is wrong; `E_EOF` where the input does not hold the data, `E_OUTFULL` with the
length it needs where the output does not, both before a byte is written. Where that length is 2^32 or
more, that FADDR takes its low 32 bits is the model's reading (log 13, DEDUCED). -/
def Obligations.MalformedBlocksFault : Prop :=
  ∀ (stepMode : Bool) (s : State) (len nlen : Nat), readyToInflate s = true → 3 ≤ realBits s →
    len = storedByte s 0 + 256 * storedByte s 1 → nlen = storedByte s 2 + 256 * storedByte s 3 →
    (lsbStream s 1 = true → lsbStream s 2 = true →
      ∃ r, exec (.inflate stepMode) s = .next
          (faulted 0x0C r.cur
            { s with rd := r, out := { s.out with zfinal := false, zbtype := 3 } }) ∧
        lsbAdvanced 3 s r ∧ r.ovr = s.rd.ovr) ∧
    (lsbStream s 1 = false → lsbStream s 2 = false →
      (realBits s < storedAt s + 32 →
        ∃ r, exec (.inflate stepMode) s = .next
            (faulted 0x07 r.cur
              { s with rd := r, out := { s.out with zfinal := false, zbtype := 0 } }) ∧
          r.ovr = true ∧ r.eof = true ∧ s.rd.inLen.toNat ≤ r.cur.toNat) ∧
      (storedAt s + 32 ≤ realBits s → ∀ read : State,
        read = { s with
          rd := storedReader s 4, out := { s.out with zfinal := false, zbtype := 0 } } →
        (nlen + len ≠ 65535 →
          exec (.inflate stepMode) s = .next
            (faulted 0x0D (Word.ofNat (nlen * 65536 + len)) read)) ∧
        (nlen + len = 65535 →
          (realBits s < storedAt s + 8 * (4 + len) →
            exec (.inflate stepMode) s = .next (faulted 0x07 read.rd.cur read)) ∧
          (storedAt s + 8 * (4 + len) ≤ realBits s →
            s.out.outCap.toNat < s.out.outLen.toNat + len →
            exec (.inflate stepMode) s = .next
              (faulted 0x0F (Word.ofNat (s.out.outLen.toNat + len)) read)))))

/-- 43_inflate.md R262, R263: the faults of a dynamic header, each with exactly the bits before it
consumed, nothing written to the output, and the table that was being built left invalid: `E_BADLEN`
from the code-length table; code 16 with no length before it; an item that passes HLIT + HDIST; no code
of the code-length table; `E_BADLEN` from the LITLEN table and from the DIST table. -/
def Obligations.DynamicHeaderFaults : Prop :=
  ∀ (final stepMode : Bool) (s : State) (hlit hdist : Nat) (cl : List Nat) (bits : List Bool),
    readyToInflate s = true → countsFit hlit hdist cl = true → beginsWith s bits →
    bits.length ≤ realBits s →
    (∀ e, zBuild (clLengths cl) = .error e →
      bits = [final, false, true] ++ countBits hlit hdist cl →
      InflateFaults stepMode s 2 (s.tab.zt.set 2 none) (window s) bits 0x09 e) ∧
    (∀ (ct : ZTable) (items : List LengthItem) (lens : List Nat) (x : LengthItem)
      (pre : List Bool) (zt : Vector (Option ZTable) 3),
      zBuild (clLengths cl) = .ok ct → expandItems ct (hlit + hdist) items [] = some lens →
      pre = [final, false, true] ++ countBits hlit hdist cl ++ items.flatMap (lengthItemBits ct) →
      zt = s.tab.zt.set 2 (some ct) →
      (lens.length < hlit + hdist → itemCoded ct x = true →
        (itemLengths x lens = none → bits = pre ++ codeBits ct 16 →
          InflateFaults stepMode s 2 zt (window s) bits 0x09 0x20000010) ∧
        (∀ more, itemLengths x lens = some more → hlit + hdist < lens.length + more.length →
          bits = pre ++ lengthItemBits ct x →
          InflateFaults stepMode s 2 zt (window s) bits 0x09
            (0x20000000#32 ||| Word.ofNat x.code))) ∧
      (lens.length < hlit + hdist → bits = pre →
        noneNext ct (fun j => lsbStream s (j + bits.length)) = true →
        InflateFaults stepMode s 2 zt (window s) bits 0x0A 0xFFFFFFFF) ∧
      (lens.length = hlit + hdist → bits = pre →
        (∀ e, zBuild (litlenLengths hlit lens) = .error e →
          InflateFaults stepMode s 2 (zt.set 0 none) (window s) bits 0x09 e) ∧
        (∀ ll e, zBuild (litlenLengths hlit lens) = .ok ll →
          zBuild (distLengths hlit lens) = .error e →
          InflateFaults stepMode s 2 ((zt.set 0 (some ll)).set 1 none) (window s) bits 0x09 e)))

/-- 43_inflate.md R255, R256, R264, R267 to R271; 42_huffman.md R210: the faults of compressed data
after any tokens, in a fixed or a dynamic block: the output holds what those tokens gave, and nothing
of the one that faults. `E_OUTFULL` with the length it needs for a literal and for a match (that FADDR
takes its low 32 bits where it is 2^32 or more is the model's reading, log 13, DEDUCED); `E_DIST`;
`E_BADCODE` for the length symbols 286 and 287, for the distance symbols 30 and 31, and where no code
begins the stream; in each case exactly the bits up to the check are consumed. `E_EOF` with CUR where
the real bits end within a token or the end-of-block code, and where they end anywhere in the block. -/
def Obligations.CompressedDataFaults : Prop :=
  ∀ (final stepMode : Bool) (s : State) (h : BlockHead) (b : BlockTables) (ts : List Token)
    (w : List Byte) (pre : List Bool), readyToInflate s = true → headTables h = some b →
    expandTokens b.ll b.dt ts (window s) = some w → w.length ≤ s.out.outCap.toNat →
    pre = headBits final h b ++ ts.flatMap (tokenBits b.ll b.dt) →
    (∀ (t : Token) (code : Byte) (info : Nat) (bits : List Bool),
      tokenFault b.ll b.dt s.out.outCap.toNat w t = some (code, info, bits) →
      beginsWith s (pre ++ bits) → (pre ++ bits).length ≤ realBits s →
      InflateFaults stepMode s (headType h) (tablesAfter b s.tab.zt) w (pre ++ bits) code
        (Word.ofNat info)) ∧
    (beginsWith s pre → pre.length ≤ realBits s →
      noneNext b.ll (fun j => lsbStream s (j + pre.length)) = true →
      InflateFaults stepMode s (headType h) (tablesAfter b s.tab.zt) w pre 0x0A 0xFFFFFFFF) ∧
    (∀ (i e : Nat) (bits : List Bool), bits = pre ++ lengthBits b.ll i e →
      i < 29 → hasCode b.ll (257 + i) = true → e < 2 ^ lengthExtras.getD i 0 →
      beginsWith s bits → bits.length ≤ realBits s →
      noneNext b.dt (fun j => lsbStream s (j + bits.length)) = true →
      InflateFaults stepMode s (headType h) (tablesAfter b s.tab.zt) w bits 0x0A 0xFFFFFFFF) ∧
    (∀ next : List Bool,
      ((∃ t, tokenCoded b.ll b.dt t = true ∧ next = tokenBits b.ll b.dt t) ∨
        (hasCode b.ll 256 = true ∧ next = codeBits b.ll 256)) →
      beginsWith s (pre ++ next) → realBits s < (pre ++ next).length →
      (∃ t, exec (.inflate stepMode) s = .next t ∧ t.ctl.estate = .fault ∧ t.ctl.errCode = 0x07 ∧
        t.ctl.faddr = t.rd.cur ∧ t.rd.ovr = true ∧ t.rd.eof = true) ∧
      (pre.length ≤ realBits s →
        ∃ (r : Reader) (mem : Memory) (n : Nat),
          exec (.inflate stepMode) s = .next
            (faulted 0x07 r.cur
              { s with
                rd := r
                out :=
                  { s.out with
                    outLen := Word.ofNat w.length, zfinal := false, zbtype := headType h }
                tab := { s.tab with zt := tablesAfter b s.tab.zt }
                bus := { s.bus with mem := mem } }) ∧
          realBits s < n ∧ n ≤ (pre ++ next).length ∧ lsbAdvanced n s r ∧ r.ovr = true ∧
          outputIs s w mem))

/-- 43_inflate.md R269: the window copy, for every distance and length, overlapping or not: byte j of
the match is the window's byte `j mod dist` from the start of the match; no other byte changes. -/
def Obligations.CopyRepeatsWindow : Prop :=
  ∀ (s : State) (dist len : Nat), 1 ≤ dist → dist ≤ s.out.outLen.toNat →
    s.out.outLen.toNat + len ≤ s.out.outCap.toNat → answers s (outputRegion s) = true →
    Memory.wf s.bus.mem = true →
    ∃ mem, copyMatch dist len (Run.whole s) = .ok ()
        (Run.whole
          { s with
            out := { s.out with outLen := s.out.outLen + Word.ofNat len }
            bus := { s.bus with mem := mem } }) ∧
      ∀ a, memGet mem a =
        if within a (s.out.outBase.toNat + s.out.outLen.toNat) len then
          byteAt s (s.out.outBase.toNat + (s.out.outLen.toNat - dist) +
            (a - (s.out.outBase.toNat + s.out.outLen.toNat)) % dist)
        else byteAt s a

/-! ### PNG rows -/

/-- 44_png_filter.md R301 to R303, R306 to R310: PNG_UNFILTER on regions that answer and do not meet.
A filter type above 4 raises `E_FILTER` and writes nothing. Else every byte of the row is the raw byte
plus the predictor of its reconstructed neighbours, the alpha bytes are 0xFF, and nothing else
changes. -/
def Obligations.UnfilterRow : Prop :=
  ∀ (bppm1 : BitVec 3) (first alpha a16 : Bool) (s : State) (bpp sb : Nat) (ft : Byte),
    valueFault (.pngUnfilter bppm1 first alpha a16) s = none →
    answers s ⟨s.args.arg0.toNat, 1 + s.args.arg3.toNat⟩ = true →
    answers s ⟨s.args.arg1.toNat, outputRow bppm1 alpha a16 s⟩ = true →
    (first = false → answers s ⟨s.args.arg2.toNat, outputRow bppm1 alpha a16 s⟩ = true) →
    Memory.wf s.bus.mem = true →
    bpp = bppm1.toNat + 1 → sb = (if alpha then (if a16 then 2 else 1) else 0) →
    ft = byteAt s s.args.arg0.toNat →
    (4 < ft.toNat →
      exec (.pngUnfilter bppm1 first alpha a16) s = .next (faulted 0x10 (0#24 ++ ft) s)) ∧
    (ft.toNat ≤ 4 →
      ∃ mem, exec (.pngUnfilter bppm1 first alpha a16) s = .next
          (completed (0#24 ++ ft) { s with bus := { s.bus with mem := mem } }) ∧
        (∀ k, k < s.args.arg3.toNat →
          memGet mem (s.args.arg1.toNat + rowPos bpp sb k) =
            byteAt s (s.args.arg0.toNat + 1 + k) +
              predicted ft.toNat bpp k (fun j => memGet mem (s.args.arg1.toNat + rowPos bpp sb j))
                (fun j => if first then 0 else byteAt s (s.args.arg2.toNat + rowPos bpp sb j))) ∧
        (∀ p j, p < s.args.arg3.toNat / bpp → j < sb →
          memGet mem (s.args.arg1.toNat + p * (bpp + sb) + bpp + j) = 0xFF) ∧
        ∀ a, within a s.args.arg1.toNat (outputRow bppm1 alpha a16 s) = false →
          memGet mem a = byteAt s a)

/-- 44_png_filter.md R313: unfiltering a forward-filtered row gives the row back, for every filter
type, every bpp, first row or not, with or without alpha. -/
def Obligations.UnfilterInvertsFilter : Prop :=
  ∀ (bppm1 : BitVec 3) (first alpha a16 : Bool) (s : State) (bpp sb : Nat) (ft : Byte)
    (row : Nat → Byte),
    valueFault (.pngUnfilter bppm1 first alpha a16) s = none →
    answers s ⟨s.args.arg0.toNat, 1 + s.args.arg3.toNat⟩ = true →
    answers s ⟨s.args.arg1.toNat, outputRow bppm1 alpha a16 s⟩ = true →
    (first = false → answers s ⟨s.args.arg2.toNat, outputRow bppm1 alpha a16 s⟩ = true) →
    Memory.wf s.bus.mem = true →
    bpp = bppm1.toNat + 1 → sb = (if alpha then (if a16 then 2 else 1) else 0) →
    ft = byteAt s s.args.arg0.toNat → ft.toNat ≤ 4 →
    (∀ k, k < s.args.arg3.toNat →
      byteAt s (s.args.arg0.toNat + 1 + k) =
        row k - predicted ft.toNat bpp k row
          (fun j => if first then 0 else byteAt s (s.args.arg2.toNat + rowPos bpp sb j))) →
    ∃ t, exec (.pngUnfilter bppm1 first alpha a16) s = .next t ∧ t.ctl.estate = .idle ∧
      ∀ k, k < s.args.arg3.toNat → byteAt t (s.args.arg1.toNat + rowPos bpp sb k) = row k

/-- 44_png_filter.md R306: Paeth is one of a, b, c, none of them is nearer to a + b - c, and a tie goes
to a before b before c. -/
def Obligations.PaethPicksNearest : Prop :=
  ∀ a b c : Nat, ∀ p : Int, p = a + b - c →
    (paeth a b c = a ∨ paeth a b c = b ∨ paeth a b c = c) ∧
    (∀ v : Nat, v = a ∨ v = b ∨ v = c → (p - paeth a b c).natAbs ≤ (p - v).natAbs) ∧
    ((p - a).natAbs ≤ (p - b).natAbs → (p - a).natAbs ≤ (p - c).natAbs → paeth a b c = a) ∧
    ((p - b).natAbs < (p - a).natAbs → (p - b).natAbs ≤ (p - c).natAbs → paeth a b c = b)

/-! ### JPEG -/

/-- 45_jpeg_idct.md R331, R332: J_RECEIVE reads nothing for n = 0; else it consumes n bits, the first
the most significant, and gives them, or them minus `2^n - 1` when the first is 0. -/
def Obligations.ReceiveExtends : Prop :=
  ∀ (n : BitVec 5) (s : State) (v : Nat), n.toNat ≤ 16 → s.rd.mode = .msb → readerOk s.rd = true →
    inputAnswers s = true → v = highFirst (msbStream s) n.toNat →
    (n.toNat = 0 → exec (.jReceive n) s = .next (completed 0 s)) ∧
    (1 ≤ n.toNat →
      ∃ r, exec (.jReceive n) s = .next
          (completed
            (if msbStream s 0 then Word.ofNat v else Word.ofNat v - Word.ofNat (2 ^ n.toNat - 1))
            { s with rd := r }) ∧
        msbAdvanced n.toNat s r)

/-- 45_jpeg_idct.md R333, R334: QT_LOAD fills the table from 64 bytes or 64 big-endian pairs in zigzag
order, and gives the bytes read. -/
def Obligations.QuantTableLoaded : Prop :=
  ∀ (idx : BitVec 2) (p16 : Bool) (s : State),
    answers s ⟨s.args.arg0.toNat, if p16 then 128 else 64⟩ = true →
    ∃ tbl : Vector Half 64,
      exec (.qtLoad idx p16) s = .next
        (completed (if p16 then 128 else 64)
          { s with tab := { s.tab with qt := s.tab.qt.set (sel4 idx) (some tbl) } }) ∧
      ∀ i, i < 64 →
        tbl.getD (zz i) 0 =
          if p16 then
            byteAt s (s.args.arg0.toNat + 2 * i) ++ byteAt s (s.args.arg0.toNat + 2 * i + 1)
          else 0#8 ++ byteAt s (s.args.arg0.toNat + i)

/-- 45_jpeg_idct.md R335 to R338: a block encoded with the two tables, any items and either end,
decodes to its coefficients: the DC value through the predictor, the items in zigzag places, all
others 0; RES is one past the last position, at most 64, and exactly the block's bits are consumed; OVR
is set when one of them was a pad bit. -/
def Obligations.BlockDecodes : Prop :=
  ∀ (dct act comp : BitVec 2) (s : State) (dc ac : JTable) (d v eob k : Nat) (xs : List AcItem)
    (pred : Word) (coef : Vector Half 64),
    s.rd.mode = .msb → readerOk s.rd = true → inputAnswers s = true →
    s.tab.jdc[sel4 dct] = some dc → s.tab.jac[sel4 act] = some ac →
    jTableOk dc = true → jTableOk ac = true →
    d < dc.entries.length → (jEntry dc d).val.toNat ≤ 15 → v < 2 ^ (jEntry dc d).val.toNat →
    pred = s.dcpred[sel4 comp] +
      (if (jEntry dc d).val = 0 then 0 else Word.ofInt (extend v (jEntry dc d).val.toNat)) →
    placeItems ac xs 1 ((Vector.replicate 64 0).set 0 (pred.setWidth 16)) = some (k, coef) →
    (k < 64 → isEob ac eob = true) → beginsWithMsb s (blockBits dc ac d v xs k eob) →
    ∃ r, exec (.jDecodeBlock dct act comp) s = .next
        (completed (Word.ofNat (min k 64))
          { s with rd := r, coef := coef, dcpred := s.dcpred.set (sel4 comp) pred }) ∧
      msbAdvanced (blockBits dc ac d v xs k eob).length s r ∧
      (s.rd.padbits = 0 →
        r.ovr = (s.rd.ovr || decide (realBitsMsb s < (blockBits dc ac d v xs k eob).length)))

/-- 45_jpeg_idct.md R335 to R337, 42_huffman.md R211: the faults of J_DECODE_BLOCK. A DC category above
15 raises `E_BADCODE` with it, and no DC code `E_BADCODE` with all ones, before COEF is cleared. After
the DC value and any items, a run past position 63 raises `E_RUN` with the position, its code consumed
and its extra bits not, and no AC code `E_BADCODE`; the predictor and the coefficients placed by then
stay. -/
def Obligations.BlockFaultsKeepPartial : Prop :=
  ∀ (dct act comp : BitVec 2) (s : State) (dc ac : JTable) (i : Instr),
    i = .jDecodeBlock dct act comp →
    s.rd.mode = .msb → readerOk s.rd = true → inputAnswers s = true →
    s.tab.jdc[sel4 dct] = some dc → s.tab.jac[sel4 act] = some ac →
    jTableOk dc = true → jTableOk ac = true →
    (∀ (d : Nat) (bits : List Bool), d < dc.entries.length → 15 < (jEntry dc d).val.toNat →
      bits = bitsOf (jEntry dc d).size (jEntry dc d).code → beginsWithMsb s bits →
      BlockFaults i s s.coef s.dcpred bits 0x0A (0#24 ++ (jEntry dc d).val)) ∧
    ((∀ e, e ∈ dc.entries → codeNext e.size e.code (msbStream s) = false) →
      BlockFaults i s s.coef s.dcpred [] 0x0A 0xFFFFFFFF) ∧
    (∀ (d v k : Nat) (xs : List AcItem) (pred : Word) (coef : Vector Half 64) (pre : List Bool),
      d < dc.entries.length → (jEntry dc d).val.toNat ≤ 15 → v < 2 ^ (jEntry dc d).val.toNat →
      pred = s.dcpred[sel4 comp] +
        (if (jEntry dc d).val = 0 then 0 else Word.ofInt (extend v (jEntry dc d).val.toNat)) →
      placeItems ac xs 1 ((Vector.replicate 64 0).set 0 (pred.setWidth 16)) = some (k, coef) →
      k < 64 → pre = openBlockBits dc ac d v xs → beginsWithMsb s pre →
      (∀ (e : Nat) (bits : List Bool), e < ac.entries.length →
        (jEntry ac e).val.toNat % 16 ≠ 0 → 63 < k + (jEntry ac e).val.toNat / 16 →
        bits = pre ++ bitsOf (jEntry ac e).size (jEntry ac e).code → beginsWithMsb s bits →
        BlockFaults i s coef (s.dcpred.set (sel4 comp) pred) bits 0x11
          (Word.ofNat (k + (jEntry ac e).val.toNat / 16))) ∧
      ((∀ e, e ∈ ac.entries →
          codeNext e.size e.code (fun j => msbStream s (j + pre.length)) = false) →
        BlockFaults i s coef (s.dcpred.set (sel4 comp) pred) pre 0x0A 0xFFFFFFFF))

/-- 45_jpeg_idct.md R339, R340: J_RESET empties the reader and the predictors. J_RESTART does the same
and gives 1 where a restart marker is cached, or is next in the input; it gives 0 and resets nothing
where another marker is cached or where no 0xFF is near. -/
def Obligations.EntropyResets : Prop :=
  ∀ (s cleared : State), s.rd.mode = .msb →
    cleared =
      { s with
        rd := { s.rd with acc := 0, bitcnt := 0, padbits := 0, nomore := false, marker := 0xFF }
        dcpred := Vector.replicate 4 0 } →
    exec .jReset s = .next (completed 0 cleared) ∧
    (readerOk s.rd = true → inputAnswers s = true →
      (0xD0 ≤ s.rd.marker.toNat → s.rd.marker.toNat ≤ 0xD7 →
        exec .jRestart s = .next (completed 1 cleared)) ∧
      (s.rd.bitcnt < 24 → s.rd.nomore = false → 2 ≤ inputLeft s → inputByte s 0 = 0xFF →
        0xD0 ≤ (inputByte s 1).toNat → (inputByte s 1).toNat ≤ 0xD7 →
        exec .jRestart s = .next
          (completed 1 { cleared with rd := { cleared.rd with cur := s.rd.cur + 2 } })) ∧
      (24 ≤ s.rd.bitcnt → (s.rd.marker.toNat < 0xD0 ∨ 0xD7 < s.rd.marker.toNat) →
        exec .jRestart s = .next (completed 0 s)) ∧
      (s.rd.bitcnt < 24 → (s.rd.marker.toNat < 0xD0 ∨ 0xD7 < s.rd.marker.toNat) →
        (s.rd.nomore = true ∨ ∀ k, k < 4 → k < inputLeft s → inputByte s k ≠ 0xFF) →
        ∃ r, exec .jRestart s = .next (completed 0 { s with rd := r }) ∧
          msbAdvanced 0 s r ∧ r.marker = s.rd.marker ∧ r.ovr = s.rd.ovr))

/-- 45_jpeg_idct.md R341, R342: COEF_LOAD reads 64 little-endian values in natural order; COEF_STORE
writes them so, and no other byte; a store and then a load at the same address restore COEF whatever
it held meanwhile. -/
def Obligations.CoefTransfers : Prop :=
  ∀ s : State, answers s ⟨s.args.arg0.toNat, 128⟩ = true →
    (∃ coef : Vector Half 64, exec .coefLoad s = .next (completed 0 { s with coef := coef }) ∧
      ∀ i, i < 64 →
        coef.getD i 0 =
          byteAt s (s.args.arg0.toNat + 2 * i + 1) ++ byteAt s (s.args.arg0.toNat + 2 * i)) ∧
    (Memory.wf s.bus.mem = true →
      ∃ mem, exec .coefStore s =
          .next (completed 0 { s with bus := { s.bus with mem := mem } }) ∧
        (∀ a, memGet mem a =
          if within a s.args.arg0.toNat 128 then coefByte s (a - s.args.arg0.toNat)
          else byteAt s a) ∧
        ∀ other : Vector Half 64, ∃ u,
          exec .coefLoad { s with bus := { s.bus with mem := mem }, coef := other } = .next u ∧
          u.ctl.estate = .idle ∧ u.coef = s.coef)

/-- 45_jpeg_idct.md R343 to R349: IDCT writes the 64 pixels of the inverse transform of COEF, or of the
products with the table modulo 2^16, row r at `ARG0 + r*ARG1`; a pixel that no later row covers reads
back, for every stride; nothing else changes. The transform is that of `pixelAt`, the two passes in
exact integers, wrapped to s32 before each shift. -/
def Obligations.IdctWritesPixels : Prop :=
  ∀ (deq : Bool) (qidx : BitVec 2) (s : State) (q : Vector Half 64) (x : Nat → Word),
    valueFault (.idct deq qidx) s = none →
    (deq = true → s.tab.qt[sel4 qidx] = some q) →
    x = (fun i =>
      if deq then (s.coef.getD i 0 * q.getD i 0).signExtend 32 else (s.coef.getD i 0).signExtend 32) →
    (∀ r, r < 8 → answers s ⟨s.args.arg0.toNat + r * s.args.arg1.toNat, 8⟩ = true) →
    Memory.wf s.bus.mem = true →
    ∃ mem, exec (.idct deq qidx) s =
        .next (completed 0 { s with bus := { s.bus with mem := mem } }) ∧
      (∀ r c, r < 8 → c < 8 →
        (∀ r', r < r' → r' < 8 →
          within (s.args.arg0.toNat + r * s.args.arg1.toNat + c)
            (s.args.arg0.toNat + r' * s.args.arg1.toNat) 8 = false) →
        memGet mem (s.args.arg0.toNat + r * s.args.arg1.toNat + c) = pixelAt x r c) ∧
      ∀ a, storedTo (.idct deq qidx) s a = false → memGet mem a = byteAt s a

/-- 45_jpeg_idct.md R345 to R349: a block whose AC words are all 0 transforms to 64 equal pixels: the
DC word over 8, rounded half up, plus 128, clamped to 0..255; and the column pass of such a column
gives four times its first word, eight times (R347's fast path). -/
def Obligations.FlatBlockPixels : Prop :=
  ∀ (x : Nat → Word) (dc : Half), x 0 = dc.signExtend 32 →
    (∀ i, 1 ≤ i → i < 64 → x i = 0) →
    columnPass x 0 = List.replicate 8 (x 0 * 4) ∧
    ∀ r c, r < 8 → c < 8 →
      ((((idctPixels x).getD r []).getD c 0).toNat : Int) =
        max 0 (min 255 ((dc.toInt + 4) / 8 + 128))
end

