-- ==== Sys2Proof/Laws/State.lean ====
section
/-! SUPPORT. What each named update of the state does to each of its nine parts, one lemma for each
part, so that no proof unfolds a record update. -/

namespace Sys2Proof.Machine

open Sys2Proof

variable (s : State)

/-! ### complete -/

@[simp] theorem complete_ctl (res : Word) :
    (complete res s).ctl = { s.ctl with res := res, irqDone := true, cmdcnt := s.ctl.cmdcnt + 1, estate := .idle } := rfl

@[simp] theorem complete_args (res : Word) : (complete res s).args = s.args := rfl

@[simp] theorem complete_rd (res : Word) : (complete res s).rd = s.rd := rfl

@[simp] theorem complete_out (res : Word) : (complete res s).out = s.out := rfl

@[simp] theorem complete_tab (res : Word) : (complete res s).tab = s.tab := rfl

@[simp] theorem complete_coef (res : Word) : (complete res s).coef = s.coef := rfl

@[simp] theorem complete_dcpred (res : Word) : (complete res s).dcpred = s.dcpred := rfl

@[simp] theorem complete_bus (res : Word) : (complete res s).bus = s.bus := rfl

@[simp] theorem complete_env (res : Word) : (complete res s).env = s.env := rfl

/-! ### faultEntry -/

@[simp] theorem faultEntry_ctl (code : FaultCode) (info : Word) :
    (faultEntry code info s).ctl = { s.ctl with
      errCode := faultByte code
      errOp := s.ctl.cmd.extractLsb' 0 8
      faddr := info
      estate := .fault
      irqErr := true } := rfl

@[simp] theorem faultEntry_args (code : FaultCode) (info : Word) :
    (faultEntry code info s).args = s.args := rfl

@[simp] theorem faultEntry_rd (code : FaultCode) (info : Word) :
    (faultEntry code info s).rd = s.rd := rfl

@[simp] theorem faultEntry_out (code : FaultCode) (info : Word) :
    (faultEntry code info s).out = s.out := rfl

@[simp] theorem faultEntry_tab (code : FaultCode) (info : Word) :
    (faultEntry code info s).tab = s.tab := rfl

@[simp] theorem faultEntry_coef (code : FaultCode) (info : Word) :
    (faultEntry code info s).coef = s.coef := rfl

@[simp] theorem faultEntry_dcpred (code : FaultCode) (info : Word) :
    (faultEntry code info s).dcpred = s.dcpred := rfl

@[simp] theorem faultEntry_bus (code : FaultCode) (info : Word) :
    (faultEntry code info s).bus = s.bus := rfl

@[simp] theorem faultEntry_env (code : FaultCode) (info : Word) :
    (faultEntry code info s).env = s.env := rfl

/-! ### clearError -/

@[simp] theorem clearError_ctl :
    (clearError s).ctl = { s.ctl with errCode := 0, errOp := 0, faddr := 0, drop := false, estate := .idle } := rfl

@[simp] theorem clearError_args : (clearError s).args = s.args := rfl

@[simp] theorem clearError_rd : (clearError s).rd = s.rd := rfl

@[simp] theorem clearError_out : (clearError s).out = s.out := rfl

@[simp] theorem clearError_tab : (clearError s).tab = s.tab := rfl

@[simp] theorem clearError_coef : (clearError s).coef = s.coef := rfl

@[simp] theorem clearError_dcpred : (clearError s).dcpred = s.dcpred := rfl

@[simp] theorem clearError_bus : (clearError s).bus = s.bus := rfl

@[simp] theorem clearError_env : (clearError s).env = s.env := rfl

/-! ### resetState -/

@[simp] theorem resetState_ctl :
    (resetState s).ctl = State.reset.ctl := rfl

@[simp] theorem resetState_args :
    (resetState s).args = State.reset.args := rfl

@[simp] theorem resetState_rd :
    (resetState s).rd = State.reset.rd := rfl

@[simp] theorem resetState_out :
    (resetState s).out = State.reset.out := rfl

@[simp] theorem resetState_tab :
    (resetState s).tab = State.reset.tab := rfl

@[simp] theorem resetState_coef :
    (resetState s).coef = State.reset.coef := rfl

@[simp] theorem resetState_dcpred :
    (resetState s).dcpred = State.reset.dcpred := rfl

@[simp] theorem resetState_bus : (resetState s).bus = s.bus := rfl

@[simp] theorem resetState_env : (resetState s).env = s.env := rfl

/-! ### landWrite -/

@[simp] theorem landWrite_ctl (a : Nat) (v : Byte) : (landWrite a v s).ctl = s.ctl := rfl

@[simp] theorem landWrite_args (a : Nat) (v : Byte) : (landWrite a v s).args = s.args := rfl

@[simp] theorem landWrite_rd (a : Nat) (v : Byte) : (landWrite a v s).rd = s.rd := rfl

@[simp] theorem landWrite_out (a : Nat) (v : Byte) : (landWrite a v s).out = s.out := rfl

@[simp] theorem landWrite_tab (a : Nat) (v : Byte) : (landWrite a v s).tab = s.tab := rfl

@[simp] theorem landWrite_coef (a : Nat) (v : Byte) : (landWrite a v s).coef = s.coef := rfl

@[simp] theorem landWrite_dcpred (a : Nat) (v : Byte) : (landWrite a v s).dcpred = s.dcpred := rfl

@[simp] theorem landWrite_bus (a : Nat) (v : Byte) :
    (landWrite a v s).bus = { s.bus with mem := memSet s.bus.mem a v } := rfl

@[simp] theorem landWrite_env (a : Nat) (v : Byte) : (landWrite a v s).env = s.env := rfl

/-! ### advanceCur -/

@[simp] theorem advanceCur_ctl : (advanceCur s).ctl = s.ctl := rfl

@[simp] theorem advanceCur_args : (advanceCur s).args = s.args := rfl

@[simp] theorem advanceCur_rd :
    (advanceCur s).rd = { s.rd with cur := s.rd.cur + 1 } := rfl

@[simp] theorem advanceCur_out : (advanceCur s).out = s.out := rfl

@[simp] theorem advanceCur_tab : (advanceCur s).tab = s.tab := rfl

@[simp] theorem advanceCur_coef : (advanceCur s).coef = s.coef := rfl

@[simp] theorem advanceCur_dcpred : (advanceCur s).dcpred = s.dcpred := rfl

@[simp] theorem advanceCur_bus : (advanceCur s).bus = s.bus := rfl

@[simp] theorem advanceCur_env : (advanceCur s).env = s.env := rfl

/-! ### markEof -/

@[simp] theorem markEof_ctl : (markEof s).ctl = s.ctl := rfl

@[simp] theorem markEof_args : (markEof s).args = s.args := rfl

@[simp] theorem markEof_rd :
    (markEof s).rd = { s.rd with eof := true } := rfl

@[simp] theorem markEof_out : (markEof s).out = s.out := rfl

@[simp] theorem markEof_tab : (markEof s).tab = s.tab := rfl

@[simp] theorem markEof_coef : (markEof s).coef = s.coef := rfl

@[simp] theorem markEof_dcpred : (markEof s).dcpred = s.dcpred := rfl

@[simp] theorem markEof_bus : (markEof s).bus = s.bus := rfl

@[simp] theorem markEof_env : (markEof s).env = s.env := rfl

/-! ### markOvr -/

@[simp] theorem markOvr_ctl : (markOvr s).ctl = s.ctl := rfl

@[simp] theorem markOvr_args : (markOvr s).args = s.args := rfl

@[simp] theorem markOvr_rd :
    (markOvr s).rd = { s.rd with ovr := true } := rfl

@[simp] theorem markOvr_out : (markOvr s).out = s.out := rfl

@[simp] theorem markOvr_tab : (markOvr s).tab = s.tab := rfl

@[simp] theorem markOvr_coef : (markOvr s).coef = s.coef := rfl

@[simp] theorem markOvr_dcpred : (markOvr s).dcpred = s.dcpred := rfl

@[simp] theorem markOvr_bus : (markOvr s).bus = s.bus := rfl

@[simp] theorem markOvr_env : (markOvr s).env = s.env := rfl

/-! ### cacheMarker -/

@[simp] theorem cacheMarker_ctl (c : Byte) : (cacheMarker c s).ctl = s.ctl := rfl

@[simp] theorem cacheMarker_args (c : Byte) : (cacheMarker c s).args = s.args := rfl

@[simp] theorem cacheMarker_rd (c : Byte) :
    (cacheMarker c s).rd = { s.rd with marker := c, nomore := true } := rfl

@[simp] theorem cacheMarker_out (c : Byte) : (cacheMarker c s).out = s.out := rfl

@[simp] theorem cacheMarker_tab (c : Byte) : (cacheMarker c s).tab = s.tab := rfl

@[simp] theorem cacheMarker_coef (c : Byte) : (cacheMarker c s).coef = s.coef := rfl

@[simp] theorem cacheMarker_dcpred (c : Byte) : (cacheMarker c s).dcpred = s.dcpred := rfl

@[simp] theorem cacheMarker_bus (c : Byte) : (cacheMarker c s).bus = s.bus := rfl

@[simp] theorem cacheMarker_env (c : Byte) : (cacheMarker c s).env = s.env := rfl

/-! ### enterByte -/

@[simp] theorem enterByte_ctl (b : Byte) (k : ByteKind) : (enterByte b k s).ctl = s.ctl := rfl

@[simp] theorem enterByte_args (b : Byte) (k : ByteKind) : (enterByte b k s).args = s.args := rfl

@[simp] theorem enterByte_out (b : Byte) (k : ByteKind) : (enterByte b k s).out = s.out := rfl

@[simp] theorem enterByte_tab (b : Byte) (k : ByteKind) : (enterByte b k s).tab = s.tab := rfl

@[simp] theorem enterByte_coef (b : Byte) (k : ByteKind) : (enterByte b k s).coef = s.coef := rfl

@[simp] theorem enterByte_dcpred (b : Byte) (k : ByteKind) :
    (enterByte b k s).dcpred = s.dcpred := rfl

@[simp] theorem enterByte_bus (b : Byte) (k : ByteKind) : (enterByte b k s).bus = s.bus := rfl

@[simp] theorem enterByte_env (b : Byte) (k : ByteKind) : (enterByte b k s).env = s.env := rfl

/-! ### dropBits -/

@[simp] theorem dropBits_ctl (n : Nat) : (dropBits n s).ctl = s.ctl := rfl

@[simp] theorem dropBits_args (n : Nat) : (dropBits n s).args = s.args := rfl

@[simp] theorem dropBits_out (n : Nat) : (dropBits n s).out = s.out := rfl

@[simp] theorem dropBits_tab (n : Nat) : (dropBits n s).tab = s.tab := rfl

@[simp] theorem dropBits_coef (n : Nat) : (dropBits n s).coef = s.coef := rfl

@[simp] theorem dropBits_dcpred (n : Nat) : (dropBits n s).dcpred = s.dcpred := rfl

@[simp] theorem dropBits_bus (n : Nat) : (dropBits n s).bus = s.bus := rfl

@[simp] theorem dropBits_env (n : Nat) : (dropBits n s).env = s.env := rfl

/-! ### emptyReader -/

@[simp] theorem emptyReader_ctl : (emptyReader s).ctl = s.ctl := rfl

@[simp] theorem emptyReader_args : (emptyReader s).args = s.args := rfl

@[simp] theorem emptyReader_rd :
    (emptyReader s).rd = { s.rd with acc := 0, bitcnt := 0, padbits := 0, nomore := false, marker := 0xFF } := rfl

@[simp] theorem emptyReader_out : (emptyReader s).out = s.out := rfl

@[simp] theorem emptyReader_tab : (emptyReader s).tab = s.tab := rfl

@[simp] theorem emptyReader_coef : (emptyReader s).coef = s.coef := rfl

@[simp] theorem emptyReader_dcpred : (emptyReader s).dcpred = s.dcpred := rfl

@[simp] theorem emptyReader_bus : (emptyReader s).bus = s.bus := rfl

@[simp] theorem emptyReader_env : (emptyReader s).env = s.env := rfl

/-! ### initReader -/

@[simp] theorem initReader_ctl (m : Mode) : (initReader m s).ctl = s.ctl := rfl

@[simp] theorem initReader_args (m : Mode) : (initReader m s).args = s.args := rfl

@[simp] theorem initReader_rd (m : Mode) :
    (initReader m s).rd = { s.rd with
      mode := m, cur := 0, acc := 0, bitcnt := 0, padbits := 0, eof := false, ovr := false
      nomore := false, marker := 0xFF } := rfl

@[simp] theorem initReader_out (m : Mode) :
    (initReader m s).out = { s.out with zfinal := false, zbtype := 0 } := rfl

@[simp] theorem initReader_tab (m : Mode) : (initReader m s).tab = s.tab := rfl

@[simp] theorem initReader_coef (m : Mode) : (initReader m s).coef = s.coef := rfl

@[simp] theorem initReader_dcpred (m : Mode) : (initReader m s).dcpred = s.dcpred := rfl

@[simp] theorem initReader_bus (m : Mode) : (initReader m s).bus = s.bus := rfl

@[simp] theorem initReader_env (m : Mode) : (initReader m s).env = s.env := rfl

/-! ### setZTable -/

@[simp] theorem setZTable_ctl (t : Fin 3) (tbl : Option ZTable) :
    (setZTable t tbl s).ctl = s.ctl := rfl

@[simp] theorem setZTable_args (t : Fin 3) (tbl : Option ZTable) :
    (setZTable t tbl s).args = s.args := rfl

@[simp] theorem setZTable_rd (t : Fin 3) (tbl : Option ZTable) :
    (setZTable t tbl s).rd = s.rd := rfl

@[simp] theorem setZTable_out (t : Fin 3) (tbl : Option ZTable) :
    (setZTable t tbl s).out = s.out := rfl

@[simp] theorem setZTable_tab (t : Fin 3) (tbl : Option ZTable) :
    (setZTable t tbl s).tab = { s.tab with zt := s.tab.zt.set t tbl } := rfl

@[simp] theorem setZTable_coef (t : Fin 3) (tbl : Option ZTable) :
    (setZTable t tbl s).coef = s.coef := rfl

@[simp] theorem setZTable_dcpred (t : Fin 3) (tbl : Option ZTable) :
    (setZTable t tbl s).dcpred = s.dcpred := rfl

@[simp] theorem setZTable_bus (t : Fin 3) (tbl : Option ZTable) :
    (setZTable t tbl s).bus = s.bus := rfl

@[simp] theorem setZTable_env (t : Fin 3) (tbl : Option ZTable) :
    (setZTable t tbl s).env = s.env := rfl

/-! ### setJTable -/

@[simp] theorem setJTable_ctl (c : JClass) (i : Fin 4) (tbl : Option JTable) :
    (setJTable c i tbl s).ctl = s.ctl := by cases c <;> rfl

@[simp] theorem setJTable_args (c : JClass) (i : Fin 4) (tbl : Option JTable) :
    (setJTable c i tbl s).args = s.args := by cases c <;> rfl

@[simp] theorem setJTable_rd (c : JClass) (i : Fin 4) (tbl : Option JTable) :
    (setJTable c i tbl s).rd = s.rd := by cases c <;> rfl

@[simp] theorem setJTable_out (c : JClass) (i : Fin 4) (tbl : Option JTable) :
    (setJTable c i tbl s).out = s.out := by cases c <;> rfl

@[simp] theorem setJTable_coef (c : JClass) (i : Fin 4) (tbl : Option JTable) :
    (setJTable c i tbl s).coef = s.coef := by cases c <;> rfl

@[simp] theorem setJTable_dcpred (c : JClass) (i : Fin 4) (tbl : Option JTable) :
    (setJTable c i tbl s).dcpred = s.dcpred := by cases c <;> rfl

@[simp] theorem setJTable_bus (c : JClass) (i : Fin 4) (tbl : Option JTable) :
    (setJTable c i tbl s).bus = s.bus := by cases c <;> rfl

@[simp] theorem setJTable_env (c : JClass) (i : Fin 4) (tbl : Option JTable) :
    (setJTable c i tbl s).env = s.env := by cases c <;> rfl

/-! ### setQTable -/

@[simp] theorem setQTable_ctl (q : Fin 4) (tbl : Option (Vector Half 64)) :
    (setQTable q tbl s).ctl = s.ctl := rfl

@[simp] theorem setQTable_args (q : Fin 4) (tbl : Option (Vector Half 64)) :
    (setQTable q tbl s).args = s.args := rfl

@[simp] theorem setQTable_rd (q : Fin 4) (tbl : Option (Vector Half 64)) :
    (setQTable q tbl s).rd = s.rd := rfl

@[simp] theorem setQTable_out (q : Fin 4) (tbl : Option (Vector Half 64)) :
    (setQTable q tbl s).out = s.out := rfl

@[simp] theorem setQTable_tab (q : Fin 4) (tbl : Option (Vector Half 64)) :
    (setQTable q tbl s).tab = { s.tab with qt := s.tab.qt.set q tbl } := rfl

@[simp] theorem setQTable_coef (q : Fin 4) (tbl : Option (Vector Half 64)) :
    (setQTable q tbl s).coef = s.coef := rfl

@[simp] theorem setQTable_dcpred (q : Fin 4) (tbl : Option (Vector Half 64)) :
    (setQTable q tbl s).dcpred = s.dcpred := rfl

@[simp] theorem setQTable_bus (q : Fin 4) (tbl : Option (Vector Half 64)) :
    (setQTable q tbl s).bus = s.bus := rfl

@[simp] theorem setQTable_env (q : Fin 4) (tbl : Option (Vector Half 64)) :
    (setQTable q tbl s).env = s.env := rfl

/-! ### growOutput -/

@[simp] theorem growOutput_ctl : (growOutput s).ctl = s.ctl := rfl

@[simp] theorem growOutput_args : (growOutput s).args = s.args := rfl

@[simp] theorem growOutput_rd : (growOutput s).rd = s.rd := rfl

@[simp] theorem growOutput_out :
    (growOutput s).out = { s.out with outLen := s.out.outLen + 1 } := rfl

@[simp] theorem growOutput_tab : (growOutput s).tab = s.tab := rfl

@[simp] theorem growOutput_coef : (growOutput s).coef = s.coef := rfl

@[simp] theorem growOutput_dcpred : (growOutput s).dcpred = s.dcpred := rfl

@[simp] theorem growOutput_bus : (growOutput s).bus = s.bus := rfl

@[simp] theorem growOutput_env : (growOutput s).env = s.env := rfl

/-! ### noteBlock -/

@[simp] theorem noteBlock_ctl (btype : Nat) : (noteBlock btype s).ctl = s.ctl := rfl

@[simp] theorem noteBlock_args (btype : Nat) : (noteBlock btype s).args = s.args := rfl

@[simp] theorem noteBlock_rd (btype : Nat) : (noteBlock btype s).rd = s.rd := rfl

@[simp] theorem noteBlock_out (btype : Nat) :
    (noteBlock btype s).out = { s.out with zbtype := BitVec.ofNat 2 btype, zfinal := false } := rfl

@[simp] theorem noteBlock_tab (btype : Nat) : (noteBlock btype s).tab = s.tab := rfl

@[simp] theorem noteBlock_coef (btype : Nat) : (noteBlock btype s).coef = s.coef := rfl

@[simp] theorem noteBlock_dcpred (btype : Nat) : (noteBlock btype s).dcpred = s.dcpred := rfl

@[simp] theorem noteBlock_bus (btype : Nat) : (noteBlock btype s).bus = s.bus := rfl

@[simp] theorem noteBlock_env (btype : Nat) : (noteBlock btype s).env = s.env := rfl

/-! ### markFinal -/

@[simp] theorem markFinal_ctl : (markFinal s).ctl = s.ctl := rfl

@[simp] theorem markFinal_args : (markFinal s).args = s.args := rfl

@[simp] theorem markFinal_rd : (markFinal s).rd = s.rd := rfl

@[simp] theorem markFinal_out :
    (markFinal s).out = { s.out with zfinal := true } := rfl

@[simp] theorem markFinal_tab : (markFinal s).tab = s.tab := rfl

@[simp] theorem markFinal_coef : (markFinal s).coef = s.coef := rfl

@[simp] theorem markFinal_dcpred : (markFinal s).dcpred = s.dcpred := rfl

@[simp] theorem markFinal_bus : (markFinal s).bus = s.bus := rfl

@[simp] theorem markFinal_env : (markFinal s).env = s.env := rfl

/-! ### clearCoefs -/

@[simp] theorem clearCoefs_ctl : (clearCoefs s).ctl = s.ctl := rfl

@[simp] theorem clearCoefs_args : (clearCoefs s).args = s.args := rfl

@[simp] theorem clearCoefs_rd : (clearCoefs s).rd = s.rd := rfl

@[simp] theorem clearCoefs_out : (clearCoefs s).out = s.out := rfl

@[simp] theorem clearCoefs_tab : (clearCoefs s).tab = s.tab := rfl

@[simp] theorem clearCoefs_coef :
    (clearCoefs s).coef = Vector.replicate 64 0 := rfl

@[simp] theorem clearCoefs_dcpred : (clearCoefs s).dcpred = s.dcpred := rfl

@[simp] theorem clearCoefs_bus : (clearCoefs s).bus = s.bus := rfl

@[simp] theorem clearCoefs_env : (clearCoefs s).env = s.env := rfl

/-! ### setCoef -/

@[simp] theorem setCoef_ctl (i : Nat) (v : Int) : (setCoef i v s).ctl = s.ctl := rfl

@[simp] theorem setCoef_args (i : Nat) (v : Int) : (setCoef i v s).args = s.args := rfl

@[simp] theorem setCoef_rd (i : Nat) (v : Int) : (setCoef i v s).rd = s.rd := rfl

@[simp] theorem setCoef_out (i : Nat) (v : Int) : (setCoef i v s).out = s.out := rfl

@[simp] theorem setCoef_tab (i : Nat) (v : Int) : (setCoef i v s).tab = s.tab := rfl

@[simp] theorem setCoef_coef (i : Nat) (v : Int) :
    (setCoef i v s).coef = s.coef.setIfInBounds i (BitVec.ofInt 16 v) := rfl

@[simp] theorem setCoef_dcpred (i : Nat) (v : Int) : (setCoef i v s).dcpred = s.dcpred := rfl

@[simp] theorem setCoef_bus (i : Nat) (v : Int) : (setCoef i v s).bus = s.bus := rfl

@[simp] theorem setCoef_env (i : Nat) (v : Int) : (setCoef i v s).env = s.env := rfl

/-! ### addDc -/

@[simp] theorem addDc_ctl (comp : Fin 4) (diff : Int) : (addDc comp diff s).ctl = s.ctl := rfl

@[simp] theorem addDc_args (comp : Fin 4) (diff : Int) : (addDc comp diff s).args = s.args := rfl

@[simp] theorem addDc_rd (comp : Fin 4) (diff : Int) : (addDc comp diff s).rd = s.rd := rfl

@[simp] theorem addDc_out (comp : Fin 4) (diff : Int) : (addDc comp diff s).out = s.out := rfl

@[simp] theorem addDc_tab (comp : Fin 4) (diff : Int) : (addDc comp diff s).tab = s.tab := rfl

@[simp] theorem addDc_coef (comp : Fin 4) (diff : Int) :
    (addDc comp diff s).coef = s.coef.set 0 ((s.dcpred[comp] + Word.ofInt diff).setWidth 16) := rfl

@[simp] theorem addDc_dcpred (comp : Fin 4) (diff : Int) :
    (addDc comp diff s).dcpred = s.dcpred.set comp (s.dcpred[comp] + Word.ofInt diff) := rfl

@[simp] theorem addDc_bus (comp : Fin 4) (diff : Int) : (addDc comp diff s).bus = s.bus := rfl

@[simp] theorem addDc_env (comp : Fin 4) (diff : Int) : (addDc comp diff s).env = s.env := rfl

/-! ### resetEntropy -/

@[simp] theorem resetEntropy_ctl : (resetEntropy s).ctl = s.ctl := rfl

@[simp] theorem resetEntropy_args : (resetEntropy s).args = s.args := rfl

@[simp] theorem resetEntropy_rd :
    (resetEntropy s).rd = { s.rd with acc := 0, bitcnt := 0, padbits := 0, nomore := false, marker := 0xFF } := rfl

@[simp] theorem resetEntropy_out : (resetEntropy s).out = s.out := rfl

@[simp] theorem resetEntropy_tab : (resetEntropy s).tab = s.tab := rfl

@[simp] theorem resetEntropy_coef : (resetEntropy s).coef = s.coef := rfl

@[simp] theorem resetEntropy_dcpred :
    (resetEntropy s).dcpred = Vector.replicate 4 0 := rfl

@[simp] theorem resetEntropy_bus : (resetEntropy s).bus = s.bus := rfl

@[simp] theorem resetEntropy_env : (resetEntropy s).env = s.env := rfl

/-! ### loadCoef -/

@[simp] theorem loadCoef_ctl (base i : Nat) : (loadCoef base i s).ctl = s.ctl := rfl

@[simp] theorem loadCoef_args (base i : Nat) : (loadCoef base i s).args = s.args := rfl

@[simp] theorem loadCoef_rd (base i : Nat) : (loadCoef base i s).rd = s.rd := rfl

@[simp] theorem loadCoef_out (base i : Nat) : (loadCoef base i s).out = s.out := rfl

@[simp] theorem loadCoef_tab (base i : Nat) : (loadCoef base i s).tab = s.tab := rfl

@[simp] theorem loadCoef_coef (base i : Nat) :
    (loadCoef base i s).coef = s.coef.setIfInBounds i (memHalf s.bus.mem (base + 2 * i)) := rfl

@[simp] theorem loadCoef_dcpred (base i : Nat) : (loadCoef base i s).dcpred = s.dcpred := rfl

@[simp] theorem loadCoef_bus (base i : Nat) : (loadCoef base i s).bus = s.bus := rfl

@[simp] theorem loadCoef_env (base i : Nat) : (loadCoef base i s).env = s.env := rfl

/-! ### dropWrite -/

@[simp] theorem dropWrite_ctl :
    (dropWrite s).ctl = { s.ctl with drop := true } := rfl

@[simp] theorem dropWrite_args : (dropWrite s).args = s.args := rfl

@[simp] theorem dropWrite_rd : (dropWrite s).rd = s.rd := rfl

@[simp] theorem dropWrite_out : (dropWrite s).out = s.out := rfl

@[simp] theorem dropWrite_tab : (dropWrite s).tab = s.tab := rfl

@[simp] theorem dropWrite_coef : (dropWrite s).coef = s.coef := rfl

@[simp] theorem dropWrite_dcpred : (dropWrite s).dcpred = s.dcpred := rfl

@[simp] theorem dropWrite_bus : (dropWrite s).bus = s.bus := rfl

@[simp] theorem dropWrite_env : (dropWrite s).env = s.env := rfl

/-! ### withEvents -/

@[simp] theorem withEvents_ctl (es : List Event) : (withEvents es s).ctl = s.ctl := rfl

@[simp] theorem withEvents_args (es : List Event) : (withEvents es s).args = s.args := rfl

@[simp] theorem withEvents_rd (es : List Event) : (withEvents es s).rd = s.rd := rfl

@[simp] theorem withEvents_out (es : List Event) : (withEvents es s).out = s.out := rfl

@[simp] theorem withEvents_tab (es : List Event) : (withEvents es s).tab = s.tab := rfl

@[simp] theorem withEvents_coef (es : List Event) : (withEvents es s).coef = s.coef := rfl

@[simp] theorem withEvents_dcpred (es : List Event) : (withEvents es s).dcpred = s.dcpred := rfl

@[simp] theorem withEvents_bus (es : List Event) : (withEvents es s).bus = s.bus := rfl

@[simp] theorem withEvents_env (es : List Event) :
    (withEvents es s).env = { s.env with events := es } := rfl

/-! ### The reader's fields after a byte has entered ACC, and after bits have left it -/

/-- The reader after a byte has entered ACC. -/
theorem enterByte_rd (b : Byte) (k : ByteKind) :
    (enterByte b k s).rd =
      { s.rd with
        acc := s.rd.acc |||
          (match s.rd.mode with
            | .lsb => b.zeroExtend 32 <<< s.rd.bitcnt
            | .msb => b.zeroExtend 32 <<< (24 - s.rd.bitcnt))
        bitcnt := s.rd.bitcnt + 8
        padbits := match k with
          | .real => s.rd.padbits
          | .pad => s.rd.padbits + 8 } := rfl

/-- The reader after n bits have left ACC. -/
theorem dropBits_rd (n : Nat) :
    (dropBits n s).rd =
      { s.rd with
        ovr := s.rd.ovr || takesPad s n
        padbits := if takesPad s n then s.rd.bitcnt - n else s.rd.padbits
        acc := match s.rd.mode with
          | .lsb => s.rd.acc >>> n
          | .msb => s.rd.acc <<< n
        bitcnt := s.rd.bitcnt - n } := rfl

@[simp] theorem enterByte_mode (b : Byte) (k : ByteKind) :
    (enterByte b k s).rd.mode = s.rd.mode := rfl

@[simp] theorem enterByte_inBase (b : Byte) (k : ByteKind) :
    (enterByte b k s).rd.inBase = s.rd.inBase := rfl

@[simp] theorem enterByte_inLen (b : Byte) (k : ByteKind) :
    (enterByte b k s).rd.inLen = s.rd.inLen := rfl

@[simp] theorem enterByte_cur (b : Byte) (k : ByteKind) :
    (enterByte b k s).rd.cur = s.rd.cur := rfl

@[simp] theorem enterByte_bitcnt (b : Byte) (k : ByteKind) :
    (enterByte b k s).rd.bitcnt = s.rd.bitcnt + 8 := rfl

@[simp] theorem enterByte_padbits_real (b : Byte) :
    (enterByte b .real s).rd.padbits = s.rd.padbits := rfl

@[simp] theorem enterByte_padbits_pad (b : Byte) :
    (enterByte b .pad s).rd.padbits = s.rd.padbits + 8 := rfl

theorem enterByte_acc_lsb (b : Byte) (k : ByteKind) (h : s.rd.mode = .lsb) :
    (enterByte b k s).rd.acc = s.rd.acc ||| b.zeroExtend 32 <<< s.rd.bitcnt := by
  simp only [enterByte_rd, h]

theorem enterByte_acc_msb (b : Byte) (k : ByteKind) (h : s.rd.mode = .msb) :
    (enterByte b k s).rd.acc = s.rd.acc ||| b.zeroExtend 32 <<< (24 - s.rd.bitcnt) := by
  simp only [enterByte_rd, h]

@[simp] theorem enterByte_eof (b : Byte) (k : ByteKind) :
    (enterByte b k s).rd.eof = s.rd.eof := rfl

@[simp] theorem enterByte_ovr (b : Byte) (k : ByteKind) :
    (enterByte b k s).rd.ovr = s.rd.ovr := rfl

@[simp] theorem enterByte_nomore (b : Byte) (k : ByteKind) :
    (enterByte b k s).rd.nomore = s.rd.nomore := rfl

@[simp] theorem enterByte_marker (b : Byte) (k : ByteKind) :
    (enterByte b k s).rd.marker = s.rd.marker := rfl

@[simp] theorem dropBits_mode (n : Nat) : (dropBits n s).rd.mode = s.rd.mode := rfl

@[simp] theorem dropBits_inBase (n : Nat) : (dropBits n s).rd.inBase = s.rd.inBase := rfl

@[simp] theorem dropBits_inLen (n : Nat) : (dropBits n s).rd.inLen = s.rd.inLen := rfl

@[simp] theorem dropBits_cur (n : Nat) : (dropBits n s).rd.cur = s.rd.cur := rfl

@[simp] theorem dropBits_bitcnt (n : Nat) : (dropBits n s).rd.bitcnt = s.rd.bitcnt - n := rfl

/-- With `n ≤ BITCNT`, the pad bits left are the old ones, or all that is left. -/
theorem dropBits_padbits (n : Nat) (h : s.rd.padbits ≤ s.rd.bitcnt) :
    (dropBits n s).rd.padbits = min s.rd.padbits (s.rd.bitcnt - n) := by
  simp only [dropBits_rd, takesPad, decide_eq_true_eq]
  split <;> omega

@[simp] theorem dropBits_ovr (n : Nat) :
    (dropBits n s).rd.ovr = (s.rd.ovr || takesPad s n) := rfl

theorem dropBits_acc_lsb (n : Nat) (h : s.rd.mode = .lsb) :
    (dropBits n s).rd.acc = s.rd.acc >>> n := by
  simp only [dropBits_rd, h]

theorem dropBits_acc_msb (n : Nat) (h : s.rd.mode = .msb) :
    (dropBits n s).rd.acc = s.rd.acc <<< n := by
  simp only [dropBits_rd, h]

@[simp] theorem dropBits_eof (n : Nat) : (dropBits n s).rd.eof = s.rd.eof := rfl

@[simp] theorem dropBits_nomore (n : Nat) : (dropBits n s).rd.nomore = s.rd.nomore := rfl

@[simp] theorem dropBits_marker (n : Nat) : (dropBits n s).rd.marker = s.rd.marker := rfl

/-! ### The tables after a JPEG table has been set -/

@[simp] theorem setJTable_dc (i : Fin 4) (tbl : Option JTable) :
    (setJTable .dc i tbl s).tab = { s.tab with jdc := s.tab.jdc.set i tbl } := rfl

@[simp] theorem setJTable_ac (i : Fin 4) (tbl : Option JTable) :
    (setJTable .ac i tbl s).tab = { s.tab with jac := s.tab.jac.set i tbl } := rfl

@[simp] theorem setJTable_zt (c : JClass) (i : Fin 4) (tbl : Option JTable) :
    (setJTable c i tbl s).tab.zt = s.tab.zt := by cases c <;> rfl

@[simp] theorem setJTable_qt (c : JClass) (i : Fin 4) (tbl : Option JTable) :
    (setJTable c i tbl s).tab.qt = s.tab.qt := by cases c <;> rfl

end Sys2Proof.Machine
end

