-- ==== Sys2Proof/Laws/Memory.lean ====
section
/-! SUPPORT. The laws of MEM: every memory operation keeps the canonical form, a byte reads back what
was written to it, and a write leaves every other byte alone. -/

namespace Sys2Proof.Machine

open Sys2Proof

/-- The canonical form of a list with a first entry. -/
theorem memWfFrom_cons {lo : Option Nat} {k : Nat} {v : Byte} {m : Memory} :
    memWfFrom lo ((k, v) :: m) = true ↔
      (∀ l, lo = some l → l < k) ∧ k < addrEnd ∧ v ≠ memDefault ∧ memWfFrom (some k) m = true := by
  cases lo <;> simp [memWfFrom, and_assoc]

/-- A bound from below that a canonical list keeps may be dropped. -/
theorem memWfFrom_none {lo : Option Nat} {m : Memory} (h : memWfFrom lo m = true) :
    memWfFrom none m = true := by
  cases m with
  | nil => rfl
  | cons c m =>
    obtain ⟨k, v⟩ := c
    rw [memWfFrom_cons] at h ⊢
    exact ⟨fun l hl => (by cases hl), h.2⟩

/-- Every byte below a canonical list's bound, and the bound itself, is unlisted. -/
theorem memGet_below {m : Memory} {l a : Nat} (h : memWfFrom (some l) m = true) (ha : a ≤ l) :
    memGet m a = memDefault := by
  cases m with
  | nil => rfl
  | cons c m =>
    obtain ⟨k, v⟩ := c
    rw [memWfFrom_cons] at h
    have : l < k := h.1 l rfl
    simp only [memGet]
    rw [if_neg (by omega), if_neg (by omega)]

/-- A write keeps the canonical form, and any bound below the written address. -/
theorem memSet_memWfFrom {m : Memory} {lo : Option Nat} {a : Nat} (v : Byte) (ha : a < addrEnd)
    (hlo : ∀ l, lo = some l → l < a) (h : memWfFrom lo m = true) :
    memWfFrom lo (memSet m a v) = true := by
  induction m generalizing lo with
  | nil =>
    simp only [memSet]
    split
    · exact h
    · rename_i hv
      exact memWfFrom_cons.mpr ⟨hlo, ha, hv, rfl⟩
  | cons c m ih =>
    obtain ⟨k, w⟩ := c
    obtain ⟨hk, hend, hw, hm⟩ := memWfFrom_cons.mp h
    simp only [memSet]
    split
    · rename_i hka
      exact memWfFrom_cons.mpr ⟨hk, hend, hw, ih (fun l hl => by cases hl; exact hka) hm⟩
    · split
      · rename_i hka
        subst hka
        split
        · cases m with
          | nil => rfl
          | cons d m =>
            obtain ⟨k', w'⟩ := d
            rw [memWfFrom_cons] at hm ⊢
            exact ⟨fun l hl => Nat.lt_trans (hlo l hl) (hm.1 k rfl), hm.2⟩
        · rename_i hv
          exact memWfFrom_cons.mpr ⟨hlo, ha, hv, hm⟩
      · split
        · exact memWfFrom_cons.mpr ⟨hk, hend, hw, hm⟩
        · rename_i hka hne hv
          refine memWfFrom_cons.mpr ⟨hlo, ha, hv, memWfFrom_cons.mpr ⟨?_, hend, hw, hm⟩⟩
          intro l hl
          cases hl
          omega

/-- A write to a 32-bit address keeps the canonical form. -/
theorem memSet_wf {m : Memory} {a : Nat} (v : Byte) (ha : a < addrEnd) (h : Memory.wf m = true) :
    Memory.wf (memSet m a v) = true :=
  memSet_memWfFrom v ha (fun l hl => by cases hl) h

/-- What a byte of a canonical memory reads as after a write. -/
theorem memGet_memSet_from {m : Memory} {lo : Option Nat} (a b : Nat) (v : Byte)
    (h : memWfFrom lo m = true) :
    memGet (memSet m a v) b = if b = a then v else memGet m b := by
  induction m generalizing lo with
  | nil =>
    by_cases hv : v = memDefault
    · rw [memSet, if_pos hv, memGet, hv, ite_self]
    · simp only [memSet, if_neg hv, memGet]
      by_cases hb : b = a
      · rw [if_neg (by omega), if_pos hb.symm, if_pos hb]
      · rw [if_neg hb]
        split
        · rfl
        · rw [if_neg (Ne.symm hb)]
  | cons c m ih =>
    obtain ⟨k, w⟩ := c
    obtain ⟨-, -, -, hm⟩ := memWfFrom_cons.mp h
    by_cases hka : k < a
    · simp only [memSet, if_pos hka, memGet]
      rw [ih hm]
      by_cases hb : b = a
      · rw [if_pos (by omega), if_pos hb, if_pos hb]
      · rw [if_neg hb, if_neg hb]
    · by_cases hk : k = a
      · subst hk
        by_cases hv : v = memDefault
        · simp only [memSet, if_neg (Nat.lt_irrefl k), ↓reduceIte, if_pos hv, memGet]
          by_cases hb : b = k
          · subst hb
            rw [if_pos rfl, hv]
            exact memGet_below hm (Nat.le_refl b)
          · rw [if_neg hb]
            by_cases hkb : k < b
            · rw [if_pos hkb]
            · rw [if_neg hkb, if_neg (Ne.symm hb)]
              exact memGet_below hm (by omega)
        · simp only [memSet, if_neg (Nat.lt_irrefl k), ↓reduceIte, if_neg hv, memGet]
          by_cases hb : b = k
          · subst hb
            rw [if_neg (Nat.lt_irrefl b), if_pos rfl, if_pos rfl]
          · rw [if_neg hb, if_neg (Ne.symm hb), if_neg (Ne.symm hb)]
      · by_cases hv : v = memDefault
        · simp only [memSet, if_neg hka, if_neg hk, if_pos hv]
          by_cases hb : b = a
          · subst hb
            rw [if_pos rfl, hv]
            simp only [memGet]
            rw [if_neg hka, if_neg hk]
          · rw [if_neg hb]
        · simp only [memSet, if_neg hka, if_neg hk, if_neg hv, memGet]
          by_cases hb : b = a
          · rw [if_neg (by omega), if_pos hb.symm, if_pos hb]
          · rw [if_neg hb]
            by_cases hab : a < b
            · rw [if_pos hab]
            · rw [if_neg hab, if_neg (by omega), if_neg (by omega), if_neg (by omega)]

/-- What a byte of a canonical memory reads as after a write. -/
theorem memGet_memSet {m : Memory} (a b : Nat) (v : Byte) (h : Memory.wf m = true) :
    memGet (memSet m a v) b = if b = a then v else memGet m b :=
  memGet_memSet_from a b v h

/-- A read after a write to the same byte gives the value written. -/
theorem memGet_memSet_same {m : Memory} (a : Nat) (v : Byte) (h : Memory.wf m = true) :
    memGet (memSet m a v) a = v := by
  rw [memGet_memSet a a v h, if_pos rfl]

/-- A write leaves every other byte alone. -/
theorem memGet_memSet_other {m : Memory} {a b : Nat} (v : Byte) (h : Memory.wf m = true)
    (hb : b ≠ a) : memGet (memSet m a v) b = memGet m b := by
  rw [memGet_memSet a b v h, if_neg hb]

/-- An address in MEMMAP is a 32-bit address. -/
theorem inMap_lt {holes : List (Nat × Nat)} {a : Nat} (h : inMap holes a = true) : a < addrEnd := by
  simp only [inMap, Bool.and_eq_true, decide_eq_true_eq] at h
  exact h.1

/-- The reset state's memory is in canonical form. -/
theorem reset_mem_wf : Memory.wf State.reset.bus.mem = true := rfl

end Sys2Proof.Machine
end

