-- ==== Sys2Proof/Laws/Engine.lean ====
section
/-! SUPPORT. How a command's pseudocode runs: its pieces applied to a run, the outcome of each shared
operation of Machine/Ops.lean and Machine/Reader.lean, said once, and the rule by which a relation
between the runs before and after goes through the pieces. A lemma `X_run` speaks of every run, a lemma
`X_whole` of one that no limit cuts. -/

namespace Sys2Proof.Machine

open Sys2Proof

variable {α β : Type}

/-! ### Assignments -/

/-- With no limit, an assignment happens. -/
@[simp] theorem after_whole (f : State → State) (s : State) :
    (Run.whole s).after f = Run.whole (f s) := rfl

/-- At its limit, a command changes nothing more. -/
@[simp] theorem after_stopped (f : State → State) (s : State) :
    ({ st := s, left := some 0 } : Run).after f = { st := s, left := some 0 } := rfl

/-- Below its limit, a command makes its next assignment. -/
@[simp] theorem after_limited (f : State → State) (s : State) (n : Nat) :
    ({ st := s, left := some (n + 1) } : Run).after f = { st := f s, left := some n } := rfl

@[simp] theorem afterAll_nil (r : Run) : r.afterAll [] = r := rfl

@[simp] theorem afterAll_cons (f : State → State) (fs : List (State → State)) (r : Run) :
    r.afterAll (f :: fs) = (r.after f).afterAll fs := rfl

@[simp] theorem applied_nil (s : State) : applied [] s = s := rfl

@[simp] theorem applied_cons (f : State → State) (fs : List (State → State)) (s : State) :
    applied (f :: fs) s = applied fs (f s) := rfl

/-- With no limit, all the assignments happen. -/
@[simp] theorem afterAll_whole (fs : List (State → State)) (s : State) :
    (Run.whole s).afterAll fs = Run.whole (applied fs s) := by
  induction fs generalizing s with
  | nil => rfl
  | cons f fs ih => exact ih (f s)

theorem applied_append (fs gs : List (State → State)) (s : State) :
    applied (fs ++ gs) s = applied gs (applied fs s) := List.foldl_append ..

/-- Where a limited command stops among assignments: after as many as its limit. -/
theorem afterAll_limited (fs : List (State → State)) (s : State) (n : Nat) :
    ({ st := s, left := some n } : Run).afterAll fs =
      { st := applied (fs.take n) s, left := some (n - fs.length) } := by
  induction fs generalizing s n with
  | nil => simp
  | cons f fs ih =>
    cases n with
    | zero =>
      rw [afterAll_cons, after_stopped, ih]
      simp
    | succ n =>
      rw [afterAll_cons, after_limited, ih]
      simp

/-! ### The pieces applied to a run -/

theorem pure_run (x : α) (r : Run) : (pure x : Engine α) r = .ok x r := rfl

theorem look_run (r : Run) : look r = .ok r.st r := rfl

theorem assign_run (f : State → State) (r : Run) : assign f r = .ok () (r.after f) := rfl

theorem assignAll_run (fs : List (State → State)) (r : Run) :
    assignAll fs r = .ok () (r.afterAll fs) := rfl

theorem raise_run (code : FaultCode) (info : Word) (r : Run) :
    (raise code info : Engine α) r = .error (.raised code info) r := rfl

theorem outran_run (r : Run) : (outran : Engine α) r = .error .bound r := rfl

theorem bind_run (act : Engine α) (f : α → Engine β) (r : Run) :
    (act >>= f) r =
      match act r with
      | .ok x q => f x q
      | .error e q => .error e q := by
  change EStateM.bind act f r = _
  rw [EStateM.bind]
  cases act r <;> rfl

/-- What the first piece answers goes on into the rest. -/
theorem bind_ok {act : Engine α} {f : α → Engine β} {r q : Run} {x : α} (h : act r = .ok x q) :
    (act >>= f) r = f x q := by
  rw [bind_run, h]

/-- A stop of the first piece is the stop of the whole. -/
theorem bind_error {act : Engine α} {f : α → Engine β} {r q : Run} {e : Stop}
    (h : act r = .error e q) : (act >>= f) r = .error e q := by
  rw [bind_run, h]

/-- A whole that answers: both pieces did. -/
theorem bind_eq_ok {act : Engine α} {f : α → Engine β} {r u : Run} {y : β}
    (h : (act >>= f) r = .ok y u) : ∃ x q, act r = .ok x q ∧ f x q = .ok y u := by
  rw [bind_run] at h
  cases hs : act r with
  | ok x q => rw [hs] at h; exact ⟨x, q, rfl, h⟩
  | error e q => rw [hs] at h; cases h

/-- A whole that stops: the first piece did, or it answered and the rest did. -/
theorem bind_eq_error {act : Engine α} {f : α → Engine β} {r u : Run} {e : Stop}
    (h : (act >>= f) r = .error e u) :
    act r = .error e u ∨ ∃ x q, act r = .ok x q ∧ f x q = .error e u := by
  rw [bind_run] at h
  cases hs : act r with
  | ok x q => rw [hs] at h; exact .inr ⟨x, q, rfl, h⟩
  | error e' q => rw [hs] at h; cases h; exact .inl rfl

/-! ### A command's outcome -/

theorem runCommand_ok {act : Engine Word} {s : State} {r : Run} {res : Word}
    (h : act (Run.whole s) = .ok res r) : runCommand act s = .next (complete res r.st) := by
  rw [runCommand, h]

theorem runCommand_raised {act : Engine Word} {s : State} {r : Run} {code : FaultCode} {info : Word}
    (h : act (Run.whole s) = .error (.raised code info) r) :
    runCommand act s = .next (faultEntry code info r.st) := by
  rw [runCommand, h]

theorem runCommand_bound {act : Engine Word} {s : State} {r : Run}
    (h : act (Run.whole s) = .error .bound r) : runCommand act s = .fault .boundExceeded := by
  rw [runCommand, h]

/-- Everything that a command can do. -/
theorem runCommand_cases (act : Engine Word) (s : State) :
    (∃ res r, act (Run.whole s) = .ok res r ∧ runCommand act s = .next (complete res r.st)) ∨
    (∃ code info r, act (Run.whole s) = .error (.raised code info) r ∧
      runCommand act s = .next (faultEntry code info r.st)) ∨
    (∃ r, act (Run.whole s) = .error .bound r ∧ runCommand act s = .fault .boundExceeded) := by
  cases h : act (Run.whole s) with
  | ok res r => exact .inl ⟨res, r, rfl, runCommand_ok h⟩
  | error e r =>
    cases e with
    | raised code info => exact .inr (.inl ⟨code, info, r, rfl, runCommand_raised h⟩)
    | bound => exact .inr (.inr ⟨r, rfl, runCommand_bound h⟩)

/-- `exec` runs each command's pseudocode whole. -/
theorem exec_eq (i : Instr) (s : State) : exec i s = runCommand (pseudocode i) s := by
  cases i <;> rfl

/-! ### The bus -/

theorem needBus_run (a : Nat) (r : Run) :
    needBus a r =
      if inMap r.st.bus.holes a then .ok () r else .error (.raised .eBus (Word.ofNat a)) r := by
  simp only [needBus, bind_run, look_run]
  split <;> rfl

theorem memRead_run (a : Nat) (r : Run) :
    memRead a r =
      if inMap r.st.bus.holes a then .ok (memGet r.st.bus.mem a) r
      else .error (.raised .eBus (Word.ofNat a)) r := by
  simp only [memRead, bind_run, needBus_run, look_run]
  split <;> rename_i h <;> split at h <;> cases h <;> simp [*, pure_run]

theorem memWrite_run (a : Nat) (v : Byte) (r : Run) :
    memWrite a v r =
      if inMap r.st.bus.holes a then .ok () (r.after (landWrite a v))
      else .error (.raised .eBus (Word.ofNat a)) r := by
  simp only [memWrite, bind_run, needBus_run]
  split <;> rename_i h <;> split at h <;> cases h <;> simp [*, assign_run]

/-- A byte in MEMMAP is read as MEM holds it. -/
theorem memRead_ok {a : Nat} {r : Run} (h : inMap r.st.bus.holes a = true) :
    memRead a r = .ok (memGet r.st.bus.mem a) r := by
  rw [memRead_run, if_pos h]

/-- A byte in MEMMAP is written. -/
theorem memWrite_ok {a : Nat} {r : Run} (v : Byte) (h : inMap r.st.bus.holes a = true) :
    memWrite a v r = .ok () (r.after (landWrite a v)) := by
  rw [memWrite_run, if_pos h]

/-! ### The decode-time checks -/

theorem needLegal_run (legal : Bool) (r : Run) :
    needLegal legal r =
      if legal then .ok () r else .error (.raised .eIllegal r.st.ctl.cmd) r := by
  simp only [needLegal, bind_run, look_run]
  split <;> rfl

theorem needMode_run (m : Mode) (r : Run) :
    needMode m r =
      if r.st.rd.mode = m then .ok () r
      else .error (.raised .eMode (modeInfo r.st.rd.mode)) r := by
  simp only [needMode, bind_run, look_run]
  split <;> rfl

theorem needTable_run (valid : Bool) (bit : Nat) (r : Run) :
    needTable valid bit r =
      if valid then .ok () r else .error (.raised .eNotable (Word.ofNat bit)) r := by
  simp only [needTable]
  split <;> rfl

theorem needRange_run (g : Region) (r : Run) :
    needRange g r =
      if regionFits g then .ok () r else .error (.raised .eRange (Word.ofNat g.lo)) r := by
  simp only [needRange]
  split <;> rfl

theorem needInput_run (r : Run) :
    needInput r =
      if regionFits (inputRegion r.st) then .ok () r
      else .error (.raised .eRange (Word.ofNat (inputRegion r.st).lo)) r := by
  simp only [needInput, bind_run, look_run, needRange_run]

theorem needApart_run (output other : Region) (r : Run) :
    needApart output other r =
      if regionsMeet output other then .error (.raised .eOverlap (Word.ofNat output.lo)) r
      else .ok () r := by
  simp only [needApart]
  split <;> rfl

/-! ### The reader -/

theorem fetchByte_run (r : Run) :
    fetchByte r =
      if r.st.rd.cur.toNat < r.st.rd.inLen.toNat then
        if inMap r.st.bus.holes (r.st.rd.inBase.toNat + r.st.rd.cur.toNat) then
          .ok (memGet r.st.bus.mem (r.st.rd.inBase.toNat + r.st.rd.cur.toNat), .real)
            (r.after advanceCur)
        else
          .error (.raised .eBus (Word.ofNat (r.st.rd.inBase.toNat + r.st.rd.cur.toNat))) r
      else .ok (0, .pad) (r.after markEof) := by
  simp only [fetchByte, bind_run, look_run]
  split
  · simp only [bind_run, memRead_run]
    by_cases h : inMap r.st.bus.holes (r.st.rd.inBase.toNat + r.st.rd.cur.toNat) = true
    · simp only [if_pos h, assign_run, pure_run]
    · simp only [if_neg h]
  · rfl

theorem consume_run (n : Nat) (r : Run) :
    consume n r =
      .ok (peekBits r.st n, takesPad r.st n) (r.afterAll (dropSteps n (takesPad r.st n))) := rfl

theorem consume_whole (n : Nat) (s : State) :
    consume n (Run.whole s) = .ok (peekBits s n, takesPad s n) (Run.whole (dropBits n s)) := rfl

theorem need_run (n : Nat) (r : Run) :
    need n r = if r.st.rd.bitcnt < n then fill r else .ok () r := by
  simp only [need, bind_run, look_run]
  split <;> rfl

theorem readAlignedByte_run (r : Run) :
    readAlignedByte r =
      if 8 ≤ r.st.rd.bitcnt then consume 8 r
      else
        match fetchByte r with
        | .ok (b, .real) q => .ok (b.toNat, false) q
        | .ok (b, .pad) q => .ok (b.toNat, true) (q.after markOvr)
        | .error e q => .error e q := by
  simp only [readAlignedByte, bind_run, look_run]
  split
  · rfl
  · simp only [bind_run]
    cases fetchByte r with
    | ok x q =>
      obtain ⟨b, k⟩ := x
      cases k <;> rfl
    | error e q => rfl

/-! ### Relations kept by a piece of pseudocode -/

/-- However `act` ends, from any run, the run it leaves is `R`-related to the one it began in. -/
structure Keeps (R : Run → Run → Prop) (act : Engine α) : Prop where
  run : ∀ r, match act r with
    | .ok _ q => R r q
    | .error _ q => R r q

/-- A relation that pseudocode can keep: it holds where nothing happens, and it composes. -/
structure Composes (R : Run → Run → Prop) : Prop where
  refl : ∀ r, R r r
  trans : ∀ r q u, R r q → R q u → R r u

/-- The states of two runs are related, wherever the limit falls. -/
def Always (R : State → State → Prop) (r q : Run) : Prop := R r.st q.st

/-- A run that no limit cuts stays so, and the states are related. -/
def Uncut (R : State → State → Prop) (r q : Run) : Prop :=
  r.left = none → q.left = none ∧ R r.st q.st

theorem always_composes {R : State → State → Prop} (hr : ∀ s, R s s)
    (ht : ∀ s t u, R s t → R t u → R s u) : Composes (Always R) :=
  ⟨fun r => hr r.st, fun _ _ _ h h' => ht _ _ _ h h'⟩

theorem uncut_composes {R : State → State → Prop} (hr : ∀ s, R s s)
    (ht : ∀ s t u, R s t → R t u → R s u) : Composes (Uncut R) where
  refl r h := ⟨h, hr r.st⟩
  trans _ _ _ h h' hl := ⟨(h' (h hl).1).1, ht _ _ _ (h hl).2 (h' (h hl).1).2⟩

/-- An assignment that a state relation allows, at any limit. -/
theorem always_after {R : State → State → Prop} {f : State → State} (hr : ∀ s, R s s)
    (h : ∀ s, R s (f s)) (r : Run) : Always R r (r.after f) := by
  obtain ⟨s, _ | _ | n⟩ := r
  · exact h s
  · exact hr s
  · exact h s

/-- Assignments each of which a state relation allows, at any limit. -/
theorem always_afterAll {R : State → State → Prop} {fs : List (State → State)} (hr : ∀ s, R s s)
    (ht : ∀ s t u, R s t → R t u → R s u) (h : ∀ f ∈ fs, ∀ s, R s (f s)) (r : Run) :
    Always R r (r.afterAll fs) := by
  induction fs generalizing r with
  | nil => exact hr r.st
  | cons f fs ih =>
    exact ht _ _ _ (always_after hr (h f (by simp)) r)
      (ih (fun g hg => h g (by simp [hg])) (r.after f))

/-- An assignment that a state relation allows, in a run that no limit cuts. -/
theorem uncut_after {R : State → State → Prop} {f : State → State} (h : ∀ s, R s (f s)) (r : Run) :
    Uncut R r (r.after f) := by
  obtain ⟨s, left⟩ := r
  rintro rfl
  exact ⟨rfl, h s⟩

/-- Assignments that a state relation allows together, in a run that no limit cuts. -/
theorem uncut_afterAll {R : State → State → Prop} {fs : List (State → State)}
    (h : ∀ s, R s (applied fs s)) (r : Run) : Uncut R r (r.afterAll fs) := by
  obtain ⟨s, left⟩ := r
  rintro rfl
  rw [afterAll_whole]
  exact ⟨rfl, h s⟩

/-- The answer of pseudocode that keeps a relation, in a run that no limit cuts. -/
theorem keeps_whole_ok {R : State → State → Prop} {act : Engine α} {s : State} {x : α} {q : Run}
    (h : Keeps (Uncut R) act) (hs : act (Run.whole s) = .ok x q) : ∃ t, q = Run.whole t ∧ R s t := by
  have h' := h.run (Run.whole s)
  rw [hs] at h'
  obtain ⟨st, left⟩ := q
  obtain ⟨hl, hR⟩ := h' rfl
  cases hl
  exact ⟨st, rfl, hR⟩

variable {R : Run → Run → Prop}

theorem keeps_pure (hR : Composes R) (x : α) : Keeps R (pure x : Engine α) :=
  ⟨fun r => hR.refl r⟩

theorem keeps_look (hR : Composes R) : Keeps R look := ⟨fun r => hR.refl r⟩

theorem keeps_raise (hR : Composes R) (code : FaultCode) (info : Word) :
    Keeps R (raise code info : Engine α) := ⟨fun r => hR.refl r⟩

theorem keeps_outran (hR : Composes R) : Keeps R (outran : Engine α) := ⟨fun r => hR.refl r⟩

theorem keeps_assign {f : State → State} (h : ∀ r : Run, R r (r.after f)) : Keeps R (assign f) := ⟨h⟩

theorem keeps_assignAll {fs : List (State → State)} (h : ∀ r : Run, R r (r.afterAll fs)) :
    Keeps R (assignAll fs) := ⟨h⟩

theorem keeps_bind (hR : Composes R) {act : Engine α} {f : α → Engine β} (ha : Keeps R act)
    (hf : ∀ x, Keeps R (f x)) : Keeps R (act >>= f) := by
  refine ⟨fun r => ?_⟩
  have h := ha.run r
  rw [bind_run]
  cases hs : act r with
  | error e q => rw [hs] at h; exact h
  | ok x q =>
    rw [hs] at h
    have h' := (hf x).run q
    simp only
    cases hx : f x q with
    | error e u => rw [hx] at h'; exact hR.trans r q u h h'
    | ok y u => rw [hx] at h'; exact hR.trans r q u h h'

theorem keeps_memWrite (hR : Composes R) (a : Nat) (v : Byte)
    (h : ∀ r : Run, a < addrEnd → R r (r.after (landWrite a v))) : Keeps R (memWrite a v) := by
  refine ⟨fun r => ?_⟩
  rw [memWrite_run]
  split <;> rename_i hs <;> split at hs <;> cases hs
  · rename_i hm
    exact h r (inMap_lt hm)
  · exact hR.refl r

theorem keeps_writeBytes (hR : Composes R) (bs : List Byte) (a : Nat)
    (h : ∀ (b : Nat) (v : Byte) (r : Run), a ≤ b → b < a + bs.length → b < addrEnd →
      R r (r.after (landWrite b v))) :
    Keeps R (writeBytes bs a) := by
  induction bs generalizing a with
  | nil => exact keeps_pure hR _
  | cons b bs ih =>
    simp only [List.length_cons] at h
    exact keeps_bind hR
      (keeps_memWrite hR a b fun r ha => h a b r (Nat.le_refl a) (by omega) ha)
      fun _ => ih (a + 1) fun c v r h1 h2 h3 => h c v r (by omega) (by omega) h3

/-- A property of pseudocode that its sequencing keeps, whatever each of its assignments must obey. -/
structure Closed (P : ∀ α : Type, Engine α → Prop) : Prop where
  pure : ∀ {α : Type} (x : α), P α (Pure.pure x)
  look : P State look
  raise : ∀ {α : Type} (code : FaultCode) (info : Word), P α (raise code info)
  outran : ∀ {α : Type}, P α outran
  bind : ∀ {α β : Type} {act : Engine α} {f : α → Engine β}, P α act → (∀ x, P β (f x)) →
    P β (act >>= f)

/-- Keeping a relation is such a property. -/
theorem keeps_closed (hR : Composes R) : Closed (fun _ => Keeps R) where
  pure x := keeps_pure hR x
  look := keeps_look hR
  raise code info := keeps_raise hR code info
  outran := keeps_outran hR
  bind ha hf := keeps_bind hR ha hf

variable {P : ∀ α : Type, Engine α → Prop}

/-! ### The shared operations -/

theorem closed_ite {c : Prop} [Decidable c] {act act' : Engine α} (h : P _ act)
    (h' : P _ act') : P _ (if c then act else act') := by
  split
  · exact h
  · exact h'

theorem keeps_ite {c : Prop} [Decidable c] {act act' : Engine α} (h : Keeps R act)
    (h' : Keeps R act') : Keeps R (if c then act else act') := closed_ite (P := fun _ => Keeps R) h h'

/-- `if c then stop`, and then the rest. -/
theorem closed_guard (hP : Closed P) {c : Prop} [Decidable c] {stop : Engine Unit}
    {rest : Unit → Engine α} (h : P _ stop) (h' : ∀ x, P _ (rest x)) :
    P _ (if c then stop >>= rest else rest ()) :=
  closed_ite (hP.bind h h') (h' ())

theorem closed_needBus (hP : Closed P) (a : Nat) : P _ (needBus a) :=
  hP.bind hP.look fun _ => closed_ite (hP.pure _) (hP.raise _ _)

theorem closed_memRead (hP : Closed P) (a : Nat) : P _ (memRead a) :=
  hP.bind (closed_needBus hP a)
    fun _ => hP.bind (hP.look) fun _ => hP.pure _

theorem closed_needLegal (hP : Closed P) (legal : Bool) : P _ (needLegal legal) :=
  hP.bind (hP.look) fun _ => closed_ite (hP.pure _) (hP.raise _ _)

theorem closed_needMode (hP : Closed P) (m : Mode) : P _ (needMode m) :=
  hP.bind (hP.look) fun _ => closed_ite (hP.pure _) (hP.raise _ _)

theorem closed_needTable (hP : Closed P) (valid : Bool) (bit : Nat) :
    P _ (needTable valid bit) := closed_ite (hP.pure _) (hP.raise _ _)

theorem closed_needRange (hP : Closed P) (r : Region) : P _ (needRange r) :=
  closed_ite (hP.pure _) (hP.raise _ _)

theorem closed_needInput (hP : Closed P) : P _ needInput :=
  hP.bind (hP.look) fun _ => closed_needRange hP _

theorem closed_needApart (hP : Closed P) (output other : Region) :
    P _ (needApart output other) := closed_ite (hP.raise _ _) (hP.pure _)

theorem closed_readBytes (hP : Closed P) (n a : Nat) : P _ (readBytes n a) := by
  induction n generalizing a with
  | zero => exact hP.pure _
  | succ n ih =>
    exact hP.bind (closed_memRead hP a)
      fun _ => hP.bind (ih (a + 1)) fun _ => hP.pure _

theorem closed_writeBytes (hP : Closed P) (h : ∀ a v, P _ (memWrite a v)) (bs : List Byte) (a : Nat) :
    P _ (writeBytes bs a) := by
  induction bs generalizing a with
  | nil => exact hP.pure _
  | cons b bs ih => exact hP.bind (h a b) fun _ => ih (a + 1)

/-- What the reader assigns. -/
structure AllowsReader (P : ∀ α : Type, Engine α → Prop) : Prop where
  advanceCur : P _ (assign advanceCur)
  markEof : P _ (assign markEof)
  markOvr : P _ (assign markOvr)
  cacheMarker : ∀ c : Byte, P _ (assignAll (markerSteps c))
  enterByte : ∀ (b : Byte) (k : ByteKind), P _ (assignAll (enterSteps b k))
  dropBits : ∀ (n : Nat) (ovr : Bool), P _ (assignAll (dropSteps n ovr))

/-- A state relation that allows every change of the reader which keeps its mode and its buffer allows
the reader's assignments, at any limit. -/
theorem allowsReader_always {R : State → State → Prop} (hr : ∀ s, R s s)
    (ht : ∀ s t u, R s t → R t u → R s u)
    (h : ∀ (s : State) (rd : Reader), rd.mode = s.rd.mode → rd.inBase = s.rd.inBase →
      rd.inLen = s.rd.inLen → R s { s with rd := rd }) : AllowsReader (fun _ => Keeps (Always R)) where
  advanceCur := keeps_assign (always_after hr fun s => h s { s.rd with cur := s.rd.cur + 1 } rfl rfl rfl)
  markEof := keeps_assign (always_after hr fun s => h s { s.rd with eof := true } rfl rfl rfl)
  markOvr := keeps_assign (always_after hr fun s => h s { s.rd with ovr := true } rfl rfl rfl)
  cacheMarker c := keeps_assignAll <| always_afterAll hr ht (by
    simp only [markerSteps, List.mem_cons, List.not_mem_nil, or_false]
    rintro f (rfl | rfl) s
    · exact h s { s.rd with marker := c } rfl rfl rfl
    · exact h s { s.rd with nomore := true } rfl rfl rfl)
  enterByte b k := keeps_assignAll <| always_afterAll hr ht (by
    simp only [enterSteps, List.mem_cons, List.not_mem_nil, or_false]
    rintro f (rfl | rfl | rfl) s
    · exact h s { s.rd with acc := _ } rfl rfl rfl
    · exact h s { s.rd with bitcnt := _ } rfl rfl rfl
    · exact h s { s.rd with padbits := _ } rfl rfl rfl)
  dropBits n ovr := keeps_assignAll <| always_afterAll hr ht (by
    simp only [dropSteps, List.mem_cons, List.not_mem_nil, or_false]
    rintro f (rfl | rfl | rfl | rfl) s
    · exact h s { s.rd with ovr := _ } rfl rfl rfl
    · exact h s { s.rd with padbits := _ } rfl rfl rfl
    · exact h s { s.rd with acc := _ } rfl rfl rfl
    · exact h s { s.rd with bitcnt := _ } rfl rfl rfl)

/-- The same in a run that no limit cuts. -/
theorem allowsReader_uncut {R : State → State → Prop}
    (h : ∀ (s : State) (rd : Reader), rd.mode = s.rd.mode → rd.inBase = s.rd.inBase →
      rd.inLen = s.rd.inLen → R s { s with rd := rd }) : AllowsReader (fun _ => Keeps (Uncut R)) where
  advanceCur := keeps_assign (uncut_after fun s => h s (advanceCur s).rd rfl rfl rfl)
  markEof := keeps_assign (uncut_after fun s => h s (markEof s).rd rfl rfl rfl)
  markOvr := keeps_assign (uncut_after fun s => h s (markOvr s).rd rfl rfl rfl)
  cacheMarker c := keeps_assignAll <| uncut_afterAll fun s => h s (cacheMarker c s).rd rfl rfl rfl
  enterByte b k := keeps_assignAll <| uncut_afterAll fun s => h s (enterByte b k s).rd rfl rfl rfl
  dropBits n ovr := keeps_assignAll <| uncut_afterAll fun s => h s (applied (dropSteps n ovr) s).rd rfl rfl rfl

theorem closed_fetchByte (hP : Closed P) (hr : AllowsReader P) : P _ fetchByte :=
  hP.bind (hP.look) fun _ =>
    closed_ite
      (hP.bind (closed_memRead hP _) fun _ =>
        hP.bind hr.advanceCur fun _ => hP.pure _)
      (hP.bind hr.markEof fun _ => hP.pure _)

theorem closed_skipFill (hP : Closed P) (hr : AllowsReader P) (n : Nat) : P _ (skipFill n) := by
  induction n with
  | zero => exact closed_fetchByte hP hr
  | succ n ih =>
    refine hP.bind (closed_fetchByte hP hr) fun x => ?_
    obtain ⟨c, q⟩ := x
    cases q with
    | pad => exact hP.pure _
    | real => exact closed_ite ih (hP.pure _)

theorem closed_afterFF (hP : Closed P) (hr : AllowsReader P) : P _ afterFF := by
  refine hP.bind (hP.look) fun s => hP.bind (closed_skipFill hP hr _) fun x => ?_
  obtain ⟨c, q⟩ := x
  cases q with
  | pad => exact hP.pure _
  | real =>
    exact closed_ite (hP.pure _)
      (hP.bind (hr.cacheMarker c) fun _ => hP.pure _)

theorem closed_nextMsbByte (hP : Closed P) (hr : AllowsReader P) : P _ nextMsbByte := by
  refine hP.bind (hP.look) fun s => closed_ite (hP.pure _) ?_
  refine hP.bind (closed_fetchByte hP hr) fun x => ?_
  obtain ⟨c, q⟩ := x
  cases q with
  | pad => exact hP.pure _
  | real => exact closed_ite (closed_afterFF hP hr) (hP.pure _)

theorem closed_nextByte (hP : Closed P) (hr : AllowsReader P) : P _ nextByte := by
  refine hP.bind (hP.look) fun s => ?_
  cases s.rd.mode with
  | lsb => exact closed_fetchByte hP hr
  | msb => exact closed_nextMsbByte hP hr

theorem closed_fillLoop (hP : Closed P) (hr : AllowsReader P) (n : Nat) : P _ (fillLoop n) := by
  induction n with
  | zero => exact hP.pure _
  | succ n ih =>
    exact hP.bind (hP.look) fun s =>
      closed_ite
        (hP.bind (closed_nextByte hP hr) fun x =>
          hP.bind (hr.enterByte x.1 x.2) fun _ => ih)
        (hP.pure _)

theorem closed_fill (hP : Closed P) (hr : AllowsReader P) : P _ fill := closed_fillLoop hP hr 4

theorem closed_need (hP : Closed P) (hr : AllowsReader P) (n : Nat) : P _ (need n) :=
  hP.bind (hP.look) fun _ => closed_ite (closed_fill hP hr) (hP.pure _)

theorem closed_consume (hP : Closed P) (hr : AllowsReader P) (n : Nat) : P _ (consume n) :=
  hP.bind (hP.look) fun _ =>
    hP.bind (hr.dropBits n _) fun _ => hP.pure _

theorem closed_readAlignedByte (hP : Closed P) (hr : AllowsReader P) : P _ readAlignedByte := by
  refine hP.bind (hP.look) fun s => closed_ite (closed_consume hP hr 8) ?_
  refine hP.bind (closed_fetchByte hP hr) fun x => ?_
  obtain ⟨c, q⟩ := x
  cases q with
  | real => exact hP.pure _
  | pad => exact hP.bind hr.markOvr fun _ => hP.pure _

theorem closed_receive (hP : Closed P) (hr : AllowsReader P) (n : Nat) : P _ (receive n) :=
  closed_ite (hP.pure _)
    (hP.bind (closed_need hP hr n) fun _ =>
      hP.bind (closed_consume hP hr n) fun _ => hP.pure _)

/-- A command that completes or faults leaves the state that its pseudocode left, but for the control
registers. -/
theorem runCommand_keeps {act : Engine Word} {s t : State} (h : Keeps R act)
    (hs : runCommand act s = .next t) :
    ∃ q : Run, R (Run.whole s) q ∧
      ((∃ res, t = complete res q.st) ∨ ∃ code info, t = faultEntry code info q.st) := by
  have h' := h.run (Run.whole s)
  rcases runCommand_cases act s with ⟨res, q, hu, hn⟩ | ⟨code, info, q, hu, hn⟩ | ⟨q, hu, hn⟩
  · rw [hu] at h'
    rw [hn] at hs
    cases hs
    exact ⟨q, h', .inl ⟨res, rfl⟩⟩
  · rw [hu] at h'
    rw [hn] at hs
    cases hs
    exact ⟨q, h', .inr ⟨code, info, rfl⟩⟩
  · rw [hn] at hs
    cases hs

/-- What the running command passes through is related to its start, when its pseudocode and its last
assignments are (10_state.md R52; 70_reset_and_hazards.md R421). -/
theorem passing_keeps {R : State → State → Prop} (hR : Composes (Always R)) {s : State} (n : Nat)
    (h : Keeps (Always R) (latchedPseudocode s))
    (hl : ∀ o (r : Run), Always R r (r.afterAll (lastSteps s o))) : R s (passing n s) := by
  have h' := h.run { st := s, left := some n }
  simp only [passing]
  cases ho : latchedPseudocode s { st := s, left := some n } with
  | ok x q =>
    rw [ho] at h'
    exact hR.trans _ _ _ h' (hl _ q)
  | error e q =>
    rw [ho] at h'
    exact hR.trans _ _ _ h' (hl _ q)

end Sys2Proof.Machine
end

