-- ==== Sys2Proof/Laws/Shared.lean ====
section
/-! SUPPORT. What each shared operation can do, said once: runs of bytes read and written, the frame of
the reader, the canonical form of MEM through a command, and the two ends of a command in the terms of
Safety.lean. -/

namespace Sys2Proof.Machine

open Sys2Proof

/-! ### The ends of a command -/

theorem complete_eq_completed (res : Word) (s : State) : complete res s = completed res s := rfl

theorem faultEntry_eq_faulted (code : FaultCode) (info : Word) (s : State) :
    faultEntry code info s = faulted (faultByte code) info s := rfl

/-! ### Regions that answer -/

/-- Every address of a region that answers is in MEMMAP. -/
theorem answers_inMap {s : State} {r : Region} {a : Nat} (h : answers s r = true) (hlo : r.lo ≤ a)
    (hhi : a < r.lo + r.len) : inMap s.bus.holes a = true := by
  simp only [answers, regionFits, Bool.and_eq_true, decide_eq_true_eq, List.all_eq_true,
    Bool.or_eq_true] at h
  simp only [inMap, Bool.and_eq_true, decide_eq_true_eq, List.all_eq_true, Bool.not_eq_true',
    Bool.and_eq_false_iff, decide_eq_false_iff_not]
  refine ⟨by omega, fun hole hmem => ?_⟩
  have := h.2 hole hmem
  omega

/-- An address that no hole holds and that is a 32-bit one is in MEMMAP, with no hole at all. -/
theorem inMap_nil {a : Nat} (h : a < addrEnd) : inMap [] a = true := by
  simp only [inMap, List.all_nil, Bool.and_true, decide_eq_true_eq]
  exact h

/-! ### Runs of bytes -/

/-- Bytes that all answer are read as MEM holds them, and nothing changes. -/
theorem readBytes_ok {r : Run} (n a : Nat)
    (h : ∀ k, k < n → inMap r.st.bus.holes (a + k) = true) :
    readBytes n a r = .ok ((List.range n).map (fun k => memGet r.st.bus.mem (a + k))) r := by
  induction n generalizing a with
  | zero => rfl
  | succ n ih =>
    have h0 : memRead a r = .ok (memGet r.st.bus.mem a) r := memRead_ok (h 0 (Nat.succ_pos n))
    have hn := ih (a + 1) fun k hk => by
      have := h (k + 1) (by omega)
      rwa [show a + (k + 1) = a + 1 + k by omega] at this
    rw [readBytes, bind_ok h0, bind_ok hn, pure_run, List.range_succ_eq_map]
    simp only [List.map_cons, List.map_map, Nat.add_zero]
    congr 2
    apply List.map_congr_left
    intro k _
    simp only [Function.comp_apply, Nat.succ_eq_add_one]
    rw [show a + (k + 1) = a + 1 + k by omega]

/-- How many of `n` assignments a run still makes. -/
def Run.reach (r : Run) (n : Nat) : Nat :=
  match r.left with
  | none => n
  | some m => min m n

/-- A run of writes that all answer: the bytes that the run still makes are written and read back, every
other byte reads as before, and nothing else changes. -/
theorem writeBytes_ok {r : Run} (bs : List Byte) (a : Nat)
    (h : ∀ k, k < bs.length → inMap r.st.bus.holes (a + k) = true)
    (hwf : Memory.wf r.st.bus.mem = true) :
    ∃ mem, writeBytes bs a r = .ok ()
        { st := { r.st with bus := { r.st.bus with mem := mem } }
          left := r.left.map (fun n => n - bs.length) } ∧
      Memory.wf mem = true ∧
      ∀ b, memGet mem b =
        if within b a (r.reach bs.length) then bs.getD (b - a) 0 else memGet r.st.bus.mem b := by
  induction bs generalizing a r with
  | nil =>
    obtain ⟨s, left⟩ := r
    have h0 : Run.reach { st := s, left := left } 0 = 0 := by cases left <;> simp [Run.reach]
    refine ⟨s.bus.mem, by cases left <;> rfl, hwf, fun b => ?_⟩
    rw [List.length_nil, h0, if_neg]
    simp only [within, Bool.and_eq_true, decide_eq_true_eq]
    omega
  | cons v bs ih =>
    have h0 : inMap r.st.bus.holes a = true := h 0 (by simp)
    have hholes : (r.after (landWrite a v)).st.bus.holes = r.st.bus.holes := by
      obtain ⟨s, _ | _ | n⟩ := r <;> rfl
    obtain ⟨mem, hrun, hmwf, hget⟩ :=
      ih (r := r.after (landWrite a v)) (a + 1)
        (fun k hk => by
          have := h (k + 1) (by simpa using hk)
          rw [hholes]
          rwa [show a + (k + 1) = a + 1 + k by omega] at this)
        (by
          obtain ⟨s, _ | _ | n⟩ := r
          · exact memSet_wf v (inMap_lt h0) hwf
          · exact hwf
          · exact memSet_wf v (inMap_lt h0) hwf)
    refine ⟨mem, ?_, hmwf, fun b => ?_⟩
    · rw [writeBytes, bind_ok (memWrite_ok v h0), hrun]
      obtain ⟨s, _ | _ | n⟩ := r
      · rfl
      · simp
      · simp [landWrite]
    · obtain ⟨s, left⟩ := r
      have hone : left ≠ some 0 → ∀ b, memGet (Run.after (landWrite a v) ⟨s, left⟩).st.bus.mem b =
          if b = a then v else memGet s.bus.mem b := by
        intro hl b
        rcases left with _ | _ | n
        · exact memGet_memSet a b v hwf
        · exact absurd rfl hl
        · exact memGet_memSet a b v hwf
      rw [hget b]
      by_cases hl : left = some 0
      · subst hl
        simp only [after_stopped, within, Run.reach, Nat.zero_min, Nat.add_zero, Bool.and_eq_true,
          decide_eq_true_eq]
        rw [if_neg (by omega), if_neg (by omega)]
      · have hreach : Run.reach ⟨s, left⟩ (bs.length + 1) =
            Run.reach (Run.after (landWrite a v) ⟨s, left⟩) bs.length + 1 := by
          rcases left with _ | _ | n
          · rfl
          · exact absurd rfl hl
          · exact Nat.succ_min_succ n bs.length
        rw [hone hl, List.length_cons, hreach]
        generalize Run.reach (Run.after (landWrite a v) ⟨s, left⟩) bs.length = n
        simp only [within, Bool.and_eq_true, decide_eq_true_eq]
        by_cases hab : b = a
        · subst hab
          rw [if_neg (by omega), if_pos rfl, if_pos (by omega), Nat.sub_self]
          rfl
        · by_cases hin : a + 1 ≤ b ∧ b < a + 1 + n
          · rw [if_pos hin, if_pos (by omega), show b - a = b - (a + 1) + 1 by omega,
              List.getD_cons_succ]
          · rw [if_neg hin, if_neg hab, if_neg (by omega)]

/-! ### The reader's frame -/

/-- Only the reader differs, and its mode and its buffer stay. -/
def ReaderOnly (s t : State) : Prop :=
  t = { s with rd := t.rd } ∧ t.rd.mode = s.rd.mode ∧ t.rd.inBase = s.rd.inBase ∧
    t.rd.inLen = s.rd.inLen

theorem readerOnly_refl (s : State) : ReaderOnly s s := ⟨rfl, rfl, rfl, rfl⟩

theorem readerOnly_trans (s t u : State) (h : ReaderOnly s t) (h' : ReaderOnly t u) :
    ReaderOnly s u := by
  obtain ⟨h1, h2, h3, h4⟩ := h
  obtain ⟨h1', h2', h3', h4'⟩ := h'
  refine ⟨?_, h2'.trans h2, h3'.trans h3, h4'.trans h4⟩
  rw [h1', h1]

theorem readerOnly_composes : Composes (Uncut ReaderOnly) :=
  uncut_composes readerOnly_refl readerOnly_trans

theorem readerOnly_closed : Closed fun _ => Keeps (Uncut ReaderOnly) :=
  keeps_closed readerOnly_composes

theorem readerOnly_allowsReader : AllowsReader fun _ => Keeps (Uncut ReaderOnly) :=
  allowsReader_uncut fun _ _ hm hb hl => ⟨rfl, hm, hb, hl⟩

/-- `Need`, `Consume`, `ReadAlignedByte` and `Receive` change the reader only. -/
theorem reader_frame (n : Nat) :
    Keeps (Uncut ReaderOnly) (need n) ∧ Keeps (Uncut ReaderOnly) (consume n) ∧
      Keeps (Uncut ReaderOnly) readAlignedByte ∧ Keeps (Uncut ReaderOnly) (receive n) :=
  ⟨closed_need readerOnly_closed readerOnly_allowsReader n,
    closed_consume readerOnly_closed readerOnly_allowsReader n,
    closed_readAlignedByte readerOnly_closed readerOnly_allowsReader,
    closed_receive readerOnly_closed readerOnly_allowsReader n⟩

/-- The same of a command that got only part of the way (10_state.md R52). -/
theorem reader_frame_always (n : Nat) :
    Keeps (Always ReaderOnly) (need n) ∧ Keeps (Always ReaderOnly) (consume n) ∧
      Keeps (Always ReaderOnly) readAlignedByte ∧ Keeps (Always ReaderOnly) (receive n) := by
  have hR := keeps_closed (always_composes readerOnly_refl readerOnly_trans)
  have hr := allowsReader_always readerOnly_refl readerOnly_trans
    fun _ _ hm hb hl => ⟨rfl, hm, hb, hl⟩
  exact ⟨closed_need hR hr n, closed_consume hR hr n, closed_readAlignedByte hR hr,
    closed_receive hR hr n⟩

/-! ### How full a fill leaves ACC -/

/-- The bits in ACC and the order of bits stay. -/
def SameBits (s t : State) : Prop := t.rd.bitcnt = s.rd.bitcnt ∧ t.rd.mode = s.rd.mode

theorem sameBits_composes : Composes (Uncut SameBits) :=
  uncut_composes (fun _ => ⟨rfl, rfl⟩) fun _ _ _ h h' => ⟨h'.1.trans h.1, h'.2.trans h.2⟩

theorem keeps_fetchByte_sameBits : Keeps (Uncut SameBits) fetchByte :=
  keeps_bind sameBits_composes (keeps_look sameBits_composes) fun _ =>
    keeps_ite
      (keeps_bind sameBits_composes (closed_memRead (keeps_closed sameBits_composes) _) fun _ =>
        keeps_bind sameBits_composes (keeps_assign (uncut_after fun _ => ⟨rfl, rfl⟩)) fun _ =>
          keeps_pure sameBits_composes _)
      (keeps_bind sameBits_composes (keeps_assign (uncut_after fun _ => ⟨rfl, rfl⟩)) fun _ =>
        keeps_pure sameBits_composes _)

theorem keeps_skipFill_sameBits (n : Nat) : Keeps (Uncut SameBits) (skipFill n) := by
  induction n with
  | zero => exact keeps_fetchByte_sameBits
  | succ n ih =>
    refine keeps_bind sameBits_composes keeps_fetchByte_sameBits fun x => ?_
    obtain ⟨c, q⟩ := x
    cases q with
    | pad => exact keeps_pure sameBits_composes _
    | real => exact keeps_ite ih (keeps_pure sameBits_composes _)

theorem keeps_nextByte_sameBits : Keeps (Uncut SameBits) nextByte := by
  refine keeps_bind sameBits_composes (keeps_look sameBits_composes) fun s => ?_
  cases s.rd.mode with
  | lsb => exact keeps_fetchByte_sameBits
  | msb =>
    refine keeps_bind sameBits_composes (keeps_look sameBits_composes) fun s =>
      keeps_ite (keeps_pure sameBits_composes _) ?_
    refine keeps_bind sameBits_composes keeps_fetchByte_sameBits fun x => ?_
    obtain ⟨c, q⟩ := x
    cases q with
    | pad => exact keeps_pure sameBits_composes _
    | real =>
      refine keeps_ite ?_ (keeps_pure sameBits_composes _)
      refine keeps_bind sameBits_composes (keeps_look sameBits_composes) fun s =>
        keeps_bind sameBits_composes (keeps_skipFill_sameBits _) fun y => ?_
      obtain ⟨d, p⟩ := y
      cases p with
      | pad => exact keeps_pure sameBits_composes _
      | real =>
        exact keeps_ite (keeps_pure sameBits_composes _)
          (keeps_bind sameBits_composes
            (keeps_assignAll (uncut_afterAll fun _ => ⟨rfl, rfl⟩)) fun _ =>
              keeps_pure sameBits_composes _)

/-- A fill loop with rounds enough leaves 25 to 32 bits in ACC (41_bitreader.md R157, R158). -/
theorem fillLoop_bitcnt {s t : State} (n : Nat) (hs : s.rd.bitcnt ≤ 32)
    (hn : 25 ≤ s.rd.bitcnt + 8 * n) (h : fillLoop n (Run.whole s) = .ok () (Run.whole t)) :
    25 ≤ t.rd.bitcnt ∧ t.rd.bitcnt ≤ 32 := by
  induction n generalizing s with
  | zero =>
    cases h
    omega
  | succ n ih =>
    rw [fillLoop, bind_run, look_run] at h
    simp only at h
    split at h
    · obtain ⟨x, q, hx, h⟩ := bind_eq_ok h
      obtain ⟨u, rfl, hb, -⟩ := keeps_whole_ok keeps_nextByte_sameBits hx
      rw [bind_run, assignAll_run] at h
      simp only [afterAll_whole] at h
      exact ih (s := enterByte x.1 x.2 u) (by rw [enterByte_bitcnt]; omega)
        (by rw [enterByte_bitcnt]; omega) h
    · cases h
      omega

/-- After `Fill`, BITCNT is in 25..32 (41_bitreader.md R157, R158). -/
theorem fill_bitcnt {s t : State} (hs : s.rd.bitcnt ≤ 32)
    (h : fill (Run.whole s) = .ok () (Run.whole t)) :
    25 ≤ t.rd.bitcnt ∧ t.rd.bitcnt ≤ 32 := fillLoop_bitcnt 4 hs (by omega) h

/-- After `Need(n)`, for n in 0..16, BITCNT is at least n and at most 32 (41_bitreader.md R159). -/
theorem need_bitcnt {s t : State} {n : Nat} (hn : n ≤ 16) (hs : s.rd.bitcnt ≤ 32)
    (h : need n (Run.whole s) = .ok () (Run.whole t)) : n ≤ t.rd.bitcnt ∧ t.rd.bitcnt ≤ 32 := by
  rw [need_run] at h
  split at h
  · have := fill_bitcnt hs h
    omega
  · rename_i hc
    cases h
    exact ⟨Nat.le_of_not_lt hc, hs⟩

/-! ### MEM through a command -/

/-- MEM stays canonical if it was, and MEMMAP stays. -/
def KeepsMem (s t : State) : Prop :=
  (Memory.wf s.bus.mem = true → Memory.wf t.bus.mem = true) ∧ t.bus.holes = s.bus.holes

theorem keepsMem_refl (s : State) : KeepsMem s s := ⟨id, rfl⟩

theorem keepsMem_trans (s t u : State) (h : KeepsMem s t) (h' : KeepsMem t u) : KeepsMem s u :=
  ⟨fun hs => h'.1 (h.1 hs), h'.2.trans h.2⟩

theorem keepsMem_composes : Composes (Always KeepsMem) :=
  always_composes keepsMem_refl keepsMem_trans

theorem keepsMem_allowsReader : AllowsReader fun _ => Keeps (Always KeepsMem) :=
  allowsReader_always keepsMem_refl keepsMem_trans fun _ _ _ _ _ => ⟨id, rfl⟩

theorem keepsMem_landWrite {a : Nat} (v : Byte) (r : Run) (ha : a < addrEnd) :
    Always KeepsMem r (r.after (landWrite a v)) :=
  always_after (f := landWrite a v) keepsMem_refl (fun _ => ⟨fun h => memSet_wf v ha h, rfl⟩) r

/-- A byte write and a run of byte writes keep MEM canonical, however they end and wherever a limit cuts
them. -/
theorem writes_keep_wf (bs : List Byte) (a : Nat) (v : Byte) :
    Keeps (Always KeepsMem) (memWrite a v) ∧ Keeps (Always KeepsMem) (writeBytes bs a) :=
  ⟨keeps_memWrite keepsMem_composes a v fun r ha => keepsMem_landWrite v r ha,
    keeps_writeBytes keepsMem_composes bs a fun _ v r _ _ ha => keepsMem_landWrite v r ha⟩

/-- A command whose pseudocode keeps MEM canonical keeps it so, completed or faulted. -/
theorem runCommand_keepsMem {act : Engine Word} {s t : State} (h : Keeps (Always KeepsMem) act)
    (hs : runCommand act s = .next t) : KeepsMem s t := by
  obtain ⟨q, hq, ⟨res, rfl⟩ | ⟨code, info, rfl⟩⟩ := runCommand_keeps h hs
  · exact hq
  · exact hq

/-- The last assignments of a command touch the control registers only. -/
theorem lastSteps_keepMem (s : State) (o : EStateM.Result Stop Run Word) (r : Run) :
    Always KeepsMem r (r.afterAll (lastSteps s o)) := by
  refine always_afterAll keepsMem_refl keepsMem_trans (fun f hf t => ?_) r
  rcases o with ⟨res, q⟩ | ⟨_ | _, q⟩ <;>
    simp only [lastSteps, List.mem_cons, List.not_mem_nil, or_false] at hf
  · subst hf
    exact ⟨id, rfl⟩
  · rcases hf with rfl | rfl | rfl <;> exact ⟨id, rfl⟩

/-- An abort leaves MEM canonical, when the command's pseudocode keeps it so
(70_reset_and_hazards.md R421). -/
theorem passing_keepsMem {s : State} (n : Nat)
    (h : Keeps (Always KeepsMem) (latchedPseudocode s)) : KeepsMem s (passing n s) :=
  passing_keeps keepsMem_composes n h fun o r => lastSteps_keepMem s o r

/-- The host's write of a byte keeps MEM canonical. -/
theorem hostMemWrite_wf {a : Nat} {v : Byte} {s t : State} (h : hostMemWrite a v s = .next t)
    (hs : Memory.wf s.bus.mem = true) : Memory.wf t.bus.mem = true := by
  rw [hostMemWrite] at h
  split at h
  · cases h
  · rename_i hm
    split at h
    · cases h
    · cases h
      exact memSet_wf v (inMap_lt (by simpa using hm)) hs

end Sys2Proof.Machine
end

