-- ==== Sys2Proof/Laws/Commands.lean ====
section
/-! SUPPORT. What holds of every command's pseudocode: a property that its sequencing and its assignments
keep, the assignments named once. Two of them: a relation between states that every command keeps, and
that a command is a list of assignments, of which one that is cut short makes the first ones. -/

namespace Sys2Proof.Machine

open Sys2Proof

/-- What the commands' pseudocode assigns. -/
structure AllowsCommands (P : ∀ α : Type, Engine α → Prop) : Prop extends AllowsReader P where
  memWrite : ∀ (a : Nat) (v : Byte), P _ (memWrite a v)
  initSteps : ∀ m : Mode, P _ (assignAll (initSteps m))
  entropySteps : P _ (assignAll entropySteps)
  setZTable : ∀ (t : Fin 3) (x : Option ZTable), P _ (assign (setZTable t x))
  setJTable : ∀ (c : JClass) (i : Fin 4) (x : Option JTable), P _ (assign (setJTable c i x))
  setQTable : ∀ (q : Fin 4) (x : Option (Vector Half 64)), P _ (assign (setQTable q x))
  growOutput : P _ (assign growOutput)
  noteBlock : ∀ b : Nat, P _ (assign (noteBlock b))
  markFinal : P _ (assign markFinal)
  clearCoefs : P _ (assign clearCoefs)
  setCoef : ∀ (i : Nat) (v : Int), P _ (assign (setCoef i v))
  addDc : ∀ (c : Fin 4) (d : Int), P _ (assign (addDc c d))
  loadCoef : ∀ base i : Nat, P _ (assign (loadCoef base i))

variable {P : ∀ α : Type, Engine α → Prop} {α : Type}

theorem closed_raiseEof (hP : Closed P) : P _ (raiseEof : Engine α) :=
  hP.bind (hP.look) fun _ => hP.raise _ _

theorem closed_bits (hP : Closed P) (h : AllowsReader P) (n : Nat) : P _ (bits n) :=
  closed_ite (hP.pure _)
    (hP.bind (closed_need hP h n) fun _ =>
      hP.bind (closed_consume hP h n) fun _ =>
        closed_ite (closed_raiseEof hP) (hP.pure _))

theorem closed_zDecode (hP : Closed P) (h : AllowsReader P) (t : Fin 3) : P _ (zDecode t) := by
  refine hP.bind (closed_need hP h 16) fun _ => hP.bind (hP.look) fun s => ?_
  split
  · exact hP.raise _ _
  · split
    · exact hP.raise _ _
    · exact hP.bind (closed_consume hP h _) fun _ => hP.pure _

theorem closed_jDecode (hP : Closed P) (h : AllowsReader P) (c : JClass) (i : Fin 4) :
    P _ (jDecode c i) := by
  refine hP.bind (closed_need hP h 16) fun _ => hP.bind (hP.look) fun s => ?_
  split
  · exact hP.raise _ _
  · split
    · exact hP.raise _ _
    · exact hP.bind (closed_consume hP h _) fun _ => hP.pure _

theorem closed_zSym (hP : Closed P) (h : AllowsReader P) (t : Fin 3) : P _ (zSym t) :=
  hP.bind (closed_zDecode hP h t) fun _ =>
    closed_ite (closed_raiseEof hP) (hP.pure _)

theorem closed_readBytesBE (hP : Closed P) (h : AllowsReader P) (n v : Nat) :
    P _ (readBytesBE n v) := by
  induction n generalizing v with
  | zero => exact hP.pure _
  | succ n ih => exact hP.bind (closed_readAlignedByte hP h) fun _ => ih _

/-! ### INFLATE's pieces -/

theorem closed_appendByte (hP : Closed P) (h : AllowsCommands P) (b : Byte) :
    P _ (appendByte b) :=
  hP.bind (hP.look) fun _ =>
    hP.bind (h.memWrite _ b) fun _ =>
      h.growOutput

theorem closed_outByte (hP : Closed P) (h : AllowsCommands P) (b : Byte) : P _ (outByte b) :=
  hP.bind (hP.look) fun _ =>
    closed_ite (hP.raise _ _) (closed_appendByte hP h b)

theorem closed_headerByte (hP : Closed P) (h : AllowsReader P) : P _ headerByte :=
  hP.bind (closed_readAlignedByte hP h) fun _ =>
    closed_ite (closed_raiseEof hP) (hP.pure _)

theorem closed_copyStored (hP : Closed P) (h : AllowsCommands P) (n : Nat) :
    P _ (copyStored n) := by
  induction n with
  | zero => exact hP.pure _
  | succ n ih =>
    exact hP.bind (hP.look) fun _ =>
      hP.bind (closed_memRead hP _) fun b =>
        hP.bind h.advanceCur fun _ =>
          hP.bind (closed_appendByte hP h b) fun _ => ih

theorem closed_storedBlock (hP : Closed P) (h : AllowsCommands P) : P _ storedBlock := by
  refine hP.bind (hP.look) fun s =>
    hP.bind (closed_consume hP h.toAllowsReader _) fun x =>
      closed_guard hP (closed_raiseEof hP) fun _ => ?_
  iterate 4 refine hP.bind (closed_headerByte hP h.toAllowsReader) fun _ => ?_
  exact closed_guard hP (hP.raise _ _) fun _ => hP.bind (hP.look) fun _ =>
    closed_guard hP (closed_raiseEof hP) fun _ =>
      closed_guard hP (hP.raise _ _) fun _ => closed_copyStored hP h _

theorem closed_rebuildZTable (hP : Closed P) (h : AllowsCommands P) (t : Fin 3)
    (lens : List Nat) : P _ (rebuildZTable t lens) := by
  refine hP.bind (h.setZTable t none) fun _ => ?_
  unfold installZTable
  split
  · exact hP.raise _ _
  · exact h.setZTable t _

theorem closed_readClLengths (hP : Closed P) (h : AllowsReader P) (syms cl : List Nat) :
    P _ (readClLengths syms cl) := by
  induction syms generalizing cl with
  | nil => exact hP.pure _
  | cons sym syms ih => exact hP.bind (closed_bits hP h 3) fun _ => ih _

theorem closed_lengthRun (hP : Closed P) (h : AllowsReader P) (c : Nat) (lens : List Nat) :
    P _ (lengthRun c lens) := by
  refine closed_ite ?_ (closed_ite ?_ ?_)
  · cases lens with
    | nil => exact hP.raise _ _
    | cons _ _ => exact hP.bind (closed_bits hP h 2) fun _ => hP.pure _
  · exact hP.bind (closed_bits hP h 3) fun _ => hP.pure _
  · exact hP.bind (closed_bits hP h 7) fun _ => hP.pure _

theorem closed_readLengths (hP : Closed P) (h : AllowsReader P) (total rounds : Nat)
    (lens : List Nat) : P _ (readLengths total rounds lens) := by
  induction rounds generalizing lens with
  | zero => exact hP.pure _
  | succ n ih =>
    exact closed_ite
      (hP.bind (closed_zSym hP h 2) fun _ =>
        closed_ite (ih _)
          (hP.bind (closed_lengthRun hP h _ _) fun _ =>
            closed_ite (hP.raise _ _) (ih _)))
      (hP.pure _)

theorem closed_dynamicTables (hP : Closed P) (h : AllowsCommands P) : P _ dynamicTables :=
  hP.bind (closed_bits hP h.toAllowsReader 5) fun _ =>
    hP.bind (closed_bits hP h.toAllowsReader 5) fun _ =>
      hP.bind (closed_bits hP h.toAllowsReader 4) fun _ =>
        hP.bind (closed_readClLengths hP h.toAllowsReader _ _) fun _ =>
          hP.bind (closed_rebuildZTable hP h 2 _) fun _ =>
            hP.bind (closed_readLengths hP h.toAllowsReader _ _ _) fun _ =>
              hP.bind (closed_rebuildZTable hP h 0 _) fun _ => closed_rebuildZTable hP h 1 _

theorem closed_copyMatch (hP : Closed P) (h : AllowsCommands P) (dist n : Nat) :
    P _ (copyMatch dist n) := by
  induction n with
  | zero => exact hP.pure _
  | succ n ih =>
    exact hP.bind (hP.look) fun _ =>
      hP.bind (closed_memRead hP _) fun b =>
        hP.bind (closed_appendByte hP h b) fun _ => ih

theorem closed_lengthAndDistance (hP : Closed P) (h : AllowsCommands P) (sym : Nat) :
    P _ (lengthAndDistance sym) := by
  unfold lengthAndDistance
  refine hP.bind (closed_bits hP h.toAllowsReader _) fun _ => ?_
  refine hP.bind (closed_zSym hP h.toAllowsReader 1) fun _ => ?_
  refine closed_guard hP (hP.raise _ _) fun _ => ?_
  refine hP.bind (closed_bits hP h.toAllowsReader _) fun _ => ?_
  refine hP.bind (hP.look) fun _ => ?_
  refine closed_guard hP (hP.raise _ _) fun _ => ?_
  exact closed_guard hP (hP.raise _ _) fun _ => closed_copyMatch hP h _ _

theorem closed_huffBlock (hP : Closed P) (h : AllowsCommands P) (n : Nat) :
    P _ (huffBlock n) := by
  induction n with
  | zero => exact hP.outran
  | succ n ih =>
    rw [huffBlock]
    refine hP.bind (closed_zSym hP h.toAllowsReader 0) fun _ => ?_
    split
    · exact hP.bind (closed_outByte hP h _) fun _ => ih
    · split
      · exact hP.pure _
      · exact closed_ite (hP.raise _ _)
          (hP.bind (closed_lengthAndDistance hP h _) fun _ => ih)

theorem closed_compressedBlock (hP : Closed P) (h : AllowsCommands P) :
    P _ compressedBlock :=
  hP.bind (hP.look) fun _ => closed_huffBlock hP h _

theorem closed_blockBody (hP : Closed P) (h : AllowsCommands P) (b : Nat) :
    P _ (blockBody b) :=
  closed_ite (closed_storedBlock hP h)
    (closed_ite
      (hP.bind
        (hP.bind (closed_rebuildZTable hP h 0 _) fun _ => closed_rebuildZTable hP h 1 _)
        fun _ => closed_compressedBlock hP h)
      (closed_ite
        (hP.bind (closed_dynamicTables hP h) fun _ => closed_compressedBlock hP h)
        (hP.bind (hP.look) fun _ => hP.raise _ _)))

theorem closed_inflateBlocks (hP : Closed P) (h : AllowsCommands P) (stepMode : Bool)
    (bound nblk : Nat) : P _ (inflateBlocks stepMode bound nblk) := by
  induction bound generalizing nblk with
  | zero => exact hP.outran
  | succ n ih =>
    refine hP.bind
      (hP.bind (closed_bits hP h.toAllowsReader 1) fun _ =>
        hP.bind (closed_bits hP h.toAllowsReader 2) fun b =>
          hP.bind (h.noteBlock b) fun _ =>
            hP.bind (closed_blockBody hP h b) fun _ => hP.pure _)
      fun _ => closed_ite ?_ (closed_ite (hP.pure _) (ih _))
    exact hP.bind h.markFinal fun _ => hP.pure _

/-! ### The other commands' pieces -/

theorem closed_priors (hP : Closed P) (j : RowJob) (ft k : Nat) :
    P _ (priorAbove j ft k) ∧ P _ (priorAboveLeft j ft k) :=
  ⟨closed_ite (closed_memRead hP _) (hP.pure _),
    closed_ite (closed_memRead hP _) (hP.pure _)⟩

theorem closed_writeAlpha (hP : Closed P) (h : AllowsCommands P) (n a : Nat) :
    P _ (writeAlpha n a) := by
  induction n generalizing a with
  | zero => exact hP.pure _
  | succ n ih =>
    exact hP.bind (h.memWrite a _) fun _ => ih _

theorem closed_unfilterFrom (hP : Closed P) (h : AllowsCommands P) (j : RowJob)
    (ft left k : Nat) (out : List Byte) : P _ (unfilterFrom j ft left k out) := by
  induction left generalizing k out with
  | zero => exact hP.pure _
  | succ n ih =>
    refine hP.bind (closed_memRead hP _) fun _ =>
      hP.bind (closed_priors hP j ft k).1 fun _ =>
        hP.bind (closed_priors hP j ft k).2 fun _ =>
          hP.bind (h.memWrite _ _) fun _ => ?_
    exact closed_guard hP (closed_writeAlpha hP h _ _) fun _ => ih _ _

theorem closed_quantEntries (hP : Closed P) (p16 : Bool) (base left : Nat)
    (tbl : Vector Half 64) : P _ (quantEntries p16 base left tbl) := by
  induction left generalizing tbl with
  | zero => exact hP.pure _
  | succ n ih =>
    refine hP.bind ?_ fun _ => ih _
    exact closed_ite
      (hP.bind (closed_memRead hP _) fun _ =>
        hP.bind (closed_memRead hP _) fun _ => hP.pure _)
      (hP.bind (closed_memRead hP _) fun _ => hP.pure _)

theorem closed_acLoop (hP : Closed P) (h : AllowsCommands P) (ac : Fin 4) (rounds k : Nat) :
    P _ (acLoop ac rounds k) := by
  induction rounds generalizing k with
  | zero => exact hP.pure _
  | succ n ih =>
    exact closed_ite
      (hP.bind (closed_jDecode hP h.toAllowsReader .ac ac) fun _ =>
        closed_ite (closed_ite (ih _) (hP.pure _))
          (closed_ite (hP.raise _ _)
            (hP.bind (closed_receive hP h.toAllowsReader _) fun v =>
              hP.bind (h.setCoef _ v) fun _ => ih _)))
      (hP.pure _)

theorem closed_loadCoefs (hP : Closed P) (h : AllowsCommands P) (base left i : Nat) :
    P _ (loadCoefs base left i) := by
  induction left generalizing i with
  | zero => exact hP.pure _
  | succ n ih =>
    exact hP.bind (closed_needBus hP _) fun _ =>
      hP.bind (closed_needBus hP _) fun _ =>
        hP.bind (h.loadCoef base i) fun _ => ih _

theorem closed_writeRows (hP : Closed P) (h : AllowsCommands P) (stride : Nat)
    (rows : List (List Byte)) (a : Nat) : P _ (writeRows stride rows a) := by
  induction rows generalizing a with
  | nil => exact hP.pure _
  | cons row rows ih =>
    exact hP.bind
      (closed_writeBytes hP h.memWrite row a) fun _ => ih _

/-! ### Every command -/

/-- A relation that allows the assignments is kept by the pseudocode of every command. -/
theorem closed_pseudocode (hP : Closed P) (h : AllowsCommands P) (i : Instr) :
    P _ (pseudocode i) := by
  have hr := h.toAllowsReader
  cases i with
  | nop => exact hP.pure _
  | brInit m =>
    exact hP.bind (closed_needInput hP) fun _ =>
      hP.bind (h.initSteps m) fun _ => hP.pure _
  | brGetbits n =>
    exact hP.bind (closed_needLegal hP _) fun _ => hP.bind (closed_needInput hP) fun _ =>
      hP.bind (closed_need hP hr _) fun _ =>
        hP.bind (closed_consume hP hr _) fun _ => hP.pure _
  | brPeekbits n =>
    exact hP.bind (closed_needLegal hP _) fun _ => hP.bind (closed_needInput hP) fun _ =>
      hP.bind (closed_need hP hr _) fun _ =>
        hP.bind (hP.look) fun _ => hP.pure _
  | brAlign =>
    exact hP.bind (closed_needInput hP) fun _ => hP.bind (hP.look) fun _ =>
      hP.bind (closed_consume hP hr _) fun _ => hP.pure _
  | brReadbytes sz chk =>
    exact hP.bind (closed_needLegal hP _) fun _ => hP.bind (closed_needInput hP) fun _ =>
      hP.bind (hP.look) fun _ => closed_guard hP (hP.raise _ _) fun _ =>
        closed_guard hP (hP.raise _ _) fun _ =>
          hP.bind (closed_readBytesBE hP hr _ _) fun _ => hP.pure _
  | hbZlib tid =>
    refine hP.bind (hP.look) fun _ => hP.bind (closed_needLegal hP _) fun _ =>
      hP.bind (closed_needLegal hP _) fun _ => hP.bind (closed_needRange hP _) fun _ =>
        hP.bind (h.setZTable _ none) fun _ =>
          hP.bind (closed_readBytes hP _ _) fun _ =>
            hP.bind ?_ fun _ => hP.pure _
    unfold installZTable
    split
    · exact hP.raise _ _
    · exact h.setZTable _ _
  | hbJpeg cls idx =>
    refine hP.bind (hP.look) fun _ => hP.bind (closed_needRange hP _) fun _ =>
      hP.bind (h.setJTable _ _ none) fun _ =>
        hP.bind (closed_readBytes hP _ _) fun _ =>
          closed_guard hP (hP.raise _ _) fun _ =>
            hP.bind (closed_needRange hP _) fun _ =>
              hP.bind (closed_readBytes hP _ _) fun _ =>
                hP.bind ?_ fun _ => hP.pure _
    unfold installJTable
    split
    · exact hP.raise _ _
    · exact h.setJTable _ _ _
  | hdZlib tid =>
    exact hP.bind (hP.look) fun _ => hP.bind (closed_needLegal hP _) fun _ =>
      hP.bind (closed_needMode hP _) fun _ => hP.bind (closed_needTable hP _ _) fun _ =>
        hP.bind (closed_needInput hP) fun _ =>
          hP.bind (closed_zDecode hP hr _) fun _ => hP.pure _
  | hdJpeg cls idx =>
    exact hP.bind (hP.look) fun _ => hP.bind (closed_needMode hP _) fun _ =>
      hP.bind (closed_needTable hP _ _) fun _ => hP.bind (closed_needInput hP) fun _ =>
        hP.bind (closed_jDecode hP hr _ _) fun _ => hP.pure _
  | zHeader =>
    exact hP.bind (closed_needMode hP _) fun _ => hP.bind (closed_needInput hP) fun _ =>
      hP.bind (hP.look) fun _ => closed_guard hP (hP.raise _ _) fun _ =>
        hP.bind (closed_readAlignedByte hP hr) fun _ =>
          hP.bind (closed_readAlignedByte hP hr) fun _ =>
            closed_guard hP (closed_raiseEof hP) fun _ => closed_guard hP (hP.raise _ _) fun _ =>
              closed_guard hP (hP.raise _ _) fun _ =>
                closed_guard hP (hP.raise _ _) fun _ => hP.pure _
  | inflate stepMode =>
    exact hP.bind (hP.look) fun _ => hP.bind (closed_needMode hP _) fun _ =>
      hP.bind (closed_needInput hP) fun _ => hP.bind (closed_needRange hP _) fun _ =>
        hP.bind
          (hP.bind (hP.look) fun _ => closed_ite (hP.pure _) (hP.raise _ _))
          fun _ => hP.bind (closed_needApart hP _ _) fun _ =>
            hP.bind (closed_inflateBlocks hP h _ _ _) fun _ => hP.pure _
  | pngUnfilter bppm1 first alpha a16 =>
    refine hP.bind (hP.look) fun s => hP.bind (closed_needLegal hP _) fun _ =>
      hP.bind (closed_needLegal hP _) fun _ => hP.bind (closed_needRange hP _) fun _ =>
        hP.bind (closed_needRange hP _) fun _ => ?_
    generalize rowJob bppm1 first alpha a16 s = j
    have hrest : P _ (needApart (rowRegion j) (rawRegion j) >>= fun _ =>
        needApart (rowRegion j) (priorRegion j) >>= fun _ => unfilterRow j) :=
      hP.bind (closed_needApart hP _ _) fun _ => hP.bind (closed_needApart hP _ _) fun _ =>
        hP.bind (closed_memRead hP _) fun _ => closed_guard hP (hP.raise _ _) fun _ =>
          hP.bind (closed_unfilterFrom hP h _ _ _ _ _) fun _ => hP.pure _
    exact closed_ite hrest
      (hP.bind (closed_needRange hP _) fun _ => hrest)
  | qtLoad idx p16 =>
    exact hP.bind (hP.look) fun _ => hP.bind (closed_needRange hP _) fun _ =>
      hP.bind (h.setQTable _ none) fun _ =>
        hP.bind (closed_quantEntries hP _ _ _ _) fun _ =>
          hP.bind (h.setQTable _ _) fun _ => hP.pure _
  | jReceive n =>
    exact hP.bind (closed_needLegal hP _) fun _ => hP.bind (closed_needMode hP _) fun _ =>
      hP.bind (closed_needInput hP) fun _ =>
        hP.bind (closed_receive hP hr _) fun _ => hP.pure _
  | jDecodeBlock dct act comp =>
    exact hP.bind (hP.look) fun _ => hP.bind (closed_needMode hP _) fun _ =>
      hP.bind (closed_needTable hP _ _) fun _ => hP.bind (closed_needTable hP _ _) fun _ =>
        hP.bind (closed_needInput hP) fun _ => hP.bind (closed_jDecode hP hr _ _) fun _ =>
          closed_guard hP (hP.raise _ _) fun _ =>
            hP.bind h.clearCoefs fun _ =>
              hP.bind (closed_receive hP hr _) fun d =>
                hP.bind (h.addDc _ d) fun _ =>
                  hP.bind (closed_acLoop hP h _ _ _) fun _ => hP.pure _
  | jReset =>
    exact hP.bind (closed_needMode hP _) fun _ =>
      hP.bind h.entropySteps fun _ => hP.pure _
  | jRestart =>
    have hrest : P _ (look >>= fun t =>
        if isRestart t.rd.marker = true then assignAll entropySteps >>= fun _ => pure 1
        else (pure 0 : Engine Word)) :=
      hP.bind (hP.look) fun _ =>
        closed_ite (hP.bind h.entropySteps fun _ => hP.pure _)
          (hP.pure _)
    exact hP.bind (closed_needMode hP _) fun _ => hP.bind (closed_needInput hP) fun _ =>
      hP.bind (hP.look) fun _ => closed_guard hP (closed_fill hP hr) fun _ => hrest
  | coefLoad =>
    exact hP.bind (hP.look) fun _ => hP.bind (closed_needRange hP _) fun _ =>
      hP.bind (closed_loadCoefs hP h _ _ _) fun _ => hP.pure _
  | coefStore =>
    exact hP.bind (hP.look) fun _ => hP.bind (closed_needRange hP _) fun _ =>
      hP.bind (closed_writeBytes hP h.memWrite _ _) fun _ =>
        hP.pure _
  | idct deq qidx =>
    exact hP.bind (hP.look) fun _ => hP.bind (closed_needLegal hP _) fun _ =>
      hP.bind (closed_needTable hP _ _) fun _ => hP.bind (closed_needRange hP _) fun _ =>
        hP.bind (closed_writeRows hP h _ _ _) fun _ => hP.pure _

/-- The same of what the engine is running, be its word a command or not. -/
theorem closed_latchedPseudocode (hP : Closed P) (h : AllowsCommands P) (s : State) :
    P _ (latchedPseudocode s) := by
  unfold latchedPseudocode
  split
  · exact closed_pseudocode hP h _
  · exact hP.raise _ _

/-! ### What an assignment may change -/

/-- The two states differ in what commands own: the reader but for its buffer's registers, the output's
length and status, the tables, COEF and DCPRED. -/
def Owned (s t : State) : Prop :=
  t = { s with
    rd := { t.rd with inBase := s.rd.inBase, inLen := s.rd.inLen }
    out := { t.out with outBase := s.out.outBase, outCap := s.out.outCap }
    tab := t.tab, coef := t.coef, dcpred := t.dcpred }

/-- A list of assignments is so many assignments in order. -/
theorem closed_assignAll (hP : Closed P) {fs : List (State → State)}
    (h : ∀ f ∈ fs, P _ (assign f)) : P _ (assignAll fs) := by
  induction fs with
  | nil => exact hP.pure ()
  | cons f fs ih =>
    have hcons : assignAll (f :: fs) = (assign f >>= fun _ => assignAll fs) := by
      funext r
      rw [bind_run, assign_run, assignAll_run]
      rfl
    rw [hcons]
    exact hP.bind (h f (by simp)) fun _ => ih fun g hg => h g (by simp [hg])

/-- Every assignment of the pseudocode is a byte write or changes what commands own. -/
theorem allowsCommands_of (hP : Closed P) (hw : ∀ a v, P _ (memWrite a v))
    (h : ∀ f : State → State, (∀ s, Owned s (f s)) → P _ (assign f)) : AllowsCommands P where
  advanceCur := h _ fun _ => rfl
  markEof := h _ fun _ => rfl
  markOvr := h _ fun _ => rfl
  cacheMarker c := closed_assignAll hP (by
    simp only [markerSteps, List.mem_cons, List.not_mem_nil, or_false]
    rintro f (rfl | rfl) <;> exact h _ fun _ => rfl)
  enterByte b k := closed_assignAll hP (by
    simp only [enterSteps, List.mem_cons, List.not_mem_nil, or_false]
    rintro f (rfl | rfl | rfl) <;> exact h _ fun _ => rfl)
  dropBits n ovr := closed_assignAll hP (by
    simp only [dropSteps, List.mem_cons, List.not_mem_nil, or_false]
    rintro f (rfl | rfl | rfl | rfl) <;> exact h _ fun _ => rfl)
  memWrite := hw
  initSteps m := closed_assignAll hP (by
    simp only [initSteps, List.mem_cons, List.not_mem_nil, or_false]
    rintro f (rfl | rfl | rfl | rfl | rfl | rfl | rfl | rfl | rfl | rfl | rfl) <;>
      exact h _ fun _ => rfl)
  entropySteps := closed_assignAll hP (by
    simp only [entropySteps, emptySteps, List.cons_append, List.nil_append, List.mem_cons,
      List.not_mem_nil, or_false]
    rintro f (rfl | rfl | rfl | rfl | rfl | rfl) <;> exact h _ fun _ => rfl)
  setZTable _ _ := h _ fun _ => rfl
  setJTable c _ _ := h _ fun _ => by cases c <;> rfl
  setQTable _ _ := h _ fun _ => rfl
  growOutput := h _ fun _ => rfl
  noteBlock _ := h _ fun _ => rfl
  markFinal := h _ fun _ => rfl
  clearCoefs := h _ fun _ => rfl
  setCoef _ _ := h _ fun _ => rfl
  addDc _ _ := h _ fun _ => rfl
  loadCoef _ _ := h _ fun _ => rfl

/-- A byte write outside the 32-bit space raises `E_BUS`, whatever the state. -/
theorem memWrite_outside {a : Nat} (v : Byte) (h : ¬ a < addrEnd) :
    memWrite a v = raise .eBus (Word.ofNat a) := by
  funext r
  rw [memWrite_run, if_neg fun hm => h (inMap_lt hm), raise_run]

/-- A byte write, by its assignment. -/
theorem closed_memWrite (hP : Closed P) {a : Nat} {v : Byte}
    (h : a < addrEnd → P _ (assign (landWrite a v))) : P _ (memWrite a v) := by
  by_cases ha : a < addrEnd
  · exact hP.bind (closed_needBus hP a) fun _ => h ha
  · rw [memWrite_outside v ha]
    exact hP.raise _ _

/-- What a relation between states must allow for every command to keep it. -/
structure Allows (R : State → State → Prop) : Prop where
  refl : ∀ s, R s s
  trans : ∀ s t u, R s t → R t u → R s u
  own : ∀ s t, Owned s t → R s t
  write : ∀ (a : Nat) (v : Byte) (s : State), a < addrEnd → R s (landWrite a v s)

variable {R : State → State → Prop}

/-- Every command keeps such a relation, wherever a limit cuts it. -/
theorem allows_keeps (h : Allows R) (i : Instr) : Keeps (Always R) (pseudocode i) :=
  have hP := keeps_closed (always_composes h.refl h.trans)
  closed_pseudocode hP
    (allowsCommands_of hP
      (fun a v => closed_memWrite hP fun ha =>
        keeps_assign (always_after h.refl fun s => h.write a v s ha))
      fun f hf => keeps_assign (always_after h.refl fun s => h.own s (f s) (hf s))) i

/-- So does the whole command, but for the control registers that its end writes. -/
theorem exec_allows (h : Allows R) {i : Instr} {s t : State} (hs : exec i s = .next t) :
    ∃ q : State, R s q ∧
      ((∃ res, t = complete res q) ∨ ∃ code info, t = faultEntry code info q) := by
  rw [exec_eq] at hs
  obtain ⟨q, hq, ht⟩ := runCommand_keeps (allows_keeps h i) hs
  exact ⟨q.st, hq, ht⟩

/-! ### A command part of the way -/

/-- A run at its limit stays as it is. -/
def Frozen (r q : Run) : Prop := r.left = some 0 → q = r

theorem frozen_composes : Composes Frozen where
  refl _ _ := rfl
  trans r q u h h' hl := by
    cases h hl
    exact h' hl

theorem frozen_after (f : State → State) (r : Run) : Frozen r (r.after f) := by
  obtain ⟨s, left⟩ := r
  rintro rfl
  exact after_stopped f s

theorem frozen_afterAll (fs : List (State → State)) (r : Run) : Frozen r (r.afterAll fs) := by
  induction fs generalizing r with
  | nil => exact frozen_composes.refl r
  | cons f fs ih => exact frozen_composes.trans _ _ _ (frozen_after f r) (ih (r.after f))

/-- Pseudocode that keeps `Frozen` ends as it began in a run at its limit. -/
theorem frozen_runOf {act : Engine α} (h : Keeps Frozen act) (s : State) :
    runOf (act ⟨s, some 0⟩) = ⟨s, some 0⟩ := by
  have h' := h.run ⟨s, some 0⟩
  cases ho : act ⟨s, some 0⟩ with
  | ok x q => rw [ho] at h'; exact h' rfl
  | error e q => rw [ho] at h'; exact h' rfl

/-- An outcome with another number of assignments left. -/
def withLeft (k : Option Nat) (o : EStateM.Result Stop Run α) : EStateM.Result Stop Run α :=
  match o with
  | .ok x q => .ok x { q with left := k }
  | .error e q => .error e { q with left := k }

/-- A run of the pseudocode is a list of assignments: the whole run makes them all, and a limited one as
many of them as its limit allows; past them it is the whole run. -/
structure Unfolds (A : (State → State) → Prop) (act : Engine α) : Prop where
  frozen : Keeps Frozen act
  run : ∀ s, ∃ fs : List (State → State), (∀ f ∈ fs, A f) ∧
    runOf (act (Run.whole s)) = Run.whole (applied fs s) ∧
    (∀ n, n ≤ fs.length → runOf (act ⟨s, some n⟩) = ⟨applied (fs.take n) s, some 0⟩) ∧
    ∀ m, act ⟨s, some (fs.length + 1 + m)⟩ = withLeft (some (m + 1)) (act (Run.whole s))

variable {A : (State → State) → Prop}

/-- Pseudocode that assigns nothing. -/
theorem unfolds_still {act : Engine α} (h : ∀ r : Run, act r = withLeft r.left (act (Run.whole r.st)))
    (hw : ∀ s, runOf (act (Run.whole s)) = Run.whole s) : Unfolds A act := by
  have hst : ∀ r : Run, runOf (act r) = r := by
    intro r
    have h1 := h r
    have h2 := hw r.st
    cases ho : act (Run.whole r.st) with
    | ok x q => rw [ho] at h1 h2; rw [h1]; cases h2; rfl
    | error e q => rw [ho] at h1 h2; rw [h1]; cases h2; rfl
  refine ⟨⟨fun r => ?_⟩, fun s => ⟨[], by simp, hw s, fun n hn => ?_, fun m => ?_⟩⟩
  · have h1 := hst r
    cases ho : act r with
    | ok x q => rw [ho] at h1; exact fun _ => h1
    | error e q => rw [ho] at h1; exact fun _ => h1
  · obtain rfl : n = 0 := Nat.le_zero.mp hn
    exact hst _
  · rw [h, List.length_nil, Nat.zero_add, Nat.add_comm]

theorem unfolds_assign {f : State → State} (h : A f) : Unfolds A (assign f) := by
  refine ⟨keeps_assign (frozen_after f), fun s => ⟨[f], by simpa using h, rfl, fun n hn => ?_, ?_⟩⟩
  · rcases n with _ | _ | n
    · rfl
    · rfl
    · simp only [List.length_singleton] at hn
      omega
  · intro m
    rw [show [f].length + 1 + m = (m + 1) + 1 by simp only [List.length_singleton]; omega]
    rfl

theorem unfolds_bind {β : Type} {act : Engine α} {f : α → Engine β} (ha : Unfolds A act)
    (hf : ∀ x, Unfolds A (f x)) : Unfolds A (act >>= f) := by
  refine ⟨keeps_bind frozen_composes ha.frozen fun x => (hf x).frozen, fun s => ?_⟩
  have hstop : ∀ n t, runOf (act ⟨s, some n⟩) = ⟨t, some 0⟩ →
      runOf ((act >>= f) ⟨s, some n⟩) = ⟨t, some 0⟩ := by
    intro n t h
    rw [bind_run]
    cases ho : act ⟨s, some n⟩ with
    | error e q => rw [ho] at h; exact h
    | ok x q =>
      rw [ho] at h
      obtain rfl : q = ⟨t, some 0⟩ := h
      exact frozen_runOf (hf x).frozen t
  obtain ⟨fs, hA, hrun, hcut, hpast⟩ := ha.run s
  cases ho : act (Run.whole s) with
  | error e q =>
    rw [ho] at hrun hpast
    refine ⟨fs, hA, ?_, fun n hn => hstop n _ (hcut n hn), fun m => ?_⟩
    · rw [bind_error ho]
      exact hrun
    · rw [bind_error ho, bind_run, hpast m]
      rfl
  | ok x q =>
    rw [ho] at hrun hpast
    obtain rfl : q = Run.whole (applied fs s) := hrun
    obtain ⟨gs, hB, hrun', hcut', hpast'⟩ := (hf x).run (applied fs s)
    have hgo : ∀ m, (act >>= f) ⟨s, some (fs.length + 1 + m)⟩ =
        f x ⟨applied fs s, some (m + 1)⟩ := by
      intro m
      rw [bind_run, hpast m]
      rfl
    refine ⟨fs ++ gs, ?_, ?_, fun n hn => ?_, fun m => ?_⟩
    · intro g hg
      rcases List.mem_append.mp hg with hg | hg
      · exact hA g hg
      · exact hB g hg
    · rw [bind_ok ho, hrun', applied_append]
    · by_cases hc : n ≤ fs.length
      · rw [List.take_append_of_le_length hc]
        exact hstop n _ (hcut n hc)
      · rw [List.length_append] at hn
        obtain ⟨m, rfl⟩ : ∃ m, n = fs.length + 1 + m := ⟨n - (fs.length + 1), by omega⟩
        rw [hgo, hcut' (m + 1) (by omega), List.take_append, applied_append,
          List.take_of_length_le (l := fs) (by omega),
          show fs.length + 1 + m - fs.length = m + 1 by omega]
    · rw [bind_ok ho, List.length_append,
        show fs.length + gs.length + 1 + m = fs.length + 1 + (gs.length + m) by omega, hgo,
        show gs.length + m + 1 = gs.length + 1 + m by omega]
      exact hpast' m

/-- What a command assigns: a byte of MEM, or what commands own. -/
def Assigns (f : State → State) : Prop :=
  (∃ a v, a < addrEnd ∧ f = landWrite a v) ∨ ∀ s, Owned s (f s)

/-- Every command is a list of such assignments. -/
theorem pseudocode_unfolds (i : Instr) : Unfolds Assigns (pseudocode i) :=
  have hP : Closed (fun _ => Unfolds Assigns) :=
    { pure := fun _ => unfolds_still (fun _ => rfl) fun _ => rfl
      look := ⟨⟨fun _ _ => rfl⟩, fun s => ⟨[], by simp, rfl, fun n hn => by
        obtain rfl : n = 0 := Nat.le_zero.mp hn
        rfl, fun m => by
        rw [List.length_nil, Nat.zero_add, Nat.add_comm]
        rfl⟩⟩
      raise := fun _ _ => unfolds_still (fun _ => rfl) fun _ => rfl
      outran := unfolds_still (fun _ => rfl) fun _ => rfl
      bind := fun ha hf => unfolds_bind ha hf }
  closed_pseudocode hP
    (allowsCommands_of hP
      (fun a v => closed_memWrite hP fun ha => unfolds_assign (.inl ⟨a, v, ha, rfl⟩))
      fun _ hf => unfolds_assign (.inr hf)) i

/-- A relation that commands keep relates the ends of any list of their assignments. -/
theorem allows_applied (h : Allows R) {fs : List (State → State)} (hA : ∀ f ∈ fs, Assigns f)
    (s : State) : R s (applied fs s) := by
  induction fs generalizing s with
  | nil => exact h.refl s
  | cons f fs ih =>
    refine h.trans _ _ _ ?_ (ih (fun g hg => hA g (by simp [hg])) (f s))
    rcases hA f (by simp) with ⟨a, v, ha, rfl⟩ | ho
    · exact h.write a v s ha
    · exact h.own s (f s) (ho s)

/-- What the running command passes through (10_state.md R52; 70_reset_and_hazards.md R421): so many of
its assignments, and then of the registers that its end writes. -/
theorem passing_steps {i : Instr} {s : State} (hi : latched s = some i) :
    ∃ fs : List (State → State), (∀ f ∈ fs, Assigns f) ∧
      runOf (pseudocode i (Run.whole s)) = Run.whole (applied fs s) ∧
      ∀ n, passing n s =
        applied ((fs ++ lastSteps s (pseudocode i (Run.whole s))).take n) s := by
  obtain ⟨fs, hA, hrun, hcut, hpast⟩ := (pseudocode_unfolds i).run s
  have hl : latchedPseudocode s = pseudocode i := by rw [latchedPseudocode, hi]
  refine ⟨fs, hA, hrun, fun n => ?_⟩
  rw [passing, hl]
  by_cases hc : n ≤ fs.length
  · simp only [hcut n hc]
    rw [frozen_afterAll _ ⟨_, some 0⟩ rfl, List.take_append_of_le_length hc]
  · obtain ⟨m, rfl⟩ : ∃ m, n = fs.length + 1 + m := ⟨n - (fs.length + 1), by omega⟩
    simp only [hpast m]
    rw [List.take_append, applied_append, List.take_of_length_le (l := fs) (by omega),
      show fs.length + 1 + m - fs.length = m + 1 by omega]
    cases ho : pseudocode i (Run.whole s) with
    | ok x q =>
      rw [ho] at hrun
      obtain rfl : q = Run.whole (applied fs s) := hrun
      simp only [withLeft, runOf, afterAll_limited]
      rfl
    | error err q =>
      rw [ho] at hrun
      obtain rfl : q = Run.whole (applied fs s) := hrun
      simp only [withLeft, runOf, afterAll_limited]
      cases err <;> rfl

/-- The start is what a command passes through before its first assignment (10_state.md R52). -/
theorem passing_zero (s : State) : passing 0 s = s := by
  have h : Keeps Frozen (latchedPseudocode s) := by
    unfold latchedPseudocode
    split
    · exact (pseudocode_unfolds _).frozen
    · exact keeps_raise frozen_composes _ _
  rw [passing]
  simp only [frozen_runOf h s]
  rw [frozen_afterAll _ ⟨s, some 0⟩ rfl]

/-! ### MEM stays canonical -/

theorem keepsMem_allows : Allows KeepsMem where
  refl := keepsMem_refl
  trans := keepsMem_trans
  own s t h := by
    rw [h]
    exact ⟨id, rfl⟩
  write a v _ ha := ⟨fun h => memSet_wf v ha h, rfl⟩

/-- Every command keeps MEM canonical and MEMMAP as it is. -/
theorem exec_keepsMem {i : Instr} {s t : State} (h : exec i s = .next t) : KeepsMem s t := by
  rw [exec_eq] at h
  exact runCommand_keepsMem (allows_keeps keepsMem_allows i) h

/-- So does an aborted one (70_reset_and_hazards.md R421). -/
theorem passing_wf (n : Nat) (s : State) : KeepsMem s (passing n s) := by
  refine passing_keepsMem n ?_
  unfold latchedPseudocode
  split
  · exact allows_keeps keepsMem_allows _
  · exact keeps_raise keepsMem_composes _ _

end Sys2Proof.Machine
end

