-- ==== Sys2Proof/Laws/PerInstr.lean ====
section
/-! SUPPORT. A family of statements about every command as syntax, one lemma for each constructor: the
low byte of a command's word is its opcode, and its opcode is a listed one (30_encoding.md R111,
R124). -/

namespace Sys2Proof.Laws.OpcodeByte

open Sys2Proof

/-- The listed opcodes (30_encoding.md R124). -/
def listed : List Byte :=
  [0x00, 0x01, 0x02, 0x03, 0x04, 0x05, 0x10, 0x11, 0x12, 0x13, 0x20] ++
  [0x21, 0x30, 0x40, 0x41, 0x42, 0x43, 0x44, 0x45, 0x46, 0x47]

/-- The decoder finds the command's own opcode in its word, and it is a listed one. -/
def Statement (i : Instr) : Prop := opcodeOf (encode i) = opcode i ∧ opcode i ∈ listed

/-- The low byte of a word is the part below its fields. -/
theorem low_byte (hi : BitVec 24) (lo : BitVec 8) : (hi ++ lo : Word).extractLsb' 0 8 = lo :=
  BitVec.extractLsb'_append_eq_right

theorem nop : Statement (.nop) :=
  ⟨low_byte _ _, by simp only [opcode]; decide⟩

theorem brInit (mode : Mode) : Statement (.brInit mode) :=
  ⟨low_byte _ _, by simp only [opcode]; decide⟩

theorem brGetbits (n : BitVec 5) : Statement (.brGetbits n) :=
  ⟨low_byte _ _, by simp only [opcode]; decide⟩

theorem brPeekbits (n : BitVec 5) : Statement (.brPeekbits n) :=
  ⟨low_byte _ _, by simp only [opcode]; decide⟩

theorem brAlign : Statement (.brAlign) :=
  ⟨low_byte _ _, by simp only [opcode]; decide⟩

theorem brReadbytes (sz : BitVec 3) (chk : Bool) : Statement (.brReadbytes sz chk) :=
  ⟨low_byte _ _, by simp only [opcode]; decide⟩

theorem hbZlib (tid : BitVec 2) : Statement (.hbZlib tid) :=
  ⟨low_byte _ _, by simp only [opcode]; decide⟩

theorem hbJpeg (cls : JClass) (idx : BitVec 2) : Statement (.hbJpeg cls idx) :=
  ⟨low_byte _ _, by simp only [opcode]; decide⟩

theorem hdZlib (tid : BitVec 2) : Statement (.hdZlib tid) :=
  ⟨low_byte _ _, by simp only [opcode]; decide⟩

theorem hdJpeg (cls : JClass) (idx : BitVec 2) : Statement (.hdJpeg cls idx) :=
  ⟨low_byte _ _, by simp only [opcode]; decide⟩

theorem zHeader : Statement (.zHeader) :=
  ⟨low_byte _ _, by simp only [opcode]; decide⟩

theorem inflate (stepMode : Bool) : Statement (.inflate stepMode) :=
  ⟨low_byte _ _, by simp only [opcode]; decide⟩

theorem pngUnfilter (bppm1 : BitVec 3) (first : Bool) (alpha : Bool) (a16 : Bool) : Statement (.pngUnfilter bppm1 first alpha a16) :=
  ⟨low_byte _ _, by simp only [opcode]; decide⟩

theorem qtLoad (idx : BitVec 2) (p16 : Bool) : Statement (.qtLoad idx p16) :=
  ⟨low_byte _ _, by simp only [opcode]; decide⟩

theorem jReceive (n : BitVec 5) : Statement (.jReceive n) :=
  ⟨low_byte _ _, by simp only [opcode]; decide⟩

theorem jDecodeBlock (dct : BitVec 2) (act : BitVec 2) (comp : BitVec 2) : Statement (.jDecodeBlock dct act comp) :=
  ⟨low_byte _ _, by simp only [opcode]; decide⟩

theorem jReset : Statement (.jReset) :=
  ⟨low_byte _ _, by simp only [opcode]; decide⟩

theorem jRestart : Statement (.jRestart) :=
  ⟨low_byte _ _, by simp only [opcode]; decide⟩

theorem coefLoad : Statement (.coefLoad) :=
  ⟨low_byte _ _, by simp only [opcode]; decide⟩

theorem coefStore : Statement (.coefStore) :=
  ⟨low_byte _ _, by simp only [opcode]; decide⟩

theorem idct (deq : Bool) (qidx : BitVec 2) : Statement (.idct deq qidx) :=
  ⟨low_byte _ _, by simp only [opcode]; decide⟩

end Sys2Proof.Laws.OpcodeByte
end

