-- ==== Sys2Proof/Laws/Stream.lean ====
section
/-! SUPPORT. What the reader's primitives do to the bit stream: `Need` fetches and loses nothing, in
either bit order, on an input that answers; `Consume` moves the stream on by its bits. -/

namespace Sys2Proof.Machine

open Sys2Proof

/-! ### The input bytes -/

/-- The input bytes that the reader has not fetched yet, in order. -/
def inputRest (s : State) : List Byte := (List.range (inputLeft s)).map (inputByte s)

theorem inputByte_advanceCur {s : State} (h : s.rd.cur.toNat < s.rd.inLen.toNat) (k : Nat) :
    inputByte (advanceCur s) k = inputByte s (k + 1) := by
  have hlt : s.rd.cur.toNat + 1 < 2 ^ 32 := Nat.lt_of_le_of_lt h s.rd.inLen.isLt
  have hcur : (advanceCur s).rd.cur.toNat = s.rd.cur.toNat + 1 := by
    simp only [advanceCur_rd, BitVec.toNat_add]
    exact Nat.mod_eq_of_lt hlt
  simp only [inputByte, byteAt, hcur]
  rw [show s.rd.cur.toNat + 1 + k = s.rd.cur.toNat + (k + 1) by omega]
  rfl

theorem inputLeft_advanceCur {s : State} (h : s.rd.cur.toNat < s.rd.inLen.toNat) :
    inputLeft s = inputLeft (advanceCur s) + 1 := by
  have hlt : s.rd.cur.toNat + 1 < 2 ^ 32 := Nat.lt_of_le_of_lt h s.rd.inLen.isLt
  have hcur : (advanceCur s).rd.cur.toNat = s.rd.cur.toNat + 1 := by
    simp only [advanceCur_rd, BitVec.toNat_add]
    exact Nat.mod_eq_of_lt hlt
  have hlen : (advanceCur s).rd.inLen = s.rd.inLen := rfl
  rw [inputLeft, inputLeft, hcur, hlen]
  omega

theorem inputRest_advanceCur {s : State} (h : s.rd.cur.toNat < s.rd.inLen.toNat) :
    inputRest s = inputByte s 0 :: inputRest (advanceCur s) := by
  rw [inputRest, inputLeft_advanceCur h, List.range_succ_eq_map, List.map_cons, List.map_map,
    inputRest]
  congr 1
  apply List.map_congr_left
  intro k _
  rw [Function.comp_apply, inputByte_advanceCur h]

theorem inputRest_nil {s : State} (h : ¬ s.rd.cur.toNat < s.rd.inLen.toNat) : inputRest s = [] := by
  rw [inputRest, inputLeft, Nat.sub_eq_zero_of_le (by omega)]
  rfl

/-- Everything that `FetchByte` can do on an input that answers. -/
theorem fetchByte_cases {s : State} (h : inputAnswers s = true) :
    (s.rd.cur.toNat < s.rd.inLen.toNat ∧
      fetchByte (Run.whole s) = .ok (inputByte s 0, .real) (Run.whole (advanceCur s))) ∨
    (¬ s.rd.cur.toNat < s.rd.inLen.toNat ∧ fetchByte (Run.whole s) = .ok (0, .pad) (Run.whole (markEof s))) := by
  rw [fetchByte_run]
  by_cases hc : s.rd.cur.toNat < s.rd.inLen.toNat
  · left
    have hm : inMap s.bus.holes (s.rd.inBase.toNat + s.rd.cur.toNat) = true :=
      answers_inMap h (by simp [inputRegion]) (by simp [inputRegion, hc])
    rw [if_pos hc, if_pos hm]
    exact ⟨hc, rfl⟩
  · right
    rw [if_neg hc]
    exact ⟨hc, rfl⟩

/-! ### The invariant of the reader, field by field -/

theorem readerOk_iff (r : Reader) :
    readerOk r = true ↔
      r.bitcnt ≤ 32 ∧ r.padbits ≤ r.bitcnt ∧ windowClear r = true ∧
      (r.nomore = true ↔ r.marker ≠ 0xFF) ∧ r.marker ≠ 0x00 ∧ (r.nomore = true → r.mode = .msb) := by
  simp only [readerOk, Bool.and_eq_true, decide_eq_true_eq, Bool.or_eq_true, Bool.not_eq_true',
    bne_iff_ne, beq_iff_eq, ne_eq]
  cases r.nomore <;> by_cases h : r.marker = 0xFF <;> simp [h, and_assoc]

theorem windowClear_lsb {r : Reader} (h : r.mode = .lsb) :
    windowClear r = true ↔ r.acc.toNat < 2 ^ r.bitcnt := by
  simp only [windowClear, h, decide_eq_true_eq]

theorem windowClear_msb {r : Reader} (h : r.mode = .msb) :
    windowClear r = true ↔ r.acc.toNat % 2 ^ (32 - r.bitcnt) = 0 := by
  simp only [windowClear, h, decide_eq_true_eq]

/-- In MODE 0 the bits of ACC at and above BITCNT are 0 (10_state.md R55). -/
theorem acc_high_lsb {r : Reader} (h : r.mode = .lsb) (hw : windowClear r = true) {j : Nat}
    (hj : r.bitcnt ≤ j) : r.acc.getLsbD j = false := by
  rw [windowClear_lsb h] at hw
  rw [BitVec.getLsbD]
  exact Nat.testBit_lt_two_pow (Nat.lt_of_lt_of_le hw (Nat.pow_le_pow_right (by omega) hj))

/-- In MODE 1 the bits of ACC below the window are 0 (10_state.md R55). -/
theorem acc_low_msb {r : Reader} (h : r.mode = .msb) (hw : windowClear r = true) {j : Nat}
    (hj : j < 32 - r.bitcnt) : r.acc.getLsbD j = false := by
  rw [windowClear_msb h] at hw
  have h' : (r.acc.toNat % 2 ^ (32 - r.bitcnt)).testBit j = false := by rw [hw]; simp
  rw [Nat.testBit_mod_two_pow] at h'
  simpa [hj, BitVec.getLsbD] using h'

/-- The bits of ACC are the window's when every bit outside it is 0, in MODE 0. -/
theorem windowClear_of_bits_lsb {r : Reader} (h : r.mode = .lsb)
    (hb : ∀ j, r.bitcnt ≤ j → r.acc.getLsbD j = false) : windowClear r = true := by
  rw [windowClear_lsb h]
  apply Nat.lt_pow_two_of_testBit
  intro j hj
  exact hb j hj

/-- The bits of ACC are the window's when every bit outside it is 0, in MODE 1. -/
theorem windowClear_of_bits_msb {r : Reader} (h : r.mode = .msb)
    (hb : ∀ j, j < 32 - r.bitcnt → r.acc.getLsbD j = false) : windowClear r = true := by
  rw [windowClear_msb h]
  apply Nat.eq_of_testBit_eq
  intro j
  rw [Nat.testBit_mod_two_pow, Nat.zero_testBit]
  by_cases hj : j < 32 - r.bitcnt
  · have := hb j hj
    rw [BitVec.getLsbD] at this
    simp [this]
  · simp [hj]

/-! ### A byte enters ACC -/

/-- A bit of ACC after a byte has entered it in MODE 0. -/
theorem enterByte_bit_lsb {s : State} (b : Byte) (k : ByteKind) (h : s.rd.mode = .lsb)
    (hb : s.rd.bitcnt ≤ 24) (hw : windowClear s.rd = true) (j : Nat) :
    (enterByte b k s).rd.acc.getLsbD j =
      if j < s.rd.bitcnt then s.rd.acc.getLsbD j
      else if j < s.rd.bitcnt + 8 then b.getLsbD (j - s.rd.bitcnt) else false := by
  rw [enterByte_acc_lsb s b k h, BitVec.getLsbD_or, BitVec.getLsbD_shiftLeft]
  by_cases h1 : j < s.rd.bitcnt
  · simp [h1]
  · rw [acc_high_lsb h hw (by omega), if_neg h1]
    by_cases h2 : j < s.rd.bitcnt + 8
    · have : j < 32 := by omega
      have : j - s.rd.bitcnt < 32 := by omega
      simp [*]
    · have : b.getLsbD (j - s.rd.bitcnt) = false := BitVec.getLsbD_of_ge _ _ (by omega)
      simp [*]

/-- A bit of ACC, counted from the top, after a byte has entered it in MODE 1. -/
theorem enterByte_bit_msb {s : State} (b : Byte) (k : ByteKind) (h : s.rd.mode = .msb)
    (hb : s.rd.bitcnt ≤ 24) (hw : windowClear s.rd = true) (j : Nat) (hj : j < 32) :
    (enterByte b k s).rd.acc.getLsbD (31 - j) =
      if j < s.rd.bitcnt then s.rd.acc.getLsbD (31 - j)
      else if j < s.rd.bitcnt + 8 then b.getLsbD (7 - (j - s.rd.bitcnt)) else false := by
  rw [enterByte_acc_msb s b k h, BitVec.getLsbD_or, BitVec.getLsbD_shiftLeft]
  by_cases h1 : j < s.rd.bitcnt
  · have : b.getLsbD (31 - j - (24 - s.rd.bitcnt)) = false := BitVec.getLsbD_of_ge _ _ (by omega)
    simp [h1, this]
  · rw [acc_low_msb h hw (by omega), if_neg h1]
    by_cases h2 : j < s.rd.bitcnt + 8
    · have h3 : 31 - j - (24 - s.rd.bitcnt) = 7 - (j - s.rd.bitcnt) := by omega
      have h4 : ¬ 31 - j < 24 - s.rd.bitcnt := by omega
      have h5 : 31 - j < 32 := by omega
      have h6 : 7 - (j - s.rd.bitcnt) < 32 := by omega
      simp [h2, h3, h4, h5, h6]
    · have h4 : 31 - j < 24 - s.rd.bitcnt := by omega
      simp [h2, h4]

/-- The reader's invariant after a byte has entered ACC. -/
theorem enterByte_readerOk {s : State} (b : Byte) (k : ByteKind) (hb : s.rd.bitcnt ≤ 24)
    (h : readerOk s.rd = true) : readerOk (enterByte b k s).rd = true := by
  rw [readerOk_iff] at h ⊢
  obtain ⟨-, hp, hw, hm⟩ := h
  refine ⟨by rw [enterByte_bitcnt]; omega, ?_, ?_, hm⟩
  · cases k
    · rw [enterByte_padbits_real, enterByte_bitcnt]; omega
    · rw [enterByte_padbits_pad, enterByte_bitcnt]; omega
  · cases hmode : s.rd.mode with
    | lsb =>
      refine windowClear_of_bits_lsb hmode fun j hj => ?_
      rw [enterByte_bitcnt] at hj
      rw [enterByte_bit_lsb b k hmode hb hw, if_neg (by omega), if_neg (by omega)]
    | msb =>
      refine windowClear_of_bits_msb hmode fun j hj => ?_
      rw [enterByte_bitcnt] at hj
      have := enterByte_bit_msb b k hmode hb hw (31 - j) (by omega)
      rw [show 31 - (31 - j) = j by omega, if_neg (by omega), if_neg (by omega)] at this
      exact this

/-! ### MODE 0 -/

/-- A fetch and what enters ACC lose no bit of the MODE 0 stream. -/
theorem lsb_round {s : State} (hm : s.rd.mode = .lsb) (hok : readerOk s.rd = true)
    (ha : inputAnswers s = true) (hb : s.rd.bitcnt ≤ 24) :
    ∃ b k u, fetchByte (Run.whole s) = .ok (b, k) (Run.whole u) ∧ ReaderOnly s (enterByte b k u) ∧
      (enterByte b k u).rd.bitcnt = s.rd.bitcnt + 8 ∧
      lsbAdvanced 0 s (enterByte b k u).rd ∧ realBits (enterByte b k u) = realBits s ∧
      (enterByte b k u).rd.ovr = s.rd.ovr := by
  have hok' := (readerOk_iff _).mp hok
  rcases fetchByte_cases ha with ⟨hc, hf⟩ | ⟨hc, hf⟩
  · refine ⟨_, _, _, hf, ⟨rfl, rfl, rfl, rfl⟩, rfl, ⟨rfl, rfl, rfl, rfl, rfl, ?_, ?_⟩, ?_, rfl⟩
    · exact enterByte_readerOk _ _ hb (readerOk_iff _ |>.mpr hok')
    · intro j
      change lsbStream (enterByte (inputByte s 0) .real (advanceCur s)) j = _
      have hbit : ∀ i, (enterByte (inputByte s 0) .real (advanceCur s)).rd.acc.getLsbD i =
          if i < s.rd.bitcnt then s.rd.acc.getLsbD i
          else if i < s.rd.bitcnt + 8 then (inputByte s 0).getLsbD (i - s.rd.bitcnt) else false :=
        enterByte_bit_lsb (s := advanceCur s) _ _ hm hb hok'.2.2.1
      have hcnt : (enterByte (inputByte s 0) .real (advanceCur s)).rd.bitcnt = s.rd.bitcnt + 8 := rfl
      rw [lsbStream, lsbStream, Nat.add_zero, hbit, hcnt]
      have hleft : inputLeft (enterByte (inputByte s 0) .real (advanceCur s)) =
          inputLeft (advanceCur s) := rfl
      have hbyte : ∀ k, inputByte (enterByte (inputByte s 0) .real (advanceCur s)) k =
          inputByte (advanceCur s) k := fun _ => rfl
      simp only [hleft, hbyte, inputByte_advanceCur hc, inputLeft_advanceCur hc]
      by_cases h1 : j < s.rd.bitcnt
      · rw [if_pos (by omega), if_pos h1, if_pos h1]
      · rw [if_neg h1, if_neg h1]
        by_cases h2 : j < s.rd.bitcnt + 8
        · rw [if_pos h2, if_pos h2, if_pos (by omega), show (j - s.rd.bitcnt) / 8 = 0 by omega,
            show (j - s.rd.bitcnt) % 8 = j - s.rd.bitcnt by omega]
        · rw [if_neg h2]
          have h3 : (j - s.rd.bitcnt) / 8 = (j - (s.rd.bitcnt + 8)) / 8 + 1 := by omega
          have h4 : (j - s.rd.bitcnt) % 8 = (j - (s.rd.bitcnt + 8)) % 8 := by omega
          rw [h3, h4]
          by_cases h5 : (j - (s.rd.bitcnt + 8)) / 8 < inputLeft (advanceCur s)
          · rw [if_pos h5, if_pos (by omega)]
          · rw [if_neg h5, if_neg (by omega)]
    · have h1 : realBits (enterByte (inputByte s 0) .real (advanceCur s)) =
          s.rd.bitcnt + 8 - s.rd.padbits + 8 * inputLeft (advanceCur s) := rfl
      have := inputLeft_advanceCur hc
      have := hok'.2.1
      rw [h1, realBits]
      omega
  · refine ⟨_, _, _, hf, ⟨rfl, rfl, rfl, rfl⟩, rfl, ⟨rfl, rfl, rfl, rfl, rfl, ?_, ?_⟩, ?_, rfl⟩
    · exact enterByte_readerOk _ _ hb (readerOk_iff _ |>.mpr hok')
    · intro j
      change lsbStream (enterByte 0 .pad (markEof s)) j = _
      have hbit : ∀ i, (enterByte 0 .pad (markEof s)).rd.acc.getLsbD i =
          if i < s.rd.bitcnt then s.rd.acc.getLsbD i
          else if i < s.rd.bitcnt + 8 then (0#8).getLsbD (i - s.rd.bitcnt) else false :=
        enterByte_bit_lsb (s := markEof s) 0 .pad hm hb hok'.2.2.1
      have hcnt : (enterByte 0 .pad (markEof s)).rd.bitcnt = s.rd.bitcnt + 8 := rfl
      rw [lsbStream, lsbStream, Nat.add_zero, hbit, hcnt]
      have hleft : inputLeft (enterByte 0 .pad (markEof s)) = 0 := by
        change s.rd.inLen.toNat - s.rd.cur.toNat = 0
        omega
      have hleft' : inputLeft s = 0 := hleft
      simp only [hleft, hleft', Nat.not_lt_zero, if_false]
      by_cases h1 : j < s.rd.bitcnt
      · rw [if_pos (by omega), if_pos h1, if_pos h1]
      · simp [h1]
    · have h1 : realBits (enterByte 0 .pad (markEof s)) =
          s.rd.bitcnt + 8 - (s.rd.padbits + 8) + 8 * inputLeft s := rfl
      rw [h1, realBits]
      omega

/-- The answer of `inputAnswers` survives a change of the reader that keeps its buffer. -/
theorem inputAnswers_readerOnly {s t : State} (h : ReaderOnly s t) :
    inputAnswers t = inputAnswers s := by
  obtain ⟨h1, -, h3, h4⟩ := h
  rw [h1]
  simp only [inputAnswers, inputRegion, h3, h4]
  rfl

/-- `Fill`'s loop in MODE 0. -/
theorem fillLoop_lsb {s : State} (n : Nat) (hm : s.rd.mode = .lsb) (hok : readerOk s.rd = true)
    (ha : inputAnswers s = true) :
    ∃ t, fillLoop n (Run.whole s) = .ok () (Run.whole t) ∧ ReaderOnly s t ∧ lsbAdvanced 0 s t.rd ∧
      realBits t = realBits s ∧ t.rd.ovr = s.rd.ovr := by
  induction n generalizing s with
  | zero =>
    exact ⟨s, rfl, ⟨rfl, rfl, rfl, rfl⟩, ⟨rfl, rfl, rfl, rfl, rfl, hok, fun _ => rfl⟩, rfl, rfl⟩
  | succ n ih =>
    rw [fillLoop, bind_run, look_run]
    simp only
    by_cases hb : s.rd.bitcnt ≤ 24
    · rw [if_pos hb]
      obtain ⟨b, k, u, hf, hro, -, hadv, hreal, hovr⟩ := lsb_round hm hok ha hb
      have hn : nextByte (Run.whole s) = .ok (b, k) (Run.whole u) := by
        rw [nextByte, bind_run, look_run]
        simp only [hm]
        exact hf
      rw [bind_ok hn]
      simp only [bind_run, assignAll_run, afterAll_whole]
      obtain ⟨t, ht, hro', hadv', hreal', hovr'⟩ :=
        ih (s := enterByte b k u) (hro.2.1.trans hm) hadv.2.2.2.2.2.1
          (by rw [inputAnswers_readerOnly hro]; exact ha)
      refine ⟨t, ht, readerOnly_trans _ _ _ hro hro', ?_, hreal'.trans hreal,
        hovr'.trans hovr⟩
      obtain ⟨a1, a2, a3, a4, a5, a6, a7⟩ := hadv
      obtain ⟨b1, b2, b3, b4, b5, b6, b7⟩ := hadv'
      refine ⟨b1.trans a1, b2.trans a2, b3.trans a3, b4.trans a4, b5.trans a5, b6, fun j => ?_⟩
      have e1 : lsbStream { s with rd := t.rd } j = lsbStream t j := by
        rw [← (readerOnly_trans _ _ _ hro hro').1]
      have e2 := b7 j
      rw [← hro'.1] at e2
      have e3 := a7 j
      rw [← hro.1] at e3
      rw [e1, e2]
      exact e3
    · rw [if_neg hb]
      exact ⟨s, rfl, ⟨rfl, rfl, rfl, rfl⟩, ⟨rfl, rfl, rfl, rfl, rfl, hok, fun _ => rfl⟩, rfl, rfl⟩

/-- `Need(n)` in MODE 0, on an input that answers: it always answers, ACC then holds n bits, and the
stream, the real bits left and the flags but EOF are as before (41_bitreader.md R151, R157, R159). -/
theorem need_lsb {s : State} {n : Nat} (hn : n ≤ 16) (hm : s.rd.mode = .lsb)
    (hok : readerOk s.rd = true) (ha : inputAnswers s = true) :
    ∃ t, need n (Run.whole s) = .ok () (Run.whole t) ∧ ReaderOnly s t ∧ n ≤ t.rd.bitcnt ∧ lsbAdvanced 0 s t.rd ∧
      realBits t = realBits s ∧ t.rd.ovr = s.rd.ovr := by
  have hb := ((readerOk_iff _).mp hok).1
  by_cases hc : s.rd.bitcnt < n
  · obtain ⟨t, ht, h1, h2, h3, h4⟩ := fillLoop_lsb 4 hm hok ha
    have hneed : need n (Run.whole s) = .ok () (Run.whole t) := by rw [need_run, if_pos hc]; exact ht
    exact ⟨t, hneed, h1, (need_bitcnt hn hb hneed).1, h2, h3, h4⟩
  · refine ⟨s, by rw [need_run, if_neg hc], ⟨rfl, rfl, rfl, rfl⟩, by omega,
      ⟨rfl, rfl, rfl, rfl, rfl, hok, fun _ => rfl⟩, rfl, rfl⟩

/-- What leaves ACC in MODE 0 leaves the stream (41_bitreader.md R151, R160). -/
theorem dropBits_lsb {s : State} {n : Nat} (hn : n ≤ s.rd.bitcnt) (hm : s.rd.mode = .lsb)
    (hok : readerOk s.rd = true) : lsbAdvanced n s (dropBits n s).rd := by
  have hok' := (readerOk_iff _).mp hok
  refine ⟨rfl, rfl, rfl, rfl, rfl, ?_, fun j => ?_⟩
  · rw [readerOk_iff]
    refine ⟨by rw [dropBits_bitcnt]; omega, ?_, ?_, hok'.2.2.2⟩
    · rw [dropBits_padbits s n hok'.2.1, dropBits_bitcnt]
      omega
    · refine windowClear_of_bits_lsb hm fun j hj => ?_
      rw [dropBits_bitcnt] at hj
      rw [dropBits_acc_lsb s n hm, BitVec.getLsbD_ushiftRight]
      exact acc_high_lsb hm hok'.2.2.1 (by omega)
  · change lsbStream (dropBits n s) j = _
    have hleft : inputLeft (dropBits n s) = inputLeft s := rfl
    have hbyte : ∀ k, inputByte (dropBits n s) k = inputByte s k := fun _ => rfl
    simp only [lsbStream, hleft, hbyte, dropBits_bitcnt, dropBits_acc_lsb s n hm,
      BitVec.getLsbD_ushiftRight]
    rw [show n + j = j + n by omega]
    by_cases h : j < s.rd.bitcnt - n
    · rw [if_pos h, if_pos (by omega)]
    · rw [if_neg h, if_neg (show ¬ j + n < s.rd.bitcnt by omega),
        show j - (s.rd.bitcnt - n) = j + n - s.rd.bitcnt by omega]

/-! ### MODE 1 -/

theorem dataLeft_eq (s : State) :
    dataLeft s = if s.rd.nomore then [] else destuff false (inputRest s) := rfl

/-- What a piece of the MODE 1 fetch leaves: only the reader differs, and of it neither ACC nor its
counts, nor OVR. -/
def FetchOnly (s t : State) : Prop :=
  ReaderOnly s t ∧ t.rd.acc = s.rd.acc ∧ t.rd.bitcnt = s.rd.bitcnt ∧ t.rd.padbits = s.rd.padbits ∧
    t.rd.ovr = s.rd.ovr

theorem fetchOnly_refl (s : State) : FetchOnly s s :=
  ⟨readerOnly_refl s, rfl, rfl, rfl, rfl⟩

theorem fetchOnly_trans (s t u : State) (h : FetchOnly s t) (h' : FetchOnly t u) : FetchOnly s u :=
    ⟨readerOnly_trans s t u h.1 h'.1, h'.2.1.trans h.2.1, h'.2.2.1.trans h.2.2.1,
      h'.2.2.2.1.trans h.2.2.2.1, h'.2.2.2.2.trans h.2.2.2.2⟩

theorem fetchOnly_advanceCur (s : State) : FetchOnly s (advanceCur s) :=
  ⟨⟨rfl, rfl, rfl, rfl⟩, rfl, rfl, rfl, rfl⟩

theorem fetchOnly_markEof (s : State) : FetchOnly s (markEof s) :=
  ⟨⟨rfl, rfl, rfl, rfl⟩, rfl, rfl, rfl, rfl⟩

theorem fetchOnly_cacheMarker (c : Byte) (s : State) : FetchOnly s (cacheMarker c s) :=
  ⟨⟨rfl, rfl, rfl, rfl⟩, rfl, rfl, rfl, rfl⟩

/-- The byte after 0xFF, fill bytes skipped, with rounds enough for the whole input
(41_bitreader.md R158). -/
theorem skipFill_run {s : State} (n : Nat) (hn : inputLeft s ≤ n) (ha : inputAnswers s = true) :
    (∃ t, skipFill n (Run.whole s) = .ok (0, .pad) (Run.whole t) ∧ FetchOnly s t ∧ t.rd.nomore = s.rd.nomore ∧
      t.rd.marker = s.rd.marker ∧ destuff true (inputRest s) = [] ∧ inputRest t = []) ∨
    (∃ c t, skipFill n (Run.whole s) = .ok (c, .real) (Run.whole t) ∧ FetchOnly s t ∧ t.rd.nomore = s.rd.nomore ∧
      t.rd.marker = s.rd.marker ∧ c ≠ 0xFF ∧
      destuff true (inputRest s) = if c = 0x00 then 0xFF :: destuff false (inputRest t) else []) := by
  induction n generalizing s with
  | zero =>
    rcases fetchByte_cases ha with ⟨hc, -⟩ | ⟨hc, hf⟩
    · have := inputLeft_advanceCur hc
      omega
    · have hnil := inputRest_nil hc
      exact .inl ⟨markEof s, hf, fetchOnly_markEof s, rfl, rfl, by rw [hnil]; rfl,
        inputRest_nil (s := markEof s) hc⟩
  | succ n ih =>
    rw [skipFill]
    rcases fetchByte_cases ha with ⟨hc, hf⟩ | ⟨hc, hf⟩
    · rw [bind_ok hf]
      simp only
      by_cases hff : inputByte s 0 = 0xFF
      · rw [if_pos hff]
        have hleft := inputLeft_advanceCur hc
        have hrest : destuff true (inputRest s) = destuff true (inputRest (advanceCur s)) := by
          rw [inputRest_advanceCur hc, destuff, if_pos hff]
        have hfo := fetchOnly_advanceCur s
        rcases ih (s := advanceCur s) (by omega) (by rw [inputAnswers_readerOnly hfo.1]; exact ha)
          with ⟨t, h1, h2, h3, h4, h5, h6⟩ | ⟨c, t, h1, h2, h3, h4, h5, h6⟩
        · exact .inl ⟨t, h1, fetchOnly_trans _ _ _ hfo h2, h3, h4, hrest.trans h5, h6⟩
        · exact .inr ⟨c, t, h1, fetchOnly_trans _ _ _ hfo h2, h3, h4, h5, hrest.trans h6⟩
      · rw [if_neg hff]
        refine .inr ⟨_, _, rfl, fetchOnly_advanceCur s, rfl, rfl, hff, ?_⟩
        rw [inputRest_advanceCur hc, destuff, if_neg hff]
    · rw [bind_ok hf]
      have hnil := inputRest_nil hc
      exact .inl ⟨markEof s, rfl, fetchOnly_markEof s, rfl, rfl, by rw [hnil]; rfl,
        inputRest_nil (s := markEof s) hc⟩

/-- The next byte for ACC in MODE 1: the first data byte, or padding where no data byte is left
(41_bitreader.md R153, R158). -/
theorem nextMsbByte_run {s : State} (hm : s.rd.mode = .msb) (hok : readerOk s.rd = true)
    (ha : inputAnswers s = true) :
    ∃ b k t, nextMsbByte (Run.whole s) = .ok (b, k) (Run.whole t) ∧ FetchOnly s t ∧ readerOk t.rd = true ∧
      (k = .real → dataLeft s = b :: dataLeft t) ∧
      (k = .pad → b = 0 ∧ dataLeft s = [] ∧ dataLeft t = []) := by
  have hkeep : ∀ t, FetchOnly s t → t.rd.nomore = s.rd.nomore → t.rd.marker = s.rd.marker →
      readerOk t.rd = true := by
    intro t hfo h5 h6
    obtain ⟨h1, h2, h3, h4, -⟩ := hfo
    have hw : windowClear t.rd = windowClear s.rd := by
      simp only [windowClear, h1.2.1, h2, h3]
    rw [readerOk_iff] at hok ⊢
    rw [hw, h3, h4, h5, h6, h1.2.1]
    exact hok
  rw [nextMsbByte, bind_run, look_run]
  simp only
  by_cases hno : s.rd.nomore = true
  · rw [if_pos hno]
    refine ⟨0, .pad, s, rfl, fetchOnly_refl s, hok, nofun, fun _ => ⟨rfl, ?_, ?_⟩⟩ <;>
      rw [dataLeft_eq, if_pos hno]
  · rw [if_neg hno]
    have hfalse : s.rd.nomore = false := by simpa using hno
    have hdata : dataLeft s = destuff false (inputRest s) := by rw [dataLeft_eq, if_neg hno]
    rcases fetchByte_cases ha with ⟨hc, hf⟩ | ⟨hc, hf⟩
    · rw [bind_ok hf]
      simp only
      have hfo := fetchOnly_advanceCur s
      by_cases hff : inputByte s 0 = 0xFF
      · rw [if_pos hff, afterFF, bind_run, look_run]
        simp only
        have hrest : dataLeft s = destuff true (inputRest (advanceCur s)) := by
          rw [hdata, inputRest_advanceCur hc, destuff, if_pos hff]
        have ha' : inputAnswers (advanceCur s) = true := by
          rw [inputAnswers_readerOnly hfo.1]; exact ha
        rcases skipFill_run (s := advanceCur s) _ (Nat.le_refl _) ha' with
          ⟨t, h1, h2, h3, h4, h5, h6⟩ | ⟨c, t, h1, h2, h3, h4, h5, h6⟩
        · rw [inputLeft] at h1
          rw [bind_ok h1]
          have hst := fetchOnly_trans _ _ _ hfo h2
          refine ⟨0, .pad, t, rfl, hst, hkeep t hst h3 h4, nofun, fun _ => ⟨rfl, hrest.trans h5, ?_⟩⟩
          rw [dataLeft_eq, h6]
          simp [destuff]
        · rw [inputLeft] at h1
          rw [bind_ok h1]
          simp only
          have hst := fetchOnly_trans _ _ _ hfo h2
          by_cases hz : c = 0x00
          · rw [if_pos hz]
            rw [if_pos hz] at h6
            refine ⟨0xFF, .real, t, rfl, hst, hkeep t hst h3 h4, fun _ => ?_, nofun⟩
            have hnt : t.rd.nomore = false := h3.trans hfalse
            rw [hrest, h6, dataLeft_eq, hnt]
            rfl
          · rw [if_neg hz]
            rw [if_neg hz] at h6
            refine ⟨0, .pad, cacheMarker c t, rfl,
              fetchOnly_trans _ _ _ hst (fetchOnly_cacheMarker c t), ?_, nofun,
              fun _ => ⟨rfl, hrest.trans h6, rfl⟩⟩
            obtain ⟨r1, r2, r3, -, -, -⟩ := (readerOk_iff _).mp (hkeep t hst h3 h4)
            rw [readerOk_iff]
            exact ⟨r1, r2, r3, ⟨fun _ => h5, fun _ => rfl⟩, hz, fun _ => hst.1.2.1.trans hm⟩
      · rw [if_neg hff]
        refine ⟨_, .real, _, rfl, hfo, hkeep _ hfo rfl rfl, fun _ => ?_, nofun⟩
        rw [hdata, inputRest_advanceCur hc, destuff, if_neg hff, dataLeft_eq]
        simp [hfalse]
    · rw [bind_ok hf]
      simp only
      have hnil := inputRest_nil hc
      refine ⟨0, .pad, _, rfl, fetchOnly_markEof s, hkeep _ (fetchOnly_markEof s) rfl rfl, nofun,
        fun _ => ⟨rfl, ?_, ?_⟩⟩
      · rw [hdata, hnil]; rfl
      · rw [dataLeft_eq, inputRest_nil (s := markEof s) hc, destuff, ite_self]

/-- A fetch and what enters ACC lose no bit of the MODE 1 stream. -/
theorem msb_round {s : State} (hm : s.rd.mode = .msb) (hok : readerOk s.rd = true)
    (ha : inputAnswers s = true) (hb : s.rd.bitcnt ≤ 24) :
    ∃ b k u, nextMsbByte (Run.whole s) = .ok (b, k) (Run.whole u) ∧ ReaderOnly s (enterByte b k u) ∧
      msbAdvanced 0 s (enterByte b k u).rd ∧ realBitsMsb (enterByte b k u) = realBitsMsb s ∧
      (enterByte b k u).rd.ovr = s.rd.ovr := by
  obtain ⟨b, k, u, hn, hfo, hok', hreal, hpad⟩ := nextMsbByte_run hm hok ha
  obtain ⟨hro, hacc, hbit, hpb, hovr⟩ := hfo
  have hmu : u.rd.mode = .msb := hro.2.1.trans hm
  have hbu : u.rd.bitcnt ≤ 24 := by rw [hbit]; exact hb
  have hro' : ReaderOnly s (enterByte b k u) :=
    readerOnly_trans _ _ _ hro ⟨rfl, rfl, rfl, rfl⟩
  have hok'' := (readerOk_iff _).mp hok'
  have hdl : dataLeft (enterByte b k u) = dataLeft u := rfl
  refine ⟨b, k, u, hn, hro', ⟨hro'.2.1, hro'.2.2.1, hro'.2.2.2, ?_, fun j => ?_⟩, ?_, hovr⟩
  · exact enterByte_readerOk b k hbu hok'
  · rw [← hro'.1]
    simp only [msbStream, enterByte_bitcnt, hdl, Nat.add_zero]
    rw [hbit]
    by_cases h1 : j < s.rd.bitcnt
    · rw [if_pos (by omega), if_pos h1,
        enterByte_bit_msb b k hmu hbu hok''.2.2.1 j (by omega), if_pos (by omega), hacc]
    · rw [if_neg h1]
      by_cases h2 : j < s.rd.bitcnt + 8
      · rw [if_pos h2, enterByte_bit_msb b k hmu hbu hok''.2.2.1 j (by omega), if_neg (by omega),
          if_pos (by omega), show (j - s.rd.bitcnt) / 8 = 0 by omega,
          show (j - s.rd.bitcnt) % 8 = j - s.rd.bitcnt by omega, hbit]
        cases k with
        | real => rw [hreal rfl, List.getD_cons_zero]
        | pad =>
          obtain ⟨p1, p2, -⟩ := hpad rfl
          rw [p1, p2]
          rfl
      · rw [if_neg h2]
        have h3 : (j - s.rd.bitcnt) / 8 = (j - (s.rd.bitcnt + 8)) / 8 + 1 := by omega
        have h4 : (j - s.rd.bitcnt) % 8 = (j - (s.rd.bitcnt + 8)) % 8 := by omega
        rw [h3, h4]
        cases k with
        | real => rw [hreal rfl, List.getD_cons_succ]
        | pad =>
          obtain ⟨-, p2, p3⟩ := hpad rfl
          rw [p2, p3]
          rfl
  · have hp := ((readerOk_iff _).mp hok).2.1
    cases k with
    | real =>
      have h1 : realBitsMsb (enterByte b .real u) =
          u.rd.bitcnt + 8 - u.rd.padbits + 8 * (dataLeft u).length := rfl
      rw [h1, realBitsMsb, hreal rfl, List.length_cons, hbit, hpb]
      omega
    | pad =>
      obtain ⟨-, p2, p3⟩ := hpad rfl
      have h1 : realBitsMsb (enterByte b .pad u) =
          u.rd.bitcnt + 8 - (u.rd.padbits + 8) + 8 * (dataLeft u).length := rfl
      rw [h1, realBitsMsb, p2, p3, hbit, hpb]
      omega

/-- `Fill`'s loop in MODE 1. -/
theorem fillLoop_msb {s : State} (n : Nat) (hm : s.rd.mode = .msb) (hok : readerOk s.rd = true)
    (ha : inputAnswers s = true) :
    ∃ t, fillLoop n (Run.whole s) = .ok () (Run.whole t) ∧ ReaderOnly s t ∧ msbAdvanced 0 s t.rd ∧
      realBitsMsb t = realBitsMsb s ∧ t.rd.ovr = s.rd.ovr := by
  induction n generalizing s with
  | zero => exact ⟨s, rfl, ⟨rfl, rfl, rfl, rfl⟩, ⟨rfl, rfl, rfl, hok, fun _ => rfl⟩, rfl, rfl⟩
  | succ n ih =>
    rw [fillLoop, bind_run, look_run]
    simp only
    by_cases hb : s.rd.bitcnt ≤ 24
    · rw [if_pos hb]
      obtain ⟨b, k, u, hf, hro, hadv, hreal, hovr⟩ := msb_round hm hok ha hb
      have hn : nextByte (Run.whole s) = .ok (b, k) (Run.whole u) := by
        rw [nextByte, bind_run, look_run]
        simp only [hm]
        exact hf
      rw [bind_ok hn]
      simp only [bind_run, assignAll_run, afterAll_whole]
      obtain ⟨t, ht, hro', hadv', hreal', hovr'⟩ :=
        ih (s := enterByte b k u) (hro.2.1.trans hm) hadv.2.2.2.1
          (by rw [inputAnswers_readerOnly hro]; exact ha)
      refine ⟨t, ht, readerOnly_trans _ _ _ hro hro', ?_, hreal'.trans hreal,
        hovr'.trans hovr⟩
      obtain ⟨a1, a2, a3, a4, a5⟩ := hadv
      obtain ⟨b1, b2, b3, b4, b5⟩ := hadv'
      refine ⟨b1.trans a1, b2.trans a2, b3.trans a3, b4, fun j => ?_⟩
      have e1 : msbStream { s with rd := t.rd } j = msbStream t j := by
        rw [← (readerOnly_trans _ _ _ hro hro').1]
      have e2 := b5 j
      rw [← hro'.1] at e2
      have e3 := a5 j
      rw [← hro.1] at e3
      rw [e1, e2]
      exact e3
    · rw [if_neg hb]
      exact ⟨s, rfl, ⟨rfl, rfl, rfl, rfl⟩, ⟨rfl, rfl, rfl, hok, fun _ => rfl⟩, rfl, rfl⟩

/-- `Need(n)` in MODE 1, on an input that answers: it always answers, ACC then holds n bits, and the
stream and the real bits left are as before (41_bitreader.md R152, R158, R159). -/
theorem need_msb {s : State} {n : Nat} (hn : n ≤ 16) (hm : s.rd.mode = .msb)
    (hok : readerOk s.rd = true) (ha : inputAnswers s = true) :
    ∃ t, need n (Run.whole s) = .ok () (Run.whole t) ∧ ReaderOnly s t ∧ n ≤ t.rd.bitcnt ∧ msbAdvanced 0 s t.rd ∧
      realBitsMsb t = realBitsMsb s ∧ t.rd.ovr = s.rd.ovr := by
  have hb := ((readerOk_iff _).mp hok).1
  by_cases hc : s.rd.bitcnt < n
  · obtain ⟨t, ht, h1, h2, h3, h4⟩ := fillLoop_msb 4 hm hok ha
    have hneed : need n (Run.whole s) = .ok () (Run.whole t) := by rw [need_run, if_pos hc]; exact ht
    exact ⟨t, hneed, h1, (need_bitcnt hn hb hneed).1, h2, h3, h4⟩
  · refine ⟨s, by rw [need_run, if_neg hc], ⟨rfl, rfl, rfl, rfl⟩, by omega,
      ⟨rfl, rfl, rfl, hok, fun _ => rfl⟩, rfl, rfl⟩

/-- What leaves ACC in MODE 1 leaves the stream (41_bitreader.md R152, R160). -/
theorem dropBits_msb {s : State} {n : Nat} (hn : n ≤ s.rd.bitcnt) (hm : s.rd.mode = .msb)
    (hok : readerOk s.rd = true) : msbAdvanced n s (dropBits n s).rd := by
  have hok' := (readerOk_iff _).mp hok
  refine ⟨rfl, rfl, rfl, ?_, fun j => ?_⟩
  · rw [readerOk_iff]
    refine ⟨by rw [dropBits_bitcnt]; omega, ?_, ?_, hok'.2.2.2⟩
    · rw [dropBits_padbits s n hok'.2.1, dropBits_bitcnt]
      omega
    · refine windowClear_of_bits_msb hm fun j hj => ?_
      rw [dropBits_bitcnt] at hj
      rw [dropBits_acc_msb s n hm, BitVec.getLsbD_shiftLeft]
      by_cases hjn : j < n
      · simp [hjn]
      · rw [acc_low_msb hm hok'.2.2.1 (by omega)]
        simp
  · change msbStream (dropBits n s) j = _
    have hdl : dataLeft (dropBits n s) = dataLeft s := rfl
    simp only [msbStream, hdl, dropBits_bitcnt, dropBits_acc_msb s n hm, BitVec.getLsbD_shiftLeft]
    by_cases h : j < s.rd.bitcnt - n
    · have hb := hok'.1
      rw [if_pos h, if_pos (by omega), show 31 - j - n = 31 - (j + n) by omega]
      have h1 : ¬ 31 - j < n := by omega
      have h2 : 31 - j < 32 := by omega
      simp [h1, h2]
    · rw [if_neg h, if_neg (show ¬ j + n < s.rd.bitcnt by omega),
        show j - (s.rd.bitcnt - n) = j + n - s.rd.bitcnt by omega]

/-! ### Peek -/

/-- The bits of a number read first bit lowest. -/
theorem lowFirst_testBit (b : Nat → Bool) (n j : Nat) :
    (lowFirst b n).testBit j = (decide (j < n) && b j) := by
  induction n generalizing b j with
  | zero => simp [lowFirst]
  | succ n ih =>
    rw [lowFirst]
    cases j with
    | zero => cases b 0 <;> simp
    | succ j =>
      rw [Nat.testBit_succ, show ((b 0).toNat + 2 * lowFirst (fun j => b (j + 1)) n) / 2 =
        lowFirst (fun j => b (j + 1)) n by
          have := (b 0).toNat_lt; omega, ih]
      simp

/-- The bits of a number read first bit highest. -/
theorem highFirst_testBit (b : Nat → Bool) (n j : Nat) :
    (highFirst b n).testBit j = (decide (j < n) && b (n - 1 - j)) := by
  induction n generalizing j with
  | zero => simp [highFirst]
  | succ n ih =>
    rw [highFirst]
    cases j with
    | zero => cases h : b n <;> simp [h]
    | succ j =>
      rw [Nat.testBit_succ, show (2 * highFirst b n + (b n).toNat) / 2 = highFirst b n by
        have := (b n).toNat_lt; omega, ih, show n + 1 - 1 - (j + 1) = n - 1 - j by omega]
      simp

/-- `Peek(n)` in MODE 0 is the next n stream bits, the first one lowest (41_bitreader.md R151,
R161). -/
theorem peekBits_lsb {s : State} {n : Nat} (hn : n ≤ s.rd.bitcnt) (hm : s.rd.mode = .lsb) :
    peekBits s n = lowFirst (lsbStream s) n := by
  apply Nat.eq_of_testBit_eq
  intro j
  rw [lowFirst_testBit, peekBits, hm]
  simp only [Nat.testBit_mod_two_pow]
  by_cases h : j < n
  · simp only [h, decide_true, Bool.true_and, lsbStream]
    rw [if_pos (by omega)]
    rfl
  · simp [h]

/-- `Peek(n)` in MODE 1 is the next n stream bits, the first one highest (41_bitreader.md R152,
R161). -/
theorem peekBits_msb {s : State} {n : Nat} (hn : n ≤ s.rd.bitcnt) (hb : s.rd.bitcnt ≤ 32)
    (hm : s.rd.mode = .msb) : peekBits s n = highFirst (msbStream s) n := by
  apply Nat.eq_of_testBit_eq
  intro j
  rw [highFirst_testBit, peekBits, hm]
  simp only
  by_cases hz : n = 0
  · subst hz
    simp
  · rw [if_neg hz, Nat.testBit_div_two_pow]
    by_cases h : j < n
    · simp only [h, decide_true, Bool.true_and, msbStream]
      rw [if_pos (by omega), show 31 - (n - 1 - j) = j + (32 - n) by omega, BitVec.getLsbD]
    · simp only [h, decide_false, Bool.false_and]
      exact Nat.testBit_lt_two_pow
        (Nat.lt_of_lt_of_le s.rd.acc.isLt (Nat.pow_le_pow_right (by omega) (by omega)))

end Sys2Proof.Machine
end

