-- ==== Sys2Proof/Laws/Tables.lean ====
section
/-! SUPPORT. What a built table says of the lengths, counts and values it was built from: they can be
read back, so a table that a build installs is a good one (42_huffman.md R203, R205, R207). -/

namespace Sys2Proof.Machine

open Sys2Proof

/-- The lengths are the entries' lengths, symbol by symbol. -/
theorem assignCodes_lens (lens : List Nat) :
    ∀ next, (assignCodes lens next).map (fun e => e.len) = lens := by
  induction lens with
  | nil => intro next; rfl
  | cons l ls ih =>
    intro next
    by_cases h : l = 0 <;> simp [assignCodes, h, ih]

theorem zBuild_lens {lens : List Nat} {tbl : ZTable} (h : zBuild lens = .ok tbl) :
    tbl.syms.map (fun e => e.len) = lens := by
  rw [zBuild] at h
  split at h
  · cases h
  · split at h
    · cases h
    · cases h
      exact assignCodes_lens _ _

/-- A built table of the slot's size is a good one. -/
theorem zTableOk_of_zBuild {t : Fin 3} {lens : List Nat} {tbl : ZTable}
    (h : zBuild lens = .ok tbl) (hl : lens.length = zMaxSym t) : zTableOk t tbl = true := by
  have hs := zBuild_lens h
  have hn : tbl.syms.length = zMaxSym t := by
    rw [← hl, ← hs, List.length_map]
  simp [zTableOk, hs, h, hn]

theorem jCodes_vals (l : Nat) :
    ∀ (n code : Nat) (vals : List Byte), n ≤ vals.length →
      (jCodes l n code vals).map (fun e => e.val) = vals.take n := by
  intro n
  induction n with
  | zero => intro code vals _; rfl
  | succ n ih =>
    intro code vals h
    cases vals with
    | nil => simp at h
    | cons v vs => simp [jCodes, ih (code + 1) vs (by simpa using h)]

theorem jCodes_size {l n code : Nat} {vals : List Byte} :
    (jCodes l n code vals).map (fun e => e.size) = List.replicate n l := by
  induction n generalizing code vals with
  | zero => rfl
  | succ n ih => simp [jCodes, ih, List.replicate_succ]

end Sys2Proof.Machine
end

