-- ==== Sys2Proof/Tests/Slice0.lean ====
section
/-! SUPPORT. Tests: ill-formed commands are refused, words written out from the formats decode, one
step of each command gives the spec's worked result, and every statement's hypotheses are met by a
concrete state. Expected values are those of 95_test_vectors.md (V, S) and of the rules' examples. -/

namespace Sys2Proof.Tests

open Sys2Proof Sys2Proof.Machine

/-! ### Helpers -/

/-- MEM with the bytes from an address on. -/
def bytesAt (a : Nat) : List Byte → Memory
  | [] => []
  | b :: bs => if b = 0 then bytesAt (a + 1) bs else (a, b) :: bytesAt (a + 1) bs

/-- The reset state with an input buffer at 0x100 and a reader mode. -/
def input (m : Mode) (bs : List Byte) : State :=
  { State.reset with
    rd.mode := m, rd.inBase := 0x100, rd.inLen := Word.ofNat bs.length
    bus.mem := bytesAt 0x100 bs }

/-- The reset state with bytes of MEM from ARG0 on. -/
def operand (a : Nat) (bs : List Byte) : State :=
  { State.reset with args.arg0 := Word.ofNat a, bus.mem := bytesAt a bs }

/-- An input state with room for 64 bytes of output at 0x1000. -/
def inflating (bs : List Byte) : State :=
  { input .lsb bs with out.outBase := 0x1000, out.outCap := 64 }

/-- The engine is BUSY with a word and has the turn. -/
def busy (w : Word) (s : State) : State := { s with ctl.estate := .busy, ctl.cmd := w }

/-- One host event is scheduled. -/
def hosted (e : Event) (s : State) : State := { s with env.events := [e] }

/-- A question about the state that a command leaves; false where it leaves none. -/
def after (o : Host.Outcome State Fault Refusal) (p : State → Bool) : Bool :=
  match o with
  | .next t => p t
  | .fault _ => false
  | .refused _ => false

/-- The command completed with a result. -/
def gives (res : Word) (t : State) : Bool := t.ctl.estate == .idle && t.ctl.res == res

/-- The command faulted with a code and an information. -/
def raises (code : Byte) (info : Word) (t : State) : Bool :=
  t.ctl.estate == .fault && t.ctl.errCode == code && t.ctl.faddr == info

theorem after_meets {o : Host.Outcome State Fault Refusal} {p : State → Bool}
    (h : after o p = true) : ∃ t, o = .next t ∧ p t = true := by
  cases o with
  | next t => exact ⟨t, rfl, h⟩
  | fault _ => cases h
  | refused _ => cases h

theorem some_getD {α : Type} {o : Option α} (d : α) (h : o.isSome = true) :
    o = some (o.getD d) := by
  cases o with
  | none => cases h
  | some _ => rfl

/-- The bytes of MEM from an address on. -/
def bytesOf (t : State) (a n : Nat) : List Byte := (List.range n).map (fun k => byteAt t (a + k))

/-- The table a list of lengths builds, or none. -/
def zTable (lens : List Nat) : Option ZTable := (zBuild lens).toOption

/-- The table counts and values build, or none. -/
def jTable (counts : List Nat) (vals : List Byte) : Option JTable := (jBuild counts vals).toOption

/-- V39's DC table. -/
def dcTable : Option JTable :=
  jTable [0, 1, 5, 1, 1, 1, 1, 1, 1, 0, 0, 0, 0, 0, 0, 0] [0, 1, 2, 3, 4, 5, 6, 7, 8, 9, 10, 11]

/-- The AC table of 95_test_vectors.md, section 2.6. -/
def acTable : Option JTable :=
  jTable [0, 2, 1, 1, 1, 0, 0, 0, 0, 0, 0, 0, 0, 0, 0, 0] [0x00, 0x01, 0x11, 0xF0, 0x02]

/-- A MODE 1 input with both JPEG tables in slot 0. -/
def jpeg (bs : List Byte) : State :=
  { input .msb bs with
    tab.jdc := (Vector.replicate 4 none).set 0 dcTable
    tab.jac := (Vector.replicate 4 none).set 0 acTable }

/-- COEF with one entry set. -/
def coefs (i : Fin 64) (v : Int) : Vector Half 64 :=
  (Vector.replicate 64 0).set i (BitVec.ofInt 16 v)

/-! ### Ill-formed commands (30_encoding.md R128) -/

theorem test_wf_getbits_0 : (Instr.brGetbits 0).wellFormed = false := by decide
theorem test_wf_getbits_17 : (Instr.brGetbits 17).wellFormed = false := by decide
theorem test_wf_peekbits_0 : (Instr.brPeekbits 0).wellFormed = false := by decide
theorem test_wf_peekbits_17 : (Instr.brPeekbits 17).wellFormed = false := by decide
theorem test_wf_receive_17 : (Instr.jReceive 17).wellFormed = false := by decide
theorem test_wf_readbytes_3 : (Instr.brReadbytes 3 false).wellFormed = false := by decide
theorem test_wf_hb_zlib_3 : (Instr.hbZlib 3).wellFormed = false := by decide
theorem test_wf_hd_zlib_3 : (Instr.hdZlib 3).wellFormed = false := by decide
theorem test_wf_a16_needs_alpha : (Instr.pngUnfilter 1 true false true).wellFormed = false := by decide
theorem test_wf_a16_needs_even_bpp : (Instr.pngUnfilter 2 true true true).wellFormed = false := by decide
theorem test_wf_qidx_needs_deq : (Instr.idct false 1).wellFormed = false := by decide
theorem test_wf_bounds_pass :
    ((Instr.brGetbits 1).wellFormed && (Instr.brPeekbits 16).wellFormed &&
      (Instr.jReceive 0).wellFormed && (Instr.jReceive 16).wellFormed &&
      (Instr.pngUnfilter 5 true true true).wellFormed && (Instr.idct true 3).wellFormed) = true := by
  decide

/-! ### Words written out from the formats (30_encoding.md R112 to R122), the high field first -/

/-- Format N: [31:8] reserved. -/
theorem test_decode_n :
    decode (0b000000000000000000000000#24 ++ 0x00#8) = .ok .nop ∧
    decode (0#24 ++ 0x04#8) = .ok .brAlign ∧ decode (0#24 ++ 0x20#8) = .ok .zHeader ∧
    decode (0#24 ++ 0x43#8) = .ok .jReset ∧ decode (0#24 ++ 0x44#8) = .ok .jRestart ∧
    decode (0#24 ++ 0x45#8) = .ok .coefLoad ∧ decode (0#24 ++ 0x46#8) = .ok .coefStore := by decide

/-- Format M: MODE at 8. -/
theorem test_decode_m :
    decode 0b00000000000000000000000000000001 = .ok (.brInit .lsb) ∧
    decode 0b00000000000000000000000100000001 = .ok (.brInit .msb) := by decide

/-- Format B: N at [12:8]. -/
theorem test_decode_b :
    decode 0b00000000000000000001000000000010 = .ok (.brGetbits 16) ∧
    decode 0b00000000000000000000010100000011 = .ok (.brPeekbits 5) ∧
    decode 0b00000000000000000000001101000001 = .ok (.jReceive 3) := by decide

/-- Format R: SZ at [10:8], CHK at 11. -/
theorem test_decode_r :
    decode 0b00000000000000000000110000000101 = .ok (.brReadbytes 4 true) ∧
    decode 0b00000000000000000000001000000101 = .ok (.brReadbytes 2 false) := by decide

/-- Format T: TID at [9:8]. -/
theorem test_decode_t :
    decode 0b00000000000000000000000100010000 = .ok (.hbZlib 1) ∧
    decode 0b00000000000000000000001000010010 = .ok (.hdZlib 2) := by decide

/-- Format J: CLS at 8, IDX at [10:9]. -/
theorem test_decode_j :
    decode 0b00000000000000000000001100010001 = .ok (.hbJpeg .ac 1) ∧
    decode 0b00000000000000000000010000010011 = .ok (.hdJpeg .dc 2) := by decide

/-- Format Z: STEP at 8. -/
theorem test_decode_z :
    decode 0b00000000000000000000000000100001 = .ok (.inflate false) ∧
    decode 0b00000000000000000000000100100001 = .ok (.inflate true) := by decide

/-- Format F: BPPM1 at [10:8], FIRST at 11, ALPHA at 12, A16 at 13. -/
theorem test_decode_f :
    decode 0b00000000000000000000101000110000 = .ok (.pngUnfilter 2 true false false) ∧
    decode 0b00000000000000000001001000110000 = .ok (.pngUnfilter 2 false true false) ∧
    decode 0b00000000000000000011010100110000 = .ok (.pngUnfilter 5 false true true) := by decide

/-- Format Q: IDX at [9:8], P16 at 10. -/
theorem test_decode_q :
    decode 0b00000000000000000000011001000000 = .ok (.qtLoad 2 true) := by decide

/-- Format K: DCT at [9:8], ACT at [11:10], COMP at [13:12]. -/
theorem test_decode_k :
    decode 0b00000000000000000010010001000010 = .ok (.jDecodeBlock 0 1 2) := by decide

/-- Format I: DEQ at 8, QIDX at [10:9]. -/
theorem test_decode_i :
    decode 0b00000000000000000000010101000111 = .ok (.idct true 2) := by decide

/-- A reserved opcode, and the lowest reserved bit of each format (R126, R127). -/
theorem test_decode_reserved :
    decode 0x00000006 = .error .reservedOpcode ∧ decode 0xFFFFFFFF = .error .reservedOpcode ∧
    decode 0x00000100 = .error .reservedBits ∧ decode 0x00000201 = .error .reservedBits ∧
    decode 0x00002002 = .error .reservedBits ∧ decode 0x00001005 = .error .reservedBits ∧
    decode 0x00000410 = .error .reservedBits ∧ decode 0x00000811 = .error .reservedBits ∧
    decode 0x00000221 = .error .reservedBits ∧ decode 0x00004030 = .error .reservedBits ∧
    decode 0x00000840 = .error .reservedBits ∧ decode 0x00004042 = .error .reservedBits ∧
    decode 0x00000847 = .error .reservedBits := by decide

/-! ### One step of each command -/

/-- V1. -/
theorem test_nop :
    after (exec .nop { State.reset with ctl.cmdcnt := 5 })
      (fun t => gives 0 t && t.ctl.cmdcnt == 6 && t.ctl.irqDone) = true := by decide

/-- R165's example. -/
theorem test_brInit :
    after (exec (.brInit .msb) { State.reset with rd.inBase := 0x1000, rd.inLen := 2, rd.cur := 2 })
      (fun t => gives 0 t && t.rd.mode == .msb && t.rd.cur == 0 && t.rd.marker == 0xFF) = true := by
  decide

/-- V10. -/
theorem test_brGetbits_lsb :
    after (exec (.brGetbits 3) (input .lsb [0xB5, 0x01])) (gives 5) = true := by decide

/-- R170. -/
theorem test_brGetbits_msb :
    after (exec (.brGetbits 16) (input .msb [0x12, 0xFF, 0x00, 0x34, 0xFF, 0xD9, 0x56]))
      (fun t => gives 0x12FF t && t.rd.acc == 0x34000000 && t.rd.bitcnt == 16 &&
        t.rd.padbits == 8 && t.rd.cur == 6 && t.rd.nomore && t.rd.marker == 0xD9) = true := by
  decide

/-- R167's example. -/
theorem test_brPeekbits :
    after (exec (.brPeekbits 16) (input .lsb [0xAB]))
      (fun t => gives 0x00AB t && t.rd.bitcnt == 32 && t.rd.padbits == 24 && t.rd.eof &&
        !t.rd.ovr) = true := by decide

/-- R168's example, after its first command. -/
theorem test_brAlign :
    after (exec .brAlign
        { input .lsb [0x12, 0x34, 0x56, 0x78, 0x9A] with
          rd.acc := 0x7856341, rd.bitcnt := 28, rd.cur := 4 })
      (fun t => gives 4 t && t.rd.bitcnt == 24 && t.rd.acc == 0x785634) = true := by decide

/-- R169's example, after its first three commands. -/
theorem test_brReadbytes :
    after (exec (.brReadbytes 4 true)
        { input .lsb [0x12, 0x34, 0x56, 0x78, 0x9A] with
          rd.acc := 0x785634, rd.bitcnt := 24, rd.cur := 4 })
      (fun t => gives 0x3456789A t && t.rd.cur == 5 && t.rd.bitcnt == 0) = true := by decide

/-- R169's short read. -/
theorem test_brReadbytes_short :
    after (exec (.brReadbytes 4 true) (input .lsb [0x12, 0x34])) (raises 0x07 0) = true := by decide

/-- V30. -/
theorem test_hbZlib :
    after (exec (.hbZlib 2)
        { operand 0x200 [3, 3, 3, 3, 3, 2, 4, 4] with args.arg1 := 8 })
      (fun t => gives 0 t &&
        (match t.tab.zt[2] with
          | some tbl => tbl.syms.take 8 ==
              [⟨3, 0b010⟩, ⟨3, 0b011⟩, ⟨3, 0b100⟩, ⟨3, 0b101⟩, ⟨3, 0b110⟩, ⟨2, 0b00⟩,
                ⟨4, 0b1110⟩, ⟨4, 0b1111⟩]
          | none => false)) = true := by decide

/-- V32: the cumulative check. -/
theorem test_hbZlib_overfull :
    after (exec (.hbZlib 2) { operand 0x200 [1, 2, 2, 2] with args.arg1 := 4 })
      (fun t => raises 0x09 2 t && t.tab.zt[2] == none) = true := by decide

/-- V39. -/
theorem test_hbJpeg :
    after (exec (.hbJpeg .dc 0)
        (operand 0x300 ([0, 1, 5, 1, 1, 1, 1, 1, 1, 0, 0, 0, 0, 0, 0, 0] ++
          [0, 1, 2, 3, 4, 5, 6, 7, 8, 9, 10, 11])))
      (fun t => gives 28 t &&
        (match t.tab.jdc[0] with
          | some tbl => jEntry tbl 0 == ⟨2, 0b00, 0⟩ && jEntry tbl 5 == ⟨3, 0b110, 5⟩ &&
              jEntry tbl 11 == ⟨9, 0b111111110, 11⟩
          | none => false)) = true := by decide +kernel

/-- V41. -/
theorem test_hbJpeg_overfull :
    after (exec (.hbJpeg .ac 0) (operand 0x300 [3])) (raises 0x09 1) = true := by decide +kernel

/-- V38: the fixed literal 65 has the code 01110001. -/
theorem test_hdZlib :
    after (exec (.hdZlib 0)
        { input .lsb [0x8E, 0x00] with
          tab.zt := (Vector.replicate 3 none).set 0 (zTable fixedLitlen) })
      (gives 65) = true := by decide +kernel

/-- V36: no code, no bit consumed. -/
theorem test_hdZlib_no_code :
    after (exec (.hdZlib 1)
        { input .lsb [0x01] with
          tab.zt := (Vector.replicate 3 none).set 1 (zTable (1 :: List.replicate 31 0)) })
      (fun t => raises 0x0A 0xFFFFFFFF t && t.rd.bitcnt == 32 && t.rd.cur == 1) = true := by
  decide +kernel

/-- V40. -/
theorem test_hdJpeg : after (exec (.hdJpeg .dc 0) (jpeg [0xE3, 0xFB])) (gives 6) = true := by
  decide +kernel

/-- V50. -/
theorem test_zHeader : after (exec .zHeader (input .lsb [0x78, 0x9C])) (gives 0x789C) = true := by
  decide

/-- V51. -/
theorem test_zHeader_check :
    after (exec .zHeader (input .lsb [0x78, 0x9D])) (raises 0x0B 1) = true := by decide

/-- S2; and V53: literals and a match in a fixed block. -/
theorem test_inflate :
    after (exec (.inflate false) (inflating [0x01, 0x03, 0x00, 0xFC, 0xFF, 0x41, 0x42, 0x43]))
      (fun t => gives 1 t && bytesOf t 0x1000 4 == [0x41, 0x42, 0x43, 0] && t.out.outLen == 3 &&
        t.out.zfinal && t.out.zbtype == 0 && t.rd.cur == 8 && t.rd.bitcnt == 0) = true ∧
    after (exec (.inflate false) (inflating [0x4B, 0x4C, 0x4A, 0x86, 0x20, 0x00]))
      (fun t => gives 1 t && t.out.outLen == 9 && t.rd.cur == 6 && t.out.zbtype == 1 &&
        bytesOf t 0x1000 9 == [0x61, 0x62, 0x63, 0x61, 0x62, 0x63, 0x61, 0x62, 0x63]) = true := by
  decide +kernel

/-- V61: a dynamic block. -/
theorem test_inflate_dynamic :
    after (exec (.inflate false)
        (inflating [0x05, 0xC1, 0x01, 0x01, 0x00, 0x00, 0x00, 0x82, 0xA0, 0xAD, 0x9A, 0xFF, 0x37,
          0x04, 0x88, 0x88, 0xB8, 0xD6, 0x5A, 0x0B, 0x11, 0x0F]))
      (fun t => gives 1 t && t.out.outLen == 26 && t.out.zbtype == 2 &&
        bytesOf t 0x1000 26 == (List.replicate 5 [(0x61 : Byte), 0x62]).flatten ++
          (List.replicate 5 [(0x63 : Byte), 0x64]).flatten ++
          (List.replicate 3 [(0x61 : Byte), 0x62]).flatten) = true := by decide +kernel

/-- R310's example. -/
theorem test_pngUnfilter :
    after (exec (.pngUnfilter 2 true false false)
        { operand 0x100 [0x01, 0x0A, 0x14, 0x1E, 0x05, 0x05, 0x05, 0xFA, 0x0A, 0x00] with
          args.arg1 := 0x200, args.arg3 := 9 })
      (fun t => gives 1 t &&
        bytesOf t 0x200 9 == [0x0A, 0x14, 0x1E, 0x0F, 0x19, 0x23, 0x09, 0x23, 0x23]) = true := by
  decide +kernel

/-- V85: alpha, and the prior row at the output positions. -/
theorem test_pngUnfilter_alpha :
    after (exec (.pngUnfilter 2 false true false)
        { operand 0x100 [0x02, 0x01, 0x01, 0x01, 0x01, 0x01, 0x01] with
          args.arg1 := 0x200, args.arg2 := 0x300, args.arg3 := 6
          bus.mem := bytesAt 0x100 [0x02, 0x01, 0x01, 0x01, 0x01, 0x01, 0x01] ++
            bytesAt 0x300 [0x0A, 0x14, 0x1E, 0xFF, 0x28, 0x32, 0x3C, 0xFF] })
      (fun t => gives 2 t &&
        bytesOf t 0x200 8 == [0x0B, 0x15, 0x1F, 0xFF, 0x29, 0x33, 0x3D, 0xFF]) = true := by
  decide +kernel

/-- V120. -/
theorem test_qtLoad :
    after (exec (.qtLoad 0 false)
        (operand 0x500 ((List.range 64).map (fun k => Byte.ofNat (k + 1)))))
      (fun t => gives 64 t &&
        (match t.tab.qt[0] with
          | some q => q[0] == 1 && q[1] == 2 && q[8] == 3 && q[16] == 4 && q[9] == 5 && q[63] == 64
          | none => false)) = true := by decide +kernel

/-- V121: 16-bit entries are big-endian. -/
theorem test_qtLoad_p16 :
    after (exec (.qtLoad 1 true) (operand 0x600 [0x00, 0x10, 0x00, 0x01]))
      (fun t => gives 128 t &&
        (match t.tab.qt[1] with
          | some q => q[0] == 16 && q[1] == 1
          | none => false)) = true := by decide +kernel

/-- V110. -/
theorem test_jReceive : after (exec (.jReceive 3) (input .msb [0xA0])) (gives 5) = true := by decide

/-- V110. -/
theorem test_jReceive_negative :
    after (exec (.jReceive 3) (input .msb [0x40])) (gives 0xFFFFFFFB) = true := by decide

/-- V112. -/
theorem test_jDecodeBlock :
    after (exec (.jDecodeBlock 0 0 0)
        { jpeg [0x95, 0x4D, 0x5B, 0x3F, 0x26] with dcpred := (Vector.replicate 4 0).set 0 10 })
      (fun t => gives 21 t && t.dcpred[0] == 15 && t.rd.cur == 5 && t.rd.bitcnt == 22 &&
        t.coef == (((coefs 0 15).set 1 0xFFFF).set 16 1).set 40 3) = true := by decide +kernel

/-- V115: the run that passes position 63. -/
theorem test_jDecodeBlock_run :
    after (exec (.jDecodeBlock 0 0 0) (jpeg [0x2A, 0xAA, 0x66, 0x66, 0x66, 0x67]))
      (raises 0x11 64) = true := by decide +kernel

/-- R339. -/
theorem test_jReset :
    after (exec .jReset
        { input .msb [0x12, 0x34, 0x56, 0x78, 0x9A] with
          rd.acc := 0x12345678, rd.bitcnt := 32, rd.cur := 4, dcpred := Vector.replicate 4 5 })
      (fun t => gives 0 t && t.rd.bitcnt == 0 && t.rd.cur == 4 &&
        t.dcpred == Vector.replicate 4 0) = true := by decide

/-- S11. -/
theorem test_jRestart :
    after (exec .jRestart { input .msb [0xFF, 0xD3, 0x12] with dcpred := Vector.replicate 4 5 })
      (fun t => gives 1 t && t.rd.bitcnt == 0 && t.rd.marker == 0xFF && !t.rd.nomore &&
        t.rd.cur == 2 && t.dcpred == Vector.replicate 4 0) = true := by decide +kernel

/-- V119: EOI is no restart marker. -/
theorem test_jRestart_other :
    after (exec .jRestart (input .msb [0xFF, 0xD9]))
      (fun t => gives 0 t && t.rd.marker == 0xD9 && t.rd.nomore) = true := by decide +kernel

/-- R341's example. -/
theorem test_coefLoad :
    after (exec .coefLoad (operand 0x200 [0xF0, 0xFF]))
      (fun t => gives 0 t && t.coef == coefs 0 (-16)) = true := by decide +kernel

/-- V127. -/
theorem test_coefStore :
    after (exec .coefStore { operand 0x200 [] with coef := coefs 0 (-1) })
      (fun t => gives 0 t && bytesOf t 0x200 3 == [0xFF, 0xFF, 0]) = true := by decide +kernel

/-- V125, row 0. -/
theorem test_idct :
    after (exec (.idct false 0) { operand 0x200 [] with args.arg1 := 8, coef := coefs 9 (-200) })
      (fun t => gives 0 t &&
        bytesOf t 0x200 8 == [80, 87, 101, 118, 138, 155, 169, 176]) = true := by decide +kernel

/-- V126: dequantised. -/
theorem test_idct_deq :
    after (exec (.idct true 2)
        { operand 0x200 [] with
          args.arg1 := 8, coef := coefs 0 5
          tab.qt := (Vector.replicate 4 none).set 2 (some (Vector.replicate 64 16)) })
      (fun t => gives 0 t && bytesOf t 0x200 8 == List.replicate 8 138) = true := by decide +kernel

/-- V102: the bus fault leaves the table invalid. -/
theorem test_bus_fault :
    after (exec (.hbZlib 2)
        { operand 0x200 [] with args.arg1 := 8, bus.holes := [(0x200, 0x201)] })
      (raises 0x06 0x200) = true := by decide

/-- V3, V4, V6: a reserved opcode faults with its word, and CMD is dropped in FAULT. -/
theorem test_reserved_step :
    after (step (busy 0xFFFFFFFF State.reset))
      (fun t => raises 0x01 0xFFFFFFFF t && regValue 0x28 t == 0x0000FF01 &&
        after (step (hosted (.regWrite 0x10 4 0) t)) (fun u => u.ctl.drop && u.ctl.cmdcnt == 0)) =
      true := by decide

/-- V104: CLRERR leaves FAULT, and `IRQ.ERR` stays. -/
theorem test_clrerr :
    after (step (busy 0x06 State.reset))
      (fun t => after (step (hosted (.regWrite 0x04 4 2) t))
        (fun u => u.ctl.estate == .idle && regValue 0x28 u == 0 && u.ctl.faddr == 0 &&
          u.ctl.irqErr)) = true := by decide

/-- R52: BR_INIT passes through the old cursor and through 0; its RES comes last. -/
theorem test_passing :
    let s := busy 0x01 { State.reset with rd.cur := 5, ctl.res := 7 }
    regValue 0x38 (passing 0 s) = 5 ∧ regValue 0x38 (passing 100 s) = 0 ∧
      (List.range 20).all (fun n => decide (regValue 0x24 (passing n s) = 0) →
        decide (regValue 0x38 (passing n s) = 0)) = true := by decide

/-- R421: an abort after one of COEF_STORE's byte writes leaves that byte alone. -/
theorem test_passing_store :
    bytesOf (passing 1 (busy 0x46 { State.reset with coef := coefs 0 (-1) })) 0 2 = [0xFF, 0] := by
  decide +kernel

/-! ### The statements' hypotheses are met (one theorem for each statement and clause) -/

theorem witness_DecodeInvertsEncode : decode 0x00003F42 = .ok (.jDecodeBlock 3 3 3) := by decide

theorem witness_ReservedWords_bits :
    reservedOp ((0x00000100 : Word).toNat % 256) = false ∧
      (0x00000100 : Word).toNat / 2 ^ firstReservedBit ((0x00000100 : Word).toNat % 256) ≠ 0 := by
  decide

/-- The opcodes at the ends of the reserved ranges, and those beside them. -/
theorem witness_ReservedWords_opcodes :
    [0x06, 0x0F, 0x14, 0x1F, 0x22, 0x2F, 0x31, 0x3F, 0x48, 0xFF].all reservedOp = true ∧
      [0x00, 0x05, 0x10, 0x13, 0x20, 0x21, 0x30, 0x40, 0x47].any reservedOp = false := by decide

theorem witness_ReservedWords_step :
    (busy 0x06 State.reset).ctl.estate = .busy ∧ (busy 0x06 State.reset).env.events = [] ∧
      reservedOp ((busy 0x06 State.reset).ctl.cmd.toNat % 256) = true := by decide

theorem witness_ReservedWords_step_bits :
    (busy 0x80000000 State.reset).ctl.estate = .busy ∧
      (busy 0x80000000 State.reset).env.events = [] ∧
      (busy 0x80000000 State.reset).ctl.cmd.toNat /
        2 ^ firstReservedBit ((busy 0x80000000 State.reset).ctl.cmd.toNat % 256) ≠ 0 := by decide

theorem witness_DecodeChecks_illegal :
    valueFault (.brGetbits 17) State.reset = some (0x01, 0) ∧
      valueFault (.brGetbits 0) State.reset = some (0x01, 0) ∧
      valueFault (.brGetbits 16) State.reset = none := by decide

theorem witness_DecodeChecks_mode :
    valueFault (.hdZlib 1) (input .msb []) = some (0x02, 1) ∧
      valueFault .jReset (input .lsb []) = some (0x02, 0) := by decide

theorem witness_DecodeChecks_table :
    valueFault (.hdZlib 1) State.reset = some (0x03, 1) ∧
      valueFault (.idct true 3) State.reset = some (0x03, 15) := by decide

theorem witness_DecodeChecks_range :
    valueFault (.brInit .lsb) { State.reset with rd.inBase := 0xFFFFFFF0, rd.inLen := 0x11 } =
        some (0x04, 0xFFFFFFF0) ∧
      valueFault (.brInit .lsb) { State.reset with rd.inBase := 0xFFFFFFF0, rd.inLen := 0x10 } =
        none ∧
      valueFault (.inflate false) { State.reset with out.outLen := 5, out.outCap := 4 } =
        some (0x04, 5) := by decide

theorem witness_DecodeChecks_overlap :
    valueFault (.inflate false)
        { State.reset with
          rd.inBase := 0x1000, rd.inLen := 8, out.outBase := 0x1007, out.outCap := 16 } =
        some (0x05, 0x1007) ∧
      valueFault (.inflate false)
        { State.reset with
          rd.inBase := 0x1000, rd.inLen := 8, out.outBase := 0x1008, out.outCap := 16 } =
        none := by decide

theorem witness_DecodeChecks_step :
    (busy 0x00001102 State.reset).ctl.estate = .busy ∧
      (busy 0x00001102 State.reset).env.events = [] ∧
      decodeFault (busy 0x00001102 State.reset) = some (0x01, 0x00001102) := by decide

theorem witness_StepRunsDecodedCommand_busy :
    (busy 0x42 State.reset).ctl.estate = .busy ∧
      decode (busy 0x42 State.reset).ctl.cmd = .ok (.jDecodeBlock 0 0 0) ∧
      (busy 0x42 State.reset).env.events = [] := by decide

theorem witness_StepRunsDecodedCommand_scheduled :
    (hosted .engine (busy 0 State.reset)).ctl.estate = .busy ∧
      decode (hosted .engine (busy 0 State.reset)).ctl.cmd = .ok .nop ∧
      (hosted .engine (busy 0 State.reset)).env.events = [.engine] := by decide

theorem witness_StepRunsDecodedCommand_idle :
    State.reset.ctl.estate ≠ .busy ∧ State.reset.env.events = [] ∧
      (hosted .engine State.reset).env.events = [.engine] := by decide

theorem witness_CmdWriteStartsCommand_idle :
    (hosted (.regWrite 0x10 4 0x45) State.reset).env.events =
        [.regWrite (State.reset.env.regBase + 0x10) 4 0x45] ∧
      (hosted (.regWrite 0x10 4 0x45) State.reset).ctl.estate = .idle ∧
      decode 0x45 = .ok .coefLoad := by decide

theorem witness_CmdWriteStartsCommand_illegal : decode 0x06 = .error .reservedOpcode := by decide

theorem witness_NopAndBrInitEffects_reserved :
    (0x100 : Word).toNat % 256 = 0 ∧ (0x100 : Word) ≠ 0 ∧ decode 0x100 = .error .reservedBits := by
  decide

theorem witness_CmdWriteStartsCommand_busy :
    (hosted (.regWrite 0x10 4 0) (busy 0 State.reset)).env.events =
        [.regWrite (State.reset.env.regBase + 0x10) 4 0] ∧
      (hosted (.regWrite 0x10 4 0) (busy 0 State.reset)).ctl.estate ≠ .idle := by decide

theorem witness_CmdWriteStartsCommand_read :
    (hosted (.regRead 0x10 4) State.reset).env.events =
      [.regRead (State.reset.env.regBase + 0x10) 4] := by decide

theorem witness_FaultEntryRecord :
    (raise .eRun 64 : Engine Word) (Run.whole State.reset) =
      .error (.raised .eRun 64) (Run.whole State.reset) := rfl

theorem witness_CompletionOrFaultEntry_completes :
    ∃ t, exec .nop State.reset = .next t ∧ t.ctl.estate = .idle := ⟨_, rfl, rfl⟩

theorem witness_CompletionOrFaultEntry_faults :
    ∃ t, exec .jReset State.reset = .next t ∧ t.ctl.estate = .fault := ⟨_, rfl, rfl⟩

theorem witness_UnmappedByteRaisesBus_hole :
    inMap [(0x200, 0x201)] 0x200 = false ∧ inMap [] (2 ^ 32) = false ∧
      inMap [(0x200, 0x201)] 0x201 = true := by decide

theorem witness_UnmappedByteRaisesBus_fault :
    ∃ t, exec .coefLoad { State.reset with bus.holes := [(1, 2)] } = .next t ∧
      t.ctl.estate = .fault ∧ t.ctl.errCode = 0x06 := ⟨_, rfl, rfl, rfl⟩

theorem witness_EngineKeepsHostRegisters :
    ∃ t, exec (.brInit .msb) State.reset = .next t := ⟨_, rfl⟩

theorem witness_StateOwnership :
    ∃ t, exec .brAlign { State.reset with rd.eof := true, rd.ovr := true } = .next t ∧
      (opcode .brAlign).toNat ≠ 0x01 := ⟨_, rfl, by decide⟩

theorem witness_StateOwnership_reader :
    ∃ t, exec .nop State.reset = .next t ∧
      (opcode .nop).toNat ∈ [0x00, 0x10, 0x11, 0x30, 0x40, 0x45, 0x46, 0x47] ∧
      (opcode .nop).toNat ∉ [0x21, 0x30, 0x46, 0x47] := ⟨_, rfl, by decide, by decide⟩

theorem witness_StoresStayInRegions :
    ∃ t, Memory.wf State.reset.bus.mem = true ∧ exec .coefStore State.reset = .next t ∧
      storedTo .coefStore State.reset 128 = false ∧ storedTo .coefStore State.reset 127 = true :=
  ⟨_, rfl, rfl, by decide, by decide⟩

theorem witness_StepKeepsInvariant :
    ∃ t, (busy 0 State.reset).inv = true ∧ step (busy 0 State.reset) = .next t :=
  ⟨_, by decide, rfl⟩

theorem witness_RegisterWrites_busy :
    (hosted (.regWrite 0x60 4 1) (busy 0 State.reset)).ctl.estate = .busy ∧
      0x60 ∈ [0x10, 0x14, 0x18, 0x1C, 0x20, 0x30, 0x34, 0x38, 0x48, 0x4C, 0x50, 0x54, 0x58, 0x5C,
        0x60] ∧
      (hosted (.regWrite 0x60 4 1) (busy 0 State.reset)).env.events =
        [.regWrite (State.reset.env.regBase + 0x60) 4 1] := by decide

theorem witness_RegisterWrites_accepted :
    let s := hosted (.regWrite 0x60 4 7) (faulted 1 0 State.reset)
    s.env.events = [.regWrite (s.env.regBase + 0x60) 4 7] ∧ s.ctl.estate ≠ .busy ∧
      (0x60, { s with dcpred := s.dcpred.set 3 7 }) ∈
        [(0x5C, { s with dcpred := s.dcpred.set 2 7 }),
          (0x60, { s with dcpred := s.dcpred.set 3 7 })] := by decide

theorem witness_RegisterWrites_readOnly :
    (hosted (.regWrite 0x68 4 7) State.reset).env.events =
        [.regWrite (State.reset.env.regBase + 0x68) 4 7] ∧
      0x68 ∈ [0x00, 0x08, 0x24, 0x28, 0x2C, 0x3C, 0x40, 0x44, 0x64, 0x68] := by decide

theorem witness_CtrlAndIrqWrites_reset :
    (hosted (.regWrite 0x04 4 1) (busy 0 State.reset)).env.events =
        [.regWrite (State.reset.env.regBase + 0x04) 4 1] ∧
      (1 : Word).getLsbD 0 = true := by decide

theorem witness_CtrlAndIrqWrites_clrerr :
    (hosted (.regWrite 0x04 4 0xE) State.reset).env.events =
        [.regWrite (State.reset.env.regBase + 0x04) 4 0xE] ∧
      (0xE : Word).getLsbD 0 = false ∧ (0xE : Word).getLsbD 1 = true ∧
      State.reset.ctl.estate = .idle ∧ (busy 0 State.reset).ctl.estate = .busy ∧
      (faulted 1 0 State.reset).ctl.estate = .fault := by decide

theorem witness_CtrlAndIrqWrites_enables :
    (hosted (.regWrite 0x04 4 0xC) State.reset).env.events =
        [.regWrite (State.reset.env.regBase + 0x04) 4 0xC] ∧
      (0xC : Word).getLsbD 0 = false ∧ (0xC : Word).getLsbD 1 = false := by decide

theorem witness_CtrlAndIrqWrites_read :
    (hosted (.regRead 0x04 4) State.reset).env.events =
      [.regRead (State.reset.env.regBase + 0x04) 4] := by decide

theorem witness_CtrlAndIrqWrites_irq :
    (hosted (.regWrite 0x0C 4 3) State.reset).env.events =
      [.regWrite (State.reset.env.regBase + 0x0C) 4 3] := by decide

theorem witness_RegisterReads :
    (hosted (.regRead 0x68 4) State.reset).ctl.estate ≠ .busy ∧ State.reset.rd.bitcnt ≤ 32 ∧
      State.reset.rd.padbits ≤ 32 ∧
      (hosted (.regRead 0x68 4) State.reset).env.events =
        [.regRead (State.reset.env.regBase + 0x68) 4] := by decide

/-- NOP is running: registers that it does not write, and STATUS. -/
theorem witness_BusyReads_kept :
    let s := hosted (.regRead 0x08 4) (busy 0 State.reset)
    ∃ t u, s.ctl.estate = .busy ∧ decode s.ctl.cmd = .ok .nop ∧
      s.env.events = [.regRead (s.env.regBase + 0x08) 4] ∧
      (opcode .nop).toNat ∈ [0x00, 0x10, 0x11, 0x30, 0x40, 0x45, 0x46, 0x47] ∧
      (opcode .nop).toNat ≠ 0x21 ∧ (opcode .nop).toNat ∉ [0x42, 0x43, 0x44] ∧
      (opcode .nop).toNat ∉ [0x10, 0x11, 0x21, 0x40] ∧
      exec .nop { s with env := { s.env with events := [] } } = .next u ∧
      step { s with ctl := { s.ctl with estate := .idle } } = .next t :=
  ⟨_, _, rfl, by decide, rfl, by decide, by decide, by decide, by decide, rfl, rfl⟩

/-- The last offset of the block, and the last one that R52 does not name. -/
theorem witness_BusyReads_current :
    0xFC < 0x100 ∧ 0xFC % 4 = 0 ∧ 0x68 % 4 = 0 ∧
      0xFC ∉ [0x08, 0x24, 0x28, 0x2C, 0x38, 0x3C, 0x40, 0x44, 0x50, 0x54, 0x58, 0x5C, 0x60, 0x64] ∧
      0x68 ∉ [0x08, 0x24, 0x28, 0x2C, 0x38, 0x3C, 0x40, 0x44, 0x50, 0x54, 0x58, 0x5C, 0x60,
        0x64] := by decide

/-- The first and the last offset that R52 names, and those that a command's end writes. -/
theorem witness_BusyReads_named :
    [0x24, 0x28, 0x2C, 0x64].all (fun off =>
      decide (off < 0x100) && decide (off % 4 = 0) &&
        decide (off ∈ [0x24, 0x28, 0x2C, 0x38, 0x3C, 0x40, 0x44, 0x50, 0x54, 0x58, 0x5C, 0x60, 0x64]) &&
        decide ((hosted (.regRead off 4) (busy 0 State.reset)).env.events =
          [.regRead (State.reset.env.regBase + off) 4])) = true := by decide

theorem witness_BusyReads_init :
    let s := hosted (.regRead 0x44 4) (busy 0x101 State.reset)
    ∃ t, s.ctl.estate = .busy ∧ decode s.ctl.cmd = .ok (.brInit .msb) ∧ s.rd.bitcnt ≤ 32 ∧
      s.rd.padbits ≤ 32 ∧ s.env.events = [.regRead (s.env.regBase + 0x44) 4] ∧
      step { s with ctl := { s.ctl with estate := .idle } } = .next t :=
  ⟨_, rfl, by decide, by decide, by decide, rfl, rfl⟩

theorem witness_ReservedOffsetsAndForms_write :
    0x6C ≤ 0x6C ∧ 0x6C < 0x100 ∧ 0x6C % 4 = 0 ∧
      (hosted (.regWrite 0x6C 4 3) State.reset).env.events =
        [.regWrite (State.reset.env.regBase + 0x6C) 4 3] := by decide

theorem witness_ReservedOffsetsAndForms_read :
    0x6C ≤ 0xFC ∧ 0xFC < 0x100 ∧ 0xFC % 4 = 0 ∧
      (hosted (.regRead 0xFC 4) State.reset).env.events =
        [.regRead (State.reset.env.regBase + 0xFC) 4] := by decide

theorem witness_ReservedOffsetsAndForms_form :
    0xFF < 0x100 ∧ (4 ≠ 4 ∨ 0xFF % 4 ≠ 0) ∧
      (hosted (.regWrite 0xFF 4 3) State.reset).env.events =
        [.regWrite (State.reset.env.regBase + 0xFF) 4 3] ∧
      (hosted (.regRead 0xFF 4) State.reset).env.events =
        [.regRead (State.reset.env.regBase + 0xFF) 4] := by decide

theorem witness_ReservedOffsetsAndForms_outside :
    0x100 ≤ 0x100 ∧
      (hosted (.regWrite 0x100 4 3) State.reset).env.events =
        [.regWrite (State.reset.env.regBase + 0x100) 4 3] ∧
      (hosted (.regRead 0x100 4) State.reset).env.events =
        [.regRead (State.reset.env.regBase + 0x100) 4] := by decide

/-- COEF_STORE at 0 is running: the last byte it writes, and the one after. -/
theorem witness_RacingAccessRefused :
    (busy 0x46 State.reset).ctl.estate = .busy ∧
      decode (busy 0x46 State.reset).ctl.cmd = .ok .coefStore ∧
      inMap (busy 0x46 State.reset).bus.holes 127 = true ∧
      storedTo .coefStore (busy 0x46 State.reset) 127 = true ∧
      storedTo .coefStore (busy 0x46 State.reset) 128 = false ∧
      loadedFrom .coefStore (busy 0x46 State.reset) 128 = false ∧
      loadedFrom .coefLoad (busy 0x45 State.reset) 127 = true ∧
      (hosted (.memWrite 127 1) (busy 0x46 State.reset)).env.events = [.memWrite 127 1] ∧
      (hosted (.memRead 127) (busy 0x46 State.reset)).env.events = [.memRead 127] := by decide

theorem witness_ResetValues_hard :
    (hosted .hardReset State.reset).env.events = [.hardReset] ∧
      State.reset.ctl.estate ≠ .busy := by decide

theorem witness_ResetValues_soft :
    (hosted (.regWrite 0x04 4 3) State.reset).env.events =
        [.regWrite (State.reset.env.regBase + 0x04) 4 3] ∧ (3 : Word).getLsbD 0 = true := by decide

theorem witness_AbortLeavesPrefix_hard :
    let s := hosted .hardReset (busy 0x46 State.reset)
    s.ctl.estate = .busy ∧ decode s.ctl.cmd = .ok .coefStore ∧ Memory.wf s.bus.mem = true ∧
      answers s ⟨s.args.arg0.toNat, 128⟩ = true ∧ s.env.events = [.hardReset] ∧
      storedTo .coefStore s 128 = false := by decide

/-- The state as the reset finds it, and the end of the command that the chain leads to. -/
theorem witness_AbortLeavesPrefix_end :
    let s := hosted .hardReset (busy 0x46 State.reset)
    ∃ p u : State, p = { s with env := { s.env with events := [] } } ∧
      exec .coefStore p = .next u :=
  ⟨_, _, rfl, rfl⟩

/-- INFLATE is running, with no output to write. -/
theorem witness_AbortLeavesPrefix_soft :
    let s := hosted (.regWrite 0x04 4 1) (busy 0x21 State.reset)
    s.ctl.estate = .busy ∧ decode s.ctl.cmd = .ok (.inflate false) ∧ Memory.wf s.bus.mem = true ∧
      s.env.events = [.regWrite (s.env.regBase + 0x04) 4 1] ∧ (1 : Word).getLsbD 0 = true ∧
      storedTo (.inflate false) s 0 = false := by decide

/-- The two regions at the two ends of the address space. -/
theorem witness_HostAndEngineOrdering :
    State.reset.ctl.estate = .idle ∧ Memory.wf State.reset.bus.mem = true ∧ 127 < 128 ∧
      answers State.reset ⟨State.reset.args.arg0.toNat, 128⟩ = true ∧
      answers State.reset ⟨(0xFFFFFF80 : Word).toNat, 128⟩ = true := by decide

theorem witness_NopAndBrInitEffects_range :
    ({ State.reset with rd.inBase := 0xFFFFFFFF, rd.inLen := 1 } : State).rd.inBase.toNat +
      ({ State.reset with rd.inBase := 0xFFFFFFFF, rd.inLen := 1 } : State).rd.inLen.toNat ≤ 2 ^ 32 := by
  decide

/-- The input ends one bit short of what is asked. -/
theorem witness_LsbBitsFollowStream :
    1 ≤ (16 : BitVec 5).toNat ∧ (16 : BitVec 5).toNat ≤ 16 ∧ (input .lsb [0xB5]).rd.mode = .lsb ∧
      readerOk (input .lsb [0xB5]).rd = true ∧ inputAnswers (input .lsb [0xB5]) = true ∧
      (input .lsb [0xB5]).rd.padbits = 0 := by decide

theorem witness_MsbBitsFollowStream :
    1 ≤ (1 : BitVec 5).toNat ∧ (1 : BitVec 5).toNat ≤ 16 ∧
      (input .msb [0xFF, 0xD9]).rd.mode = .msb ∧ readerOk (input .msb [0xFF, 0xD9]).rd = true ∧
      inputAnswers (input .msb [0xFF, 0xD9]) = true ∧
      (input .msb [0xFF, 0xD9]).rd.padbits = 0 := by decide

theorem witness_MarkerHaltsReader :
    (input .msb [0xFF, 0xD9]).rd.mode = .msb ∧ readerOk (input .msb [0xFF, 0xD9]).rd = true ∧
      inputAnswers (input .msb [0xFF, 0xD9]) = true ∧ (input .msb [0xFF, 0xD9]).rd.bitcnt = 0 ∧
      (input .msb [0xFF, 0xD9]).rd.nomore = false ∧ 1 ≤ 1 ∧ 1 < inputLeft (input .msb [0xFF, 0xD9]) ∧
      (∀ j, j < 1 → inputByte (input .msb [0xFF, 0xD9]) j = 0xFF) ∧
      inputByte (input .msb [0xFF, 0xD9]) 1 ≠ 0xFF ∧
      inputByte (input .msb [0xFF, 0xD9]) 1 ≠ 0x00 := by decide

theorem witness_AlignEffect :
    readerOk { (input .lsb [1]).rd with acc := 0x7F, bitcnt := 7, padbits := 7 } = true ∧
      (input .lsb [1]).rd.inBase.toNat + (input .lsb [1]).rd.inLen.toNat ≤ 2 ^ 32 := by decide

theorem witness_ReadbytesEffect_partial :
    (4 : BitVec 3).toNat ∈ [1, 2, 4] ∧
      readerOk { (input .lsb [1]).rd with acc := 0x7F, bitcnt := 7 } = true ∧
      inputAnswers { input .lsb [1] with rd.acc := 0x7F, rd.bitcnt := 7 } = true ∧
      7 % 8 ≠ 0 := by decide

/-- One byte too few, and just enough. -/
theorem witness_ReadbytesEffect_checked :
    (2 : BitVec 3).toNat ∈ [1, 2, 4] ∧ readerOk (input .lsb [1]).rd = true ∧
      inputAnswers (input .lsb [1]) = true ∧ (input .lsb [1]).rd.bitcnt % 8 = 0 ∧
      ((input .lsb [1]).rd.bitcnt - (input .lsb [1]).rd.padbits) / 8 + inputLeft (input .lsb [1]) <
        (2 : BitVec 3).toNat ∧
      (1 : BitVec 3).toNat ≤
        ((input .lsb [1]).rd.bitcnt - (input .lsb [1]).rd.padbits) / 8 +
          inputLeft (input .lsb [1]) := by decide

theorem witness_CanonicalCodes : ∃ tbl, zBuild [1, 0, 2, 2] = .ok tbl := ⟨_, rfl⟩

theorem witness_BuildChecks_tooLong :
    [15, 16].length ≤ 288 ∧
      (List.range [15, 16].length).find? (fun s => decide (15 < [15, 16].getD s 0)) = some 1 := by
  decide

theorem witness_BuildChecks_overfull :
    (∀ l, l ∈ [1, 2, 2, 2] → l ≤ 15) ∧
      zLengths.find? (overfull (fun l => [1, 2, 2, 2].count l)) = some 2 := by decide

theorem witness_BuildChecks_fits :
    (∀ l, l ∈ [1, 2, 15, 15] → l ≤ 15) ∧
      zLengths.find? (overfull (fun l => [1, 2, 15, 15].count l)) = none := by decide

theorem witness_JpegBuildAssigns_overfull :
    (3 :: List.replicate 15 0).length = 16 ∧
      (List.replicate 3 (0 : Byte)).length = (3 :: List.replicate 15 0).sum ∧
      jLengths.find? (overfull (fun l => (3 :: List.replicate 15 0).getD (l - 1) 0)) = some 1 := by
  decide

theorem witness_JpegBuildAssigns_fits :
    (List.replicate 15 0 ++ [1]).length = 16 ∧
      [(9 : Byte)].length = (List.replicate 15 0 ++ [1]).sum ∧
      jLengths.find? (overfull (fun l => (List.replicate 15 0 ++ [1]).getD (l - 1) 0)) = none := by
  decide

theorem witness_HbZlibEffect_builds :
    illegalValues (.hbZlib 2) { operand 0x200 [1] with args.arg1 := 1 } = false ∧
      answers { operand 0x200 [1] with args.arg1 := 1 } ⟨0x200, 1⟩ = true ∧
      ∃ tbl, zBuild ((List.range (zMaxSym (tableSel 2))).map (fun k =>
        if k < 1 then (byteAt (operand 0x200 [1]) (0x200 + k)).toNat else 0)) = .ok tbl :=
  ⟨by decide, by decide, _, rfl⟩

theorem witness_HbZlibEffect_fails :
    illegalValues (.hbZlib 2) { operand 0x200 [1, 1, 1] with args.arg1 := 19 } = false ∧
      answers { operand 0x200 [1, 1, 1] with args.arg1 := 19 } ⟨0x200, 19⟩ = true ∧
      ∃ e, zBuild ((List.range (zMaxSym (tableSel 2))).map (fun k =>
        if k < 19 then (byteAt (operand 0x200 [1, 1, 1]) (0x200 + k)).toNat else 0)) = .error e :=
  ⟨by decide, by decide, _, rfl⟩

/-- 257 values. -/
theorem witness_HbJpegEffect_total :
    answers (operand 0x300 [0, 0, 0, 0, 0, 0, 0, 0, 255, 2]) ⟨0x300, 16⟩ = true ∧
      256 < ((List.range 16).map (fun k =>
        (byteAt (operand 0x300 [0, 0, 0, 0, 0, 0, 0, 0, 255, 2]) (0x300 + k)).toNat)).sum := by
  decide +kernel

/-- The counts fit below 2^32, and one value does not. -/
theorem witness_HbJpegEffect_range :
    answers (operand 0xFFFFFFF0 [1]) ⟨0xFFFFFFF0, 16⟩ = true ∧
      ((List.range 16).map (fun k => (byteAt (operand 0xFFFFFFF0 [1]) (0xFFFFFFF0 + k)).toNat)).sum
        ≤ 256 ∧
      2 ^ 32 < 0xFFFFFFF0 + 16 + ((List.range 16).map (fun k =>
        (byteAt (operand 0xFFFFFFF0 [1]) (0xFFFFFFF0 + k)).toNat)).sum := by decide +kernel

theorem witness_HbJpegEffect_builds :
    answers (operand 0x300 [1]) ⟨0x300, 17⟩ = true ∧
      ∃ tbl, jBuild (1 :: List.replicate 15 0) [0] = .ok tbl := ⟨by decide +kernel, _, rfl⟩

theorem witness_HbJpegEffect_fails :
    answers (operand 0x300 [3]) ⟨0x300, 19⟩ = true ∧
      ∃ e, jBuild (3 :: List.replicate 15 0) [0, 0, 0] = .error e := ⟨by decide +kernel, _, rfl⟩

/-- A single DIST code of one bit: the table of V35. -/
def oneCode : State :=
  { input .lsb [0x00] with
    tab.zt := (Vector.replicate 3 none).set 1 (zTable (1 :: List.replicate 31 0)) }

theorem witness_HdZlibDecodesCode :
    ∃ tbl e, (1 : BitVec 2) ≠ 3 ∧ oneCode.rd.mode = .lsb ∧ oneCode.tab.zt[tableSel 1] = some tbl ∧
      zTableOk (tableSel 1) tbl = true ∧ readerOk oneCode.rd = true ∧ inputAnswers oneCode = true ∧
      tbl.syms[0]? = some e ∧ e.len ≠ 0 ∧ codeNext e.len e.code (lsbStream oneCode) = true ∧
      oneCode.rd.padbits = 0 :=
  ⟨_, _, by decide, rfl, rfl, by decide +kernel, by decide, by decide, rfl, by decide,
    by decide +kernel, rfl⟩

theorem witness_HdJpegDecodesCode :
    ∃ tbl e, (jpeg [0xE3, 0xFB]).rd.mode = .msb ∧
      (if JClass.dc = .dc then (jpeg [0xE3, 0xFB]).tab.jdc else (jpeg [0xE3, 0xFB]).tab.jac)[sel4 0] =
        some tbl ∧
      jTableOk tbl = true ∧ readerOk (jpeg [0xE3, 0xFB]).rd = true ∧
      inputAnswers (jpeg [0xE3, 0xFB]) = true ∧ tbl.entries[6]? = some e ∧
      codeNext e.size e.code (msbStream (jpeg [0xE3, 0xFB])) = true ∧
      (jpeg [0xE3, 0xFB]).rd.padbits = 0 :=
  ⟨_, _, rfl, rfl, by decide +kernel, by decide, by decide, rfl, by decide +kernel, rfl⟩

/-- V36. -/
theorem witness_NoCode_zlib :
    ∃ tbl, oneCode.tab.zt[tableSel 1] = some tbl ∧ zTableOk (tableSel 1) tbl = true ∧
      readerOk { oneCode.rd with acc := 1, bitcnt := 1 } = true ∧
      inputAnswers { oneCode with rd.acc := 1, rd.bitcnt := 1 } = true ∧
      ∀ e, e ∈ tbl.syms → e.len ≠ 0 →
        codeNext e.len e.code (lsbStream { oneCode with rd.acc := 1, rd.bitcnt := 1 }) = false :=
  ⟨_, rfl, by decide +kernel, by decide, by decide, by decide +kernel⟩

/-- The DC table has no code of nine ones. -/
theorem witness_NoCode_jpeg :
    ∃ tbl, (jpeg [0xFF, 0x00, 0xFF, 0x00]).tab.jdc[sel4 0] = some tbl ∧ jTableOk tbl = true ∧
      readerOk (jpeg [0xFF, 0x00, 0xFF, 0x00]).rd = true ∧
      inputAnswers (jpeg [0xFF, 0x00, 0xFF, 0x00]) = true ∧
      ∀ e, e ∈ tbl.entries →
        codeNext e.size e.code (msbStream (jpeg [0xFF, 0x00, 0xFF, 0x00])) = false :=
  ⟨_, rfl, by decide +kernel, by decide, by decide, by decide +kernel⟩

theorem witness_FastTablesAgree_deflate :
    ∃ tbl, zTable (15 :: 9 :: 10 :: List.replicate 29 0) = some tbl ∧ zTableOk 1 tbl = true ∧
      (input .lsb []).rd.mode = .lsb := ⟨_, rfl, by decide +kernel, rfl⟩

theorem witness_FastTablesAgree_jpeg :
    ∃ tbl, dcTable = some tbl ∧ jTableOk tbl = true ∧ (input .msb []).rd.mode = .msb :=
  ⟨_, rfl, by decide +kernel, rfl⟩

/-- The code 100 of the value 0x11, and its extra bit, at the top of the index. -/
theorem witness_FastAcAgrees :
    ∃ tbl, acTable = some tbl ∧ jTableOk tbl = true ∧
      ({ input .msb [] with rd.acc := 0x90000000 } : State).rd.mode = .msb ∧
      jFastAc tbl (peekBits { input .msb [] with rd.acc := 0x90000000 } 9) = some (1, 1, 4) :=
  ⟨_, rfl, by decide +kernel, rfl, by decide +kernel⟩

theorem witness_ZHeaderEffect_partial :
    readerOk { (input .lsb []).rd with acc := 1, bitcnt := 1 } = true ∧ 1 % 8 ≠ 0 ∧
      inputAnswers { input .lsb [] with rd.acc := 1, rd.bitcnt := 1 } = true := by decide

/-- One byte in ACC and none in the input; and both bytes in ACC, the second one of pad bits. -/
theorem witness_ZHeaderEffect_short :
    readerOk { (input .lsb []).rd with acc := 0x78, bitcnt := 8 } = true ∧
      inputAnswers { input .lsb [] with rd.acc := 0x78, rd.bitcnt := 8 } = true ∧
      inputLeft { input .lsb [] with rd.acc := 0x78, rd.bitcnt := 8 } < 2 - 8 / 8 ∧
      readerOk { (input .lsb []).rd with acc := 0x78, bitcnt := 16, padbits := 8 } = true ∧
      16 % 8 = 0 ∧ 16 - 16 < 8 := by decide

/-- The three checks, each failing alone, and a header that passes (V50, V51). -/
theorem witness_ZHeaderEffect_checks :
    (input .lsb [0x78, 0x9C]).rd.mode = .lsb ∧ readerOk (input .lsb [0x78, 0x9C]).rd = true ∧
      inputAnswers (input .lsb [0x78, 0x9C]) = true ∧ (input .lsb [0x78, 0x9C]).rd.bitcnt = 0 ∧
      2 ≤ inputLeft (input .lsb [0x78, 0x9C]) ∧
      (0x78 * 256 + 0x9D) % 31 ≠ 0 ∧
      ((0x78 * 256 + 0xBB) % 31 = 0 ∧ 0xBB / 32 % 2 = 1) ∧
      ((0x79 * 256 + 0x18) % 31 = 0 ∧ 0x18 / 32 % 2 = 0 ∧ 0x79 % 16 ≠ 8) ∧
      ((0x78 * 256 + 0x9C) % 31 = 0 ∧ 0x9C / 32 % 2 = 0 ∧ 0x78 % 16 = 8) := by decide

/-- The stream's first bits, as whole bytes. -/
def packed (bits : List Bool) : List Byte :=
  (List.range ((bits.length + 7) / 8)).map (fun k =>
    Byte.ofNat (lowFirst (fun j => bits.getD (8 * k + j) false) 8))

/-- INFLATE is ready, and the input holds the bits. -/
def startsWith (s : State) (bits : List Bool) : Bool :=
  readyToInflate s && decide (bits.length ≤ realBits s) &&
    (List.range bits.length).all (fun j => lsbStream s j == bits.getD j false)

theorem startsWith_meets {s : State} {bits : List Bool} (h : startsWith s bits = true) :
    readyToInflate s = true ∧ bits.length ≤ realBits s ∧ beginsWith s bits := by
  simpa [startsWith, beginsWith, and_assoc] using h

/-- S2, its output full to the last byte. -/
def stored : State :=
  { input .lsb [0x01, 0x03, 0x00, 0xFC, 0xFF, 0x41, 0x42, 0x43] with
    out.outBase := 0x1000, out.outCap := 3 }

theorem witness_StoredBlockVerbatim :
    (readyToInflate stored = true ∧ 3 ≤ realBits stored ∧
        beginsWith stored [true, false, false]) ∧
      storedAt stored + 8 * (4 + 3) ≤ realBits stored ∧
      storedByte stored 0 + 256 * storedByte stored 1 = 3 ∧
      storedByte stored 2 + 256 * storedByte stored 3 = 65535 - 3 ∧
      (∀ k, k < 3 → storedByte stored (4 + k) = ([(0x41 : Byte), 0x42, 0x43].getD k 0).toNat) ∧
      stored.out.outLen.toNat + 3 ≤ stored.out.outCap.toNat :=
  ⟨startsWith_meets (bits := [true, false, false]) (by decide +kernel), by decide +kernel⟩

/-- S2's block, not final, with its header and one more bit in ACC. -/
def storedHeld : State :=
  { input .lsb [0x03, 0x00, 0xFC, 0xFF, 0x41, 0x42, 0x43] with
    rd.acc := 0x8, rd.bitcnt := 4, out.outBase := 0x1000, out.outCap := 3 }

theorem witness_StoredBlockVerbatim_held :
    (readyToInflate storedHeld = true ∧ 3 ≤ realBits storedHeld ∧
        beginsWith storedHeld [false, false, false]) ∧
      storedAt storedHeld = 4 ∧ storedAt storedHeld + 8 * (4 + 3) ≤ realBits storedHeld ∧
      storedByte storedHeld 0 + 256 * storedByte storedHeld 1 = 3 ∧
      storedByte storedHeld 2 + 256 * storedByte storedHeld 3 = 65535 - 3 ∧
      (∀ k, k < 3 →
        storedByte storedHeld (4 + k) = ([(0x41 : Byte), 0x42, 0x43].getD k 0).toNat) :=
  ⟨startsWith_meets (bits := [false, false, false]) (by decide +kernel), by decide +kernel⟩

/-- The tables of the fixed block. -/
def fixedTables : BlockTables := (headTables .fixed).getD ⟨⟨[]⟩, ⟨[]⟩, none⟩

theorem headTables_fixed : headTables .fixed = some fixedTables := some_getD _ (by decide +kernel)

/-- V58's second block: the literal `C`. -/
def fixedC : State :=
  { input .lsb [0x73, 0x06, 0x00] with out.outBase := 0x1000, out.outCap := 1 }

theorem witness_HuffmanBlockInflates_fixed :
    (readyToInflate fixedC = true ∧
        (headBits true .fixed fixedTables ++
          compressedBits fixedTables.ll fixedTables.dt [.literal 0x43]).length ≤ realBits fixedC ∧
        beginsWith fixedC (headBits true .fixed fixedTables ++
          compressedBits fixedTables.ll fixedTables.dt [.literal 0x43])) ∧
      headTables .fixed = some fixedTables ∧ hasCode fixedTables.ll 256 = true ∧
      expandTokens fixedTables.ll fixedTables.dt [.literal 0x43] (window fixedC) = some [0x43] ∧
      1 ≤ fixedC.out.outCap.toNat :=
  ⟨startsWith_meets (by decide +kernel), headTables_fixed, by decide +kernel⟩

/-- Code-length codes `0` for 1 and `1` for 18. -/
def shortCl : List Nat := (((List.replicate 18 0).set 2 1).set 17 1)

/-- LITLEN codes `0` for 0x61 and `1` for the end of block, and the DIST code `0` for the distance 1. -/
def smallHead : BlockHead :=
  .dynamic 257 1 shortCl [⟨18, 86⟩, ⟨1, 0⟩, ⟨18, 127⟩, ⟨18, 9⟩, ⟨1, 0⟩, ⟨1, 0⟩]

def smallTables : BlockTables := (headTables smallHead).getD ⟨⟨[]⟩, ⟨[]⟩, none⟩

theorem headTables_small : headTables smallHead = some smallTables :=
  some_getD _ (by decide +kernel)

/-- A dynamic block that is not final: two literals. -/
def smallBits : List Bool :=
  headBits false smallHead smallTables ++
    compressedBits smallTables.ll smallTables.dt [.literal 0x61, .literal 0x61]

theorem witness_HuffmanBlockInflates_dynamic :
    (readyToInflate (inflating (packed smallBits)) = true ∧
        smallBits.length ≤ realBits (inflating (packed smallBits)) ∧
        beginsWith (inflating (packed smallBits)) smallBits) ∧
      headTables smallHead = some smallTables ∧ hasCode smallTables.ll 256 = true ∧
      expandTokens smallTables.ll smallTables.dt [.literal 0x61, .literal 0x61]
        (window (inflating (packed smallBits))) = some [0x61, 0x61] ∧
      2 ≤ (inflating (packed smallBits)).out.outCap.toNat :=
  ⟨startsWith_meets (by decide +kernel), headTables_small, by decide +kernel⟩

/-- LITLEN codes `0` for 0x61, `10` for the end of block, `11` for the length 6. -/
def threeLens : List Nat := (((List.replicate 288 0).set 0x61 1).set 256 2).set 260 2

/-- The DIST code `0` for the distance 1. -/
def oneLen : List Nat := 1 :: List.replicate 31 0

def threeCodes : ZTable := (zTable threeLens).getD ⟨[]⟩

def oneDist : ZTable := (zTable oneLen).getD ⟨[]⟩

theorem zTable_ok {t : Fin 3} {lens : List Nat} (h : (zTable lens).isSome = true)
    (hl : lens.length = zMaxSym t) : zTableOk t ((zTable lens).getD ⟨[]⟩) = true := by
  refine zTableOk_of_zBuild (lens := lens) ?_ hl
  cases hb : zBuild lens with
  | error e => simp [zTable, hb, Except.toOption] at h
  | ok tbl => simp [zTable, hb, Except.toOption]

/-- The bits 0, 11, 0, 10 are in ACC, and the output has room for just what they give. -/
def matching : State :=
  { input .lsb [] with
    rd.acc := 0x16, rd.bitcnt := 6, out.outBase := 0x1000, out.outCap := 7
    tab.zt := ((Vector.replicate 3 none).set 0 (some threeCodes)).set 1 (some oneDist) }

/-- A literal, and a match of length 6 at distance 1. -/
def aRun : List Token := [.literal 0x61, .copy 3 0 0 0]

theorem witness_CompressedDataExpands_tables :
    matching.tab.zt[0] = some threeCodes ∧ matching.tab.zt[1] = some oneDist ∧
      zTableOk 0 threeCodes = true ∧ zTableOk 1 oneDist = true ∧ hasCode threeCodes 256 = true :=
  ⟨rfl, rfl, zTable_ok (by decide +kernel) (by decide +kernel),
    zTable_ok (by decide +kernel) (by decide +kernel), by decide +kernel⟩

theorem witness_CompressedDataExpands :
    (readyToInflate matching = true ∧
        (compressedBits threeCodes oneDist aRun).length ≤ realBits matching ∧
        beginsWith matching (compressedBits threeCodes oneDist aRun)) ∧
      expandTokens threeCodes oneDist aRun (window matching) = some (List.replicate 7 0x61) ∧
      7 ≤ matching.out.outCap.toNat :=
  ⟨startsWith_meets (by decide +kernel), by decide +kernel⟩

/-- V58: a block, then the final one; S2: a final block; S4: a fault. -/
theorem witness_InflateRunsOn_goesOn :
    ∃ t, exec (.inflate true) (inflating [0x00, 0x02, 0x00, 0xFD, 0xFF, 0x41, 0x42, 0x73, 0x06, 0x00]) =
        .next t ∧
      (t.ctl.estate == .idle && !t.out.zfinal &&
        after (exec (.inflate false) t) (fun u => u.ctl.estate == .idle)) = true :=
  after_meets (by decide +kernel)

theorem witness_InflateRunsOn_laterFault :
    ∃ t, exec (.inflate true) (inflating [0x00, 0x00, 0x00, 0xFF, 0xFF, 0x07]) = .next t ∧
      (t.ctl.estate == .idle && !t.out.zfinal &&
        after (exec (.inflate false) t) (fun u => u.ctl.estate == .fault)) = true :=
  after_meets (by decide +kernel)

theorem witness_InflateRunsOn_same :
    (∃ t, exec (.inflate true) stored = .next t ∧ t.out.zfinal = true) ∧
      ∃ t, exec (.inflate true) (inflating [0x07]) = .next t ∧ (t.ctl.estate == .fault) = true :=
  ⟨after_meets (p := fun t => t.out.zfinal) (by decide +kernel), after_meets (by decide +kernel)⟩

/-- S4. -/
theorem witness_MalformedBlocksFault_type :
    readyToInflate (inflating [0x07]) = true ∧ 3 ≤ realBits (inflating [0x07]) ∧
      lsbStream (inflating [0x07]) 1 = true ∧ lsbStream (inflating [0x07]) 2 = true := by decide

/-- The header's four bytes: one bit too few. -/
theorem witness_MalformedBlocksFault_header :
    readyToInflate (inflating [0x01, 0x03, 0x00, 0xFC]) = true ∧
      3 ≤ realBits (inflating [0x01, 0x03, 0x00, 0xFC]) ∧
      lsbStream (inflating [0x01, 0x03, 0x00, 0xFC]) 1 = false ∧
      lsbStream (inflating [0x01, 0x03, 0x00, 0xFC]) 2 = false ∧
      realBits (inflating [0x01, 0x03, 0x00, 0xFC]) <
        storedAt (inflating [0x01, 0x03, 0x00, 0xFC]) + 32 := by decide

/-- S3. -/
theorem witness_MalformedBlocksFault_nlen :
    readyToInflate (inflating [0x01, 0x03, 0x00, 0xFC, 0xFE]) = true ∧
      storedAt (inflating [0x01, 0x03, 0x00, 0xFC, 0xFE]) + 32 ≤
        realBits (inflating [0x01, 0x03, 0x00, 0xFC, 0xFE]) ∧
      (storedByte (inflating [0x01, 0x03, 0x00, 0xFC, 0xFE]) 2 +
          256 * storedByte (inflating [0x01, 0x03, 0x00, 0xFC, 0xFE]) 3) +
        (storedByte (inflating [0x01, 0x03, 0x00, 0xFC, 0xFE]) 0 +
          256 * storedByte (inflating [0x01, 0x03, 0x00, 0xFC, 0xFE]) 1) ≠ 65535 := by decide

/-- The data: one byte too few. -/
theorem witness_MalformedBlocksFault_data :
    readyToInflate (inflating [0x01, 0x02, 0x00, 0xFD, 0xFF, 0x41]) = true ∧
      storedAt (inflating [0x01, 0x02, 0x00, 0xFD, 0xFF, 0x41]) + 32 ≤
        realBits (inflating [0x01, 0x02, 0x00, 0xFD, 0xFF, 0x41]) ∧
      (0xFF * 256 + 0xFD) + 2 = 65535 ∧
      realBits (inflating [0x01, 0x02, 0x00, 0xFD, 0xFF, 0x41]) <
        storedAt (inflating [0x01, 0x02, 0x00, 0xFD, 0xFF, 0x41]) + 8 * (4 + 2) := by decide

/-- V55. -/
theorem witness_MalformedBlocksFault_room :
    readyToInflate { stored with out.outCap := 2 } = true ∧
      storedAt { stored with out.outCap := 2 } + 8 * (4 + 3) ≤
        realBits { stored with out.outCap := 2 } ∧
      ({ stored with out.outCap := 2 } : State).out.outCap.toNat <
        ({ stored with out.outCap := 2 } : State).out.outLen.toNat + 3 := by decide +kernel

/-- Three code-length codes of one bit. -/
def clFault : List Bool := [true, false, true] ++ countBits 257 1 [1, 1, 1, 0]

theorem witness_DynamicHeaderFaults_cl :
    (readyToInflate (inflating (packed clFault)) = true ∧
        clFault.length ≤ realBits (inflating (packed clFault)) ∧
        beginsWith (inflating (packed clFault)) clFault) ∧
      countsFit 257 1 [1, 1, 1, 0] = true ∧ zBuild (clLengths [1, 1, 1, 0]) = .error 1 :=
  ⟨startsWith_meets (by decide +kernel), by decide +kernel⟩

/-- A code-length table, and the bits of a header with it and some items. -/
def clTable (cl : List Nat) : ZTable := (zTable (clLengths cl)).getD ⟨[]⟩

def headerOf (hlit hdist : Nat) (cl : List Nat) (items : List LengthItem) : List Bool :=
  [true, false, true] ++ countBits hlit hdist cl ++ items.flatMap (lengthItemBits (clTable cl))

theorem clTable_builds {cl : List Nat} (h : (zTable (clLengths cl)).isSome = true) :
    zBuild (clLengths cl) = .ok (clTable cl) := by
  unfold clTable
  cases hb : zBuild (clLengths cl) with
  | error e => simp [zTable, hb, Except.toOption] at h
  | ok tbl => simp [zTable, hb, Except.toOption]

/-- Code 16 comes first. -/
theorem witness_DynamicHeaderFaults_repeat :
    (readyToInflate (inflating (packed (headerOf 257 1 [1, 1, 0, 0] [⟨16, 3⟩]))) = true ∧
        (headerOf 257 1 [1, 1, 0, 0] [] ++ codeBits (clTable [1, 1, 0, 0]) 16).length ≤
          realBits (inflating (packed (headerOf 257 1 [1, 1, 0, 0] [⟨16, 3⟩]))) ∧
        beginsWith (inflating (packed (headerOf 257 1 [1, 1, 0, 0] [⟨16, 3⟩])))
          (headerOf 257 1 [1, 1, 0, 0] [] ++ codeBits (clTable [1, 1, 0, 0]) 16)) ∧
      zBuild (clLengths [1, 1, 0, 0]) = .ok (clTable [1, 1, 0, 0]) ∧
      countsFit 257 1 [1, 1, 0, 0] = true ∧
      expandItems (clTable [1, 1, 0, 0]) (257 + 1) [] [] = some [] ∧
      itemCoded (clTable [1, 1, 0, 0]) ⟨16, 3⟩ = true ∧ itemLengths ⟨16, 3⟩ [] = none :=
  ⟨startsWith_meets (by decide +kernel), clTable_builds (by decide +kernel), by decide +kernel⟩

/-- 138 zeros, and then 121 where 120 are left. -/
theorem witness_DynamicHeaderFaults_passes :
    (readyToInflate (inflating (packed (headerOf 257 1 shortCl [⟨18, 127⟩, ⟨18, 110⟩]))) = true ∧
        (headerOf 257 1 shortCl [⟨18, 127⟩, ⟨18, 110⟩]).length ≤
          realBits (inflating (packed (headerOf 257 1 shortCl [⟨18, 127⟩, ⟨18, 110⟩]))) ∧
        beginsWith (inflating (packed (headerOf 257 1 shortCl [⟨18, 127⟩, ⟨18, 110⟩])))
          (headerOf 257 1 shortCl [⟨18, 127⟩, ⟨18, 110⟩])) ∧
      zBuild (clLengths shortCl) = .ok (clTable shortCl) ∧ countsFit 257 1 shortCl = true ∧
      expandItems (clTable shortCl) (257 + 1) [⟨18, 127⟩] [] = some (List.replicate 138 0) ∧
      itemCoded (clTable shortCl) ⟨18, 110⟩ = true ∧
      itemLengths ⟨18, 110⟩ (List.replicate 138 0) = some (List.replicate 121 0) ∧
      257 + 1 < (List.replicate 138 0).length + (List.replicate 121 0).length :=
  ⟨startsWith_meets (by decide +kernel), clTable_builds (by decide +kernel), by decide +kernel⟩

/-- Only `0` is a code, and the next bit is 1. -/
theorem witness_DynamicHeaderFaults_noCode :
    (readyToInflate (inflating (packed (headerOf 257 1 [0, 0, 1, 0] [] ++ [true]))) = true ∧
        (headerOf 257 1 [0, 0, 1, 0] []).length ≤
          realBits (inflating (packed (headerOf 257 1 [0, 0, 1, 0] [] ++ [true]))) ∧
        beginsWith (inflating (packed (headerOf 257 1 [0, 0, 1, 0] [] ++ [true])))
          (headerOf 257 1 [0, 0, 1, 0] [])) ∧
      zBuild (clLengths [0, 0, 1, 0]) = .ok (clTable [0, 0, 1, 0]) ∧
      countsFit 257 1 [0, 0, 1, 0] = true ∧
      noneNext (clTable [0, 0, 1, 0])
        (fun j => lsbStream (inflating (packed (headerOf 257 1 [0, 0, 1, 0] [] ++ [true])))
          (j + (headerOf 257 1 [0, 0, 1, 0] []).length)) = true :=
  ⟨startsWith_meets (by decide +kernel), clTable_builds (by decide +kernel), by decide +kernel⟩

/-- Three LITLEN codes of one bit. -/
def manyLitlen : List LengthItem := [⟨1, 0⟩, ⟨1, 0⟩, ⟨1, 0⟩, ⟨18, 127⟩, ⟨18, 106⟩]

theorem witness_DynamicHeaderFaults_litlen :
    (readyToInflate (inflating (packed (headerOf 257 1 shortCl manyLitlen))) = true ∧
        (headerOf 257 1 shortCl manyLitlen).length ≤
          realBits (inflating (packed (headerOf 257 1 shortCl manyLitlen))) ∧
        beginsWith (inflating (packed (headerOf 257 1 shortCl manyLitlen)))
          (headerOf 257 1 shortCl manyLitlen)) ∧
      expandItems (clTable shortCl) (257 + 1) manyLitlen [] =
        some ([1, 1, 1] ++ List.replicate 255 0) ∧
      zBuild (litlenLengths 257 ([1, 1, 1] ++ List.replicate 255 0)) = .error 1 :=
  ⟨startsWith_meets (by decide +kernel), by decide +kernel⟩

/-- Three DIST codes of one bit. -/
def manyDist : List LengthItem := [⟨18, 127⟩, ⟨18, 108⟩, ⟨1, 0⟩, ⟨1, 0⟩, ⟨1, 0⟩]

theorem witness_DynamicHeaderFaults_dist :
    (readyToInflate (inflating (packed (headerOf 257 3 shortCl manyDist))) = true ∧
        (headerOf 257 3 shortCl manyDist).length ≤
          realBits (inflating (packed (headerOf 257 3 shortCl manyDist))) ∧
        beginsWith (inflating (packed (headerOf 257 3 shortCl manyDist)))
          (headerOf 257 3 shortCl manyDist)) ∧
      expandItems (clTable shortCl) (257 + 3) manyDist [] =
        some (List.replicate 257 0 ++ [1, 1, 1]) ∧
      (zTable (litlenLengths 257 (List.replicate 257 0 ++ [1, 1, 1]))).isSome = true ∧
      zBuild (distLengths 257 (List.replicate 257 0 ++ [1, 1, 1])) = .error 1 :=
  ⟨startsWith_meets (by decide +kernel), by decide +kernel⟩

/-- The literal `a` in a final fixed block, and what follows it. -/
def afterA (next : List Bool) : List Bool :=
  headBits true .fixed fixedTables ++ [Token.literal 0x61].flatMap
    (tokenBits fixedTables.ll fixedTables.dt) ++ next

/-- A fixed block's state with room for `cap` bytes. -/
def afterAState (next : List Bool) (cap : Word) : State :=
  { inflating (packed (afterA next)) with out.outCap := cap }

/-- The tokens that fault after `a`: no room for a literal; no room for a match; S5's distance; the
length symbol 286; the distance symbol 30. -/
theorem witness_CompressedDataFaults_tokens :
    expandTokens fixedTables.ll fixedTables.dt [.literal 0x61] [] = some [0x61] ∧
      tokenFault fixedTables.ll fixedTables.dt 1 [0x61] (.literal 0x62) =
        some (0x0F, 2, codeBits fixedTables.ll 0x62) ∧
      tokenFault fixedTables.ll fixedTables.dt 3 [0x61] (.copy 0 0 0 0) =
        some (0x0F, 4, tokenBits fixedTables.ll fixedTables.dt (.copy 0 0 0 0)) ∧
      tokenFault fixedTables.ll fixedTables.dt 64 [0x61] (.copy 0 0 1 0) =
        some (0x0E, 2, tokenBits fixedTables.ll fixedTables.dt (.copy 0 0 1 0)) ∧
      tokenFault fixedTables.ll fixedTables.dt 64 [0x61] (.copy 29 0 0 0) =
        some (0x0A, 286, codeBits fixedTables.ll 286) ∧
      tokenFault fixedTables.ll fixedTables.dt 64 [0x61] (.copy 0 0 30 0) =
        some (0x0A, 30, lengthBits fixedTables.ll 0 0 ++ codeBits fixedTables.dt 30) := by
  decide +kernel

/-- S5's input is the fixed block of `a` and that distance. -/
theorem witness_CompressedDataFaults_distance :
    (readyToInflate (inflating [0x4B, 0x04, 0x42, 0x00]) = true ∧
      (afterA (tokenBits fixedTables.ll fixedTables.dt (.copy 0 0 1 0))).length ≤
        realBits (inflating [0x4B, 0x04, 0x42, 0x00]) ∧
      beginsWith (inflating [0x4B, 0x04, 0x42, 0x00])
        (afterA (tokenBits fixedTables.ll fixedTables.dt (.copy 0 0 1 0)))) ∧
    headTables .fixed = some fixedTables ∧ window (inflating [0x4B, 0x04, 0x42, 0x00]) = [] :=
  ⟨startsWith_meets (by decide +kernel), headTables_fixed, by decide⟩

theorem witness_CompressedDataFaults_room :
    let s := afterAState (codeBits fixedTables.ll 0x62) 1
    readyToInflate s = true ∧ (afterA (codeBits fixedTables.ll 0x62)).length ≤ realBits s ∧
      beginsWith s (afterA (codeBits fixedTables.ll 0x62)) :=
  startsWith_meets (by decide +kernel)

/-- One LITLEN code `0`, the end of block. -/
def endHead : BlockHead :=
  .dynamic 257 11 shortCl [⟨18, 127⟩, ⟨18, 107⟩, ⟨1, 0⟩, ⟨18, 0⟩]

def endTables : BlockTables := (headTables endHead).getD ⟨⟨[]⟩, ⟨[]⟩, none⟩

/-- The next bit is 1. -/
theorem witness_CompressedDataFaults_noCode :
    let s := inflating (packed (headBits true endHead endTables ++ [true]))
    (readyToInflate s = true ∧ (headBits true endHead endTables).length ≤ realBits s ∧
        beginsWith s (headBits true endHead endTables)) ∧
      headTables endHead = some endTables ∧
      noneNext endTables.ll
        (fun j => lsbStream s (j + (headBits true endHead endTables).length)) = true :=
  ⟨startsWith_meets (by decide +kernel), some_getD _ (by decide +kernel), by decide +kernel⟩

/-- LITLEN codes `0` for the end of block and `1` for the length 3, and no DIST code. -/
def lengthHead : BlockHead :=
  .dynamic 258 11 shortCl [⟨18, 127⟩, ⟨18, 107⟩, ⟨1, 0⟩, ⟨1, 0⟩, ⟨18, 0⟩]

def lengthTables : BlockTables := (headTables lengthHead).getD ⟨⟨[]⟩, ⟨[]⟩, none⟩

theorem witness_CompressedDataFaults_noDistance :
    let bits := headBits true lengthHead lengthTables ++ lengthBits lengthTables.ll 0 0
    let s := inflating (packed bits)
    (readyToInflate s = true ∧ bits.length ≤ realBits s ∧ beginsWith s bits) ∧
      headTables lengthHead = some lengthTables ∧ hasCode lengthTables.ll (257 + 0) = true ∧
      0 < 2 ^ lengthExtras.getD 0 0 ∧
      noneNext lengthTables.dt (fun j => lsbStream s (j + bits.length)) = true :=
  ⟨startsWith_meets (by decide +kernel), some_getD _ (by decide +kernel), by decide +kernel⟩

/-- The fixed block of `a`, its last byte missing: the real bits end in the end-of-block code. -/
theorem witness_CompressedDataFaults_end :
    let s := inflating [0x4B, 0x04]
    (readyToInflate s = true ∧ (afterA []).length ≤ realBits s ∧ beginsWith s (afterA [])) ∧
      hasCode fixedTables.ll 256 = true ∧
      beginsWith s (afterA (codeBits fixedTables.ll 256)) ∧
      realBits s < (afterA (codeBits fixedTables.ll 256)).length :=
  ⟨startsWith_meets (by decide +kernel), by decide +kernel, by unfold beginsWith; decide +kernel,
    by decide +kernel⟩

/-- The greatest distance, and a length that fills the output. -/
theorem witness_CopyRepeatsWindow :
    1 ≤ 5 ∧ 5 ≤ ({ inflating [] with out.outLen := 5 } : State).out.outLen.toNat ∧
      ({ inflating [] with out.outLen := 5 } : State).out.outLen.toNat + 59 ≤
        ({ inflating [] with out.outLen := 5 } : State).out.outCap.toNat ∧
      answers { inflating [] with out.outLen := 5 }
        (outputRegion { inflating [] with out.outLen := 5 }) = true ∧
      Memory.wf (inflating []).bus.mem = true := by decide

/-- Row 1 of P3 with alpha, its three regions side by side. -/
def row (ft : Byte) : State :=
  { operand 0x100 [ft, 1, 2, 3, 1, 1, 1] with
    args.arg1 := 0x107, args.arg2 := 0x10F, args.arg3 := 6 }

theorem witness_UnfilterRow_filters :
    valueFault (.pngUnfilter 2 false true false) (row 4) = none ∧
      answers (row 4) ⟨(row 4).args.arg0.toNat, 1 + (row 4).args.arg3.toNat⟩ = true ∧
      answers (row 4) ⟨(row 4).args.arg1.toNat, outputRow 2 true false (row 4)⟩ = true ∧
      answers (row 4) ⟨(row 4).args.arg2.toNat, outputRow 2 true false (row 4)⟩ = true ∧
      Memory.wf (row 4).bus.mem = true ∧
      (byteAt (row 4) (row 4).args.arg0.toNat).toNat ≤ 4 := by decide +kernel

theorem witness_UnfilterRow_badType :
    valueFault (.pngUnfilter 2 true true false) (row 5) = none ∧
      answers (row 5) ⟨(row 5).args.arg0.toNat, 1 + (row 5).args.arg3.toNat⟩ = true ∧
      answers (row 5) ⟨(row 5).args.arg1.toNat, outputRow 2 true false (row 5)⟩ = true ∧
      Memory.wf (row 5).bus.mem = true ∧
      4 < (byteAt (row 5) (row 5).args.arg0.toNat).toNat := by decide +kernel

/-- S8: the Sub row of P3. -/
theorem witness_UnfilterInvertsFilter :
    valueFault (.pngUnfilter 2 true false false)
        { operand 0x1000 [1, 0x10, 0x20, 0x30, 1, 1, 1] with args.arg1 := 0x2000, args.arg3 := 6 } =
        none ∧
      (byteAt (operand 0x1000 [1, 0x10, 0x20, 0x30, 1, 1, 1]) 0x1000).toNat ≤ 4 ∧
      ∀ k, k < 6 → byteAt (operand 0x1000 [1, 0x10, 0x20, 0x30, 1, 1, 1]) (0x1000 + 1 + k) =
        [(0x10 : Byte), 0x20, 0x30, 0x11, 0x21, 0x31].getD k 0 -
          predicted 1 3 k (fun j => [(0x10 : Byte), 0x20, 0x30, 0x11, 0x21, 0x31].getD j 0)
            (fun _ => 0) := by decide +kernel

/-- The ties of 95_test_vectors.md: b over c, and a over c. -/
theorem witness_PaethPicksNearest :
    ((7 : Int) = 13 + 4 - 10 ∧ ((7 : Int) - 4).natAbs < ((7 : Int) - 13).natAbs ∧
        ((7 : Int) - 4).natAbs ≤ ((7 : Int) - 10).natAbs) ∧
      ((2 : Int) = 1 + 4 - 3 ∧ ((2 : Int) - 1).natAbs ≤ ((2 : Int) - 4).natAbs ∧
        ((2 : Int) - 1).natAbs ≤ ((2 : Int) - 3).natAbs) := by decide

theorem witness_ReceiveExtends :
    (16 : BitVec 5).toNat ≤ 16 ∧ (0 : BitVec 5).toNat = 0 ∧ (input .msb [0xA0]).rd.mode = .msb ∧
      readerOk (input .msb [0xA0]).rd = true ∧ inputAnswers (input .msb [0xA0]) = true := by decide

/-- The table ends at the last address. -/
theorem witness_QuantTableLoaded :
    answers (operand 0xFFFFFF80 [1]) ⟨(operand 0xFFFFFF80 [1]).args.arg0.toNat, 128⟩ = true ∧
      answers (operand 0xFFFFFFC0 [1]) ⟨(operand 0xFFFFFFC0 [1]).args.arg0.toNat, 64⟩ = true := by
  decide

/-- The MODE 1 stream of `s` begins with the bits. -/
def startsWithMsb (s : State) (bits : List Bool) : Bool :=
  (List.range bits.length).all (fun j => msbStream s j == bits.getD j false)

theorem startsWithMsb_meets {s : State} {bits : List Bool} (h : startsWithMsb s bits = true) :
    beginsWithMsb s bits := by
  simpa [startsWithMsb, beginsWithMsb] using h

/-- V113: DC category 0, then the end of the block. -/
theorem witness_BlockDecodes :
    ∃ dc ac, (jpeg [0x0F]).rd.mode = .msb ∧ readerOk (jpeg [0x0F]).rd = true ∧
      inputAnswers (jpeg [0x0F]) = true ∧ (jpeg [0x0F]).tab.jdc[sel4 0] = some dc ∧
      (jpeg [0x0F]).tab.jac[sel4 0] = some ac ∧ jTableOk dc = true ∧ jTableOk ac = true ∧
      0 < dc.entries.length ∧ (jEntry dc 0).val.toNat ≤ 15 ∧ 0 < 2 ^ (jEntry dc 0).val.toNat ∧
      placeItems ac [] 1 ((Vector.replicate 64 0).set 0 ((0 : Word).setWidth 16)) =
        some (1, Vector.replicate 64 0) ∧
      isEob ac 0 = true ∧ beginsWithMsb (jpeg [0x0F]) (blockBits dc ac 0 0 [] 1 0) :=
  ⟨_, _, rfl, by decide, by decide, rfl, rfl, by decide +kernel, by decide +kernel, by decide,
    by decide, by decide, by decide +kernel, by decide, startsWithMsb_meets (by decide +kernel)⟩

/-- V114: four ZRLs fill the block. -/
theorem witness_BlockDecodes_full :
    ∃ dc ac, dcTable = some dc ∧ acTable = some ac ∧
      placeItems ac [⟨3, 0⟩, ⟨3, 0⟩, ⟨3, 0⟩, ⟨3, 0⟩] 1
          ((Vector.replicate 64 0).set 0 ((0 : Word).setWidth 16)) =
        some (65, Vector.replicate 64 0) ∧
      beginsWithMsb (jpeg [0x2A, 0xAA, 0xBF])
        (blockBits dc ac 0 0 [⟨3, 0⟩, ⟨3, 0⟩, ⟨3, 0⟩, ⟨3, 0⟩] 65 0) :=
  ⟨_, _, rfl, rfl, by decide +kernel, startsWithMsb_meets (by decide +kernel)⟩

/-- A DC table whose one code stands for category 16. -/
def dc16 : Option JTable := jTable (1 :: List.replicate 15 0) [0x10]

theorem witness_BlockFaultsKeepPartial_category :
    ∃ dc, dc16 = some dc ∧ jTableOk dc = true ∧ 0 < dc.entries.length ∧
      15 < (jEntry dc 0).val.toNat ∧
      beginsWithMsb (jpeg [0x00]) (bitsOf (jEntry dc 0).size (jEntry dc 0).code) :=
  ⟨_, rfl, by decide +kernel, by decide, by decide, startsWithMsb_meets (by decide +kernel)⟩

/-- V115's items: three ZRLs, and seven of the symbol 0x11. -/
def v115 : List AcItem := List.replicate 3 ⟨3, 0⟩ ++ List.replicate 7 ⟨2, 1⟩

theorem witness_BlockFaultsKeepPartial_run :
    ∃ dc ac coef, dcTable = some dc ∧ acTable = some ac ∧
      placeItems ac v115 1 ((Vector.replicate 64 0).set 0 ((0 : Word).setWidth 16)) =
        some (63, coef) ∧
      (jEntry ac 2).val.toNat % 16 ≠ 0 ∧ 63 < 63 + (jEntry ac 2).val.toNat / 16 ∧
      beginsWithMsb (jpeg [0x2A, 0xAA, 0x66, 0x66, 0x66, 0x67]) (openBlockBits dc ac 0 0 v115) ∧
      beginsWithMsb (jpeg [0x2A, 0xAA, 0x66, 0x66, 0x66, 0x67])
        (openBlockBits dc ac 0 0 v115 ++ bitsOf (jEntry ac 2).size (jEntry ac 2).code) :=
  ⟨_, _, _, rfl, rfl, rfl, by decide, by decide, startsWithMsb_meets (by decide +kernel),
    startsWithMsb_meets (by decide +kernel)⟩

/-- No DC code begins with nine ones, and after the DC code no AC code begins with two. -/
theorem witness_BlockFaultsKeepPartial_noCode :
    ∃ dc ac, dcTable = some dc ∧ acTable = some ac ∧
      (∀ e, e ∈ dc.entries →
        codeNext e.size e.code (msbStream (jpeg [0xFF, 0x00, 0xFF, 0x00])) = false) ∧
      beginsWithMsb (jpeg [0x30]) (openBlockBits dc ac 0 0 []) ∧
      ∀ e, e ∈ ac.entries →
        codeNext e.size e.code
          (fun j => msbStream (jpeg [0x30]) (j + (openBlockBits dc ac 0 0 []).length)) = false :=
  ⟨_, _, rfl, rfl, by decide +kernel, startsWithMsb_meets (by decide +kernel), by decide +kernel⟩

theorem witness_EntropyResets_cached :
    ({ input .msb [] with rd.nomore := true, rd.marker := 0xD7 } : State).rd.mode = .msb ∧
      readerOk { (input .msb []).rd with nomore := true, marker := 0xD7 } = true ∧
      inputAnswers { input .msb [] with rd.nomore := true, rd.marker := 0xD7 } = true ∧
      0xD0 ≤ (0xD7 : Byte).toNat ∧ (0xD7 : Byte).toNat ≤ 0xD7 := by decide

theorem witness_EntropyResets_next :
    readerOk (input .msb [0xFF, 0xD0]).rd = true ∧ inputAnswers (input .msb [0xFF, 0xD0]) = true ∧
      (input .msb [0xFF, 0xD0]).rd.bitcnt < 24 ∧ (input .msb [0xFF, 0xD0]).rd.nomore = false ∧
      2 ≤ inputLeft (input .msb [0xFF, 0xD0]) ∧ inputByte (input .msb [0xFF, 0xD0]) 0 = 0xFF ∧
      0xD0 ≤ (inputByte (input .msb [0xFF, 0xD0]) 1).toNat ∧
      (inputByte (input .msb [0xFF, 0xD0]) 1).toNat ≤ 0xD7 := by decide

theorem witness_EntropyResets_full :
    readerOk { (input .msb []).rd with bitcnt := 24 } = true ∧
      24 ≤ ({ input .msb [] with rd.bitcnt := 24 } : State).rd.bitcnt ∧
      0xD7 < ({ input .msb [] with rd.bitcnt := 24 } : State).rd.marker.toNat := by decide

/-- V118. -/
theorem witness_EntropyResets_missing :
    readerOk (input .msb [0x12, 0x34]).rd = true ∧ inputAnswers (input .msb [0x12, 0x34]) = true ∧
      (input .msb [0x12, 0x34]).rd.bitcnt < 24 ∧ 0xD7 < (input .msb [0x12, 0x34]).rd.marker.toNat ∧
      ∀ k, k < 4 → k < inputLeft (input .msb [0x12, 0x34]) →
        inputByte (input .msb [0x12, 0x34]) k ≠ 0xFF := by decide

theorem witness_CoefTransfers :
    answers (operand 0xFFFFFF80 [1]) ⟨(operand 0xFFFFFF80 [1]).args.arg0.toNat, 128⟩ = true ∧
      Memory.wf (operand 0xFFFFFF80 [1]).bus.mem = true := by decide

/-- Stride 0 covers seven rows, and stride 8 none; the last row covers no other. -/
theorem witness_IdctWritesPixels :
    valueFault (.idct false 0) { operand 0x200 [] with args.arg1 := 8 } = none ∧
      (∀ r, r < 8 → answers { operand 0x200 [] with args.arg1 := 8 } ⟨0x200 + r * 8, 8⟩ = true) ∧
      Memory.wf (operand 0x200 []).bus.mem = true ∧
      (∀ r', r' < 8 → 0 < r' → within (0x200 + 0 * 8 + 7) (0x200 + r' * 8) 8 = false) ∧
      within (0x200 + 0 * 0 + 7) (0x200 + 7 * 0) 8 = true := by decide

theorem witness_IdctWritesPixels_deq :
    valueFault (.idct true 3)
        { operand 0x200 [] with
          tab.qt := (Vector.replicate 4 none).set 3 (some (Vector.replicate 64 16)) } = none ∧
      ((Vector.replicate 4 none).set 3 (some (Vector.replicate 64 (16 : Half))))[sel4 3] =
        some (Vector.replicate 64 16) := by decide

theorem witness_FlatBlockPixels :
    ∃ x : Nat → Word, x 0 = (0x8000 : Half).signExtend 32 ∧ ∀ i, 1 ≤ i → i < 64 → x i = 0 :=
  ⟨fun i => if i = 0 then (0x8000 : Half).signExtend 32 else 0, rfl, fun i h _ => if_neg (by omega)⟩

end Sys2Proof.Tests
end

-- The host's register accesses and the engine's turn as single steps, and the statements of 10_state.md.
section
namespace Sys2Proof.Machine

open Sys2Proof

variable {s : State} {rest : List Event} {off : Nat} {w : Word}

/-! ### One step of the schedule -/

theorem step_of_unscheduled (h : s.env.events = []) : step s = engineTurn s := by
  rw [step, advance, h]

theorem step_of_event {e : Event} (h : s.env.events = e :: rest) :
    step s = happen e (withEvents rest s) := by
  rw [step, advance, h]

/-! ### Register accesses (10_state.md R35, R51, R54) -/

/-- An aligned offset below 0x100 is that of a legal access at that distance from REG_BASE. -/
theorem regOffset_of_aligned (hlt : off < blockBytes) (h4 : off % 4 = 0) :
    regOffset (s.env.regBase + off) 4 s = .ok off := by
  have hin : ¬(s.env.regBase + off < s.env.regBase ∨
      s.env.regBase + blockBytes ≤ s.env.regBase + off) := by omega
  rw [regOffset, if_neg hin, Nat.add_sub_cancel_left, if_neg (by simp [h4])]

theorem step_regWrite (hlt : off < blockBytes) (h4 : off % 4 = 0)
    (h : s.env.events = .regWrite (s.env.regBase + off) 4 w :: rest) :
    step s = .next (regWrite off w (withEvents rest s)) := by
  have hoff := regOffset_of_aligned (s := withEvents rest s) hlt h4
  rw [withEvents_env] at hoff
  rw [step_of_event h, happen, hostRegWrite, hoff]

theorem step_regRead (hlt : off < blockBytes) (h4 : off % 4 = 0)
    (h : s.env.events = .regRead (s.env.regBase + off) 4 :: rest) :
    step s = .next (regRead off (withEvents rest s)) := by
  have hoff := regOffset_of_aligned (s := withEvents rest s) hlt h4
  rw [withEvents_env] at hoff
  rw [step_of_event h, happen, hostRegRead, hoff]

/-- A register without drawn bits reads in BUSY as it does otherwise (10_state.md R52). -/
theorem busyValue_of_undrawn (h : drawMask off = 0) : busyValue off s = regValue off s := by
  simp only [busyValue, h, BitVec.ofNat_eq_ofNat, BitVec.not_zero, BitVec.and_allOnes,
    BitVec.and_zero, BitVec.or_zero]

/-- So reading it shows its value in every engine state, and no register of the HDU changes. -/
theorem regRead_of_undrawn (h : drawMask off = 0) :
    ∃ n, regRead off s =
      { s with env := { s.env with hostData := regValue off s, freeCount := n } } := by
  rw [regRead]
  cases s.ctl.estate with
  | busy => exact ⟨s.env.freeCount + 1, by rw [busyValue_of_undrawn h]⟩
  | idle => exact ⟨s.env.freeCount, rfl⟩
  | fault => exact ⟨s.env.freeCount, rfl⟩

/-! ### CMD (10_state.md R40, R52, R53) -/

theorem writeCmd_idle (h : s.ctl.estate = .idle) :
    writeCmd w s = { s with ctl := { s.ctl with estate := .busy, cmd := w } } := by
  rw [writeCmd, h]

theorem writeCmd_of_not_idle (h : s.ctl.estate ≠ .idle) : writeCmd w s = dropWrite s := by
  rw [writeCmd]
  cases he : s.ctl.estate with
  | idle => exact absurd he h
  | busy => rfl
  | fault => rfl

theorem step_cmdWrite (h : s.env.events = .regWrite (s.env.regBase + 0x10) 4 w :: rest) :
    step s = .next (writeCmd w (withEvents rest s)) :=
  step_regWrite (by decide) (by decide) h

/-! ### The engine's turn (10_state.md R40, R63; 30_encoding.md R126, R127) -/

theorem engineTurn_busy (h : s.ctl.estate = .busy) : engineTurn s = runLatched s := by
  rw [engineTurn, h]

theorem runLatched_ok {i : Instr} (h : decode s.ctl.cmd = .ok i) : runLatched s = exec i s := by
  rw [runLatched, latched, h]
  rfl

theorem runLatched_error {e : DecodeError} (h : decode s.ctl.cmd = .error e) :
    runLatched s = .next (faulted 0x01 s.ctl.cmd s) := by
  rw [runLatched, latched, h]
  rfl

/-- With nothing scheduled, a BUSY engine runs the command that its word decodes to. -/
theorem step_busy_ok {i : Instr} (hb : s.ctl.estate = .busy) (he : s.env.events = [])
    (h : decode s.ctl.cmd = .ok i) : step s = exec i s := by
  rw [step_of_unscheduled he, engineTurn_busy hb, runLatched_ok h]

/-- A word that is no command faults in that turn instead. -/
theorem step_busy_error {e : DecodeError} (hb : s.ctl.estate = .busy) (he : s.env.events = [])
    (h : decode s.ctl.cmd = .error e) : step s = .next (faulted 0x01 s.ctl.cmd s) := by
  rw [step_of_unscheduled he, engineTurn_busy hb, runLatched_error h]

/-- Settles O6: by the engine's state, what the write makes of CMD and what the next turn runs; a
read of CMD, which has no drawn bits, shows 0. -/
theorem cmdWriteStartsCommand : Obligations.CmdWriteStartsCommand := by
  unfold Obligations.CmdWriteStartsCommand
  intro s w rest
  refine ⟨fun hev => ⟨fun hidle => ⟨?_, ?_⟩, fun _ e hdec hrest => ?_, fun hne => ?_⟩, fun hev => ?_⟩
  · rw [step_cmdWrite hev, writeCmd_idle (s := withEvents rest s) hidle]
    rfl
  · intro i hdec hrest
    exact step_busy_ok rfl hrest hdec
  · exact step_busy_error rfl hrest hdec
  · rw [step_cmdWrite hev, writeCmd_of_not_idle (s := withEvents rest s) hne]
    rfl
  · obtain ⟨n, hread⟩ := regRead_of_undrawn (off := 0x10) (s := withEvents rest s) rfl
    exact ⟨n, by rw [step_regRead (by decide) (by decide) hev, hread]; rfl⟩

end Sys2Proof.Machine
end

-- The words that are no command, the decode-time checks as a list, and the statements of 30_encoding.md.
section
namespace Sys2Proof.Machine

open Sys2Proof

/-! ### Words that are no command (30_encoding.md R126, R127) -/

section

variable {w : Word} {hi : Nat} {i : Instr}

theorem opcodeOf_toNat : (opcodeOf w).toNat = w.toNat % 256 := by
  simp [opcodeOf, fieldBits]

theorem withoutReserved_eq_reservedBits :
    withoutReserved w hi i = .error .reservedBits ↔ w.toNat / 2 ^ hi ≠ 0 := by
  rw [withoutReserved]
  split <;> simp [*]

theorem withoutReserved_ne_reservedOpcode : withoutReserved w hi i ≠ .error .reservedOpcode := by
  rw [withoutReserved]
  split <;> simp

end

/-- Everything that the decoder can answer: a reserved opcode is refused, and any other word is
refused or is a command by the bits that its opcode's format does not name. -/
theorem decode_cases (w : Word) :
    (reservedOp (w.toNat % 256) = true ∧ decode w = .error .reservedOpcode) ∨
    (reservedOp (w.toNat % 256) = false ∧
      ∃ i, decode w = withoutReserved w (firstReservedBit (w.toNat % 256)) i) := by
  have hlt : w.toNat % 256 < 256 := Nat.mod_lt _ (by decide)
  rw [decode, opcodeOf_toNat]
  generalize w.toNat % 256 = op at hlt
  split
  case h_22 =>
    refine .inl ⟨?_, rfl⟩
    simp only [reservedOp, Bool.or_eq_true, Bool.and_eq_true, decide_eq_true_eq]
    -- The match's own hypotheses, `op = n → False`, as `omega` reads them.
    simp only [imp_false] at *
    omega
  all_goals exact .inr ⟨rfl, _, rfl⟩

/-- Either way of being no command is an error of the decoder. -/
theorem decode_error_of_reserved {w : Word}
    (h : reservedOp (w.toNat % 256) = true ∨
      w.toNat / 2 ^ firstReservedBit (w.toNat % 256) ≠ 0) : ∃ e, decode w = .error e := by
  rcases decode_cases w with ⟨-, hdec⟩ | ⟨hop, i, hdec⟩
  · exact ⟨_, hdec⟩
  · have hbits := h.resolve_left (by simp [hop])
    exact ⟨_, hdec.trans (withoutReserved_eq_reservedBits.mpr hbits)⟩

/-- The turn of a word that is no command. -/
theorem step_busy_reserved {s : State} (hbusy : s.ctl.estate = .busy) (hev : s.env.events = [])
    (h : reservedOp (s.ctl.cmd.toNat % 256) = true ∨
      s.ctl.cmd.toNat / 2 ^ firstReservedBit (s.ctl.cmd.toNat % 256) ≠ 0) :
    step s = .next (faulted 0x01 s.ctl.cmd s) :=
  (decode_error_of_reserved h).elim fun _ hdec => step_busy_error hbusy hev hdec

/-- Settles O3: the decoder's answers by opcode and by reserved bits, and the turn of a word that it
refuses. -/
theorem reservedWordsRaiseIllegal : Obligations.ReservedWordsRaiseIllegal := by
  unfold Obligations.ReservedWordsRaiseIllegal
  refine ⟨fun w => ?_, fun s => step_busy_reserved⟩
  rcases decode_cases w with ⟨hop, hdec⟩ | ⟨hop, i, hdec⟩
  · simp [hop, hdec]
  · rw [hop, hdec]
    exact ⟨by simp [withoutReserved_ne_reservedOpcode], fun _ => withoutReserved_eq_reservedBits⟩

/-! ### The decode-time checks of a command as a list (30_encoding.md R130, steps 3 to 8) -/

/-- One decode-time check, by its operation of Machine/Ops.lean. -/
inductive Check where
  | legal (b : Bool)
  | mode (m : Mode)
  | table (valid : Bool) (bit : Nat)
  | input
  | range (r : Region)
  | outLen
  | apart (output other : Region)

/-- The check in a command's pseudocode. -/
def Check.run : Check → Engine Unit
  | .legal b => needLegal b
  | .mode m => needMode m
  | .table valid bit => needTable valid bit
  | .input => needInput
  | .range r => needRange r
  | .outLen => needOutLen
  | .apart output other => needApart output other

/-- The fault that the check raises in a state, if any. -/
def Check.fault (s : State) : Check → Option (FaultCode × Word)
  | .legal b => if b then none else some (.eIllegal, s.ctl.cmd)
  | .mode m => if s.rd.mode = m then none else some (.eMode, modeInfo s.rd.mode)
  | .table valid bit => if valid then none else some (.eNotable, Word.ofNat bit)
  | .input =>
    if regionFits (inputRegion s) then none else some (.eRange, Word.ofNat (inputRegion s).lo)
  | .range r => if regionFits r then none else some (.eRange, Word.ofNat r.lo)
  | .outLen =>
    if s.out.outLen.toNat ≤ s.out.outCap.toNat then none else some (.eRange, s.out.outLen)
  | .apart output other =>
    if regionsMeet output other then some (.eOverlap, Word.ofNat output.lo) else none

/-- Checks, and then the rest of the pseudocode. -/
def guarded (rest : Engine Word) : List Check → Engine Word
  | [] => rest
  | c :: cs => do
    c.run
    guarded rest cs

/-- The fault of the first check that fails. -/
def firstFault (s : State) (cs : List Check) : Option (FaultCode × Word) :=
  cs.findSome? (Check.fault s)

section

variable {s : State}

@[simp] theorem firstFault_nil : firstFault s [] = none := rfl

@[simp] theorem firstFault_cons (c : Check) (cs : List Check) :
    firstFault s (c :: cs) = (c.fault s).or (firstFault s cs) := by
  rw [firstFault, List.findSome?_cons]
  cases c.fault s <;> rfl

@[simp] theorem firstFault_append (cs ds : List Check) :
    firstFault s (cs ++ ds) = (firstFault s cs).or (firstFault s ds) := List.findSome?_append

@[simp] theorem word_ofNat_toNat (w : Word) : Word.ofNat w.toNat = w := by
  simp [Word.ofNat]

theorem needOutLen_run (r : Run) :
    needOutLen r =
      if r.st.out.outLen.toNat ≤ r.st.out.outCap.toNat then .ok () r
      else .error (.raised .eRange r.st.out.outLen) r := by
  simp only [needOutLen, bind_run, look_run]
  split <;> rfl

/-- A check changes nothing: it passes, or it raises its fault. -/
theorem Check.run_whole (c : Check) :
    c.run (Run.whole s) =
      match c.fault s with
      | none => .ok () (Run.whole s)
      | some f => .error (.raised f.1 f.2) (Run.whole s) := by
  cases c with
  | legal b => rw [run, fault, needLegal_run]; split <;> rfl
  | mode m => rw [run, fault, needMode_run]; split <;> rfl
  | table valid bit => rw [run, fault, needTable_run]; split <;> rfl
  | input => rw [run, fault, needInput_run]; split <;> rfl
  | range r => rw [run, fault, needRange_run]; split <;> rfl
  | outLen => rw [run, fault, needOutLen_run]; split <;> rfl
  | apart output other => rw [run, fault, needApart_run]; split <;> rfl

/-- The first check that fails ends the pseudocode in the state at its start. -/
theorem guarded_raises (rest : Engine Word) {cs : List Check} {f : FaultCode × Word}
    (h : firstFault s cs = some f) :
    guarded rest cs (Run.whole s) = .error (.raised f.1 f.2) (Run.whole s) := by
  induction cs with
  | nil => cases h
  | cons c cs ih =>
    have hc := Check.run_whole (s := s) c
    rw [firstFault_cons] at h
    cases hf : c.fault s with
    | none =>
      rw [hf] at hc h
      rw [guarded, bind_ok hc]
      exact ih h
    | some g =>
      rw [hf] at hc h
      cases h
      rw [guarded, bind_error hc]

end

/-- What steps 3 and 4 require of the fields and operand values. -/
def legalValues (i : Instr) (s : State) : List Bool :=
  match i with
  | .brGetbits n | .brPeekbits n => [readBitsLegal n]
  | .brReadbytes sz _ => [byteCountLegal sz]
  | .hbZlib tid => [tableIdLegal tid, symCountLegal (tableSel tid) s.args.arg1.toNat]
  | .hdZlib tid => [tableIdLegal tid]
  | .pngUnfilter bppm1 _ alpha a16 =>
    [ alphaLegal bppm1 alpha a16,
      rowLengthLegal alpha (bytesPerPixel bppm1) s.args.arg3.toNat ]
  | .jReceive n => [receiveBitsLegal n]
  | .idct deq qidx => [idctLegal deq qidx]
  | _ => []

/-- Step 5: the reader mode. -/
def modeChecks : Instr → List Check
  | .hdZlib _ | .zHeader | .inflate _ => [.mode .lsb]
  | .hdJpeg _ _ | .jReceive _ | .jDecodeBlock _ _ _ | .jReset | .jRestart => [.mode .msb]
  | _ => []

/-- Step 6: the tables. -/
def tableChecks (i : Instr) (s : State) : List Check :=
  match i with
  | .hdZlib tid => [.table (zValid s (tableSel tid)) (zvBit (tableSel tid))]
  | .hdJpeg cls idx => [.table (jValid s cls (sel4 idx)) (jvBit cls (sel4 idx))]
  | .jDecodeBlock dct act _ =>
    [ .table (jValid s .dc (sel4 dct)) (jvBit .dc (sel4 dct)),
      .table (jValid s .ac (sel4 act)) (jvBit .ac (sel4 act)) ]
  | .idct deq qidx => [.table (!deq || qValid s (sel4 qidx)) (qvBit (sel4 qidx))]
  | _ => []

/-- Step 7: the ranges. -/
def rangeChecks (i : Instr) (s : State) : List Check :=
  match i with
  | .nop | .jReset => []
  | .hbZlib _ => [.range ⟨s.args.arg0.toNat, s.args.arg1.toNat⟩]
  | .hbJpeg _ _ => [.range ⟨s.args.arg0.toNat, 16⟩]
  | .inflate _ => [.input, .range (outputRegion s), .outLen]
  | .pngUnfilter bppm1 first alpha a16 =>
    [ .range (rawRegion (rowJob bppm1 first alpha a16 s)),
      .range (rowRegion (rowJob bppm1 first alpha a16 s)) ] ++
      if first then [] else [.range (priorRegion (rowJob bppm1 first alpha a16 s))]
  | .qtLoad _ p16 => [.range ⟨s.args.arg0.toNat, quantBytes p16⟩]
  | .coefLoad | .coefStore => [.range ⟨s.args.arg0.toNat, 128⟩]
  | .idct _ _ => [.range ⟨s.args.arg0.toNat, 7 * s.args.arg1.toNat + 8⟩]
  | _ => [.input]

/-- Step 8: the overlap. -/
def apartChecks (i : Instr) (s : State) : List Check :=
  match i with
  | .inflate _ => [.apart (outputRegion s) (inputRegion s)]
  | .pngUnfilter bppm1 first alpha a16 =>
    [ .apart (rowRegion (rowJob bppm1 first alpha a16 s))
        (rawRegion (rowJob bppm1 first alpha a16 s)),
      .apart (rowRegion (rowJob bppm1 first alpha a16 s))
        (priorRegion (rowJob bppm1 first alpha a16 s)) ]
  | _ => []

/-- All the decode-time checks of a command, in order. -/
def checks (i : Instr) (s : State) : List Check :=
  (legalValues i s).map .legal ++
    (modeChecks i ++ (tableChecks i s ++ (rangeChecks i s ++ apartChecks i s)))

/-- The pseudocode of every command begins with its checks. -/
theorem pseudocode_guarded (i : Instr) (s : State) :
    ∃ rest, pseudocode i (Run.whole s) = guarded rest (checks i s) (Run.whole s) := by
  cases i with
  | pngUnfilter bppm1 first alpha a16 => cases first <;> exact ⟨_, rfl⟩
  | _ => exact ⟨_, rfl⟩

/-! ### The checks of the list are those of `valueFault`, step by step -/

section

variable {i : Instr} {s : State}

/-! #### The field and operand values -/

theorem zMaxSym_tableSel : ∀ tid : BitVec 2, tid ≠ 3 →
    zMaxSym (tableSel tid) = if tid = 0 then 288 else if tid = 1 then 32 else 19 := by decide

theorem word_eq_zero_iff (w : Word) : w = 0#32 ↔ w.toNat = 0 := by simp [← BitVec.toNat_inj]

/-- A value is illegal where one of the requirements fails. -/
theorem illegalValues_eq : illegalValues i s = !(legalValues i s).all id := by
  rw [Bool.eq_iff_iff]
  cases i with
  | brGetbits n | brPeekbits n => simp [illegalValues, legalValues, readBitsLegal]
  | brReadbytes sz chk =>
    simp [illegalValues, legalValues, byteCountLegal, ← BitVec.toNat_inj, and_assoc]
  | hbZlib tid =>
    by_cases htid : tid = 3
    · simp [illegalValues, legalValues, tableIdLegal, htid]
    · simp only [illegalValues, legalValues, tableIdLegal, symCountLegal,
        zMaxSym_tableSel tid htid]
      simp [word_eq_zero_iff, or_assoc]
  | hdZlib tid => simp [illegalValues, legalValues, tableIdLegal]
  | pngUnfilter bppm1 first alpha a16 =>
    cases alpha <;> cases a16 <;>
      simp [illegalValues, legalValues, alphaLegal, rowLengthLegal, bytesPerPixel, word_eq_zero_iff]
    case true.true => omega
  | jReceive n => simp [illegalValues, legalValues, receiveBitsLegal]
  | idct deq qidx => simp [illegalValues, legalValues, idctLegal]
  | _ => rfl

theorem firstFault_legal (bs : List Bool) :
    firstFault s (bs.map .legal) = if bs.all id then none else some (.eIllegal, s.ctl.cmd) := by
  induction bs with
  | nil => rfl
  | cons b bs ih => cases b <;> simp [Check.fault, ih]

/-! #### The reader mode and the tables -/

theorem firstFault_modeChecks :
    firstFault s (modeChecks i) = (wrongMode i s).map fun m => (.eMode, m) := by
  cases i with
  | hdZlib | zHeader | inflate | hdJpeg | jReceive | jDecodeBlock | jReset | jRestart =>
    cases hm : s.rd.mode <;>
      simp [modeChecks, wrongMode, opcode, Check.fault, hm, modeInfo, bitAt, modeBit, Word.ofNat]
  | _ => rfl

theorem tableSel_toNat : ∀ tid : BitVec 2, tid ≠ 3 → (tableSel tid).val = tid.toNat := by decide

theorem firstFault_tableChecks (h : illegalValues i s = false) :
    firstFault s (tableChecks i s) =
      (missingTable i s).map fun b => (.eNotable, Word.ofNat b) := by
  cases i with
  | hdZlib tid =>
    have h3 : tid ≠ 3 := by simpa [illegalValues] using h
    simp only [tableChecks, missingTable, zValid, zvBit, tableSel_toNat tid h3]
    cases s.tab.zt[tableSel tid] <;> rfl
  | hdJpeg cls idx =>
    cases cls with
    | dc =>
      simp only [tableChecks, missingTable, jValid, jTables]
      cases s.tab.jdc[sel4 idx] <;> rfl
    | ac =>
      simp only [tableChecks, missingTable, jValid, jTables]
      cases s.tab.jac[sel4 idx] <;> rfl
  | jDecodeBlock dct act comp =>
    simp only [tableChecks, missingTable, jValid, jTables]
    cases s.tab.jdc[sel4 dct] <;> cases s.tab.jac[sel4 act] <;> rfl
  | idct deq qidx =>
    simp only [tableChecks, missingTable, qValid]
    cases deq <;> cases s.tab.qt[sel4 qidx] <;> rfl
  | _ => rfl

/-! #### The ranges -/

theorem outputRow_eq_rowLen (bppm1 : BitVec 3) (alpha a16 : Bool) :
    outputRow bppm1 alpha a16 s =
      rowLen (bytesPerPixel bppm1) (alphaBytes alpha a16) s.args.arg3.toNat := by
  cases alpha <;> simp [outputRow, rowLen, alphaBytes, bytesPerPixel]

/-- The range check of a region given as its base and its length. -/
def regionCheck (r : Word × Nat) : Check := .range ⟨r.1.toNat, r.2⟩

theorem Check.fault_region (r : Word × Nat) :
    (regionCheck r).fault s = if 2 ^ 32 < r.1.toNat + r.2 then some (.eRange, r.1) else none := by
  simp only [regionCheck, fault, regionFits, addrEnd, word_ofNat_toNat, decide_eq_true_eq,
    ← Nat.not_lt, ite_not]

theorem firstFault_regions (rs : List (Word × Nat)) :
    firstFault s (rs.map regionCheck) =
      (rs.find? fun r => decide (2 ^ 32 < r.1.toNat + r.2)).map fun r => (.eRange, r.1) := by
  induction rs with
  | nil => rfl
  | cons r rs ih =>
    rw [List.map_cons, firstFault_cons, Check.fault_region, ih, List.find?_cons]
    by_cases h : 2 ^ 32 < r.1.toNat + r.2
    · rw [if_pos h, decide_eq_true h]
      rfl
    · rw [if_neg h, decide_eq_false h]
      rfl

/-- The regions of the list are the checked ones; INFLATE checks OUT_LEN after them. -/
theorem firstFault_rangeChecks_eq :
    firstFault s (rangeChecks i s) =
      firstFault s ((checkedRegions i s).map regionCheck ++
        if (opcode i).toNat = 0x21 then [.outLen] else []) := by
  cases i with
  | pngUnfilter bppm1 first alpha a16 =>
    rw [checkedRegions, outputRow_eq_rowLen]
    cases first <;> rfl
  | _ => rfl

theorem firstFault_rangeChecks :
    firstFault s (rangeChecks i s) = (badRange i s).map fun a => (.eRange, a) := by
  rw [firstFault_rangeChecks_eq, firstFault_append, firstFault_regions, badRange]
  cases (checkedRegions i s).find? fun r => decide (2 ^ 32 < r.1.toNat + r.2) with
  | some r => rfl
  | none =>
    by_cases hop : (opcode i).toNat = 0x21
    · by_cases hlen : s.out.outLen.toNat ≤ s.out.outCap.toNat
      · simp [hop, Check.fault, hlen, Nat.not_lt.mpr hlen]
      · simp [hop, Check.fault, hlen, Nat.not_le.mp hlen]
    · simp [hop]

/-! #### The overlap -/

theorem Check.fault_apart (a b : Word) (n m : Nat) :
    Check.fault s (.apart ⟨a.toNat, n⟩ ⟨b.toNat, m⟩) =
      if meets a.toNat n b.toNat m then some (.eOverlap, a) else none := by
  rw [Check.fault, word_ofNat_toNat]
  rfl

/-- An empty interval meets none. -/
theorem meets_empty (a n b : Nat) : meets a n b 0 = false := by simp [meets]

theorem firstFault_apartChecks :
    firstFault s (apartChecks i s) = (overlapping i s).map fun a => (.eOverlap, a) := by
  cases i with
  | inflate stepMode =>
    rw [overlapping, apartChecks, outputRegion, inputRegion, firstFault_cons, Check.fault_apart]
    split <;> rfl
  | pngUnfilter bppm1 first alpha a16 =>
    rw [overlapping, apartChecks, outputRow_eq_rowLen]
    simp only [rowRegion, rawRegion, priorRegion, rowJob, firstFault_cons, Check.fault_apart]
    cases first with
    | true =>
      simp only [↓reduceIte, meets_empty]
      split <;> simp [*]
    | false =>
      simp only [Bool.false_eq_true, ↓reduceIte]
      split <;> split <;> simp [*]
  | _ => rfl

end

/-- The fault of a decoded command by the spec's checks is that of its list of checks. -/
theorem valueFault_eq_firstFault (i : Instr) (s : State) :
    valueFault i s = (firstFault s (checks i s)).map fun f => (faultByte f.1, f.2) := by
  simp only [checks, firstFault_append, firstFault_legal, firstFault_modeChecks,
    firstFault_rangeChecks, firstFault_apartChecks]
  rw [valueFault]
  cases hl : illegalValues i s with
  | true =>
    have : (legalValues i s).all id = false := by simpa [illegalValues_eq] using hl
    simp [this, faultByte]
  | false =>
    have : (legalValues i s).all id = true := by simpa [illegalValues_eq] using hl
    rw [this, firstFault_tableChecks hl]
    cases wrongMode i s with
    | some m => rfl
    | none =>
      cases missingTable i s with
      | some b => rfl
      | none =>
        cases badRange i s with
        | some a => rfl
        | none => cases overlapping i s <;> rfl

/-- The first check of a decoded command that fails is its outcome. -/
theorem exec_of_valueFault {i : Instr} {s : State} {code : Byte} {info : Word}
    (h : valueFault i s = some (code, info)) : exec i s = .next (faulted code info s) := by
  rw [valueFault_eq_firstFault, Option.map_eq_some_iff] at h
  obtain ⟨f, hf, hcode⟩ := h
  cases hcode
  obtain ⟨rest, hrest⟩ := pseudocode_guarded i s
  rw [exec_eq, runCommand_raised (hrest.trans (guarded_raises rest hf)), faultEntry_eq_faulted]

/-- Settles O4: exec takes the fault of the first check of the command that fails; the turn of a
latched word is that of a word which the decoder refuses, or else runs its command. -/
theorem decodeChecksInOrder : Obligations.DecodeChecksInOrder := by
  unfold Obligations.DecodeChecksInOrder
  refine ⟨fun i s code info => exec_of_valueFault, fun s code info hbusy hev h => ?_⟩
  rw [decodeFault] at h
  split at h
  · rename_i hop
    cases h
    exact step_busy_reserved hbusy hev (.inl hop)
  · split at h
    · rename_i hbits
      cases h
      exact step_busy_reserved hbusy hev (.inr hbits)
    · cases hdec : decode s.ctl.cmd with
      | ok i =>
        rw [hdec] at h
        rw [step_busy_ok hbusy hev hdec, exec_of_valueFault h]
      | error e =>
        rw [hdec] at h
        cases h

end Sys2Proof.Machine
end

-- NOP and BR_INIT, the words of opcode byte 0, and the statement of 40_control.md.
section
namespace Sys2Proof.Machine

open Sys2Proof

/-! ### NOP (40_control.md R140) -/

/-- A word of opcode byte 0 is NOP, or it has a reserved bit set. -/
theorem decode_of_opcode_zero {w : Word} (h : w.toNat % 256 = 0) :
    decode w = withoutReserved w 8 .nop := by
  rw [decode, opcodeOf_toNat, h]
  rfl

/-- A word of opcode byte 0 that is not the word 0 has a bit set above that byte. -/
theorem decode_nonzero_of_opcode_zero {w : Word} (h : w.toNat % 256 = 0) (hw : w ≠ 0) :
    decode w = .error .reservedBits := by
  have hpos : w.toNat ≠ 0 := mt (word_eq_zero_iff w).mpr hw
  rw [decode_of_opcode_zero h, withoutReserved_eq_reservedBits]
  omega

theorem exec_nop (s : State) : exec .nop s = .next (completed 0 s) := by
  rw [exec_eq, pseudocode, runCommand_ok (pure_run 0 (Run.whole s)), complete_eq_completed]

/-! ### BR_INIT (41_bitreader.md R165) -/

/-- The range check of the input region passes. -/
theorem needInput_of_fits {r : Run} (h : regionFits (inputRegion r.st) = true) :
    needInput r = .ok () r := by
  rw [needInput_run, if_pos h]

/-- BR_INIT makes all its assignments where the input region fits. -/
theorem exec_brInit_of_fits (m : Mode) {s : State} (h : regionFits (inputRegion s) = true) :
    exec (.brInit m) s = .next (completed 0 (initReader m s)) := by
  have hrun : brInit m (Run.whole s) = .ok 0 (Run.whole (initReader m s)) := by
    rw [brInit, bind_ok (needInput_of_fits h), bind_ok (assignAll_run _ _), afterAll_whole, pure_run,
      initReader]
  rw [exec_eq, pseudocode, runCommand_ok hrun, complete_eq_completed]

/-- Settles O25: the decoder by the bits above the opcode byte 0; each command by the run of its
pseudocode, BR_INIT's past the range check. -/
theorem nopAndBrInitEffects : Obligations.NopAndBrInitEffects := by
  unfold Obligations.NopAndBrInitEffects
  refine ⟨decode_of_opcode_zero rfl, fun w => decode_nonzero_of_opcode_zero, exec_nop,
    fun m s hrange => ?_⟩
  have hfits : regionFits (inputRegion s) = true := by
    rw [regionFits, decide_eq_true_eq]
    exact hrange
  rw [exec_brInit_of_fits m hfits]
  rfl

end Sys2Proof.Machine
end

-- The bits that BR_GETBITS and BR_PEEKBITS deliver, and the statements of 41_bitreader.md.
section
namespace Sys2Proof.Machine

open Sys2Proof

/-! ### Pad bits enter ACC last (41_bitreader.md R154, R155) -/

section

variable {s t : State} {n : Nat}

/-- The data bytes that the reader has not fetched yet, in either mode. -/
def bytesLeft (s : State) : Nat :=
  match s.rd.mode with
  | .lsb => inputLeft s
  | .msb => (dataLeft s).length

theorem bytesLeft_lsb (h : s.rd.mode = .lsb) : bytesLeft s = inputLeft s := by rw [bytesLeft, h]

theorem bytesLeft_msb (h : s.rd.mode = .msb) : bytesLeft s = (dataLeft s).length := by
  rw [bytesLeft, h]

/-- ACC holds no pad bit while a data byte is left. -/
def PadsLast (s : State) : Prop := s.rd.padbits = 0 ∨ bytesLeft s = 0

theorem nextByte_lsb (h : s.rd.mode = .lsb) : nextByte (Run.whole s) = fetchByte (Run.whole s) := by
  rw [nextByte, bind_run, look_run]
  simp only [h]

theorem nextByte_msb (h : s.rd.mode = .msb) :
    nextByte (Run.whole s) = nextMsbByte (Run.whole s) := by
  rw [nextByte, bind_run, look_run]
  simp only [h]

/-- The next byte for ACC is real only where a data byte is left, and a pad byte only where none
is. -/
theorem nextByte_bytesLeft (hok : readerOk s.rd = true) (ha : inputAnswers s = true) :
    ∃ b k u, nextByte (Run.whole s) = .ok (b, k) (Run.whole u) ∧ FetchOnly s u ∧
      readerOk u.rd = true ∧ (k = .real → bytesLeft s ≠ 0) ∧ (k = .pad → bytesLeft u = 0) := by
  cases hm : s.rd.mode with
  | lsb =>
    rw [nextByte_lsb hm, bytesLeft_lsb hm]
    rcases fetchByte_cases ha with ⟨hc, hf⟩ | ⟨hc, hf⟩
    · have hleft := inputLeft_advanceCur hc
      exact ⟨_, _, _, hf, fetchOnly_advanceCur s, hok, fun _ => by omega, nofun⟩
    · refine ⟨_, _, _, hf, fetchOnly_markEof s, hok, nofun, fun _ => ?_⟩
      rw [bytesLeft_lsb (s := markEof s) hm]
      exact Nat.sub_eq_zero_of_le (Nat.not_lt.mp hc)
  | msb =>
    rw [nextByte_msb hm, bytesLeft_msb hm]
    obtain ⟨b, k, u, hf, hfo, hoku, hreal, hpad⟩ := nextMsbByte_run hm hok ha
    refine ⟨b, k, u, hf, hfo, hoku, fun hk => by simp [hreal hk], fun hk => ?_⟩
    rw [bytesLeft_msb (hfo.1.2.1.trans hm), (hpad hk).2.2, List.length_nil]

/-- `Fill`'s loop keeps the pad bits last. -/
theorem fillLoop_padsLast (rounds : Nat) (hok : readerOk s.rd = true) (ha : inputAnswers s = true)
    (hp : PadsLast s) (h : fillLoop rounds (Run.whole s) = .ok () (Run.whole t)) : PadsLast t := by
  induction rounds generalizing s with
  | zero =>
    cases h
    exact hp
  | succ rounds ih =>
    rw [fillLoop, bind_run, look_run] at h
    simp only at h
    by_cases hb : s.rd.bitcnt ≤ 24
    · obtain ⟨b, k, u, hnext, ⟨hro, -, hcnt, hpb, -⟩, hoku, hreal, hpad⟩ :=
        nextByte_bytesLeft hok ha
      rw [if_pos hb, bind_ok hnext, bind_ok (assignAll_run _ _), afterAll_whole] at h
      have hro' : ReaderOnly s (enterByte b k u) := readerOnly_trans _ _ _ hro ⟨rfl, rfl, rfl, rfl⟩
      refine ih (s := enterByte b k u) (enterByte_readerOk b k (hcnt ▸ hb) hoku)
        (by rwa [inputAnswers_readerOnly hro']) ?_ h
      cases k with
      | real => exact .inl (hpb.trans (hp.resolve_right (hreal rfl)))
      | pad => exact .inr (hpad rfl)
    · rw [if_neg hb] at h
      cases h
      exact hp

theorem need_padsLast (hok : readerOk s.rd = true) (ha : inputAnswers s = true) (hp : PadsLast s)
    (h : need n (Run.whole s) = .ok () (Run.whole t)) : PadsLast t := by
  rw [need_run] at h
  split at h
  · exact fillLoop_padsLast 4 hok ha hp h
  · cases h
    exact hp

/-- So bits that ACC holds include a pad bit exactly when fewer real bits are left in all. -/
theorem takesPad_of_padsLast (hp : PadsLast s) (hn : n ≤ s.rd.bitcnt) :
    takesPad s n = decide (s.rd.bitcnt - s.rd.padbits + 8 * bytesLeft s < n) := by
  rw [takesPad, decide_eq_decide]
  rcases hp with hp | hp <;> omega

/-! ### What one piece after another consumes -/

theorem dropBits_readerOnly (n : Nat) (s : State) : ReaderOnly s (dropBits n s) :=
  ⟨rfl, rfl, rfl, rfl⟩

theorem lsbAdvanced_readerOk {r : Reader} (h : lsbAdvanced n s r) : readerOk r = true := by
  obtain ⟨-, -, -, -, -, hok, -⟩ := h
  exact hok

theorem msbAdvanced_readerOk {r : Reader} (h : msbAdvanced n s r) : readerOk r = true := by
  obtain ⟨-, -, -, hok, -⟩ := h
  exact hok

theorem lsbStream_of_advanced_zero (hro : ReaderOnly s t) (h : lsbAdvanced 0 s t.rd) :
    lsbStream t = lsbStream s := by
  obtain ⟨-, -, -, -, -, -, hstream⟩ := h
  rw [← hro.1] at hstream
  exact funext hstream

theorem msbStream_of_advanced_zero (hro : ReaderOnly s t) (h : msbAdvanced 0 s t.rd) :
    msbStream t = msbStream s := by
  obtain ⟨-, -, -, -, hstream⟩ := h
  rw [← hro.1] at hstream
  exact funext hstream

theorem withReader_of_readerOnly (hro : ReaderOnly s t) (r : Reader) :
    { t with rd := r } = { s with rd := r } := by
  rw [hro.1]

/-- Bits that leave ACC after a fetch leave the stream before the fetch, in MODE 0. -/
theorem lsbAdvanced_after_fetch {r : Reader} (hro : ReaderOnly s t) (h : lsbAdvanced 0 s t.rd)
    (h' : lsbAdvanced n t r) : lsbAdvanced n s r := by
  have hst := lsbStream_of_advanced_zero hro h
  obtain ⟨hmode, hbase, hlen, hnomore, hmarker, -, -⟩ := h
  obtain ⟨hmode', hbase', hlen', hnomore', hmarker', hok, hstream⟩ := h'
  rw [withReader_of_readerOnly hro, hst] at hstream
  exact ⟨hmode'.trans hmode, hbase'.trans hbase, hlen'.trans hlen, hnomore'.trans hnomore,
    hmarker'.trans hmarker, hok, hstream⟩

/-- The same in MODE 1. -/
theorem msbAdvanced_after_fetch {r : Reader} (hro : ReaderOnly s t) (h : msbAdvanced 0 s t.rd)
    (h' : msbAdvanced n t r) : msbAdvanced n s r := by
  have hst := msbStream_of_advanced_zero hro h
  obtain ⟨hmode, hbase, hlen, -, -⟩ := h
  obtain ⟨hmode', hbase', hlen', hok, hstream⟩ := h'
  rw [withReader_of_readerOnly hro, hst] at hstream
  exact ⟨hmode'.trans hmode, hbase'.trans hbase, hlen'.trans hlen, hok, hstream⟩

end

/-! ### BR_GETBITS and BR_PEEKBITS (41_bitreader.md R166, R167) -/

section

variable {s t : State} {n : BitVec 5} {v : Nat}

theorem answers_regionFits {g : Region} (h : answers s g = true) : regionFits g = true := by
  rw [answers, Bool.and_eq_true] at h
  exact h.1

theorem needInput_of_answers (h : inputAnswers s = true) :
    needInput (Run.whole s) = .ok () (Run.whole s) :=
  needInput_of_fits (r := Run.whole s) (answers_regionFits h)

theorem needLegal_of_readBits (h1 : 1 ≤ n.toNat) (h16 : n.toNat ≤ 16) (r : Run) :
    needLegal (readBitsLegal n) r = .ok () r := by
  rw [needLegal_run, if_pos (by simp [readBitsLegal, h1, h16])]

/-- BR_GETBITS past its checks and its fetch: it answers what it peeks, and consumes it. -/
theorem exec_brGetbits_of_need (h1 : 1 ≤ n.toNat) (h16 : n.toNat ≤ 16) (ha : inputAnswers s = true)
    (h : need n.toNat (Run.whole s) = .ok () (Run.whole t)) (hro : ReaderOnly s t)
    (hpeek : peekBits t n.toNat = v) :
    exec (.brGetbits n) s =
      .next (completed (Word.ofNat v) { s with rd := (dropBits n.toNat t).rd }) := by
  have hrun : brGetbits n (Run.whole s) = .ok (Word.ofNat v) (Run.whole (dropBits n.toNat t)) := by
    rw [brGetbits, bind_ok (needLegal_of_readBits h1 h16 _), bind_ok (needInput_of_answers ha),
      bind_ok h, bind_ok (consume_whole _ _), hpeek]
    rfl
  rw [exec_eq, pseudocode, runCommand_ok hrun, complete_eq_completed,
    ← withReader_of_readerOnly hro]
  rfl

/-- BR_PEEKBITS likewise, but the bits stay. -/
theorem exec_brPeekbits_of_need (h1 : 1 ≤ n.toNat) (h16 : n.toNat ≤ 16) (ha : inputAnswers s = true)
    (h : need n.toNat (Run.whole s) = .ok () (Run.whole t)) (hro : ReaderOnly s t)
    (hpeek : peekBits t n.toNat = v) :
    exec (.brPeekbits n) s = .next (completed (Word.ofNat v) { s with rd := t.rd }) := by
  have hrun : brPeekbits n (Run.whole s) = .ok (Word.ofNat v) (Run.whole t) := by
    rw [brPeekbits, bind_ok (needLegal_of_readBits h1 h16 _), bind_ok (needInput_of_answers ha),
      bind_ok h, bind_ok (look_run _), hpeek, pure_run]
  rw [exec_eq, pseudocode, runCommand_ok hrun, complete_eq_completed, ← hro.1]

end

/-- Settles O26: `Need` keeps the MODE 0 stream, `Peek` shows its first bits and `Consume` drops
them; a pad bit among them tells that the real bits left, which `Need` keeps too, are fewer. -/
theorem lsbBitsFollowStream : Obligations.LsbBitsFollowStream := by
  unfold Obligations.LsbBitsFollowStream
  intro n s h1 h16 hm hok ha
  obtain ⟨t, hneed, hro, hcnt, hadv, hreal, hovr⟩ := need_lsb h16 hm hok ha
  have hmt : t.rd.mode = .lsb := hro.2.1.trans hm
  have hokt : readerOk t.rd = true := lsbAdvanced_readerOk hadv
  have hpeek : peekBits t n.toNat = lowFirst (lsbStream s) n.toNat := by
    rw [peekBits_lsb hcnt hmt, lsbStream_of_advanced_zero hro hadv]
  refine ⟨⟨_, exec_brGetbits_of_need h1 h16 ha hneed hro hpeek,
    lsbAdvanced_after_fetch hro hadv (dropBits_lsb hcnt hmt hokt), fun hpad => ?_⟩,
    ⟨_, exec_brPeekbits_of_need h1 h16 ha hneed hro hpeek, hadv, hovr⟩⟩
  have hlast : PadsLast t := need_padsLast hok ha (.inl hpad) hneed
  rw [dropBits_ovr, hovr, takesPad_of_padsLast hlast hcnt, bytesLeft_lsb hmt, ← hreal, realBits]

/-- Settles O27: the same over the MODE 1 stream of the destuffed bytes. -/
theorem msbBitsFollowStream : Obligations.MsbBitsFollowStream := by
  unfold Obligations.MsbBitsFollowStream
  intro n s h1 h16 hm hok ha
  obtain ⟨t, hneed, hro, hcnt, hadv, hreal, hovr⟩ := need_msb h16 hm hok ha
  have hmt : t.rd.mode = .msb := hro.2.1.trans hm
  have hokt : readerOk t.rd = true := msbAdvanced_readerOk hadv
  have hcap : t.rd.bitcnt ≤ 32 := ((readerOk_iff _).mp hokt).1
  have hpeek : peekBits t n.toNat = highFirst (msbStream s) n.toNat := by
    rw [peekBits_msb hcnt hcap hmt, msbStream_of_advanced_zero hro hadv]
  refine ⟨⟨_, exec_brGetbits_of_need h1 h16 ha hneed hro hpeek,
    msbAdvanced_after_fetch hro hadv (dropBits_msb hcnt hmt hokt), fun hpad => ?_⟩,
    ⟨_, exec_brPeekbits_of_need h1 h16 ha hneed hro hpeek, hadv, hovr⟩⟩
  have hlast : PadsLast t := need_padsLast hok ha (.inl hpad) hneed
  rw [realBitsMsb, realBitsMsb, hpad, Nat.sub_zero] at hreal
  rw [dropBits_ovr, hovr, takesPad_of_padsLast hlast hcnt, bytesLeft_msb hmt, hreal]

end Sys2Proof.Machine
end

-- Canonical codes, what the table builders make and the JPEG decoder finds, and the statements of
-- 42_huffman.md.
section
namespace Sys2Proof.Machine

open Sys2Proof

/-! ### Canonical codes (42_huffman.md R203, R205) -/

section

variable {count : Nat → Nat} {lens : List Nat} {l m a b : Nat}

theorem canonFirst_succ (h : 1 ≤ l) :
    canonFirst count (l + 1) = (canonFirst count l + count l) * 2 := by
  obtain ⟨k, rfl⟩ := Nat.exists_eq_add_of_le' h
  rfl

/-- The first code of a length depends only on the counts of the shorter lengths. -/
theorem canonFirst_congr {count' : Nat → Nat} (h : ∀ k, 1 ≤ k → k < l → count k = count' k) :
    canonFirst count l = canonFirst count' l := by
  induction l with
  | zero => rfl
  | succ l ih =>
    rcases Nat.eq_zero_or_pos l with rfl | hl
    · rfl
    · rw [canonFirst_succ hl, canonFirst_succ hl, ih fun k h1 h2 => h k h1 (by omega),
        h l hl (Nat.lt_succ_self l)]

/-- The codes of a longer length begin past all those that begin with a code of length `l`. -/
theorem canonFirst_past (hl : 1 ≤ l) (hlm : l < m) :
    (canonFirst count l + count l) * 2 ^ (m - l) ≤ canonFirst count m := by
  induction m, hlm using Nat.le_induction with
  | base => rw [canonFirst_succ hl, Nat.succ_sub (Nat.le_refl l), Nat.sub_self, pow_one]
  | succ m hlm ih =>
    rw [canonFirst_succ (by omega), Nat.succ_sub (by omega), pow_succ, ← mul_assoc]
    exact Nat.mul_le_mul_right 2 (ih.trans (Nat.le_add_right ..))

/-- The two checks of a build pass exactly where the length is not overfull. -/
theorem lengthFits_canonFirst (count : Nat → Nat) (l : Nat) :
    lengthFits l (count l) (canonFirst count l) = !overfull count l := by
  rw [Bool.eq_iff_iff]
  simp only [lengthFits, overfull, Bool.and_eq_true, Bool.or_eq_true, decide_eq_true_eq,
    Bool.not_eq_true', Bool.or_eq_false_iff, Bool.and_eq_false_iff, decide_eq_false_iff_not]
  omega

/-- An earlier symbol has a smaller rank among the symbols of its length. -/
theorem count_take_lt (hab : a < b) (ha : a < lens.length) :
    (lens.take a).count (lens.getD a 0) < (lens.take b).count (lens.getD a 0) := by
  have hsucc : (lens.take (a + 1)).count (lens.getD a 0) =
      (lens.take a).count (lens.getD a 0) + 1 := by
    rw [List.take_succ_eq_append_getElem ha, List.getD_eq_getElem _ _ ha, List.count_append,
      List.count_singleton_self]
  have hle : (lens.take (a + 1)).count (lens.getD a 0) ≤ (lens.take b).count (lens.getD a 0) :=
    (List.take_sublist_take_left hab).count_le _
  omega

/-- So a symbol's rank is below the number of symbols of its length. -/
theorem count_take_lt_count (ha : a < lens.length) :
    (lens.take a).count (lens.getD a 0) < lens.count (lens.getD a 0) := by
  simpa using count_take_lt ha ha

/-- No two symbols have the same code, and no code begins with a shorter one. -/
theorem canonCode_not_prefix (ha : a < lens.length) (hb : b < lens.length) (hne : a ≠ b)
    (hpos : lens.getD a 0 ≠ 0) (hle : lens.getD a 0 ≤ lens.getD b 0) :
    canonCode lens b / 2 ^ (lens.getD b 0 - lens.getD a 0) ≠ canonCode lens a := by
  rcases Nat.eq_or_lt_of_le hle with heq | hlt
  · rw [← heq, Nat.sub_self, pow_zero, Nat.div_one, canonCode, canonCode, ← heq]
    rcases Nat.lt_or_gt_of_ne hne with hab | hba
    · have := count_take_lt hab ha
      omega
    · have := count_take_lt hba hb
      rw [← heq] at this
      omega
  · have hrank := count_take_lt_count ha
    have hpast := canonFirst_past (count := fun l => lens.count l) (Nat.pos_of_ne_zero hpos) hlt
    have hdiv : canonFirst (fun l => lens.count l) (lens.getD a 0) + lens.count (lens.getD a 0) ≤
        canonCode lens b / 2 ^ (lens.getD b 0 - lens.getD a 0) :=
      (Nat.le_div_iff_mul_le (Nat.two_pow_pos _)).mpr (hpast.trans (Nat.le_add_right ..))
    rw [canonCode.eq_def lens a]
    omega

/-- The codes of a length that passed its checks are numbers of that many bits. -/
theorem canonCode_lt (ha : a < lens.length)
    (hfit : overfull (fun l => lens.count l) (lens.getD a 0) = false) :
    canonCode lens a < 2 ^ lens.getD a 0 := by
  have hrank := count_take_lt_count ha
  simp only [overfull, Bool.or_eq_false_iff, Bool.and_eq_false_iff, decide_eq_false_iff_not] at hfit
  rw [canonCode]
  omega

end

/-! ### Building a DEFLATE table (42_huffman.md R203, R205) -/

section

variable {lens : List Nat} {tbl : ZTable}

theorem firstTooLong_eq_none_iff (s : Nat) :
    firstTooLong lens s = none ↔ ∀ l, l ∈ lens → l ≤ zMaxLen := by
  induction lens generalizing s with
  | nil => simp [firstTooLong]
  | cons l ls ih =>
    rw [firstTooLong]
    by_cases h : zMaxLen < l
    · simp [h]
    · simp [h, ih, Nat.not_lt.mp h]

/-- The first overfull length ends the search for first codes; without one they are the canonical
ones. -/
theorem firstCodes_range' {l n : Nat} (hl : 1 ≤ l) :
    firstCodes lens (List.range' l n) (canonFirst (fun l => lens.count l) l) =
      ((List.range' l n).find? (overfull fun l => lens.count l)).elim
        (.ok ((List.range' l n).map (canonFirst fun l => lens.count l)))
        (fun x => .error (Word.ofNat x)) := by
  induction n generalizing l with
  | zero => rfl
  | succ n ih =>
    rw [List.range'_succ, firstCodes, lengthFits_canonFirst (fun l => lens.count l),
      List.find?_cons]
    cases overfull (fun l => lens.count l) l with
    | true => rfl
    | false =>
      rw [← canonFirst_succ (count := fun l => lens.count l) hl, ih (by omega)]
      cases (List.range' (l + 1) n).find? (overfull fun l => lens.count l) <;> rfl

theorem firstCodes_zLengths (lens : List Nat) :
    firstCodes lens zLengths 0 =
      (zLengths.find? (overfull fun l => lens.count l)).elim
        (.ok (zLengths.map (canonFirst fun l => lens.count l)))
        (fun x => .error (Word.ofNat x)) :=
  firstCodes_range' (n := 15) (Nat.le_refl 1)

/-- A symbol gets the next code of its length, past those of the earlier symbols of that length. -/
theorem assignCodes_getElem? {next : List Nat} {sym l : Nat}
    (hlt : ∀ l, l ∈ lens → l < next.length) (h : lens[sym]? = some l) :
    (assignCodes lens next)[sym]? =
      some ⟨l, if l = 0 then 0 else next.getD l 0 + (lens.take sym).count l⟩ := by
  induction lens generalizing next sym with
  | nil => simp at h
  | cons x xs ih =>
    have hx : x < next.length := hlt x (by simp)
    have hxs : ∀ l, l ∈ xs → l < next.length := fun l hl => hlt l (by simp [hl])
    cases sym with
    | zero =>
      cases h
      by_cases h0 : l = 0 <;> simp [assignCodes, h0]
    | succ sym =>
      rw [List.getElem?_cons_succ] at h
      rw [List.take_succ_cons, List.count_cons]
      by_cases h0 : x = 0
      · rw [assignCodes, if_pos h0, List.getElem?_cons_succ, ih hxs h]
        rcases eq_or_ne l 0 with rfl | hl
        · rfl
        · simp [h0, hl.symm]
      · rw [assignCodes, if_neg h0, List.getElem?_cons_succ, ih (by simpa using hxs) h]
        by_cases hxl : x = l
        · subst hxl
          simp [hx, Nat.add_assoc, Nat.add_comm 1]
        · simp [hxl]

/-- What a build that accepts its lengths has found and made. -/
theorem zBuild_ok (h : zBuild lens = .ok tbl) :
    (∀ l, l ∈ lens → l ≤ zMaxLen) ∧
      zLengths.find? (overfull fun l => lens.count l) = none ∧
      tbl.syms = assignCodes lens ((List.range 16).map (canonFirst fun l => lens.count l)) := by
  rw [zBuild] at h
  cases hlong : firstTooLong lens 0 with
  | some s =>
    rw [hlong] at h
    cases h
  | none =>
    rw [hlong, firstCodes_zLengths] at h
    cases hover : zLengths.find? (overfull fun l => lens.count l) with
    | some x =>
      rw [hover] at h
      cases h
    | none =>
      rw [hover] at h
      cases h
      exact ⟨(firstTooLong_eq_none_iff 0).mp hlong, rfl, rfl⟩

theorem zLengths_eq : zLengths = List.range' 1 15 := rfl

theorem mem_zLengths_iff {l : Nat} : l ∈ zLengths ↔ 1 ≤ l ∧ l ≤ zMaxLen := by
  rw [zLengths_eq, List.mem_range'_1, zMaxLen]
  omega

/-- Each symbol has its length, and its canonical code where it is not absent. -/
theorem zBuild_entry (h : zBuild lens = .ok tbl) {sym : Nat} (hsym : sym < lens.length) :
    tbl.syms[sym]? =
      some ⟨lens.getD sym 0, if lens.getD sym 0 = 0 then 0 else canonCode lens sym⟩ := by
  obtain ⟨hmax, -, hsyms⟩ := zBuild_ok h
  have hget : lens[sym]? = some (lens.getD sym 0) := by
    rw [List.getD_eq_getElem _ _ hsym, List.getElem?_eq_getElem hsym]
  have hlt : ∀ l, l ∈ lens → l < 16 := fun l hl => Nat.lt_succ_of_le (hmax l hl)
  have hfirst : ((List.range 16).map (canonFirst fun l => lens.count l)).getD (lens.getD sym 0) 0 =
      canonFirst (fun l => lens.count l) (lens.getD sym 0) := by
    rw [List.getD_eq_getElem _ _ (by simpa using hlt _ (List.mem_of_getElem? hget)),
      List.getElem_map, List.getElem_range]
  rw [hsyms, assignCodes_getElem? (by simpa using hlt) hget, hfirst]
  rfl

/-- That code is a number of as many bits as its length. -/
theorem zBuild_code_lt (h : zBuild lens = .ok tbl) {sym : Nat} (hsym : sym < lens.length)
    (hpos : lens.getD sym 0 ≠ 0) : canonCode lens sym < 2 ^ lens.getD sym 0 := by
  obtain ⟨hmax, hfit, -⟩ := zBuild_ok h
  have hmem : lens.getD sym 0 ∈ lens := by
    rw [List.getD_eq_getElem _ _ hsym]
    exact List.getElem_mem hsym
  have hover := List.find?_eq_none.mp hfit _
    (mem_zLengths_iff.mpr ⟨Nat.pos_of_ne_zero hpos, hmax _ hmem⟩)
  exact canonCode_lt hsym (by simpa using hover)

end

/-- Settles O31: the first codes are the canonical ones, `assignCodes` counts on from them, and a
longer code lies past all the continuations of a shorter one. -/
theorem canonicalCodes : Obligations.CanonicalCodes := by
  unfold Obligations.CanonicalCodes
  intro lens tbl h
  refine ⟨?_, fun sym hsym => ⟨_, zBuild_entry h hsym, rfl, fun hpos => ?_, fun h0 => if_pos h0⟩,
    fun a b ha hb hne hpos hle => canonCode_not_prefix ha hb hne hpos hle⟩
  · rw [← List.length_map (fun e : ZCode => e.len), zBuild_lens h]
  · have hpos' : lens.getD sym 0 ≠ 0 := hpos
    simp only [if_neg hpos', true_and]
    exact zBuild_code_lt h hsym hpos'

/-! ### Building a JPEG table (42_huffman.md R206, R207) -/

/-- The entries of the lengths `ls`, in order: as many codes of each as its count says, from its
canonical first code on, with the values in turn. -/
def canonEntries (count : Nat → Nat) : List Nat → List Byte → List JCode
  | [], _ => []
  | l :: ls, vals =>
    jCodes l (count l) (canonFirst count l) vals ++ canonEntries count ls (vals.drop (count l))

/-- The lengths `ls` in order, each repeated as its count says. -/
def repeatedLengths (count : Nat → Nat) (ls : List Nat) : List Nat :=
  ls.flatMap fun l => List.replicate (count l) l

section

variable {count : Nat → Nat} {vals : List Byte} {ls : List Nat}

theorem jCodes_code {l n code : Nat} :
    (jCodes l n code vals).map (fun e => e.code) = List.range' code n := by
  induction n generalizing code vals with
  | zero => rfl
  | succ n ih => simp [jCodes, ih, List.range'_succ]

/-- The first overfull length ends the build; without one the entries are the canonical ones. -/
theorem jEntries_range' {l n : Nat} (hl : 1 ≤ l) :
    jEntries ((List.range' l n).map count) l (canonFirst count l) vals =
      ((List.range' l n).find? (overfull count)).elim
        (.ok (canonEntries count (List.range' l n) vals)) (fun x => .error (Word.ofNat x)) := by
  induction n generalizing l vals with
  | zero => rfl
  | succ n ih =>
    rw [List.range'_succ, List.map_cons, jEntries, lengthFits_canonFirst, List.find?_cons]
    cases overfull count l with
    | true => rfl
    | false =>
      rw [← canonFirst_succ hl, ih (by omega)]
      cases (List.range' (l + 1) n).find? (overfull count) <;> rfl

theorem repeatedLengths_cons (l : Nat) :
    repeatedLengths count (l :: ls) = List.replicate (count l) l ++ repeatedLengths count ls := rfl

theorem length_repeatedLengths (count : Nat → Nat) (ls : List Nat) :
    (repeatedLengths count ls).length = (ls.map count).sum := by
  simp [repeatedLengths, List.length_flatMap]

theorem mem_of_mem_repeatedLengths {l : Nat} (h : l ∈ repeatedLengths count ls) : l ∈ ls := by
  obtain ⟨l', hl', hrep⟩ := List.mem_flatMap.mp h
  rwa [List.eq_of_mem_replicate hrep]

theorem count_repeatedLengths (hnd : ls.Nodup) {l : Nat} (h : l ∈ ls) :
    (repeatedLengths count ls).count l = count l := by
  induction ls with
  | nil => cases h
  | cons x xs ih =>
    obtain ⟨hx, hxs⟩ := List.nodup_cons.mp hnd
    rw [repeatedLengths_cons, List.count_append, List.count_replicate]
    rcases List.mem_cons.mp h with rfl | hmem
    · rw [List.count_eq_zero.mpr (mt mem_of_mem_repeatedLengths hx)]
      simp
    · have hne : x ≠ l := fun heq => hx (heq ▸ hmem)
      simp [hne, ih hxs hmem]

theorem canonEntries_size :
    (canonEntries count ls vals).map (fun e => e.size) = repeatedLengths count ls := by
  induction ls generalizing vals with
  | nil => rfl
  | cons l ls ih => rw [canonEntries, List.map_append, jCodes_size, ih, repeatedLengths_cons]

theorem canonEntries_code :
    (canonEntries count ls vals).map (fun e => e.code) =
      ls.flatMap fun l => List.range' (canonFirst count l) (count l) := by
  induction ls generalizing vals with
  | nil => rfl
  | cons l ls ih => rw [canonEntries, List.map_append, jCodes_code, ih, List.flatMap_cons]

/-- Values for all the counts are taken in order, and all of them. -/
theorem canonEntries_val (h : vals.length = (ls.map count).sum) :
    (canonEntries count ls vals).map (fun e => e.val) = vals := by
  induction ls generalizing vals with
  | nil => exact (List.length_eq_zero_iff.mp h).symm
  | cons l ls ih =>
    rw [List.map_cons, List.sum_cons] at h
    rw [canonEntries, List.map_append, jCodes_vals l _ _ _ (by omega),
      ih (by rw [List.length_drop]; omega), List.take_append_drop]

/-- A code is its length's first one, and one more for each earlier code of that length. -/
theorem getD_flatMap_range' {first : Nat → Nat} (hnd : ls.Nodup) {k : Nat}
    (hk : k < (repeatedLengths count ls).length) :
    (ls.flatMap fun l => List.range' (first l) (count l)).getD k 0 =
      first ((repeatedLengths count ls).getD k 0) +
        ((repeatedLengths count ls).take k).count ((repeatedLengths count ls).getD k 0) := by
  induction ls generalizing k with
  | nil => cases hk
  | cons l ls ih =>
    obtain ⟨hl, hls⟩ := List.nodup_cons.mp hnd
    rw [repeatedLengths_cons, List.length_append, List.length_replicate] at hk
    rw [List.flatMap_cons, repeatedLengths_cons, List.take_append, List.count_append,
      List.length_replicate]
    rcases Nat.lt_or_ge k (count l) with hlt | hge
    · have hget : (List.replicate (count l) l ++ repeatedLengths count ls).getD k 0 = l := by
        rw [List.getD_append _ _ _ _ (by simpa using hlt), List.getD_replicate _ hlt]
      rw [hget, List.getD_append _ _ _ _ (by simpa using hlt), Nat.sub_eq_zero_of_le hlt.le,
        List.getD_eq_getElem _ _ (by simpa using hlt), List.getElem_range']
      simp [List.take_replicate, hlt.le]
    · have hget : (List.replicate (count l) l ++ repeatedLengths count ls).getD k 0 =
          (repeatedLengths count ls).getD (k - count l) 0 := by
        rw [List.getD_append_right _ _ _ _ (by simpa using hge), List.length_replicate]
      have hk' : k - count l < (repeatedLengths count ls).length := by omega
      have hne : l ≠ (repeatedLengths count ls).getD (k - count l) 0 := fun heq => by
        rw [List.getD_eq_getElem _ _ hk'] at heq
        exact hl (heq ▸ mem_of_mem_repeatedLengths (List.getElem_mem hk'))
      rw [hget, List.getD_append_right _ _ _ _ (by simpa using hge), List.length_range', ih hls hk',
        List.count_eq_zero.mpr fun hmem => hne (List.eq_of_mem_replicate
          (List.mem_of_mem_take hmem)).symm, Nat.zero_add]

end

theorem jLengths_eq : jLengths = List.range' 1 16 := rfl

theorem jLengths_nodup : jLengths.Nodup := by
  rw [jLengths_eq]
  exact List.nodup_range'

theorem mem_jLengths_iff {l : Nat} : l ∈ jLengths ↔ 1 ≤ l ∧ l ≤ jMaxLen := by
  rw [jLengths_eq, List.mem_range'_1, jMaxLen]
  omega

/-- The 16 counts as a function of the length. -/
theorem bits_eq_map_count {bits : List Nat} (h : bits.length = 16) :
    bits = jLengths.map fun l => bits.getD (l - 1) 0 := by
  rw [jLengths_eq]
  refine List.ext_getElem (by simpa using h) fun k hk hk' => ?_
  rw [List.getElem_map, List.getElem_range', Nat.one_mul, Nat.add_sub_cancel_left,
    List.getD_eq_getElem _ _ hk]

section

variable {count : Nat → Nat} {vals : List Byte} {tbl : JTable}

theorem jBuild_jLengths (count : Nat → Nat) (vals : List Byte) :
    jBuild (jLengths.map count) vals =
      (jLengths.find? (overfull count)).elim (.ok ⟨canonEntries count jLengths vals⟩)
        (fun x => .error (Word.ofNat x)) := by
  have hentries : jEntries (jLengths.map count) 1 0 vals =
      (jLengths.find? (overfull count)).elim (.ok (canonEntries count jLengths vals))
        (fun x => .error (Word.ofNat x)) := jEntries_range' (n := 16) (Nat.le_refl 1)
  rw [jBuild, hentries]
  cases jLengths.find? (overfull count) <;> rfl

/-- What a build that accepts its counts has found and made. -/
theorem jBuild_ok (h : jBuild (jLengths.map count) vals = .ok tbl) :
    jLengths.find? (overfull count) = none ∧ tbl = ⟨canonEntries count jLengths vals⟩ := by
  rw [jBuild_jLengths] at h
  cases hover : jLengths.find? (overfull count) with
  | some x =>
    rw [hover] at h
    cases h
  | none =>
    rw [hover] at h
    cases h
    exact ⟨rfl, rfl⟩

/-- The first codes by the counts are those by the entries' lengths. -/
theorem canonFirst_repeatedLengths {l : Nat} (h : l ∈ jLengths) :
    canonFirst (fun l => (repeatedLengths count jLengths).count l) l = canonFirst count l := by
  obtain ⟨-, hmax⟩ := mem_jLengths_iff.mp h
  exact canonFirst_congr fun k h1 hk =>
    count_repeatedLengths jLengths_nodup (mem_jLengths_iff.mpr ⟨h1, by omega⟩)

/-- Entry k of the canonical entries has the canonical code. -/
theorem canonEntries_code_canonCode {k : Nat}
    (hk : k < (repeatedLengths count jLengths).length) :
    ((canonEntries count jLengths vals).map fun e => e.code).getD k 0 =
      canonCode (repeatedLengths count jLengths) k := by
  have hmem : (repeatedLengths count jLengths).getD k 0 ∈ jLengths := by
    rw [List.getD_eq_getElem _ _ hk]
    exact mem_of_mem_repeatedLengths (List.getElem_mem hk)
  rw [canonEntries_code, getD_flatMap_range' jLengths_nodup hk, canonCode,
    canonFirst_repeatedLengths hmem]

theorem jEntry_code (tbl : JTable) (k : Nat) :
    (jEntry tbl k).code = (tbl.entries.map fun e => e.code).getD k 0 := by
  rw [jEntry, ← List.getD_map (f := fun e : JCode => e.code)]

end

/-- Settles O33: `JBuild` runs through the lengths as `overfull` does, and past them its entries
are the canonical ones. -/
theorem jpegBuildAssigns : Obligations.JpegBuildAssigns := by
  unfold Obligations.JpegBuildAssigns
  intro bits vals hlen hvals
  have hbits := bits_eq_map_count hlen
  generalize (fun l => bits.getD (l - 1) 0) = count at hbits ⊢
  subst hbits
  rw [jBuild_jLengths]
  refine ⟨fun l h => by rw [h]; rfl, fun h => ⟨_, by rw [h]; rfl, canonEntries_val hvals,
    canonEntries_size, fun k hk => ?_⟩⟩
  rw [← length_repeatedLengths] at hk
  rw [jEntry_code, canonEntries_size, canonEntries_code_canonCode hk]

/-! ### Decoding with a JPEG table (42_huffman.md R209, R211, R221) -/

section

variable {b : Nat → Bool} {l m code : Nat}

/-- The first bits of a number read first bit highest are its top bits. -/
theorem highFirst_div (h : l ≤ m) : highFirst b m / 2 ^ (m - l) = highFirst b l := by
  refine Nat.eq_of_testBit_eq fun j => ?_
  rw [Nat.testBit_div_two_pow, highFirst_testBit, highFirst_testBit,
    show m - 1 - (j + (m - l)) = l - 1 - j by omega,
    decide_eq_decide.mpr (show j + (m - l) < m ↔ j < l by omega)]

/-- The stream begins with an `l`-bit code exactly when its first `l` bits are the code. -/
theorem codeNext_iff (hlt : code < 2 ^ l) : codeNext l code b = true ↔ code = highFirst b l := by
  simp only [codeNext, codeBit, List.all_eq_true, List.mem_range, beq_iff_eq]
  constructor
  · intro h
    refine Nat.eq_of_testBit_eq fun j => ?_
    rw [highFirst_testBit]
    by_cases hj : j < l
    · rw [h (l - 1 - j) (by omega), show l - 1 - (l - 1 - j) = j by omega]
      simp [hj]
    · rw [Nat.testBit_lt_two_pow (hlt.trans_le (Nat.pow_le_pow_right (by omega) (by omega)))]
      simp [hj]
  · rintro rfl j hj
    rw [highFirst_testBit, show l - 1 - (l - 1 - j) = j by omega]
    simp [show l - 1 - j < l by omega]

end

section

variable {tbl : JTable} {k k' : Nat} {e e' : JCode} {b : Nat → Bool}

theorem jCount_eq_count (tbl : JTable) :
    jCount tbl = fun l => (tbl.entries.map fun e => e.size).count l := by
  funext l
  rw [jCount, List.count_eq_countP, List.countP_map]
  rfl

theorem getD_sizes (h : tbl.entries[k]? = some e) :
    (tbl.entries.map fun e => e.size).getD k 0 = e.size := by
  rw [List.getD_eq_getElem?_getD, List.getElem?_map, h]
  rfl

theorem length_sizes_of_getElem? (h : tbl.entries[k]? = some e) :
    k < (tbl.entries.map fun e => e.size).length := by
  rw [List.length_map]
  exact (List.getElem?_eq_some_iff.mp h).1

theorem jBuild_of_jTableOk (hok : jTableOk tbl = true) :
    jBuild (jLengths.map (jCount tbl)) (tbl.entries.map fun e => e.val) = .ok tbl := by
  rw [jTableOk, Bool.and_eq_true] at hok
  obtain ⟨-, hbuilt⟩ := hok
  cases hb : jBuild (jLengths.map (jCount tbl)) (tbl.entries.map fun e => e.val) with
  | ok built =>
    rw [hb] at hbuilt
    rw [beq_iff_eq.mp hbuilt]
  | error x =>
    rw [hb] at hbuilt
    cases hbuilt

/-- A good table's entries are the canonical ones of its counts, none of which is overfull. -/
theorem jTableOk_entries (hok : jTableOk tbl = true) :
    jLengths.find? (overfull (jCount tbl)) = none ∧
      tbl.entries = canonEntries (jCount tbl) jLengths (tbl.entries.map fun e => e.val) := by
  obtain ⟨hfit, htbl⟩ := jBuild_ok (jBuild_of_jTableOk hok)
  exact ⟨hfit, congrArg JTable.entries htbl⟩

theorem jTableOk_sizes (hok : jTableOk tbl = true) :
    (tbl.entries.map fun e => e.size) = repeatedLengths (jCount tbl) jLengths := by
  obtain ⟨-, hentries⟩ := jTableOk_entries hok
  exact (congrArg (List.map _) hentries).trans canonEntries_size

theorem jTableOk_size_mem (hok : jTableOk tbl = true) (h : tbl.entries[k]? = some e) :
    e.size ∈ jLengths := by
  refine mem_of_mem_repeatedLengths (count := jCount tbl) ?_
  rw [← jTableOk_sizes hok]
  exact List.mem_map_of_mem (List.mem_of_getElem? h)

theorem jTableOk_code (hok : jTableOk tbl = true) (h : tbl.entries[k]? = some e) :
    e.code = canonCode (tbl.entries.map fun e => e.size) k := by
  obtain ⟨-, hentries⟩ := jTableOk_entries hok
  have hk := length_sizes_of_getElem? h
  rw [jTableOk_sizes hok] at hk ⊢
  rw [← canonEntries_code_canonCode (vals := tbl.entries.map fun e => e.val) hk,
    ← hentries, List.getD_eq_getElem?_getD, List.getElem?_map, h]
  rfl

theorem jTableOk_code_lt (hok : jTableOk tbl = true) (h : tbl.entries[k]? = some e) :
    e.code < 2 ^ e.size := by
  obtain ⟨hfit, -⟩ := jTableOk_entries hok
  have hover := List.find?_eq_none.mp hfit _ (jTableOk_size_mem hok h)
  rw [jTableOk_code hok h, ← getD_sizes h]
  refine canonCode_lt (length_sizes_of_getElem? h) ?_
  rw [← jCount_eq_count, getD_sizes h]
  simpa using hover

/-- The codes of one good table that are the first bits of one stream are one entry's. -/
theorem jTableOk_unique_of_le (hok : jTableOk tbl = true) (h : tbl.entries[k]? = some e)
    (h' : tbl.entries[k']? = some e') (hcode : e.code = highFirst b e.size)
    (hcode' : e'.code = highFirst b e'.size) (hle : e.size ≤ e'.size) : e = e' := by
  by_cases hk : k = k'
  · rw [hk, h'] at h
    exact (Option.some.inj h).symm
  · have hpos : e.size ≠ 0 := by
      obtain ⟨hpos, -⟩ := mem_jLengths_iff.mp (jTableOk_size_mem hok h)
      omega
    have hprefix := canonCode_not_prefix (length_sizes_of_getElem? h)
      (length_sizes_of_getElem? h') hk
    rw [getD_sizes h, getD_sizes h', ← jTableOk_code hok h, ← jTableOk_code hok h', hcode, hcode',
      highFirst_div hle] at hprefix
    exact absurd rfl (hprefix hpos hle)

theorem jTableOk_unique (hok : jTableOk tbl = true) (h : tbl.entries[k]? = some e)
    (h' : tbl.entries[k']? = some e') (hcode : e.code = highFirst b e.size)
    (hcode' : e'.code = highFirst b e'.size) : e = e' := by
  rcases Nat.le_total e.size e'.size with hle | hle
  · exact jTableOk_unique_of_le hok h h' hcode hcode' hle
  · exact (jTableOk_unique_of_le hok h' h hcode' hcode hle).symm

/-- So the first bits of a stream that begins with an entry's code are a code at its size alone. -/
theorem findValue_highFirst (hok : jTableOk tbl = true) (h : tbl.entries[k]? = some e)
    (hcode : e.code = highFirst b e.size) (l : Nat) :
    findValue tbl l (highFirst b l) = if l = e.size then some e.val else none := by
  rw [findValue]
  cases hf : tbl.entries.find? (fun e => e.size == l && e.code == highFirst b l) with
  | none =>
    have hno := List.find?_eq_none.mp hf e (List.mem_of_getElem? h)
    rw [if_neg fun heq => hno (by simp [heq, hcode])]
    rfl
  | some e' =>
    obtain ⟨k', h'⟩ := List.mem_iff_getElem?.mp (List.mem_of_find?_eq_some hf)
    have hmatch := List.find?_some hf
    rw [Bool.and_eq_true, beq_iff_eq, beq_iff_eq] at hmatch
    obtain ⟨rfl, hcode'⟩ := hmatch
    rw [jTableOk_unique hok h' h hcode' hcode, if_pos rfl]
    rfl

/-- A search finds the one length at which the next bits are a code. -/
theorem jSearch_eq_some {s : State} {m : Nat} {v : Byte} {ls : List Nat}
    (h : ∀ l, l ∈ ls → findValue tbl l (peekBits s l) = if l = m then some v else none)
    (hm : m ∈ ls) : jSearch tbl s ls = some (m, v) := by
  induction ls with
  | nil => cases hm
  | cons l ls ih =>
    rw [jSearch, h l List.mem_cons_self]
    by_cases hl : l = m
    · rw [if_pos hl, hl]
    · rw [if_neg hl]
      exact ih (fun l' hl' => h l' (List.mem_cons_of_mem _ hl'))
        ((List.mem_cons.mp hm).resolve_left (Ne.symm hl))

end

section

variable {c : JClass} {idx : BitVec 2} {s t : State} {tbl : JTable} {k l : Nat} {e : JCode}
  {v : Byte}

theorem jTables_eq_ite (s : State) (c : JClass) :
    jTables s c = if c = .dc then s.tab.jdc else s.tab.jac := by
  cases c <;> rfl

/-- With 16 bits in ACC, a MODE 1 decode finds the entry whose code the stream begins with. -/
theorem jSearch_of_codeNext (hm : s.rd.mode = .msb) (hok : jTableOk tbl = true)
    (hro : readerOk s.rd = true) (hcnt : 16 ≤ s.rd.bitcnt) (h : tbl.entries[k]? = some e)
    (hnext : codeNext e.size e.code (msbStream s) = true) :
    jSearch tbl s jLengths = some (e.size, e.val) := by
  have hcode := (codeNext_iff (jTableOk_code_lt hok h)).mp hnext
  have hcap : s.rd.bitcnt ≤ 32 := ((readerOk_iff _).mp hro).1
  refine jSearch_eq_some (fun l hl => ?_) (jTableOk_size_mem hok h)
  obtain ⟨-, hmax⟩ := mem_jLengths_iff.mp hl
  rw [peekBits_msb (hmax.trans hcnt) hcap hm, findValue_highFirst hok h hcode]

theorem jDecode_of_search (hneed : need 16 (Run.whole s) = .ok () (Run.whole t))
    (htab : (jTables t c)[sel4 idx] = some tbl)
    (hsearch : jSearch tbl t jLengths = some (l, v)) :
    jDecode c (sel4 idx) (Run.whole s) = .ok v (Run.whole (dropBits l t)) := by
  rw [jDecode, bind_ok hneed, bind_ok (look_run _)]
  simp only [htab, hsearch]
  rw [bind_ok (consume_whole _ _), pure_run]

/-- HD_JPEG past its checks and its fetch: it answers the value that it finds, and consumes the
code. -/
theorem exec_hdJpeg_of_search (hm : s.rd.mode = .msb) (ha : inputAnswers s = true)
    (hneed : need 16 (Run.whole s) = .ok () (Run.whole t)) (hro : ReaderOnly s t)
    (htab : (jTables s c)[sel4 idx] = some tbl)
    (hsearch : jSearch tbl t jLengths = some (l, v)) :
    exec (.hdJpeg c idx) s =
      .next (completed (0#24 ++ v) { s with rd := (dropBits l t).rd }) := by
  have htabt : (jTables t c)[sel4 idx] = some tbl := by rwa [hro.1]
  have hmode : needMode .msb (Run.whole s) = .ok () (Run.whole s) := by
    rw [needMode_run, if_pos hm]
  have htable : needTable (jValid s c (sel4 idx)) (jvBit c (sel4 idx)) (Run.whole s) =
      .ok () (Run.whole s) := by
    rw [needTable_run, if_pos (by rw [jValid, htab]; rfl)]
  have hrun : hdJpeg c idx (Run.whole s) = .ok (v.zeroExtend 32) (Run.whole (dropBits l t)) := by
    rw [hdJpeg, bind_ok (look_run _), bind_ok hmode, bind_ok htable,
      bind_ok (needInput_of_answers ha), bind_ok (jDecode_of_search hneed htabt hsearch), pure_run]
  have hword : v.zeroExtend 32 = 0#24 ++ v := BitVec.setWidth_eq_append (by decide)
  rw [exec_eq, pseudocode, runCommand_ok hrun, complete_eq_completed, hword,
    ← withReader_of_readerOnly hro]
  rfl

end

/-- Settles O37: `Need(16)` keeps the stream, the codes of a good table are prefix-free, so the
search finds the entry, and `Consume` drops its code. -/
theorem hdJpegDecodesCode : Obligations.HdJpegDecodesCode := by
  unfold Obligations.HdJpegDecodesCode
  intro cls idx s tbl k e hm htab htbl hok ha hentry hnext
  obtain ⟨t, hneed, hro, hcnt, hadv, hreal, hovr⟩ := need_msb (Nat.le_refl 16) hm hok ha
  have hmt : t.rd.mode = .msb := hro.2.1.trans hm
  have hokt : readerOk t.rd = true := msbAdvanced_readerOk hadv
  obtain ⟨-, hmax⟩ := mem_jLengths_iff.mp (jTableOk_size_mem htbl hentry)
  have hsize : e.size ≤ t.rd.bitcnt := hmax.trans hcnt
  have hsearch : jSearch tbl t jLengths = some (e.size, e.val) :=
    jSearch_of_codeNext hmt htbl hokt hcnt hentry (by rwa [msbStream_of_advanced_zero hro hadv])
  rw [← jTables_eq_ite] at htab
  refine ⟨_, exec_hdJpeg_of_search hm ha hneed hro htab hsearch,
    msbAdvanced_after_fetch hro hadv (dropBits_msb hsize hmt hokt), fun hpad => ?_⟩
  have hlast : PadsLast t := need_padsLast hok ha (.inl hpad) hneed
  rw [realBitsMsb, realBitsMsb, hpad, Nat.sub_zero] at hreal
  rw [dropBits_ovr, hovr, takesPad_of_padsLast hlast hsize, bytesLeft_msb hmt, hreal]

end Sys2Proof.Machine
end

-- The output that INFLATE appends to, and the window copy and the statement of 43_inflate.md R269.
section
namespace Sys2Proof.Machine

open Sys2Proof

/-! ### Bytes appended to the output (43_inflate.md R256) -/

section

variable {s : State} {n : Nat} {b : Byte} {bs : List Byte} {mem : Memory}

/-- The address of the next output byte. -/
def outEnd (s : State) : Nat := s.out.outBase.toNat + s.out.outLen.toNat

/-- The state after one more byte of output. -/
def pushByte (b : Byte) (s : State) : State := growOutput (landWrite (outEnd s) b s)

/-- The state after `n` more bytes of output that leave MEM as `mem`. -/
def grownBy (n : Nat) (mem : Memory) (s : State) : State :=
  { s with
    out := { s.out with outLen := s.out.outLen + Word.ofNat n }
    bus := { s.bus with mem := mem } }

/-- `n` more bytes of output have their place in MEM. -/
structure OutputRoom (n : Nat) (s : State) : Prop where
  mapped : answers s (outputRegion s) = true
  fits : s.out.outLen.toNat + n ≤ s.out.outCap.toNat
  wf : Memory.wf s.bus.mem = true

/-- `mem` is MEM with the bytes after the output, and is else as before. -/
structure Appended (s : State) (bs : List Byte) (mem : Memory) : Prop where
  wf : Memory.wf mem = true
  get : ∀ a, memGet mem a =
    if within a (outEnd s) bs.length then bs.getD (a - outEnd s) 0 else byteAt s a

theorem getD_map_range {f : Nat → Byte} {k : Nat} (h : k < n) :
    ((List.range n).map f).getD k 0 = f k := by
  simp [List.getD_eq_getElem?_getD, h]

theorem within_iff {a lo len : Nat} : within a lo len = true ↔ lo ≤ a ∧ a < lo + len := by
  rw [within, Bool.and_eq_true, decide_eq_true_eq, decide_eq_true_eq]

theorem OutputRoom.inMap_outEnd (h : OutputRoom (n + 1) s) :
    inMap s.bus.holes (outEnd s) = true :=
  answers_inMap h.mapped (Nat.le_add_right _ _)
    (Nat.add_lt_add_left (Nat.lt_of_lt_of_le (Nat.lt_add_of_pos_right n.succ_pos) h.fits) _)

theorem appendByte_run (h : OutputRoom (n + 1) s) :
    appendByte b (Run.whole s) = .ok () (Run.whole (pushByte b s)) := by
  rw [appendByte, bind_ok (look_run _), bind_ok (memWrite_ok b h.inMap_outEnd), assign_run,
    after_whole, after_whole]
  rfl

theorem OutputRoom.outLen_pushByte (h : OutputRoom (n + 1) s) :
    (pushByte b s).out.outLen.toNat = s.out.outLen.toNat + 1 := by
  have hfits := h.fits
  have hcap := s.out.outCap.isLt
  rw [pushByte, growOutput_out, landWrite_out, BitVec.toNat_add]
  exact Nat.mod_eq_of_lt (by simp; omega)

theorem OutputRoom.outEnd_pushByte (h : OutputRoom (n + 1) s) :
    outEnd (pushByte b s) = outEnd s + 1 := by
  rw [outEnd, h.outLen_pushByte]
  rfl

theorem OutputRoom.byteAt_pushByte (h : OutputRoom (n + 1) s) (a : Nat) :
    byteAt (pushByte b s) a = if a = outEnd s then b else byteAt s a :=
  memGet_memSet _ _ _ h.wf

theorem OutputRoom.after_pushByte (h : OutputRoom (n + 1) s) : OutputRoom n (pushByte b s) where
  mapped := h.mapped
  fits := by
    rw [h.outLen_pushByte]
    have hfits := h.fits
    change _ ≤ s.out.outCap.toNat
    omega
  wf := memSet_wf b (inMap_lt h.inMap_outEnd) h.wf

theorem grownBy_zero : grownBy 0 s.bus.mem s = s := by simp [grownBy, Word.ofNat]

theorem word_add_one_add (w : Word) (n : Nat) : w + 1 + Word.ofNat n = w + Word.ofNat (n + 1) := by
  rw [Word.ofNat, Word.ofNat, BitVec.ofNat_add, BitVec.add_assoc, BitVec.add_comm 1]
  rfl

theorem grownBy_pushByte : grownBy n mem (pushByte b s) = grownBy (n + 1) mem s := by
  simp only [grownBy, ← word_add_one_add]
  rfl

theorem appended_nil (h : Memory.wf s.bus.mem = true) : Appended s [] s.bus.mem where
  wf := h
  get a := by rw [if_neg (by rw [within_iff, List.length_nil]; omega)]; rfl

/-- Bytes appended after a first one. -/
theorem OutputRoom.appended_cons (h : OutputRoom (n + 1) s)
    (ha : Appended (pushByte b s) bs mem) : Appended s (b :: bs) mem where
  wf := ha.wf
  get a := by
    simp only [ha.get, h.outEnd_pushByte, h.byteAt_pushByte, within_iff, List.length_cons]
    by_cases hfirst : a = outEnd s
    · rw [if_neg (by omega), if_pos hfirst, if_pos (by omega), hfirst, Nat.sub_self]
      rfl
    · rw [if_neg hfirst]
      by_cases hrest : outEnd s + 1 ≤ a ∧ a < outEnd s + 1 + bs.length
      · rw [if_pos hrest, if_pos (by omega), show a - outEnd s = a - (outEnd s + 1) + 1 by omega,
          List.getD_cons_succ]
      · rw [if_neg hrest, if_neg (by omega)]

/-- In terms of the whole output. -/
theorem Appended.outputIs (h : Appended s bs mem) : outputIs s (window s ++ bs) mem := by
  intro a
  have hlen : (window s).length = s.out.outLen.toNat := by
    rw [window, List.length_map, List.length_range]
  simp only [h.get, within_iff, List.length_append, hlen, outEnd]
  by_cases hnew : s.out.outBase.toNat + s.out.outLen.toNat ≤ a ∧
      a < s.out.outBase.toNat + s.out.outLen.toNat + bs.length
  · rw [if_pos hnew, if_pos (by omega), List.getD_append_right _ _ _ _ (by omega), hlen,
      Nat.sub_sub]
  · rw [if_neg hnew]
    by_cases hold : s.out.outBase.toNat ≤ a ∧
        a < s.out.outBase.toNat + (s.out.outLen.toNat + bs.length)
    · rw [if_pos hold, List.getD_append _ _ _ _ (by omega), window, getD_map_range (by omega),
        Nat.add_sub_of_le hold.1]
    · rw [if_neg hold]

end

/-! ### The window copy (43_inflate.md R269) -/

section

variable {s : State} {dist n : Nat}

/-- Byte `j` of a match: the last `dist` bytes of the output, over and over. -/
def matchByte (s : State) (dist j : Nat) : Byte := byteAt s (outEnd s - dist + j % dist)

/-- After the first byte of a match the window has moved on by one, onto that byte. -/
theorem OutputRoom.matchByte_pushByte (h : OutputRoom (n + 1) s) (h1 : 1 ≤ dist)
    (hd : dist ≤ s.out.outLen.toNat) (j : Nat) :
    matchByte (pushByte (matchByte s dist 0) s) dist j = matchByte s dist (j + 1) := by
  have hlt : j % dist < dist := Nat.mod_lt _ h1
  have hle : dist ≤ outEnd s := Nat.le_trans hd (Nat.le_add_left _ _)
  rw [matchByte, h.outEnd_pushByte, h.byteAt_pushByte]
  by_cases hlast : j % dist + 1 = dist
  · have hmod : (j + 1) % dist = 0 := by rw [← Nat.mod_add_mod, hlast, Nat.mod_self]
    rw [if_pos (by omega), matchByte, matchByte, hmod, Nat.zero_mod]
  · have hmod : (j + 1) % dist = j % dist + 1 := by
      rw [← Nat.mod_add_mod, Nat.mod_eq_of_lt (by omega)]
    rw [if_neg (by omega), matchByte, hmod]
    congr 1
    omega

theorem copyMatch_run (h1 : 1 ≤ dist) (hd : dist ≤ s.out.outLen.toNat) (h : OutputRoom n s) :
    ∃ mem, copyMatch dist n (Run.whole s) = .ok () (Run.whole (grownBy n mem s)) ∧
      Appended s ((List.range n).map (matchByte s dist)) mem := by
  induction n generalizing s with
  | zero => exact ⟨_, by rw [grownBy_zero]; rfl, appended_nil h.wf⟩
  | succ n ih =>
    have hlen := h.outLen_pushByte (b := matchByte s dist 0)
    obtain ⟨mem, hrun, hmem⟩ :=
      ih (s := pushByte (matchByte s dist 0) s) (by omega) h.after_pushByte
    have hread : memRead (outEnd s - dist) (Run.whole s) =
        .ok (matchByte s dist 0) (Run.whole s) :=
      memRead_ok (answers_inMap h.mapped (by simp [outputRegion, outEnd]; omega)
        (by have := h.fits; simp [outputRegion, outEnd]; omega))
    refine ⟨mem, ?_, ?_⟩
    · rw [copyMatch, bind_ok (look_run _)]
      refine (bind_ok hread).trans ?_
      rw [bind_ok (appendByte_run h), hrun, grownBy_pushByte]
    · rw [List.range_succ_eq_map, List.map_cons, List.map_map]
      rw [List.map_congr_left fun j _ => h.matchByte_pushByte h1 hd j] at hmem
      exact h.appended_cons hmem

end

/-- Settles O49: by induction on the length; each byte is read `dist` before the end of the output,
and the window moves on with it. -/
theorem copyRepeatsWindow : Obligations.CopyRepeatsWindow := by
  unfold Obligations.CopyRepeatsWindow
  intro s dist len h1 hd hfits hmapped hwf
  obtain ⟨mem, hrun, hmem⟩ := copyMatch_run h1 hd ⟨hmapped, hfits, hwf⟩
  refine ⟨mem, hrun, fun a => ?_⟩
  rw [hmem.get, List.length_map, List.length_range, ← outEnd, ← Nat.add_sub_assoc hd, ← outEnd]
  by_cases hin : within a (outEnd s) len = true
  · have ⟨_, _⟩ := within_iff.mp hin
    rw [if_pos hin, if_pos hin, getD_map_range (by omega), matchByte]
  · rw [if_neg hin, if_neg hin]

end Sys2Proof.Machine
end

-- Bits that INFLATE takes from real input bytes, and whole bytes of the input (41_bitreader.md).
section
namespace Sys2Proof.Machine

open Sys2Proof

/-! ### Real bits (41_bitreader.md R151, R155) -/

section

variable {s t u : State} {n m : Nat}

/-- A MODE 0 reader that holds no pad bit and has not passed the end of its input. -/
structure RealReader (s : State) : Prop where
  mode : s.rd.mode = .lsb
  ok : readerOk s.rd = true
  padbits : s.rd.padbits = 0
  input : inputAnswers s = true
  cur_le : s.rd.cur.toNat ≤ s.rd.inLen.toNat

/-- `t` is reached from `s` by taking exactly `n` bits, and no pad bit is fetched on the way: only
CUR, ACC and BITCNT differ, the reader stands `n` bits further, and the stream goes on there. -/
structure TakesReal (n : Nat) (s t : State) : Prop where
  reader : RealReader t
  frame : t =
    { s with rd := { s.rd with cur := t.rd.cur, acc := t.rd.acc, bitcnt := t.rd.bitcnt } }
  cur_le : s.rd.cur.toNat ≤ t.rd.cur.toNat
  position : 8 * t.rd.cur.toNat + s.rd.bitcnt = 8 * s.rd.cur.toNat + t.rd.bitcnt + n
  stream : ∀ j, lsbStream t j = lsbStream s (n + j)

theorem RealReader.bitcnt_le (h : RealReader s) : s.rd.bitcnt ≤ 32 := ((readerOk_iff _).mp h.ok).1

theorem RealReader.realBits_eq (h : RealReader s) : realBits s = s.rd.bitcnt + 8 * inputLeft s := by
  rw [realBits, h.padbits, Nat.sub_zero]

theorem TakesReal.refl (h : RealReader s) : TakesReal 0 s s where
  reader := h
  frame := rfl
  cur_le := Nat.le_refl _
  position := by omega
  stream j := by rw [Nat.zero_add]

theorem TakesReal.trans (h : TakesReal n s t) (h' : TakesReal m t u) : TakesReal (n + m) s u where
  reader := h'.reader
  frame := by rw [h'.frame, h.frame]
  cur_le := Nat.le_trans h.cur_le h'.cur_le
  position := by have := h.position; have := h'.position; omega
  stream j := by rw [h'.stream, h.stream, Nat.add_assoc]

theorem TakesReal.inLen (h : TakesReal n s t) : t.rd.inLen = s.rd.inLen := by rw [h.frame]

theorem TakesReal.realBits_eq (h : TakesReal n s t) : realBits s = realBits t + n := by
  have hpad : s.rd.padbits = 0 := by have := h.reader.padbits; rwa [h.frame] at this
  have hend := h.reader.cur_le
  have hcur := h.cur_le
  have hpos := h.position
  rw [h.inLen] at hend
  rw [h.reader.realBits_eq, realBits, hpad, inputLeft, inputLeft, h.inLen]
  omega

/-- The next `k` bits after those taken. -/
theorem TakesReal.lowFirst_eq (h : TakesReal n s t) (k : Nat) :
    lowFirst (lsbStream t) k = lowFirst (fun j => lsbStream s (n + j)) k := by
  rw [funext h.stream]

/-! ### Fetching and dropping real bits -/

/-- CUR moved on past `n` input bytes. -/
def skipInput (n : Nat) (s : State) : State :=
  { s with rd := { s.rd with cur := s.rd.cur + Word.ofNat n } }

theorem toNat_skipInput (hn : n ≤ inputLeft s) :
    (skipInput n s).rd.cur.toNat = s.rd.cur.toNat + n := by
  have hlen := s.rd.inLen.isLt
  have hcur := s.rd.cur.isLt
  rw [inputLeft] at hn
  rw [skipInput, BitVec.toNat_add, Word.ofNat, BitVec.toNat_ofNat]
  omega

/-- A byte fetched into ACC. -/
theorem takesReal_fetch (h : RealReader s) (hb : s.rd.bitcnt ≤ 24) (hleft : 1 ≤ inputLeft s) :
    nextByte (Run.whole s) = .ok (inputByte s 0, .real) (Run.whole (advanceCur s)) ∧
      TakesReal 0 s (enterByte (inputByte s 0) .real (advanceCur s)) := by
  obtain ⟨b, k, w, hfetch, hro, -, hadv, -⟩ := lsb_round h.mode h.ok h.input hb
  obtain ⟨hlt, hreal⟩ | ⟨hge, -⟩ := fetchByte_cases h.input
  · cases hfetch.symm.trans hreal
    have hcur : (advanceCur s).rd.cur.toNat = s.rd.cur.toNat + 1 := toNat_skipInput hleft
    refine ⟨(nextByte_lsb h.mode).trans hreal, ⟨h.mode, lsbAdvanced_readerOk hadv, h.padbits,
      (inputAnswers_readerOnly hro).trans h.input, ?_⟩, rfl, ?_, ?_, fun j => ?_⟩
    · exact hcur.trans_le hlt
    · exact (Nat.le_succ _).trans_eq hcur.symm
    · rw [enterByte_cur, enterByte_bitcnt, hcur]
      change _ = 8 * s.rd.cur.toNat + (s.rd.bitcnt + 8) + 0
      omega
    · rw [lsbStream_of_advanced_zero hro hadv, Nat.zero_add]
  · rw [inputLeft] at hleft
    omega

theorem takesReal_fillLoop (h : RealReader s) (hleft : n ≤ inputLeft s) :
    ∃ t, fillLoop n (Run.whole s) = .ok () (Run.whole t) ∧ TakesReal 0 s t := by
  induction n generalizing s with
  | zero => exact ⟨s, rfl, .refl h⟩
  | succ n ih =>
    rw [fillLoop, bind_ok (look_run _)]
    by_cases hb : s.rd.bitcnt ≤ 24
    · obtain ⟨hnext, htake⟩ := takesReal_fetch h hb (by omega)
      have hreal := htake.realBits_eq
      rw [h.realBits_eq, htake.reader.realBits_eq, enterByte_bitcnt] at hreal
      change _ = s.rd.bitcnt + 8 + _ + 0 at hreal
      obtain ⟨t, hrun, ht⟩ := ih htake.reader (by omega)
      refine ⟨t, ?_, htake.trans ht⟩
      rw [if_pos hb]
      refine (bind_ok hnext).trans ((bind_ok (assignAll_run _ _)).trans ?_)
      rw [afterAll_whole]
      exact hrun
    · rw [if_neg hb]
      exact ⟨s, rfl, .refl h⟩

/-- `Need(k)` where the whole of `Fill` is real: it fetches where fewer than `k` bits are in ACC, so
with `24 + k` real bits left there are four bytes to fetch. -/
theorem takesReal_need {k : Nat} (h : RealReader s) (hk : k ≤ 16) (hreal : 24 + k ≤ realBits s) :
    ∃ t, need k (Run.whole s) = .ok () (Run.whole t) ∧ TakesReal 0 s t ∧ k ≤ t.rd.bitcnt := by
  rw [h.realBits_eq] at hreal
  by_cases hc : s.rd.bitcnt < k
  · obtain ⟨t, hfill, htake⟩ := takesReal_fillLoop (n := 4) h (by omega)
    have hneed : need k (Run.whole s) = .ok () (Run.whole t) := by
      rw [need_run, if_pos hc]
      exact hfill
    exact ⟨t, hneed, htake, (need_bitcnt hk h.bitcnt_le hneed).1⟩
  · exact ⟨s, by rw [need_run, if_neg hc], .refl h, Nat.le_of_not_lt hc⟩

/-- Bits that ACC holds leave it, and none of them is a pad bit. -/
theorem takesReal_dropBits (h : RealReader s) (hn : n ≤ s.rd.bitcnt) :
    takesPad s n = false ∧ TakesReal n s (dropBits n s) := by
  have hpad : takesPad s n = false := by
    rw [takesPad, h.padbits, Nat.sub_zero, decide_eq_false (by omega)]
  have hrd : (dropBits n s).rd =
      { s.rd with acc := (dropBits n s).rd.acc, bitcnt := (dropBits n s).rd.bitcnt } := by
    simp [dropBits_rd, hpad]
  obtain ⟨-, -, -, -, -, hok, hstream⟩ := dropBits_lsb hn h.mode h.ok
  refine ⟨hpad, ⟨h.mode, hok, ?_, h.input, h.cur_le⟩, ?_, Nat.le_refl _, ?_, fun j => ?_⟩
  · rw [hrd]
    exact h.padbits
  · exact congrArg (fun r => { s with rd := r }) hrd
  · rw [dropBits_bitcnt, dropBits_cur]
    omega
  · rw [Nat.add_comm]
    exact hstream j

theorem takesReal_consume (h : RealReader s) (hn : n ≤ s.rd.bitcnt) :
    consume n (Run.whole s) = .ok (lowFirst (lsbStream s) n, false) (Run.whole (dropBits n s)) := by
  rw [consume_whole, (takesReal_dropBits h hn).1, peekBits_lsb hn h.mode]

/-- `Bits(k)` (43_inflate.md R255) where the whole of `Fill` is real. -/
theorem bits_real {k : Nat} (h : RealReader s) (h1 : 1 ≤ k) (hk : k ≤ 16)
    (hreal : 24 + k ≤ realBits s) :
    ∃ t, bits k (Run.whole s) = .ok (lowFirst (lsbStream s) k) (Run.whole t) ∧ TakesReal k s t ∧
      t.rd.bitcnt + k ≤ 32 := by
  obtain ⟨t, hneed, htake, hcnt⟩ := takesReal_need h hk hreal
  have hdrop := htake.trans (takesReal_dropBits htake.reader hcnt).2
  rw [Nat.zero_add] at hdrop
  refine ⟨dropBits k t, ?_, hdrop, ?_⟩
  · rw [bits, if_neg (by omega), bind_ok hneed, bind_ok (takesReal_consume htake.reader hcnt),
      htake.lowFirst_eq]
    simp only [Nat.zero_add]
    rfl
  · have := htake.reader.bitcnt_le
    rw [dropBits_bitcnt]
    omega

/-! ### Whole input bytes after an empty ACC -/

theorem lsbStream_of_empty (h : s.rd.bitcnt = 0) (j : Nat) :
    lsbStream s j =
      if j / 8 < inputLeft s then (inputByte s (j / 8)).getLsbD (j % 8) else false := by
  rw [lsbStream, h, if_neg (Nat.not_lt_zero j), Nat.sub_zero]

theorem takesReal_skipInput (h : RealReader s) (hempty : s.rd.bitcnt = 0) (hn : n ≤ inputLeft s) :
    TakesReal (8 * n) s (skipInput n s) := by
  have hcur := toNat_skipInput hn
  have hend := h.cur_le
  have hleft : inputLeft (skipInput n s) = inputLeft s - n := by
    rw [inputLeft, hcur, inputLeft, Nat.sub_sub]
    rfl
  have hbyte : ∀ k, inputByte (skipInput n s) k = inputByte s (n + k) := fun k => by
    rw [inputByte, hcur, inputByte, Nat.add_assoc]
    rfl
  refine ⟨⟨h.mode, h.ok, h.padbits, h.input, ?_⟩, rfl, by omega, ?_, fun j => ?_⟩
  · rw [hcur]
    change _ ≤ s.rd.inLen.toNat
    rw [inputLeft] at hn
    omega
  · rw [hcur]
    change _ = 8 * s.rd.cur.toNat + s.rd.bitcnt + 8 * n
    omega
  · rw [lsbStream_of_empty hempty, lsbStream_of_empty (s := skipInput n s) hempty, hleft, hbyte,
      Nat.mul_add_div (by omega), Nat.mul_add_mod]
    by_cases hj : n + j / 8 < inputLeft s
    · rw [if_pos hj, if_pos (by omega)]
    · rw [if_neg hj, if_neg (by omega)]

theorem lowFirst_congr {f g : Nat → Bool} (h : ∀ j, j < n → f j = g j) :
    lowFirst f n = lowFirst g n := by
  apply Nat.eq_of_testBit_eq
  intro j
  rw [lowFirst_testBit, lowFirst_testBit]
  by_cases hj : j < n
  · rw [h j hj]
  · simp [hj]

theorem lowFirst_byte (b : Byte) : lowFirst b.getLsbD 8 = b.toNat := by
  apply Nat.eq_of_testBit_eq
  intro j
  rw [lowFirst_testBit, BitVec.testBit_toNat]
  by_cases hj : j < 8
  · simp [hj]
  · simp [hj, BitVec.getLsbD_of_ge b j (by omega)]

/-- With an empty ACC, the stream's bytes are the input's. -/
theorem lowFirst_stream_byte (hempty : s.rd.bitcnt = 0) {k : Nat} (hk : k < inputLeft s) :
    lowFirst (fun j => lsbStream s (8 * k + j)) 8 = (inputByte s k).toNat := by
  rw [← lowFirst_byte]
  refine lowFirst_congr fun j hj => ?_
  rw [lsbStream_of_empty hempty, show (8 * k + j) / 8 = k by omega,
    show (8 * k + j) % 8 = j by omega, if_pos hk]

end

end Sys2Proof.Machine
end

-- The stored block, INFLATE of one block, and the statement of 43_inflate.md R276.
section
namespace Sys2Proof.Machine

open Sys2Proof

/-! ### The parts of a stored block (43_inflate.md R260) -/

section

variable {s t u : State} {n : Nat} {b : Byte} {mem : Memory}

/-- A header byte where a real one is left. -/
theorem headerByte_real (h : RealReader s) (haligned : s.rd.bitcnt % 8 = 0)
    (hreal : 8 ≤ realBits s) :
    ∃ t, headerByte (Run.whole s) = .ok (lowFirst (lsbStream s) 8) (Run.whole t) ∧
      TakesReal 8 s t ∧ t.rd.bitcnt = s.rd.bitcnt - 8 := by
  by_cases hheld : 8 ≤ s.rd.bitcnt
  · refine ⟨dropBits 8 s, ?_, (takesReal_dropBits h hheld).2, rfl⟩
    have hread : readAlignedByte (Run.whole s) = consume 8 (Run.whole s) := by
      rw [readAlignedByte_run, if_pos hheld]
    rw [headerByte, bind_ok (hread.trans (takesReal_consume h hheld))]
    rfl
  · have hempty : s.rd.bitcnt = 0 := by omega
    rw [h.realBits_eq, hempty] at hreal
    have hleft : 0 < inputLeft s := by omega
    refine ⟨skipInput 1 s, ?_, takesReal_skipInput h hempty hleft, ?_⟩
    · obtain ⟨-, hfetch⟩ | ⟨hge, -⟩ := fetchByte_cases h.input
      · have hread : readAlignedByte (Run.whole s) =
            .ok ((inputByte s 0).toNat, false) (Run.whole (advanceCur s)) := by
          rw [readAlignedByte_run, if_neg hheld, hfetch]
        have hbyte := lowFirst_stream_byte hempty hleft
        simp only [Nat.mul_zero, Nat.zero_add] at hbyte
        rw [headerByte, bind_ok hread, hbyte]
        rfl
      · rw [inputLeft] at hleft
        omega
    · change s.rd.bitcnt = s.rd.bitcnt - 8
      omega

/-- What is left of a stored block after the four header bytes. -/
def storedRest (len nlen : Nat) : Engine Unit := do
  if nlen ≠ len ^^^ 0xFFFF then raise .eNlen (Word.ofNat (nlen * 65536 + len))
  let t ← look
  if t.rd.inLen.toNat - t.rd.cur.toNat < len then raiseEof
  if t.out.outCap.toNat - t.out.outLen.toNat < len then
    raise .eOutfull (Word.ofNat (t.out.outLen.toNat + len))
  copyStored len

theorem storedBlock_eq : storedBlock = (do
    let s ← look
    let (_, ovr) ← consume (s.rd.bitcnt % 8)
    if ovr then raiseEof
    let h0 ← headerByte
    let h1 ← headerByte
    let h2 ← headerByte
    let h3 ← headerByte
    storedRest (h0 + h1 * 256) (h2 + h3 * 256)) := rfl

/-- Header byte `k` of a stored block of `s`. -/
theorem headerByte_storedByte {k : Nat} (h : TakesReal (storedAt s + 8 * k) s t)
    (haligned : t.rd.bitcnt % 8 = 0) (hreal : storedAt s + 8 * (k + 1) ≤ realBits s) :
    ∃ u, headerByte (Run.whole t) = .ok (storedByte s k) (Run.whole u) ∧
      TakesReal (storedAt s + 8 * (k + 1)) s u ∧ u.rd.bitcnt = t.rd.bitcnt - 8 := by
  rw [h.realBits_eq] at hreal
  obtain ⟨u, hrun, htake, hcnt⟩ := headerByte_real h.reader haligned (by omega)
  refine ⟨u, ?_, h.trans htake, hcnt⟩
  rw [hrun, h.lowFirst_eq]
  rfl

/-- A stored block through its four header bytes, all of them real, from the end of its three header
bits on; ACC held three whole bytes at most, so it is empty then. -/
theorem storedBlock_head (h : TakesReal 3 s u) (hu : u.rd.bitcnt + 2 ≤ 32)
    (hreal : storedAt s + 32 ≤ realBits s) :
    ∃ t, storedBlock (Run.whole u) =
        storedRest (storedByte s 0 + storedByte s 1 * 256) (storedByte s 2 + storedByte s 3 * 256)
          (Run.whole t) ∧
      TakesReal (storedAt s + 8 * 4) s t ∧ t.rd.bitcnt = 0 := by
  have hmod : u.rd.bitcnt % 8 ≤ u.rd.bitcnt := Nat.mod_le _ _
  have hat : 3 + u.rd.bitcnt % 8 = storedAt s := by
    have hpos := h.position
    rw [storedAt]
    omega
  have h0 := h.trans (takesReal_dropBits h.reader hmod).2
  have hcnt0 := dropBits_bitcnt (s := u) (u.rd.bitcnt % 8)
  rw [hat] at h0
  obtain ⟨t1, hrun1, h1, hcnt1⟩ := headerByte_storedByte (k := 0) h0 (by omega) (by omega)
  obtain ⟨t2, hrun2, h2, hcnt2⟩ := headerByte_storedByte h1 (by omega) (by omega)
  obtain ⟨t3, hrun3, h3, hcnt3⟩ := headerByte_storedByte h2 (by omega) (by omega)
  obtain ⟨t4, hrun4, h4, hcnt4⟩ := headerByte_storedByte h3 (by omega) (by omega)
  refine ⟨t4, ?_, h4, by omega⟩
  rw [storedBlock_eq, bind_ok (look_run _)]
  refine (bind_ok (takesReal_consume h.reader hmod)).trans ?_
  exact (bind_ok hrun1).trans ((bind_ok hrun2).trans ((bind_ok hrun3).trans (bind_ok hrun4)))

/-- The reader after whole bytes that leave ACC empty. -/
theorem TakesReal.rd_eq_storedReader (h : TakesReal (storedAt s + 8 * n) s t)
    (hempty : t.rd.bitcnt = 0) : t.rd = storedReader s n := by
  have hrd : t.rd = { s.rd with cur := t.rd.cur, acc := t.rd.acc, bitcnt := t.rd.bitcnt } :=
    congrArg State.rd h.frame
  have hacc : t.rd.acc = 0 := by
    obtain ⟨-, -, hclear, -⟩ := (readerOk_iff _).mp h.reader.ok
    rw [windowClear_lsb h.reader.mode, hempty] at hclear
    exact BitVec.eq_of_toNat_eq (by simp; omega)
  have hcur : t.rd.cur = s.rd.cur + Word.ofNat ((storedAt s + 8 * n - s.rd.bitcnt) / 8) := by
    have hpos := h.position
    have hle := h.cur_le
    have hlt := t.rd.cur.isLt
    apply BitVec.eq_of_toNat_eq
    rw [BitVec.toNat_add, Word.ofNat, BitVec.toNat_ofNat]
    omega
  rw [storedReader, hrd, hcur, hacc, hempty]

/-! ### The output, where only the reader differs -/

theorem TakesReal.readerOnly (h : TakesReal n s t) : ReaderOnly s t := by
  have hrd := congrArg State.rd h.frame
  have hst : t = { s with rd := t.rd } :=
    h.frame.trans (congrArg (fun r => { s with rd := r }) hrd.symm)
  exact ⟨hst, by rw [hrd], by rw [hrd], by rw [hrd]⟩

theorem OutputRoom.of_readerOnly (h : OutputRoom n s) (hro : ReaderOnly s t) : OutputRoom n t := by
  rw [hro.1]
  exact ⟨h.mapped, h.fits, h.wf⟩

theorem Appended.of_readerOnly {bs : List Byte} (h : Appended t bs mem) (hro : ReaderOnly s t) :
    Appended s bs mem := by
  rw [hro.1] at h
  exact ⟨h.wf, h.get⟩

theorem regionsMeet_of_readerOnly (h : ReaderOnly s t) :
    regionsMeet (outputRegion t) (inputRegion t) =
      regionsMeet (outputRegion s) (inputRegion s) := by
  obtain ⟨hst, -, hbase, hlen⟩ := h
  have hout : t.out = s.out := by rw [hst]
  rw [outputRegion, inputRegion, hout, hbase, hlen]
  rfl

/-! ### The copy of a stored block -/

/-- Two regions that hold the same address meet. -/
theorem regionsMeet_of_mem {r q : Region} {a : Nat} (hr : r.lo ≤ a ∧ a < r.lo + r.len)
    (hq : q.lo ≤ a ∧ a < q.lo + q.len) : regionsMeet r q = true := by
  simp only [regionsMeet, Bool.and_eq_true, decide_eq_true_eq]
  omega

theorem OutputRoom.outEnd_mem (h : OutputRoom (n + 1) s) :
    (outputRegion s).lo ≤ outEnd s ∧ outEnd s < (outputRegion s).lo + (outputRegion s).len := by
  have hfits := h.fits
  change s.out.outBase.toNat ≤ outEnd s ∧ outEnd s < s.out.outBase.toNat + s.out.outCap.toNat
  rw [outEnd]
  omega

/-- An output byte leaves the rest of the input as it was. -/
theorem inputByte_pushByte (h : OutputRoom (n + 1) s)
    (hapart : regionsMeet (outputRegion s) (inputRegion s) = false) {k : Nat}
    (hk : k < inputLeft s) : inputByte (pushByte b s) k = inputByte s k := by
  have hne : s.rd.inBase.toNat + (s.rd.cur.toNat + k) ≠ outEnd s := by
    intro heq
    have hin : (inputRegion s).lo ≤ outEnd s ∧
        outEnd s < (inputRegion s).lo + (inputRegion s).len := by
      rw [inputLeft] at hk
      change s.rd.inBase.toNat ≤ outEnd s ∧ outEnd s < s.rd.inBase.toNat + s.rd.inLen.toNat
      omega
    rw [regionsMeet_of_mem h.outEnd_mem hin] at hapart
    cases hapart
  exact (h.byteAt_pushByte _).trans (if_neg hne)

theorem skipInput_zero : skipInput 0 s = s := by simp [skipInput, Word.ofNat]

theorem skipInput_advanceCur : skipInput n (advanceCur s) = skipInput (n + 1) s := by
  simp only [skipInput, ← word_add_one_add]
  rfl

theorem copyStored_run (ha : inputAnswers s = true) (hleft : n ≤ inputLeft s)
    (h : OutputRoom n s) (hapart : regionsMeet (outputRegion s) (inputRegion s) = false) :
    ∃ mem, copyStored n (Run.whole s) = .ok () (Run.whole (grownBy n mem (skipInput n s))) ∧
      Appended s ((List.range n).map (inputByte s)) mem := by
  induction n generalizing s with
  | zero => exact ⟨_, by rw [skipInput_zero, grownBy_zero]; rfl, appended_nil h.wf⟩
  | succ n ih =>
    have hcur : s.rd.cur.toNat < s.rd.inLen.toNat := by rw [inputLeft] at hleft; omega
    have hroom : OutputRoom (n + 1) (advanceCur s) := ⟨h.mapped, h.fits, h.wf⟩
    have hleft' := inputLeft_advanceCur hcur
    obtain ⟨mem, hrun, hmem⟩ := ih (s := pushByte (inputByte s 0) (advanceCur s)) ha
      (by change n ≤ inputLeft (advanceCur s); omega) hroom.after_pushByte hapart
    have hread : memRead (s.rd.inBase.toNat + s.rd.cur.toNat) (Run.whole s) =
        .ok (inputByte s 0) (Run.whole s) :=
      memRead_ok (answers_inMap ha (Nat.le_add_right _ _) (Nat.add_lt_add_left hcur _))
    have hbytes : ∀ k ∈ List.range n,
        inputByte (pushByte (inputByte s 0) (advanceCur s)) k = inputByte s (k + 1) := by
      intro k hk
      rw [List.mem_range] at hk
      rw [inputByte_pushByte hroom hapart (by omega), inputByte_advanceCur hcur]
    refine ⟨mem, ?_, ?_⟩
    · rw [copyStored, bind_ok (look_run _)]
      refine (bind_ok hread).trans ((bind_ok (assign_run _ _)).trans ?_)
      rw [after_whole, bind_ok (appendByte_run hroom), hrun, ← skipInput_advanceCur,
        ← grownBy_pushByte]
      rfl
    · rw [List.range_succ_eq_map, List.map_cons, List.map_map]
      rw [List.map_congr_left hbytes] at hmem
      exact h.appended_cons (b := inputByte s 0) ⟨hmem.wf, hmem.get⟩

theorem xor_ones {len : Nat} (h : len ≤ 65535) : len ^^^ 0xFFFF = 65535 - len := by
  have hlt : len < 2 ^ 16 := Nat.lt_succ_of_le h
  have hones : (0xFFFF : Nat) = 2 ^ 16 - 1 := rfl
  have hsub : 65535 - len = 2 ^ 16 - (len + 1) := by omega
  apply Nat.eq_of_testBit_eq
  intro i
  rw [hsub, Nat.testBit_xor, hones, Nat.testBit_two_pow_sub_one, Nat.testBit_two_pow_sub_succ hlt]
  by_cases hi : i < 16
  · simp [hi]
  · have hpow : len < 2 ^ i :=
      Nat.lt_of_lt_of_le hlt (Nat.pow_le_pow_right (by omega) (Nat.le_of_not_lt hi))
    simp [hi, Nat.testBit_lt_two_pow hpow]

/-- A stored block past its header, its bytes and their place there. -/
theorem storedRest_run {len nlen : Nat} (hlen : nlen + len = 65535) (ha : inputAnswers s = true)
    (hleft : len ≤ inputLeft s) (h : OutputRoom len s)
    (hapart : regionsMeet (outputRegion s) (inputRegion s) = false) :
    ∃ mem, storedRest len nlen (Run.whole s) =
        .ok () (Run.whole (grownBy len mem (skipInput len s))) ∧
      Appended s ((List.range len).map (inputByte s)) mem := by
  obtain ⟨mem, hrun, hmem⟩ := copyStored_run ha hleft h hapart
  refine ⟨mem, ?_, hmem⟩
  have hfits := h.fits
  have hnlen : ¬ nlen ≠ len ^^^ 0xFFFF := by rw [xor_ones (by omega)]; omega
  rw [inputLeft] at hleft
  rw [storedRest, if_neg hnlen]
  refine (bind_ok (look_run _)).trans ?_
  rw [if_neg (show ¬ s.rd.inLen.toNat - s.rd.cur.toNat < len by omega)]
  rw [if_neg (show ¬ s.out.outCap.toNat - s.out.outLen.toNat < len by omega)]
  exact hrun

end

/-! ### INFLATE up to its first block, and a run of one block (43_inflate.md R258) -/

section

variable {s t : State} {final stepMode : Bool}

theorem readyToInflate_iff :
    readyToInflate s = true ↔ s.rd.mode = .lsb ∧ readerOk s.rd = true ∧ s.rd.padbits = 0 ∧
      inputAnswers s = true ∧ answers s (outputRegion s) = true ∧
      s.out.outLen.toNat ≤ s.out.outCap.toNat ∧
      regionsMeet (outputRegion s) (inputRegion s) = false ∧ Memory.wf s.bus.mem = true := by
  have hmeet : (overlapping (.inflate false) s).isNone =
      !regionsMeet (outputRegion s) (inputRegion s) := by
    have hmeets : meets s.out.outBase.toNat s.out.outCap.toNat s.rd.inBase.toNat s.rd.inLen.toNat =
        regionsMeet (outputRegion s) (inputRegion s) := rfl
    rw [overlapping, hmeets]
    cases regionsMeet (outputRegion s) (inputRegion s) <;> rfl
  simp only [readyToInflate, hmeet, Bool.and_eq_true, beq_iff_eq, decide_eq_true_eq,
    Bool.not_eq_true', and_assoc]

/-- INFLATE that is ready passes its checks. -/
theorem inflate_of_ready (h : readyToInflate s = true) :
    inflate stepMode (Run.whole s) =
      (inflateBlocks stepMode (bitBound s) 0 >>= fun nblk => return Word.ofNat nblk)
        (Run.whole s) := by
  obtain ⟨hmode, -, -, hin, hout, hlen, hapart, -⟩ := readyToInflate_iff.mp h
  have hneedMode : needMode .lsb (Run.whole s) = .ok () (Run.whole s) := by
    rw [needMode_run, if_pos hmode]
  have hneedRange : needRange (outputRegion s) (Run.whole s) = .ok () (Run.whole s) := by
    rw [needRange_run, if_pos (answers_regionFits hout)]
  have hneedLen : needOutLen (Run.whole s) = .ok () (Run.whole s) := by
    rw [needOutLen_run, if_pos hlen]
  have hneedApart : needApart (outputRegion s) (inputRegion s) (Run.whole s) =
      .ok () (Run.whole s) := by
    rw [needApart_run, hapart]
    rfl
  rw [inflate, bind_ok (look_run _), bind_ok hneedMode, bind_ok (needInput_of_answers hin)]
  exact (bind_ok hneedRange).trans ((bind_ok hneedLen).trans (bind_ok hneedApart))

/-- INFLATE of one block: the final one, or any with STEP. -/
theorem exec_inflate_one (h : readyToInflate s = true)
    (hblock : inflateBlock (Run.whole s) = .ok final (Run.whole t))
    (hone : final = true ∨ stepMode = true) :
    exec (.inflate stepMode) s = .next (completed 1 (if final then markFinal t else t)) := by
  have hblocks : inflateBlocks stepMode (bitBound s) 0 (Run.whole s) =
      .ok 1 (Run.whole (if final then markFinal t else t)) := by
    rw [bitBound, inflateBlocks, bind_ok hblock]
    cases final with
    | true => rfl
    | false =>
      obtain rfl : stepMode = true := hone.resolve_left nofun
      rfl
  have hrun : inflate stepMode (Run.whole s) =
      .ok 1 (Run.whole (if final then markFinal t else t)) := by
    rw [inflate_of_ready h, bind_ok hblocks]
    rfl
  rw [exec_eq, pseudocode, runCommand_ok hrun, complete_eq_completed]

end

/-! ### A whole stored block -/

section

variable {s t u : State} {n : Nat} {final : Bool} {data : List Byte}

/-- With more real bits than ACC can hold, the reader stands within its input. -/
theorem realReader_of_ready (h : readyToInflate s = true) (hreal : 32 < realBits s) :
    RealReader s := by
  obtain ⟨hmode, hok, hpad, hin, -⟩ := readyToInflate_iff.mp h
  obtain ⟨hcap, -⟩ := (readerOk_iff _).mp hok
  rw [realBits, inputLeft] at hreal
  exact ⟨hmode, hok, hpad, hin, by omega⟩

theorem TakesReal.after_noteBlock (h : TakesReal n s t) (btype : Nat) :
    TakesReal n (noteBlock btype s) (noteBlock btype t) where
  reader := ⟨h.reader.mode, h.reader.ok, h.reader.padbits, h.reader.input, h.reader.cur_le⟩
  frame := congrArg (noteBlock btype) h.frame
  cur_le := h.cur_le
  position := h.position
  stream := h.stream

/-- The header of a stored block: BFINAL and BTYPE 0. -/
theorem inflateBlock_of_stored (hreader : RealReader s) (hreal : storedAt s + 32 ≤ realBits s)
    (hbits : beginsWith s [final, false, false]) :
    ∃ u, TakesReal 3 (noteBlock 0 s) u ∧ u.rd.bitcnt + 2 ≤ 32 ∧
      inflateBlock (Run.whole s) = (storedBlock >>= fun _ => return final) (Run.whole u) := by
  have hat : 3 ≤ storedAt s := Nat.le_add_right _ _
  have hfirst : lowFirst (lsbStream s) 1 = final.toNat := by
    rw [lowFirst_congr (g := fun _ => final) fun j hj => ?_]
    · cases final <;> rfl
    · rw [hbits j (by simp; omega), Nat.lt_one_iff.mp hj]
      rfl
  obtain ⟨t, hrun1, h1, -⟩ := bits_real (k := 1) hreader (by omega) (by omega) (by omega)
  have hreal1 := h1.realBits_eq
  obtain ⟨u, hrun2, h2, hcnt⟩ := bits_real (k := 2) h1.reader (by omega) (by omega) (by omega)
  have htype : lowFirst (lsbStream t) 2 = 0 := by
    rw [h1.lowFirst_eq, lowFirst_congr (g := fun _ => false) fun j hj => ?_]
    · rfl
    · rw [hbits (1 + j) (by simp; omega), Nat.add_comm, List.getD_cons_succ]
      rcases j with _ | _ | j <;> rfl
  refine ⟨noteBlock 0 u, (h1.trans h2).after_noteBlock 0, hcnt, ?_⟩
  rw [hfirst] at hrun1
  rw [htype] at hrun2
  rw [inflateBlock, bind_ok hrun1]
  refine (bind_ok hrun2).trans ((bind_ok (assign_run _ _)).trans ?_)
  cases final <;> rfl

/-- The block's bytes are the input's after its header. -/
theorem map_inputByte_eq_data (h : TakesReal (storedAt s + 8 * 4) s t) (hempty : t.rd.bitcnt = 0)
    (hreal : storedAt s + 8 * (4 + data.length) ≤ realBits s)
    (hdata : ∀ k, k < data.length → storedByte s (4 + k) = (data.getD k 0).toNat) :
    data.length ≤ inputLeft t ∧ (List.range data.length).map (inputByte t) = data := by
  have hleft : data.length ≤ inputLeft t := by
    rw [h.realBits_eq, h.reader.realBits_eq, hempty] at hreal
    omega
  refine ⟨hleft, List.ext_getElem (by simp) fun k hk hk' => ?_⟩
  rw [List.getElem_map, List.getElem_range]
  apply BitVec.eq_of_toNat_eq
  have hk4 := hdata k hk'
  rw [List.getD_eq_getElem _ _ hk'] at hk4
  rw [← lowFirst_stream_byte hempty (by omega), ← hk4, storedByte]
  refine lowFirst_congr fun j _ => ?_
  rw [h.stream]
  congr 1
  omega

/-- A stored block from the end of its three header bits on. -/
theorem storedBlock_run (h : TakesReal 3 s u) (hu : u.rd.bitcnt + 2 ≤ 32)
    (hroom : OutputRoom data.length s)
    (hapart : regionsMeet (outputRegion s) (inputRegion s) = false)
    (hreal : storedAt s + 8 * (4 + data.length) ≤ realBits s)
    (hlen : storedByte s 0 + 256 * storedByte s 1 = data.length)
    (hnlen : storedByte s 2 + 256 * storedByte s 3 + data.length = 65535)
    (hdata : ∀ k, k < data.length → storedByte s (4 + k) = (data.getD k 0).toNat) :
    ∃ mem, storedBlock (Run.whole u) = .ok () (Run.whole (grownBy data.length mem
        { s with rd := storedReader s (4 + data.length) })) ∧ Appended s data mem := by
  obtain ⟨t, hhead, ht, hempty⟩ := storedBlock_head h hu (by omega)
  obtain ⟨hleft, hbytes⟩ := map_inputByte_eq_data ht hempty hreal hdata
  have hro := ht.readerOnly
  obtain ⟨mem, hrest, hmem⟩ := storedRest_run hnlen ht.reader.input hleft
    (hroom.of_readerOnly hro) ((regionsMeet_of_readerOnly hro).trans hapart)
  have hskip := ht.trans (takesReal_skipInput ht.reader hempty hleft)
  rw [Nat.add_assoc, ← Nat.mul_add] at hskip
  have hend : skipInput data.length t = { s with rd := storedReader s (4 + data.length) } := by
    rw [← hskip.rd_eq_storedReader hempty]
    exact hskip.readerOnly.1
  rw [hbytes] at hmem
  refine ⟨mem, ?_, hmem.of_readerOnly hro⟩
  rw [hhead, Nat.mul_comm _ 256, hlen, Nat.mul_comm _ 256, hrest, hend]

end

/-- Settles O42: the header's bits and bytes are all real, and leave ACC empty; the copy then reads
the input byte by byte, which the output does not meet. -/
theorem storedBlockVerbatim : Obligations.StoredBlockVerbatim := by
  unfold Obligations.StoredBlockVerbatim
  intro final stepMode s data hready hone hmax hreal hbits hlen hnlen hdata hfits
  obtain ⟨-, -, -, -, hmapped, -, hapart, hwf⟩ := readyToInflate_iff.mp hready
  have hreader := realReader_of_ready hready (by rw [storedAt] at hreal; omega)
  obtain ⟨u, hu, hcnt, hhead⟩ := inflateBlock_of_stored hreader (by omega) hbits
  obtain ⟨mem, hrun, hmem⟩ := storedBlock_run hu hcnt ⟨hmapped, hfits, hwf⟩ hapart hreal hlen
    (by change storedByte s 2 + 256 * storedByte s 3 + data.length = 65535; omega) hdata
  have hexec := exec_inflate_one hready (hhead.trans (bind_ok hrun)) hone
  refine ⟨mem, hexec.trans ?_, Appended.outputIs ⟨hmem.wf, hmem.get⟩⟩
  cases final <;> rfl

end Sys2Proof.Machine
end

-- PNG_UNFILTER: the predictors, the layout and the bytes of a row, and the statements of
-- 44_png_filter.md.
section
namespace Sys2Proof.Machine

open Sys2Proof

/-! ### Paeth (44_png_filter.md R306) -/

/-- Settles O52: by which of the three `paeth` picks, its two comparisons being those of the
statement. -/
theorem paethPicksNearest : Obligations.PaethPicksNearest := by
  unfold Obligations.PaethPicksNearest
  rintro a b c p rfl
  rw [paeth]
  split
  · exact ⟨.inl rfl, by rintro v (rfl | rfl | rfl) <;> omega, by omega, by omega⟩
  · split
    · exact ⟨.inr (.inl rfl), by rintro v (rfl | rfl | rfl) <;> omega, by omega, by omega⟩
    · exact ⟨.inr (.inr rfl), by rintro v (rfl | rfl | rfl) <;> omega, by omega, by omega⟩

/-! ### Checks that all pass (30_encoding.md R130) -/

section

variable {s : State} {i : Instr}

/-- Where no check fails, the rest of the pseudocode runs from the state at its start. -/
theorem guarded_passes (rest : Engine Word) {cs : List Check} (h : firstFault s cs = none) :
    guarded rest cs (Run.whole s) = rest (Run.whole s) := by
  induction cs with
  | nil => rfl
  | cons c cs ih =>
    obtain ⟨hc, hcs⟩ := Option.or_eq_none_iff.mp ((firstFault_cons c cs).symm.trans h)
    have hrun := Check.run_whole (s := s) c
    rw [hc] at hrun
    rw [guarded, bind_ok hrun, ih hcs]

theorem firstFault_checks_of_valueFault (h : valueFault i s = none) :
    firstFault s (checks i s) = none := by
  rwa [valueFault_eq_firstFault, Option.map_eq_none_iff] at h

/-- Where no check fails, two regions that must not meet do not. -/
theorem regionsMeet_of_checks {output other : Region} (h : valueFault i s = none)
    (hmem : Check.apart output other ∈ checks i s) : regionsMeet output other = false := by
  have hfault : Check.fault s (.apart output other) = none :=
    List.findSome?_eq_none_iff.mp (firstFault_checks_of_valueFault h) _ hmem
  rw [Check.fault] at hfault
  cases hmeet : regionsMeet output other with
  | false => rfl
  | true => rw [hmeet] at hfault; cases hfault

end

/-! ### The predictor (44_png_filter.md R301 to R303) -/

section

variable {ft bpp k : Nat} {left left' above : Nat → Byte}

/-- The prediction for byte `k` looks at one reconstructed byte only, that of the pixel before. -/
theorem predicted_congr (h : bpp ≤ k → left (k - bpp) = left' (k - bpp)) :
    predicted ft bpp k left above = predicted ft bpp k left' above := by
  have hleft : (if bpp ≤ k then (left (k - bpp)).toNat else 0) =
      if bpp ≤ k then (left' (k - bpp)).toNat else 0 := by
    split
    · rename_i hk
      rw [h hk]
    · rfl
  rw [predicted, predicted, hleft]

theorem ofNat_toNat_add (x : Byte) (n : Nat) : Byte.ofNat (x.toNat + n) = x + Byte.ofNat n := by
  rw [Byte.ofNat, Byte.ofNat, BitVec.ofNat_add, BitVec.ofNat_toNat, BitVec.setWidth_eq]

/-- `b` matters for the types 2 to 4 only, and `c` for type 4 only (R301, R310). -/
theorem reconstruct_eq_predicted {x a b c : Byte} (hft : ft ≤ 4)
    (ha : a = if bpp ≤ k then left (k - bpp) else 0) (hb : 2 ≤ ft → b = above k)
    (hc : ft = 4 → c = if bpp ≤ k then above (k - bpp) else 0) :
    reconstruct ft x a b c = x + predicted ft bpp k left above := by
  rw [reconstruct, ofNat_toNat_add, predicted, ha]
  congr 2
  match ft, hft with
  | 0, _ => rfl
  | 1, _ => split <;> rfl
  | 2, _ => rw [hb (by decide)]; rfl
  | 3, _ => rw [hb (by decide)]; split <;> rfl
  | 4, _ => rw [hb (by decide), hc rfl]; split <;> rfl

end

/-! ### The layout of a row (44_png_filter.md R308) -/

section

variable {bpp sb i k : Nat} {j : RowJob} {y : Byte}

theorem rowPos_eq (bpp sb k : Nat) : rowPos bpp sb k = k + k / bpp * sb := by
  have := Nat.div_add_mod' k bpp
  rw [rowPos, Nat.mul_add]
  omega

theorem rowLen_eq_rowPos (bpp sb n : Nat) : rowLen bpp sb n = rowPos bpp sb n :=
  (rowPos_eq bpp sb n).symm

theorem rowPos_lt (h : i < k) : rowPos bpp sb i < rowPos bpp sb k := by
  rw [rowPos_eq, rowPos_eq]
  exact Nat.add_lt_add_of_lt_of_le h (Nat.mul_le_mul_right sb (Nat.div_le_div_right h.le))

/-- A pixel's last byte has its alpha bytes after it. -/
theorem rowPos_succ (hbpp : 0 < bpp) :
    rowPos bpp sb (k + 1) = rowPos bpp sb k + 1 + if k % bpp = bpp - 1 then sb else 0 := by
  rw [rowPos_eq, rowPos_eq, Nat.succ_div]
  by_cases hlast : k % bpp = bpp - 1
  · have hdvd : bpp ∣ k + 1 := by
      rw [Nat.dvd_iff_mod_eq_zero, ← Nat.mod_add_mod, hlast, Nat.sub_add_cancel hbpp, Nat.mod_self]
    rw [if_pos hlast, if_pos hdvd, Nat.add_mul, Nat.one_mul]
    omega
  · have hdvd : ¬ bpp ∣ k + 1 := by
      intro h
      have hmod := Nat.mod_lt k hbpp
      have := Nat.mod_eq_zero_of_dvd h
      rw [← Nat.mod_add_mod, Nat.mod_eq_of_lt (by omega)] at this
      omega
    rw [if_neg hlast, if_neg hdvd, Nat.add_zero, Nat.add_zero]
    exact Nat.add_right_comm ..

/-- Where byte `k` of the row stands in MEM. -/
def RowJob.slot (j : RowJob) (k : Nat) : Nat := j.dst + rowPos j.bpp j.sb k

/-- What byte `k` puts into the row: itself, and after a pixel's last byte the alpha bytes. -/
def RowJob.emitted (j : RowJob) (k : Nat) (y : Byte) : List Byte :=
  y :: if k % j.bpp = j.bpp - 1 then List.replicate j.sb 0xFF else []

theorem RowJob.slot_zero : j.slot 0 = j.dst := by simp [slot, rowPos]

theorem RowJob.slot_lt (h : i < k) : j.slot i < j.slot k := Nat.add_lt_add_left (rowPos_lt h) _

theorem RowJob.slot_le (h : i ≤ k) : j.slot i ≤ j.slot k := by
  obtain rfl | h := h.eq_or_lt
  · exact Nat.le_refl _
  · exact (slot_lt h).le

theorem RowJob.dst_le_slot : j.dst ≤ j.slot k := Nat.le_add_right _ _

/-- The row's region ends where byte `n` would stand. -/
theorem RowJob.rowRegion_end : (rowRegion j).lo + (rowRegion j).len = j.slot j.n := by
  rw [rowRegion, rowLen_eq_rowPos, slot]

/-- What the bytes put into the row lies side by side. -/
theorem RowJob.slot_add_emitted (hbpp : 0 < j.bpp) :
    j.slot k + (j.emitted k y).length = j.slot (k + 1) := by
  rw [slot, slot, emitted, rowPos_succ hbpp]
  split <;> simp <;> omega

/-- The alpha bytes follow the pixel's last byte. -/
theorem RowJob.alpha_eq_slot (hbpp : 0 < j.bpp) (hlast : k % j.bpp = j.bpp - 1) :
    j.dst + k / j.bpp * (j.bpp + j.sb) + j.bpp = j.slot k + 1 := by
  rw [slot, rowPos, hlast]
  omega

theorem writeAlpha_eq_writeBytes (n a : Nat) :
    writeAlpha n a = writeBytes (List.replicate n 0xFF) a := by
  induction n generalizing a with
  | zero => rfl
  | succ n ih => simp only [writeAlpha, ih, List.replicate_succ, writeBytes]

/-- A byte and the alpha bytes after it are written as one run of bytes. -/
theorem RowJob.write_emitted (hbpp : 0 < j.bpp) (rest : Engine Unit) :
    (do
      memWrite (j.dst + rowPos j.bpp j.sb k) y
      if k % j.bpp = j.bpp - 1 then
        writeAlpha j.sb (j.dst + k / j.bpp * (j.bpp + j.sb) + j.bpp)
      rest) = (writeBytes (j.emitted k y) (j.slot k) >>= fun _ => rest) := by
  rw [emitted, writeBytes, slot, bind_assoc]
  split
  · rename_i hlast
    rw [alpha_eq_slot hbpp hlast, writeAlpha_eq_writeBytes, slot]
  · rfl

end

/-! ### A row under way (44_png_filter.md R310) -/

/-- The state with another MEM. -/
def withMem (mem : Memory) (s : State) : State := { s with bus := { s.bus with mem := mem } }

/-- The bytes of the prior row, 0 for a first row (44_png_filter.md R302). -/
def RowJob.above (j : RowJob) (s : State) (k : Nat) : Byte :=
  if j.first then 0 else byteAt s (j.prior + rowPos j.bpp j.sb k)

/-- The operands of a row answer and do not meet; the raw row holds the bytes `raw`, and the prior
one the bytes `above`. -/
structure RowReady (j : RowJob) (raw above : Nat → Byte) (s : State) : Prop where
  bpp_pos : 0 < j.bpp
  rawMapped : answers s (rawRegion j) = true
  rowMapped : answers s (rowRegion j) = true
  priorMapped : answers s (priorRegion j) = true
  rawApart : regionsMeet (rowRegion j) (rawRegion j) = false
  priorApart : regionsMeet (rowRegion j) (priorRegion j) = false
  wf : Memory.wf s.bus.mem = true
  rawByte : ∀ i, i < j.n → byteAt s (j.raw + 1 + i) = raw i
  aboveByte : ∀ i, i < j.n → above i = j.above s i

/-- `mem` is MEM with what byte `k` puts into the row, and is else as before. -/
structure Emitted (j : RowJob) (k : Nat) (y : Byte) (s : State) (mem : Memory) : Prop where
  wf : Memory.wf mem = true
  put : ∀ d, d < (j.emitted k y).length → memGet mem (j.slot k + d) = (j.emitted k y).getD d 0
  frame : ∀ a, a < j.slot k ∨ j.slot (k + 1) ≤ a → memGet mem a = byteAt s a

/-- `mem` is MEM with the row reconstructed from byte `k` on, and is else as before. -/
structure Rebuilt (j : RowJob) (ft : Nat) (raw above : Nat → Byte) (k : Nat) (s : State)
    (mem : Memory) : Prop where
  byte : ∀ i, k ≤ i → i < j.n → memGet mem (j.slot i) =
    raw i + predicted ft j.bpp i (fun i => memGet mem (j.slot i)) above
  alpha : ∀ i d, k ≤ i → i < j.n → i % j.bpp = j.bpp - 1 → d < j.sb →
    memGet mem (j.slot i + 1 + d) = 0xFF
  frame : ∀ a, a < j.slot k ∨ j.slot j.n ≤ a → memGet mem a = byteAt s a

section

variable {j : RowJob} {ft left k : Nat} {raw above : Nat → Byte} {s : State} {mem : Memory}
  {out : List Byte} {y : Byte}

/-- An address of a region that the row does not meet lies outside the row. -/
theorem outside_of_apart {r : Region} {a : Nat} (h : regionsMeet (rowRegion j) r = false)
    (ha : r.lo ≤ a ∧ a < r.lo + r.len) : a < j.slot 0 ∨ j.slot j.n ≤ a := by
  by_contra hin
  have hrow : (rowRegion j).lo ≤ a ∧ a < (rowRegion j).lo + (rowRegion j).len := by
    rw [RowJob.rowRegion_end]
    rw [RowJob.slot_zero] at hin
    change j.dst ≤ a ∧ a < j.slot j.n
    omega
  rw [regionsMeet_of_mem hrow ha] at h
  cases h

theorem raw_mem (hk : k < j.n) : (rawRegion j).lo ≤ j.raw + 1 + k ∧
    j.raw + 1 + k < (rawRegion j).lo + (rawRegion j).len := by
  rw [rawRegion]
  dsimp only
  omega

theorem prior_mem (hfirst : j.first = false) (hk : k < j.n) :
    (priorRegion j).lo ≤ j.prior + rowPos j.bpp j.sb k ∧
      j.prior + rowPos j.bpp j.sb k < (priorRegion j).lo + (priorRegion j).len := by
  rw [priorRegion, hfirst, rowLen_eq_rowPos]
  exact ⟨Nat.le_add_right _ _, Nat.add_lt_add_left (rowPos_lt hk) _⟩

/-- Writing into the row leaves the operands as they were. -/
theorem RowReady.after_write (h : RowReady j raw above s) (hwf : Memory.wf mem = true)
    (hframe : ∀ a, a < j.slot 0 ∨ j.slot j.n ≤ a → memGet mem a = byteAt s a) :
    RowReady j raw above (withMem mem s) where
  bpp_pos := h.bpp_pos
  rawMapped := h.rawMapped
  rowMapped := h.rowMapped
  priorMapped := h.priorMapped
  rawApart := h.rawApart
  priorApart := h.priorApart
  wf := hwf
  rawByte i hi := (hframe _ (outside_of_apart h.rawApart (raw_mem hi))).trans (h.rawByte i hi)
  aboveByte i hi := by
    rw [h.aboveByte i hi, RowJob.above, RowJob.above]
    cases hfirst : j.first with
    | true => rfl
    | false =>
      exact (hframe _ (outside_of_apart h.priorApart (prior_mem hfirst hi))).symm

theorem RowReady.read_raw (h : RowReady j raw above s) (hk : k < j.n) :
    memRead (j.raw + 1 + k) (Run.whole s) = .ok (raw k) (Run.whole s) := by
  obtain ⟨hlo, hhi⟩ := raw_mem hk
  rw [← h.rawByte k hk]
  exact memRead_ok (answers_inMap h.rawMapped hlo hhi)

theorem RowReady.read_prior (h : RowReady j raw above s) (hfirst : j.first = false)
    (hk : k < j.n) :
    memRead (j.prior + rowPos j.bpp j.sb k) (Run.whole s) = .ok (above k) (Run.whole s) := by
  obtain ⟨hlo, hhi⟩ := prior_mem hfirst hk
  rw [h.aboveByte k hk, RowJob.above, hfirst]
  exact memRead_ok (answers_inMap h.priorMapped hlo hhi)

theorem RowReady.above_first (h : RowReady j raw above s) (hfirst : j.first = true)
    (hk : k < j.n) : above k = 0 := by
  rw [h.aboveByte k hk, RowJob.above, hfirst]
  rfl

/-- A type that uses `b` gets the byte above. -/
theorem RowReady.priorAbove_run (h : RowReady j raw above s) (hk : k < j.n) (hft : ft ≤ 4) :
    ∃ b, priorAbove j ft k (Run.whole s) = .ok b (Run.whole s) ∧ (2 ≤ ft → b = above k) := by
  rw [priorAbove]
  split
  · rename_i huse
    have hfirst : j.first = false := by
      rw [usesPrior, Bool.and_eq_true, Bool.not_eq_true'] at huse
      exact huse.1
    exact ⟨_, h.read_prior hfirst hk, fun _ => rfl⟩
  · rename_i huse
    refine ⟨0, rfl, fun h2 => (h.above_first ?_ hk).symm⟩
    have htype : (ft == 2 || ft == 3 || ft == 4) = true := by
      simp only [Bool.or_eq_true, beq_iff_eq]
      omega
    simpa [usesPrior, htype] using huse

/-- Type 4 gets the byte above that of the pixel before, and 0 for the first pixel. -/
theorem RowReady.priorAboveLeft_run (h : RowReady j raw above s) (hk : k < j.n) :
    ∃ c, priorAboveLeft j ft k (Run.whole s) = .ok c (Run.whole s) ∧
      (ft = 4 → c = if j.bpp ≤ k then above (k - j.bpp) else 0) := by
  have hlt : k - j.bpp < j.n := Nat.lt_of_le_of_lt (Nat.sub_le _ _) hk
  rw [priorAboveLeft]
  split
  · rename_i huse
    simp only [usesPrior, Bool.and_eq_true, Bool.not_eq_true', decide_eq_true_eq] at huse
    obtain ⟨⟨⟨hfirst, -⟩, -⟩, hbpp⟩ := huse
    exact ⟨_, h.read_prior hfirst hlt, fun _ => (if_pos hbpp).symm⟩
  · rename_i huse
    refine ⟨0, rfl, fun h4 => ?_⟩
    split
    · rename_i hbpp
      exact (h.above_first (by simpa [usesPrior, h4, hbpp] using huse) hlt).symm
    · rfl

/-- One byte of the row: it is reconstructed from the bytes in MEM, and put into the row. -/
theorem RowReady.unfilterFrom_succ (h : RowReady j raw above s) (hk : k < j.n) (hft : ft ≤ 4)
    (hout : ∀ i, i < k → out.getD (k - 1 - i) 0 = byteAt s (j.slot i))
    (hy : raw k + predicted ft j.bpp k (fun i => byteAt s (j.slot i)) above = y) :
    unfilterFrom j ft (left + 1) k out (Run.whole s) =
      (writeBytes (j.emitted k y) (j.slot k) >>= fun _ => unfilterFrom j ft left (k + 1) (y :: out))
        (Run.whole s) := by
  obtain ⟨b, hbrun, hb⟩ := h.priorAbove_run hk hft
  obtain ⟨c, hcrun, hc⟩ := h.priorAboveLeft_run (ft := ft) hk
  have ha : (if j.bpp ≤ k then out.getD (j.bpp - 1) 0 else 0) =
      if j.bpp ≤ k then byteAt s (j.slot (k - j.bpp)) else 0 := by
    split
    · have hbpp := h.bpp_pos
      rw [← hout (k - j.bpp) (by omega), show k - 1 - (k - j.bpp) = j.bpp - 1 by omega]
    · rfl
  rw [unfilterFrom, bind_ok (h.read_raw hk), bind_ok hbrun, bind_ok hcrun,
    reconstruct_eq_predicted (left := fun i => byteAt s (j.slot i)) hft ha hb hc, hy,
    RowJob.write_emitted h.bpp_pos]

/-- The bytes that byte `k` puts into the row are written. -/
theorem RowReady.emit_run (h : RowReady j raw above s) (hk : k < j.n) :
    ∃ mem, writeBytes (j.emitted k y) (j.slot k) (Run.whole s) =
        .ok () (Run.whole (withMem mem s)) ∧ Emitted j k y s mem := by
  have hend : j.slot k + (j.emitted k y).length = j.slot (k + 1) :=
    RowJob.slot_add_emitted h.bpp_pos
  have hlast : j.slot (k + 1) ≤ j.slot j.n := RowJob.slot_le hk
  have hmapped : ∀ d, d < (j.emitted k y).length → inMap s.bus.holes (j.slot k + d) = true :=
    fun d hd => answers_inMap h.rowMapped (Nat.le_trans RowJob.dst_le_slot (Nat.le_add_right _ _))
      (by rw [RowJob.rowRegion_end]; omega)
  obtain ⟨mem, hrun, hwf, hget⟩ := writeBytes_ok (r := Run.whole s) _ _ hmapped h.wf
  change ∀ a, memGet mem a =
    if within a (j.slot k) (j.emitted k y).length then (j.emitted k y).getD (a - j.slot k) 0
    else byteAt s a at hget
  refine ⟨mem, hrun, hwf, fun d hd => ?_, fun a ha => ?_⟩
  · rw [hget, if_pos (within_iff.mpr ⟨Nat.le_add_right _ _, Nat.add_lt_add_left hd _⟩),
      Nat.add_sub_cancel_left]
  · refine (hget a).trans (if_neg ?_)
    rw [within_iff]
    omega

/-- Byte `k` put into the row, and the rest reconstructed after it. -/
theorem Emitted.rebuilt {mem' : Memory} (he : Emitted j k y s mem) (hbpp : 0 < j.bpp) (hk : k < j.n)
    (hy : raw k + predicted ft j.bpp k (fun i => byteAt s (j.slot i)) above = y)
    (hrest : Rebuilt j ft raw above (k + 1) (withMem mem s) mem') :
    Rebuilt j ft raw above k s mem' := by
  have hend : j.slot k + (j.emitted k y).length = j.slot (k + 1) := RowJob.slot_add_emitted hbpp
  have hlast : j.slot (k + 1) ≤ j.slot j.n := RowJob.slot_le hk
  have hframe : ∀ a, a < j.slot k ∨ j.slot j.n ≤ a → memGet mem' a = byteAt s a := fun a ha =>
    (hrest.frame a (by omega)).trans (he.frame a (by omega))
  have hput : ∀ d, d < (j.emitted k y).length →
      memGet mem' (j.slot k + d) = (j.emitted k y).getD d 0 := fun d hd =>
    (hrest.frame _ (by omega)).trans (he.put d hd)
  refine ⟨fun i hi hn => ?_, fun i d hi hn hpix hd => ?_, hframe⟩
  · obtain rfl | hi := hi.eq_or_lt
    · have hleft : j.bpp ≤ k → byteAt s (j.slot (k - j.bpp)) = memGet mem' (j.slot (k - j.bpp)) :=
        fun hle => (hframe _ (.inl (RowJob.slot_lt (Nat.sub_lt_self hbpp hle)))).symm
      calc memGet mem' (j.slot k)
          = y := hput 0 (Nat.succ_pos _)
        _ = _ := by rw [← hy, predicted_congr (left' := fun i => memGet mem' (j.slot i)) hleft]
    · exact hrest.byte i hi hn
  · obtain rfl | hi := hi.eq_or_lt
    · have hbytes : j.emitted k y = y :: List.replicate j.sb 0xFF := by
        rw [RowJob.emitted, if_pos hpix]
      rw [Nat.add_assoc, Nat.add_comm 1, hput (d + 1) (by simpa [hbytes] using hd), hbytes]
      simp [List.getD_eq_getElem?_getD, hd]
    · exact hrest.alpha i d hi hn hpix hd

/-- The loop reconstructs the row: each byte from those that are already in MEM. -/
theorem RowReady.unfilterFrom_run (h : RowReady j raw above s) (hft : ft ≤ 4)
    (hleft : k + left = j.n)
    (hout : ∀ i, i < k → out.getD (k - 1 - i) 0 = byteAt s (j.slot i)) :
    ∃ mem, unfilterFrom j ft left k out (Run.whole s) = .ok () (Run.whole (withMem mem s)) ∧
      Rebuilt j ft raw above k s mem := by
  induction left generalizing k s out with
  | zero => exact ⟨s.bus.mem, rfl, by omega, by omega, fun _ _ => rfl⟩
  | succ left ih =>
    have hk : k < j.n := by omega
    obtain ⟨y, hy⟩ : ∃ y, raw k + predicted ft j.bpp k (fun i => byteAt s (j.slot i)) above = y :=
      ⟨_, rfl⟩
    obtain ⟨mem, hemit, he⟩ := h.emit_run (y := y) hk
    have hready : RowReady j raw above (withMem mem s) := h.after_write he.wf fun a ha =>
      he.frame a (ha.imp (fun ha => ha.trans_le (RowJob.slot_le k.zero_le))
        (RowJob.slot_le hk).trans)
    have hout' : ∀ i, i < k + 1 →
        (y :: out).getD (k + 1 - 1 - i) 0 = byteAt (withMem mem s) (j.slot i) := by
      intro i hi
      obtain rfl | hi := (Nat.le_of_lt_succ hi).eq_or_lt
      · rw [Nat.add_sub_cancel, Nat.sub_self]
        exact (he.put 0 (Nat.succ_pos _)).symm
      · rw [show k + 1 - 1 - i = k - 1 - i + 1 by omega, List.getD_cons_succ, hout i hi]
        exact (he.frame _ (.inl (RowJob.slot_lt hi))).symm
    obtain ⟨mem', hrun, hrest⟩ := ih hready (by omega) hout'
    refine ⟨mem', ?_, he.rebuilt h.bpp_pos hk hy hrest⟩
    rw [h.unfilterFrom_succ hk hft hout hy, bind_ok hemit, hrun]
    rfl

end

/-! ### The command (44_png_filter.md R310, R312) -/

section

variable {bppm1 : BitVec 3} {first alpha a16 : Bool} {s : State}

/-- PNG_UNFILTER that passes its checks goes on with its row. -/
theorem pngUnfilter_of_legal (h : valueFault (.pngUnfilter bppm1 first alpha a16) s = none) :
    pngUnfilter bppm1 first alpha a16 (Run.whole s) =
      unfilterRow (rowJob bppm1 first alpha a16 s) (Run.whole s) := by
  have hguarded : pngUnfilter bppm1 first alpha a16 (Run.whole s) =
      guarded (unfilterRow (rowJob bppm1 first alpha a16 s))
        (checks (.pngUnfilter bppm1 first alpha a16) s) (Run.whole s) := by
    cases first <;> rfl
  rw [hguarded, guarded_passes _ (firstFault_checks_of_valueFault h)]

/-- Legal operands with regions that answer are ready. -/
theorem rowReady_of_legal (h : valueFault (.pngUnfilter bppm1 first alpha a16) s = none)
    (hraw : answers s ⟨s.args.arg0.toNat, 1 + s.args.arg3.toNat⟩ = true)
    (hrow : answers s ⟨s.args.arg1.toNat, outputRow bppm1 alpha a16 s⟩ = true)
    (hprior : first = false →
      answers s ⟨s.args.arg2.toNat, outputRow bppm1 alpha a16 s⟩ = true)
    (hwf : Memory.wf s.bus.mem = true) :
    RowReady (rowJob bppm1 first alpha a16 s) (fun i => byteAt s (s.args.arg0.toNat + 1 + i))
      ((rowJob bppm1 first alpha a16 s).above s) s where
  bpp_pos := Nat.succ_pos _
  rawMapped := hraw
  rowMapped := by rwa [outputRow_eq_rowLen] at hrow
  priorMapped := by
    cases first with
    | false =>
      have hrows := hprior rfl
      rwa [outputRow_eq_rowLen] at hrows
    | true =>
      have hfits : s.args.arg2.toNat ≤ 2 ^ 32 := s.args.arg2.isLt.le
      simpa [answers, priorRegion, rowJob, regionFits, addrEnd] using hfits
  rawApart := regionsMeet_of_checks h (by simp [checks, apartChecks])
  priorApart := regionsMeet_of_checks h (by simp [checks, apartChecks])
  wf := hwf
  rawByte _ _ := rfl
  aboveByte _ _ := rfl

theorem filterType_word (ft : Byte) : ft.zeroExtend 32 = 0#24 ++ ft :=
  BitVec.setWidth_eq_append (by decide)

variable {j : RowJob} {raw above : Nat → Byte}

theorem RowReady.read_type (h : RowReady j raw above s) :
    memRead j.raw (Run.whole s) = .ok (byteAt s j.raw) (Run.whole s) :=
  memRead_ok (answers_inMap h.rawMapped (Nat.le_refl _) (by simp [rawRegion]))

theorem RowReady.unfilterRow_raises (h : RowReady j raw above s)
    (hft : 4 < (byteAt s j.raw).toNat) :
    unfilterRow j (Run.whole s) =
      .error (.raised .eFilter (0#24 ++ byteAt s j.raw)) (Run.whole s) := by
  rw [unfilterRow, bind_ok h.read_type, if_pos hft, bind_error (raise_run _ _ _), filterType_word]

theorem RowReady.unfilterRow_run (h : RowReady j raw above s)
    (hft : (byteAt s j.raw).toNat ≤ 4) :
    ∃ mem, unfilterRow j (Run.whole s) =
        .ok (0#24 ++ byteAt s j.raw) (Run.whole (withMem mem s)) ∧
      Rebuilt j (byteAt s j.raw).toNat raw above 0 s mem := by
  obtain ⟨mem, hrun, hmem⟩ := h.unfilterFrom_run (left := j.n) (k := 0) (out := []) hft
    (Nat.zero_add _) (fun i hi => absurd hi i.not_lt_zero)
  refine ⟨mem, ?_, hmem⟩
  rw [unfilterRow, bind_ok h.read_type, if_neg (Nat.not_lt.mpr hft), ← filterType_word]
  exact bind_ok hrun

/-- Pixel `p`'s alpha bytes, from the byte of its last filtered byte. -/
theorem Rebuilt.pixel_alpha {ft p d : Nat} {mem : Memory} (h : Rebuilt j ft raw above 0 s mem)
    (hbpp : 0 < j.bpp) (hp : p < j.n / j.bpp) (hd : d < j.sb) :
    memGet mem (j.dst + p * (j.bpp + j.sb) + j.bpp + d) = 0xFF := by
  have hlt : j.bpp - 1 < j.bpp := Nat.sub_lt_self Nat.one_pos hbpp
  have hmod : (p * j.bpp + (j.bpp - 1)) % j.bpp = j.bpp - 1 := by
    rw [Nat.mul_add_mod_self_right, Nat.mod_eq_of_lt hlt]
  have hdiv : (p * j.bpp + (j.bpp - 1)) / j.bpp = p := by
    rw [Nat.add_comm, Nat.add_mul_div_right _ _ hbpp, Nat.div_eq_of_lt hlt, Nat.zero_add]
  have hn : p * j.bpp + (j.bpp - 1) < j.n := by
    have hle : (p + 1) * j.bpp ≤ j.n := (Nat.le_div_iff_mul_le hbpp).mp hp
    rw [Nat.add_mul] at hle
    omega
  rw [← h.alpha _ d (Nat.zero_le _) hn hmod hd, ← RowJob.alpha_eq_slot hbpp hmod, hdiv]

end

/-- Settles O50: past the checks the row's bytes are reconstructed one after the other, each with
its alpha bytes, and neither operand is written. The name `unfilterRow` is the model's. -/
theorem unfilterRow_reconstructs : Obligations.UnfilterRow := by
  unfold Obligations.UnfilterRow
  rintro bppm1 first alpha a16 s bpp sb ft hlegal hraw hrow hprior hwf rfl rfl rfl
  have hready := rowReady_of_legal hlegal hraw hrow hprior hwf
  have hbegin := pngUnfilter_of_legal hlegal
  refine ⟨fun hft => ?_, fun hft => ?_⟩
  · rw [exec_eq, pseudocode, runCommand_raised (hbegin.trans (hready.unfilterRow_raises hft)),
      faultEntry_eq_faulted]
    rfl
  · obtain ⟨mem, hrun, hmem⟩ := hready.unfilterRow_run hft
    refine ⟨mem, ?_, fun k hk => hmem.byte k (Nat.zero_le k) hk,
      fun p d hp hd => hmem.pixel_alpha hready.bpp_pos hp hd, fun a ha => hmem.frame a ?_⟩
    · rw [exec_eq, pseudocode, runCommand_ok (hbegin.trans hrun), complete_eq_completed]
      rfl
    · rw [← RowJob.rowRegion_end, RowJob.slot_zero]
      rw [outputRow_eq_rowLen, ← Bool.not_eq_true, within_iff] at ha
      change a < s.args.arg1.toNat ∨ s.args.arg1.toNat +
        rowLen (bytesPerPixel bppm1) (alphaBytes alpha a16) s.args.arg3.toNat ≤ a
      omega

/-- Settles O51: by strong induction on the byte, the reconstructed row predicts as the row does,
and the prediction that was subtracted is added again. -/
theorem unfilterInvertsFilter : Obligations.UnfilterInvertsFilter := by
  unfold Obligations.UnfilterInvertsFilter
  intro bppm1 first alpha a16 s bpp sb ft row hlegal hraw hrow hprior hwf hbpp hsb hft hle hfiltered
  obtain ⟨-, hruns⟩ := unfilterRow_reconstructs bppm1 first alpha a16 s bpp sb ft hlegal hraw hrow
    hprior hwf hbpp hsb hft
  obtain ⟨mem, hexec, hbyte, -, -⟩ := hruns hle
  refine ⟨_, hexec, rfl, fun k => ?_⟩
  change k < _ → memGet mem _ = row k
  induction k using Nat.strong_induction_on with
  | _ k ih =>
    intro hk
    have hpredicted : ∀ above,
        predicted ft.toNat bpp k (fun i => memGet mem (s.args.arg1.toNat + rowPos bpp sb i)) above =
          predicted ft.toNat bpp k row above :=
      fun _ => predicted_congr fun hle => ih (k - bpp) (by omega) (by omega)
    rw [hbyte k hk, hfiltered k hk, hpredicted, BitVec.sub_add_cancel]

end Sys2Proof.Machine
end

-- What J_RECEIVE and J_DECODE_BLOCK take from the bit stream, what IDCT writes, and the statements
-- of 45_jpeg_idct.md.
section
namespace Sys2Proof.Machine

open Sys2Proof

/-! ### Bits taken from the MODE 1 stream (41_bitreader.md R152, R160) -/

section

variable {s : State} {n m : Nat} {r r' : Reader}

/-- A good MODE 1 reader over an input that answers. -/
structure MsbReady (s : State) : Prop where
  mode : s.rd.mode = .msb
  ok : readerOk s.rd = true
  input : inputAnswers s = true

/-- A reader reached from `s` by taking exactly `n` bits; where ACC held no pad bit before a data
byte, OVR tells whether one of the bits was a pad bit, and what is left can be told so again. -/
structure TakesMsb (n : Nat) (s : State) (r : Reader) : Prop where
  advanced : msbAdvanced n s r
  ovr : PadsLast s → r.ovr = (s.rd.ovr || decide (realBitsMsb s < n))
  padsLast : PadsLast s → PadsLast { s with rd := r }
  realBits : PadsLast s → realBitsMsb { s with rd := r } = realBitsMsb s - n

theorem TakesMsb.refl (h : MsbReady s) : TakesMsb 0 s s.rd where
  advanced := ⟨rfl, rfl, rfl, h.ok, fun _ => rfl⟩
  ovr _ := by simp
  padsLast hp := hp
  realBits _ := rfl

theorem TakesMsb.readerOnly (h : TakesMsb n s r) : ReaderOnly s { s with rd := r } := by
  obtain ⟨hmode, hbase, hlen, -, -⟩ := h.advanced
  exact ⟨rfl, hmode, hbase, hlen⟩

theorem TakesMsb.ready (h : TakesMsb n s r) (hs : MsbReady s) : MsbReady { s with rd := r } := by
  obtain ⟨hmode, -, -, hok, -⟩ := h.advanced
  exact ⟨hmode.trans hs.mode, hok, (inputAnswers_readerOnly h.readerOnly).trans hs.input⟩

theorem TakesMsb.stream (h : TakesMsb n s r) (j : Nat) :
    msbStream { s with rd := r } j = msbStream s (j + n) := by
  obtain ⟨-, -, -, -, hstream⟩ := h.advanced
  exact hstream j

theorem TakesMsb.stream_zero (h : TakesMsb 0 s r) : msbStream { s with rd := r } = msbStream s :=
  funext h.stream

theorem TakesMsb.trans (h : TakesMsb n s r) (h' : TakesMsb m { s with rd := r } r') :
    TakesMsb (n + m) s r' where
  advanced := by
    obtain ⟨hmode, hbase, hlen, -, -⟩ := h.advanced
    obtain ⟨hmode', hbase', hlen', hok, -⟩ := h'.advanced
    refine ⟨hmode'.trans hmode, hbase'.trans hbase, hlen'.trans hlen, hok, fun j => ?_⟩
    exact (h'.stream j).trans ((h.stream _).trans (by rw [Nat.add_assoc, Nat.add_comm m]))
  ovr hp := by
    rw [h'.ovr (h.padsLast hp), h.ovr hp, h.realBits hp, Bool.or_assoc, ← Bool.decide_or]
    congr 2
    rw [eq_iff_iff]
    omega
  padsLast hp := h'.padsLast (h.padsLast hp)
  realBits hp := by rw [← Nat.sub_sub, ← h.realBits hp]; exact h'.realBits (h.padsLast hp)

theorem TakesMsb.after_fetch (h : TakesMsb 0 s r) (h' : TakesMsb n { s with rd := r } r') :
    TakesMsb n s r' := by
  rw [← Nat.zero_add n]
  exact h.trans h'

theorem MsbReady.needMode_run (h : MsbReady s) :
    needMode .msb (Run.whole s) = .ok () (Run.whole s) := by
  rw [Machine.needMode_run, if_pos h.mode]

/-- `Need(n)` takes nothing. -/
theorem MsbReady.need_run (h : MsbReady s) (hn : n ≤ 16) :
    ∃ r, need n (Run.whole s) = .ok () (Run.whole { s with rd := r }) ∧ n ≤ r.bitcnt ∧
      TakesMsb 0 s r := by
  obtain ⟨t, hneed, hro, hcnt, hadv, hreal, hovr⟩ := need_msb hn h.mode h.ok h.input
  obtain ⟨hst, -⟩ := hro
  refine ⟨t.rd, by rw [← hst]; exact hneed, hcnt, hadv, fun _ => by simpa using hovr, ?_, ?_⟩ <;>
    rw [← hst]
  · exact fun hp => need_padsLast h.ok h.input hp hneed
  · exact fun _ => hreal

/-- Bits that ACC holds are taken when they leave it. -/
theorem MsbReady.takes_dropBits (h : MsbReady s) (hn : n ≤ s.rd.bitcnt) :
    TakesMsb n s (dropBits n s).rd := by
  obtain ⟨-, hpad, -⟩ := (readerOk_iff _).mp h.ok
  have hpads := dropBits_padbits s n hpad
  refine ⟨dropBits_msb hn h.mode h.ok, fun hp => ?_, fun hp => ?_, fun hp => ?_⟩
  · rw [dropBits_ovr, takesPad_of_padsLast hp hn, bytesLeft_msb h.mode, realBitsMsb]
  · change (dropBits n s).rd.padbits = 0 ∨ bytesLeft s = 0
    rw [hpads]
    exact hp.imp_left fun hzero => by rw [hzero, Nat.zero_min]
  · change s.rd.bitcnt - n - (dropBits n s).rd.padbits + 8 * (dataLeft s).length = _
    rw [PadsLast, bytesLeft_msb h.mode] at hp
    rw [hpads, realBitsMsb]
    omega

/-- `Receive(n)` takes n bits, and extends the number that they are (45_jpeg_idct.md R331). -/
theorem MsbReady.receive_run (h : MsbReady s) (hn : n ≤ 16) :
    ∃ r, receive n (Run.whole s) =
        .ok (if n = 0 then 0 else extend (highFirst (msbStream s) n) n)
          (Run.whole { s with rd := r }) ∧
      TakesMsb n s r := by
  by_cases h0 : n = 0
  · subst h0
    exact ⟨s.rd, rfl, .refl h⟩
  · obtain ⟨r, hneed, hcnt, hfetch⟩ := h.need_run hn
    have hr := hfetch.ready h
    obtain ⟨hcap, -⟩ := (readerOk_iff _).mp hr.ok
    have hpeek : peekBits { s with rd := r } n = highFirst (msbStream s) n := by
      rw [peekBits_msb hcnt hcap hr.mode, hfetch.stream_zero]
    refine ⟨_, ?_, hfetch.after_fetch (hr.takes_dropBits hcnt)⟩
    rw [receive, if_neg h0, if_neg h0, bind_ok hneed, bind_ok (consume_whole _ _), hpeek]
    rfl

/-- `JDecode` takes the code that the stream begins with (42_huffman.md R211). -/
theorem MsbReady.jDecode_run {c : JClass} {idx : BitVec 2} {tbl : JTable} {k : Nat}
    (h : MsbReady s) (htab : (jTables s c)[sel4 idx] = some tbl) (hok : jTableOk tbl = true)
    (hk : k < tbl.entries.length)
    (hnext : codeNext (jEntry tbl k).size (jEntry tbl k).code (msbStream s) = true) :
    ∃ r, jDecode c (sel4 idx) (Run.whole s) =
        .ok (jEntry tbl k).val (Run.whole { s with rd := r }) ∧
      TakesMsb (jEntry tbl k).size s r := by
  have hentry : tbl.entries[k]? = some (jEntry tbl k) := by
    rw [jEntry, List.getD_eq_getElem _ _ hk, List.getElem?_eq_getElem hk]
  obtain ⟨r, hneed, hcnt, hfetch⟩ := h.need_run (Nat.le_refl 16)
  have hr := hfetch.ready h
  obtain ⟨-, hmax⟩ := mem_jLengths_iff.mp (jTableOk_size_mem hok hentry)
  have hsearch := jSearch_of_codeNext hr.mode hok hr.ok hcnt hentry
    (by rwa [hfetch.stream_zero])
  have htabr : (jTables { s with rd := r } c)[sel4 idx] = some tbl := by
    rwa [jTables_eq_ite] at htab ⊢
  refine ⟨_, ?_, hfetch.after_fetch (hr.takes_dropBits (hmax.trans hcnt))⟩
  exact jDecode_of_search hneed htabr hsearch

end

/-! ### Words of exact integers -/

theorem word_ofInt_sub (a b : Int) : Word.ofInt (a - b) = Word.ofInt a - Word.ofInt b :=
  BitVec.eq_of_toInt_eq (by simp [Word.ofInt, BitVec.toInt_sub])

theorem word_ofInt_add (a b : Int) : Word.ofInt (a + b) = Word.ofInt a + Word.ofInt b :=
  BitVec.ofInt_add a b

theorem word_ofInt_mul (a b : Int) : Word.ofInt (a * b) = Word.ofInt a * Word.ofInt b :=
  BitVec.ofInt_mul a b

theorem word_ofInt_toInt (w : Word) : Word.ofInt w.toInt = w := BitVec.ofInt_toInt

theorem word_ofInt_natCast (a : Nat) : Word.ofInt a = Word.ofNat a := BitVec.ofInt_natCast 32 a

/-! ### J_RECEIVE (45_jpeg_idct.md R331, R332) -/

section

variable {s t : State} {n : BitVec 5}

/-- J_RECEIVE past its checks. -/
theorem exec_jReceive_of_receive {x : Int} (hn : n.toNat ≤ 16) (h : MsbReady s)
    (hrun : receive n.toNat (Run.whole s) = .ok x (Run.whole t)) :
    exec (.jReceive n) s = .next (completed (Word.ofInt x) t) := by
  have hlegal : needLegal (receiveBitsLegal n) (Run.whole s) = .ok () (Run.whole s) := by
    rw [needLegal_run, if_pos (by simp [receiveBitsLegal, hn])]
  have hwhole : jReceive n (Run.whole s) = .ok (Word.ofInt x) (Run.whole t) := by
    rw [jReceive, bind_ok hlegal, bind_ok h.needMode_run, bind_ok (needInput_of_answers h.input),
      bind_ok hrun, pure_run]
  rw [exec_eq, pseudocode, runCommand_ok hwhole, complete_eq_completed]

/-- The first bit of a number read first bit highest tells its upper half. -/
theorem half_le_highFirst {b : Nat → Bool} {m : Nat} (hm : 1 ≤ m) :
    2 ^ (m - 1) ≤ highFirst b m ↔ b 0 = true := by
  have hfirst : highFirst b m / 2 ^ (m - 1) = (b 0).toNat := by
    rw [highFirst_div hm]
    simp [highFirst]
  rw [← Nat.one_le_div_iff (Nat.two_pow_pos _), hfirst]
  cases b 0 <;> simp

theorem ofInt_extend_highFirst {b : Nat → Bool} {m : Nat} (hm : 1 ≤ m) :
    Word.ofInt (extend (highFirst b m) m) =
      if b 0 then Word.ofNat (highFirst b m)
      else Word.ofNat (highFirst b m) - Word.ofNat (2 ^ m - 1) := by
  rw [extend, if_congr (half_le_highFirst hm) rfl rfl, apply_ite Word.ofInt, word_ofInt_natCast]
  congr 1
  have hpow : ((2 ^ m - 1 : Nat) : Int) = 2 ^ m - 1 := by
    rw [Nat.cast_sub (Nat.one_le_two_pow)]
    simp
  rw [← word_ofInt_natCast, ← word_ofInt_natCast, ← word_ofInt_sub, hpow, sub_add]

end

/-- Settles O53: the bits that `Receive` takes are those of the stream, and the first one tells
whether their number is biased. -/
theorem receiveExtends : Obligations.ReceiveExtends := by
  unfold Obligations.ReceiveExtends
  rintro n s v hn hm hok ha rfl
  have hs : MsbReady s := ⟨hm, hok, ha⟩
  refine ⟨fun h0 => ?_, fun h1 => ?_⟩
  · have hrun : receive n.toNat (Run.whole s) = .ok 0 (Run.whole s) := by rw [h0]; rfl
    rw [exec_jReceive_of_receive hn hs hrun]
    rfl
  · obtain ⟨r, hrun, htake⟩ := hs.receive_run hn
    rw [if_neg (by omega)] at hrun
    refine ⟨r, ?_, htake.advanced⟩
    rw [exec_jReceive_of_receive hn hs hrun, ofInt_extend_highFirst h1]

/-! ### What the stream begins with -/

section

variable {s : State} {n v : Nat} {r : Reader} {xs ys : List Bool}

theorem length_bitsOf (n v : Nat) : (bitsOf n v).length = n := by
  rw [bitsOf, List.length_map, List.length_range]

/-- What follows the bits that are taken. -/
theorem TakesMsb.begins (h : TakesMsb xs.length s r) (hbits : beginsWithMsb s (xs ++ ys)) :
    beginsWithMsb { s with rd := r } ys := by
  intro j hj
  rw [h.stream, hbits _ (by rw [List.length_append]; omega),
    List.getD_append_right _ _ _ _ (by omega), Nat.add_sub_cancel]

theorem codeNext_of_begins (hbits : beginsWithMsb s (bitsOf n v ++ ys)) :
    codeNext n v (msbStream s) = true := by
  simp only [codeNext, List.all_eq_true, List.mem_range, beq_iff_eq]
  intro j hj
  rw [hbits j (by rw [List.length_append, length_bitsOf]; omega),
    List.getD_append _ _ _ _ (by rwa [length_bitsOf])]
  simp [bitsOf, List.getD_eq_getElem?_getD, hj]

/-- `JDecode` of an entry's code that the stream begins with. -/
theorem MsbReady.jDecode_begins {c : JClass} {idx : BitVec 2} {tbl : JTable} {k : Nat}
    (h : MsbReady s) (htab : (jTables s c)[sel4 idx] = some tbl) (hok : jTableOk tbl = true)
    (hk : k < tbl.entries.length)
    (hbits : beginsWithMsb s (bitsOf (jEntry tbl k).size (jEntry tbl k).code ++ ys)) :
    ∃ r, jDecode c (sel4 idx) (Run.whole s) =
        .ok (jEntry tbl k).val (Run.whole { s with rd := r }) ∧
      TakesMsb (bitsOf (jEntry tbl k).size (jEntry tbl k).code).length s r := by
  rw [length_bitsOf]
  exact h.jDecode_run htab hok hk (codeNext_of_begins hbits)

/-- What the extra bits `v` of a category `n` stand for (45_jpeg_idct.md R331, R335). -/
def extended (v n : Nat) : Int := if n = 0 then 0 else extend v n

/-- `Receive` of a number that the stream begins with. -/
theorem MsbReady.receive_begins (h : MsbReady s) (hn : n ≤ 16) (hv : v < 2 ^ n)
    (hbits : beginsWithMsb s (bitsOf n v ++ ys)) :
    ∃ r, receive n (Run.whole s) = .ok (extended v n) (Run.whole { s with rd := r }) ∧
      TakesMsb (bitsOf n v).length s r := by
  rw [length_bitsOf, extended, (codeNext_iff hv).mp (codeNext_of_begins hbits)]
  exact h.receive_run hn

end

/-! ### The AC loop (45_jpeg_idct.md R335, R337) -/

section

variable {s t u : State} {ac : JTable} {idx : Fin 4} {rounds k k' : Nat} {rs : Byte}
  {c coef : Vector Half 64} {x : AcItem} {xs : List AcItem}

theorem acLoop_full (hk : 64 ≤ k) :
    acLoop idx rounds k (Run.whole s) = .ok k (Run.whole s) := by
  cases rounds with
  | zero => rfl
  | succ rounds => rw [acLoop, if_neg (Nat.not_lt.mpr hk), pure_run]

theorem acLoop_endOfBlock (hk : k < 64)
    (hdecode : jDecode .ac idx (Run.whole s) = .ok rs (Run.whole t)) (hsize : rs.toNat % 16 = 0)
    (hrs : rs ≠ 0xF0) : acLoop idx (rounds + 1) k (Run.whole s) = .ok k (Run.whole t) := by
  rw [acLoop, if_pos hk, bind_ok hdecode]
  simp only [hsize, hrs, if_true, if_false]
  rfl

theorem acLoop_skip (hk : k < 64)
    (hdecode : jDecode .ac idx (Run.whole s) = .ok 0xF0 (Run.whole t)) :
    acLoop idx (rounds + 1) k (Run.whole s) = acLoop idx rounds (k + 16) (Run.whole t) := by
  rw [acLoop, if_pos hk, bind_ok hdecode]
  rfl

theorem acLoop_coefficient {v : Int} (hk : k < 64)
    (hdecode : jDecode .ac idx (Run.whole s) = .ok rs (Run.whole t)) (hsize : rs.toNat % 16 ≠ 0)
    (hrun : k + rs.toNat / 16 ≤ 63)
    (hreceive : receive (rs.toNat % 16) (Run.whole t) = .ok v (Run.whole u)) :
    acLoop idx (rounds + 1) k (Run.whole s) =
      acLoop idx rounds (k + rs.toNat / 16 + 1)
        (Run.whole (setCoef (zz (k + rs.toNat / 16)) v u)) := by
  rw [acLoop, if_pos hk, bind_ok hdecode]
  simp only [hsize, Nat.not_lt.mpr hrun, if_false]
  rw [bind_ok hreceive, bind_ok (assign_run _ _), after_whole]

/-- What an item must be to be placed, and how it is. -/
theorem placeItems_cons (h : placeItems ac (x :: xs) k c = some (k', coef)) :
    k < 64 ∧ x.entry < ac.entries.length ∧ x.extra < 2 ^ itemSize ac x ∧
      ((itemSize ac x = 0 ∧ (jEntry ac x.entry).val = 0xF0 ∧
          placeItems ac xs (k + 16) c = some (k', coef)) ∨
        (itemSize ac x ≠ 0 ∧ k + (jEntry ac x.entry).val.toNat / 16 ≤ 63 ∧
          placeItems ac xs (k + (jEntry ac x.entry).val.toNat / 16 + 1)
            (c.setIfInBounds (zz (k + (jEntry ac x.entry).val.toNat / 16))
              (BitVec.ofInt 16 (extend x.extra (itemSize ac x)))) = some (k', coef))) := by
  rw [placeItems] at h
  rw [itemSize]
  split at h
  · cases h
  · rename_i hlegal
    refine ⟨by omega, by omega, by omega, ?_⟩
    split at h
    · rename_i hsize
      split at h
      · rename_i hval
        exact .inl ⟨hsize, BitVec.eq_of_toNat_eq hval, h⟩
      · cases h
    · rename_i hsize
      split at h
      · cases h
      · exact .inr ⟨hsize, by omega, h⟩

/-- The bits of a block's items and of its end, with the items' end at position `k`. -/
def acBits (ac : JTable) (xs : List AcItem) (k eob : Nat) : List Bool :=
  xs.flatMap (itemBits ac) ++
    if k < 64 then bitsOf (jEntry ac eob).size (jEntry ac eob).code else []

theorem acBits_cons (ac : JTable) (x : AcItem) (xs : List AcItem) (k eob : Nat) :
    acBits ac (x :: xs) k eob =
      bitsOf (jEntry ac x.entry).size (jEntry ac x.entry).code ++
        (bitsOf (itemSize ac x) x.extra ++ acBits ac xs k eob) := by
  simp only [acBits, itemBits, List.flatMap_cons, List.append_assoc]

/-- COEF and DCPRED have no part in what is taken from the stream. -/
theorem MsbReady.withBlock (h : MsbReady s) (coef : Vector Half 64) (dcpred : Vector Word 4) :
    MsbReady { s with coef := coef, dcpred := dcpred } := ⟨h.mode, h.ok, h.input⟩

theorem TakesMsb.of_withBlock {n : Nat} {r : Reader} {dcpred : Vector Word 4}
    (h : TakesMsb n { s with coef := coef, dcpred := dcpred } r) : TakesMsb n s r :=
  ⟨h.advanced, h.ovr, h.padsLast, h.realBits⟩

/-- Past the last item the AC loop takes the end-of-block code, or nothing from a full block. -/
theorem acLoop_end {act : BitVec 2} {eob : Nat} (hok : jTableOk ac = true)
    (hend : k < 64 → isEob ac eob = true) (h : MsbReady s) (htab : s.tab.jac[sel4 act] = some ac)
    (hrounds : 64 ≤ k + rounds) (hbits : beginsWithMsb s (acBits ac [] k eob)) :
    ∃ r, acLoop (sel4 act) rounds k (Run.whole s) = .ok k (Run.whole { s with rd := r }) ∧
      TakesMsb (acBits ac [] k eob).length s r := by
  rw [acBits, List.flatMap_nil, List.nil_append] at hbits ⊢
  by_cases hk : k < 64
  · rw [if_pos hk] at hbits ⊢
    obtain ⟨rounds, rfl⟩ := Nat.exists_eq_add_of_le' (show 1 ≤ rounds by omega)
    have heob := hend hk
    simp only [isEob, Bool.and_eq_true, decide_eq_true_eq] at heob
    obtain ⟨⟨hentry, hsize⟩, hval⟩ := heob
    obtain ⟨r, hdecode, htake⟩ := h.jDecode_begins (c := .ac) (ys := []) htab hok hentry
      (by rwa [List.append_nil])
    exact ⟨r, acLoop_endOfBlock hk hdecode hsize (fun heq => hval (by rw [heq]; rfl)), htake⟩
  · rw [if_neg hk]
    exact ⟨s.rd, acLoop_full (Nat.le_of_not_lt hk), .refl h⟩

/-- The AC loop places the items that the stream begins with, and takes their bits and the end's. -/
theorem acLoop_run {act : BitVec 2} {eob : Nat} (hok : jTableOk ac = true)
    (hend : k' < 64 → isEob ac eob = true) (h : MsbReady s) (htab : s.tab.jac[sel4 act] = some ac)
    (hplace : placeItems ac xs k s.coef = some (k', coef)) (hrounds : 64 ≤ k + rounds)
    (hbits : beginsWithMsb s (acBits ac xs k' eob)) :
    ∃ r, acLoop (sel4 act) rounds k (Run.whole s) =
        .ok k' (Run.whole { s with rd := r, coef := coef }) ∧
      TakesMsb (acBits ac xs k' eob).length s r := by
  induction xs generalizing s k rounds with
  | nil =>
    cases hplace
    exact acLoop_end hok hend h htab hrounds hbits
  | cons x xs ih =>
    obtain ⟨hk, hentry, hextra, hitem⟩ := placeItems_cons hplace
    obtain ⟨rounds, rfl⟩ := Nat.exists_eq_add_of_le' (show 1 ≤ rounds by omega)
    rw [acBits_cons] at hbits ⊢
    rw [List.length_append, List.length_append]
    obtain ⟨r₁, hdecode, htake₁⟩ := h.jDecode_begins (c := .ac) htab hok hentry hbits
    have h₁ := htake₁.ready h
    have hbits₁ := htake₁.begins hbits
    rcases hitem with ⟨hsize, hval, hplace⟩ | ⟨hsize, hrun, hplace⟩
    · rw [hval] at hdecode
      rw [hsize] at hbits₁ ⊢
      obtain ⟨r₂, hloop, htake₂⟩ := ih (rounds := rounds) h₁ htab hplace (by omega) hbits₁
      refine ⟨r₂, (acLoop_skip hk hdecode).trans hloop, htake₁.trans ?_⟩
      rw [length_bitsOf, Nat.zero_add]
      exact htake₂
    · have hmax : itemSize ac x ≤ 16 := (Nat.mod_lt _ (by decide)).le
      obtain ⟨r₂, hreceive, htake₂⟩ := h₁.receive_begins hmax hextra hbits₁
      rw [extended, if_neg hsize] at hreceive
      obtain ⟨r₃, hloop, htake₃⟩ := ih (rounds := rounds) ((htake₂.ready h₁).withBlock _ s.dcpred)
        htab hplace (by omega) (htake₂.begins hbits₁)
      exact ⟨r₃, (acLoop_coefficient hk hdecode hsize hrun hreceive).trans hloop,
        htake₁.trans (htake₂.trans htake₃.of_withBlock)⟩

end

/-! ### J_DECODE_BLOCK (45_jpeg_idct.md R335 to R338) -/

section

variable {s : State} {dct act comp : BitVec 2} {dc ac : JTable}

theorem needTable_of_slot {c : JClass} {idx : BitVec 2} {tbl : JTable}
    (h : (jTables s c)[sel4 idx] = some tbl) (r : Run) :
    needTable (jValid s c (sel4 idx)) (jvBit c (sel4 idx)) r = .ok () r := by
  rw [needTable_run, if_pos (by rw [jValid, h]; rfl)]

theorem blockBits_eq (dc ac : JTable) (d v : Nat) (xs : List AcItem) (k eob : Nat) :
    blockBits dc ac d v xs k eob =
      bitsOf (jEntry dc d).size (jEntry dc d).code ++
        (bitsOf (jEntry dc d).val.toNat v ++ acBits ac xs k eob) := by
  simp only [blockBits, openBlockBits, acBits, List.append_assoc]

/-- The DC difference of a category and its extra bits, added to the predictor. -/
theorem addDc_extended {i : Fin 4} {cat : Byte} {v : Nat} {pred : Word}
    (hpred : pred = s.dcpred[i] + if cat = 0 then 0 else Word.ofInt (extend v cat.toNat)) :
    addDc i (extended v cat.toNat) s =
      { s with dcpred := s.dcpred.set i pred, coef := s.coef.set 0 (pred.setWidth 16) } := by
  have hcat : cat = 0 ↔ cat.toNat = 0 := BitVec.toNat_inj.symm
  have hdiff : Word.ofInt (extended v cat.toNat) =
      if cat = 0 then 0 else Word.ofInt (extend v cat.toNat) := by
    rw [extended, apply_ite Word.ofInt, if_congr hcat rfl rfl]
    rfl
  rw [addDc, hdiff, hpred]

/-- J_DECODE_BLOCK from its parts, where the checks and the category pass. -/
theorem jDecodeBlock_of_parts {t u w : State} {cat : Byte} {pred : Word} {v k : Nat}
    (h : MsbReady s)
    (hdc : s.tab.jdc[sel4 dct] = some dc) (hac : s.tab.jac[sel4 act] = some ac)
    (hdecode : jDecode .dc (sel4 dct) (Run.whole s) = .ok cat (Run.whole t))
    (hcat : cat.toNat ≤ 15)
    (hreceive : receive cat.toNat (Run.whole (clearCoefs t)) =
      .ok (extended v cat.toNat) (Run.whole u))
    (hpred : pred = u.dcpred[sel4 comp] + if cat = 0 then 0 else Word.ofInt (extend v cat.toNat))
    (hloop : acLoop (sel4 act) 64 1 (Run.whole
        { u with
          dcpred := u.dcpred.set (sel4 comp) pred
          coef := u.coef.set 0 (pred.setWidth 16) }) = .ok k (Run.whole w)) :
    jDecodeBlock dct act comp (Run.whole s) = .ok (Word.ofNat (min k 64)) (Run.whole w) := by
  rw [← addDc_extended hpred] at hloop
  rw [jDecodeBlock, bind_ok (look_run _), bind_ok h.needMode_run,
    bind_ok (needTable_of_slot (c := .dc) hdc _), bind_ok (needTable_of_slot (c := .ac) hac _),
    bind_ok (needInput_of_answers h.input), bind_ok hdecode, if_neg (Nat.not_lt.mpr hcat)]
  exact (bind_ok (assign_run _ _)).trans ((bind_ok hreceive).trans
    ((bind_ok (assign_run _ _)).trans ((bind_ok hloop).trans (pure_run _ _))))

end

/-- Settles O55: the DC code, its extra bits and the AC loop each take their bits, one after the
other. -/
theorem blockDecodes : Obligations.BlockDecodes := by
  unfold Obligations.BlockDecodes
  intro dct act comp s dc ac d v eob k xs pred coef hm hrd hin hdc hac hdcok hacok hd hcat hv hpred
    hplace hend hbits
  have h : MsbReady s := ⟨hm, hrd, hin⟩
  rw [blockBits_eq] at hbits ⊢
  obtain ⟨r₁, hdecode, htake₁⟩ := h.jDecode_begins (c := .dc) hdc hdcok hd hbits
  have h₁ := (htake₁.ready h).withBlock (Vector.replicate 64 0) s.dcpred
  obtain ⟨r₂, hreceive, htake₂⟩ := h₁.receive_begins (hcat.trans (by decide)) hv
    (htake₁.begins hbits)
  obtain ⟨r₃, hloop, htake₃⟩ := acLoop_run (rounds := 64)
    (s := { s with
      rd := r₂
      coef := (Vector.replicate 64 0).set 0 (pred.setWidth 16)
      dcpred := s.dcpred.set (sel4 comp) pred })
    hacok hend ((htake₂.ready h₁).withBlock _ _) hac hplace (by decide)
    (htake₂.begins (htake₁.begins hbits))
  have htake := htake₁.trans (htake₂.of_withBlock.trans htake₃.of_withBlock)
  rw [List.length_append, List.length_append]
  refine ⟨r₃, ?_, htake.advanced, fun hpad => htake.ovr (.inl hpad)⟩
  rw [exec_eq, pseudocode, runCommand_ok (jDecodeBlock_of_parts h hdc hac hdecode hcat hreceive
    hpred hloop), complete_eq_completed]

/-! ### The IDCT's kernel in exact integers (45_jpeg_idct.md R345 to R349) -/

section

variable {α : Type}

theorem eight_eq_range : eight = List.range 8 := rfl

theorem getD_map_eight {f : Nat → α} {d : α} {k : Nat} (hk : k < 8) :
    (eight.map f).getD k d = f k := by
  simp [eight_eq_range, List.getD_eq_getElem?_getD, hk]

/-- The words of the kernel are those of its exact integers, wrapped: each output is the same sums,
differences and products in both, and wrapping goes through these. -/
theorem idctOnList_getD {bias : Int} {shift k : Nat} {f : Nat → Word} (hk : k < 8) :
    (idctOnList (Word.ofInt bias) shift (eight.map f)).getD k 0 =
      (Word.ofInt (kernelOut bias (fun j => (f j).toInt) k)).sshiftRight shift := by
  interval_cases k <;>
    simp only [kernelOut, Nat.reduceLT, Nat.reduceEqDiff, Nat.reduceSub, ↓reduceIte, word_ofInt_add,
      word_ofInt_sub, word_ofInt_mul, word_ofInt_toInt] <;> rfl

theorem toInt_sshiftRight_ofInt {v : Int} {shift : Nat} :
    ((Word.ofInt v).sshiftRight shift).toInt = s32 v / 2 ^ shift := by
  rw [Word.ofInt, BitVec.toInt_sshiftRight, BitVec.toInt_ofInt, Int.shiftRight_eq_div_pow, s32]
  simp

theorem columnPass_toInt {x : Nat → Word} {r : Nat} (i : Nat) (hr : r < 8) :
    ((columnPass x i).getD r 0).toInt = columnAt x r i := by
  have hbias : (512 : Word) = Word.ofInt 512 := rfl
  rw [columnPass, hbias, idctOnList_getD hr, toInt_sshiftRight_ofInt, columnAt]

theorem clampByte_eq (o : Word) :
    clampByte o = Byte.ofNat (max 0 (min 255 o.toInt)).toNat := by
  rw [clampByte]
  split
  · rename_i hneg
    rw [max_eq_left (by omega)]
    rfl
  · rename_i hneg
    split
    · rename_i hover
      rw [min_eq_left hover.le]
      rfl
    · rename_i hover
      have hnat : o.toInt.toNat = o.toNat := by
        rw [BitVec.toInt_eq_toNat_cond] at hneg ⊢
        split at hneg <;> omega
      rw [min_eq_right (by omega), max_eq_right (by omega), hnat]

theorem idctPixels_getD {x : Nat → Word} {r c : Nat} (hr : r < 8) (hc : c < 8) :
    ((idctPixels x).getD r []).getD c 0 = pixelAt x r c := by
  have hrow : (eight.map (columnPass x)).map (fun col => col.getD r 0) =
      eight.map fun i => (columnPass x i).getD r 0 := List.map_map
  have hbias : rowBias = Word.ofInt (65536 + 128 * 2 ^ 17) := rfl
  have hword := idctOnList_getD (bias := 65536 + 128 * 2 ^ 17) (shift := 17)
    (f := fun i => (columnPass x i).getD r 0) hc
  have hmap : ∀ ws : List Word, (ws.map clampByte).getD c 0 = clampByte (ws.getD c 0) := fun ws =>
    List.getD_map ws 0 clampByte
  rw [idctPixels, getD_map_eight hr, rowPass, hrow, hmap, hbias, hword, clampByte_eq,
    toInt_sshiftRight_ofInt, pixelAt, funext fun i => columnPass_toInt i hr]

end

/-! ### The rows of pixels in MEM (45_jpeg_idct.md R343) -/

section

variable {s : State} {mem mem' : Memory} {stride base : Nat} {row : List Byte}
  {rows : List (List Byte)}

/-- `mem` is MEM with the rows of eight bytes written one after the other, and is else as before; a
later row covers an earlier one. -/
structure RowsWritten (stride : Nat) (rows : List (List Byte)) (base : Nat) (s : State)
    (mem : Memory) : Prop where
  put : ∀ r c, r < rows.length → c < 8 →
    (∀ r', r < r' → r' < rows.length →
      within (base + r * stride + c) (base + r' * stride) 8 = false) →
    memGet mem (base + r * stride + c) = (rows.getD r []).getD c 0
  frame : ∀ a, (∀ r, r < rows.length → within a (base + r * stride) 8 = false) →
    memGet mem a = byteAt s a

/-- A row written before the others. -/
theorem RowsWritten.cons
    (hget : ∀ a, memGet mem a = if within a base 8 then row.getD (a - base) 0 else byteAt s a)
    (h : RowsWritten stride rows (base + stride) (withMem mem s) mem') :
    RowsWritten stride (row :: rows) base s mem' := by
  have hnext : ∀ r, base + (r + 1) * stride = base + stride + r * stride := fun r => by
    rw [Nat.succ_mul, Nat.add_comm _ stride, Nat.add_assoc]
  refine ⟨fun r c hr hc hclear => ?_, fun a ha => ?_⟩
  · rw [List.length_cons] at hr hclear
    cases r with
    | zero =>
      have hput : memGet mem (base + c) = row.getD c 0 := by
        rw [hget, if_pos (within_iff.mpr (by omega)), Nat.add_sub_cancel_left]
      simp only [Nat.zero_mul, Nat.add_zero] at hclear ⊢
      refine (h.frame _ fun r hr => ?_).trans hput
      rw [← hnext]
      exact hclear (r + 1) r.succ_pos (by omega)
    | succ r =>
      simp only [hnext] at hclear ⊢
      refine h.put r c (by omega) hc fun r' hlt hr' => ?_
      rw [← hnext r']
      exact hclear (r' + 1) (by omega) (by omega)
  · have hfirst := ha 0 (Nat.succ_pos _)
    rw [Nat.zero_mul, Nat.add_zero] at hfirst
    have hkept : memGet mem a = byteAt s a := by rw [hget, hfirst]; rfl
    refine (h.frame a fun r hr => ?_).trans hkept
    rw [← hnext]
    exact ha (r + 1) (Nat.succ_lt_succ hr)

/-- Rows that all answer are written. -/
theorem writeRows_run (hlen : ∀ row ∈ rows, row.length = 8)
    (hmapped : ∀ r, r < rows.length → answers s ⟨base + r * stride, 8⟩ = true)
    (hwf : Memory.wf s.bus.mem = true) :
    ∃ mem, writeRows stride rows base (Run.whole s) = .ok () (Run.whole (withMem mem s)) ∧
      RowsWritten stride rows base s mem := by
  induction rows generalizing s base with
  | nil => exact ⟨s.bus.mem, rfl, nofun, fun _ _ => rfl⟩
  | cons row rows ih =>
    have hrow : row.length = 8 := hlen row List.mem_cons_self
    have hfirst : answers s ⟨base, 8⟩ = true := by
      have := hmapped 0 (Nat.succ_pos _)
      rwa [Nat.zero_mul, Nat.add_zero] at this
    obtain ⟨mem, hrun, hmwf, hget⟩ := writeBytes_ok (r := Run.whole s) row base
      (fun k hk => answers_inMap hfirst (Nat.le_add_right _ _)
        (Nat.add_lt_add_left (hk.trans_eq hrow) _)) hwf
    obtain ⟨mem', hrest, hwritten⟩ := ih (s := withMem mem s) (base := base + stride)
      (fun row hmem => hlen row (List.mem_cons_of_mem _ hmem))
      (fun r hr => by
        have := hmapped (r + 1) (Nat.succ_lt_succ hr)
        rwa [Nat.succ_mul, Nat.add_comm _ stride, ← Nat.add_assoc] at this) hmwf
    rw [hrow] at hget
    exact ⟨mem', (bind_ok hrun).trans hrest, .cons hget hwritten⟩

/-- IDCT that passes its checks writes its rows. -/
theorem idct_of_legal {deq : Bool} {qidx : BitVec 2} (h : valueFault (.idct deq qidx) s = none) :
    idct deq qidx (Run.whole s) =
      (writeRows s.args.arg1.toNat (idctPixels (idctInput s (dequantTable deq qidx s)))
        s.args.arg0.toNat >>= fun _ => return 0) (Run.whole s) := by
  have hguarded : idct deq qidx (Run.whole s) =
      guarded (writeRows s.args.arg1.toNat (idctPixels (idctInput s (dequantTable deq qidx s)))
        s.args.arg0.toNat >>= fun _ => return 0) (checks (.idct deq qidx) s) (Run.whole s) := rfl
  rw [hguarded, guarded_passes _ (firstFault_checks_of_valueFault h)]

theorem idctInput_eq {deq : Bool} {qidx : BitVec 2} {q : Vector Half 64}
    (hq : deq = true → s.tab.qt[sel4 qidx] = some q) :
    idctInput s (dequantTable deq qidx s) = fun i =>
      if deq then (s.coef.getD i 0 * q.getD i 0).signExtend 32
      else (s.coef.getD i 0).signExtend 32 := by
  cases deq with
  | false => rfl
  | true =>
    rw [dequantTable, if_pos rfl, hq rfl]
    rfl

theorem storedTo_idct_eq_false {deq : Bool} {qidx : BitVec 2} {a : Nat} :
    storedTo (.idct deq qidx) s a = false ↔
      ∀ r, r < 8 → within a (s.args.arg0.toNat + r * s.args.arg1.toNat) 8 = false := by
  simp [storedTo]

end

/-- Settles O59: past the checks the rows are written one after the other, and each pixel is that of
the two passes in exact integers. -/
theorem idctWritesPixels : Obligations.IdctWritesPixels := by
  unfold Obligations.IdctWritesPixels
  intro deq qidx s q x hlegal hq hx hmapped hwf
  have hrows : ∀ row ∈ idctPixels x, row.length = 8 := by
    intro row hmem
    obtain ⟨r, -, rfl⟩ := List.mem_map.mp hmem
    rfl
  obtain ⟨mem, hrun, hwritten⟩ := writeRows_run hrows hmapped hwf
  refine ⟨mem, ?_, fun r c hr hc hclear => ?_, fun a ha => ?_⟩
  · have hwhole : idct deq qidx (Run.whole s) = .ok 0 (Run.whole (withMem mem s)) := by
      rw [idct_of_legal hlegal, idctInput_eq hq, ← hx, bind_ok hrun, pure_run]
    rw [exec_eq, pseudocode, runCommand_ok hwhole, complete_eq_completed, withMem]
  · rw [← idctPixels_getD hr hc]
    exact hwritten.put r c hr hc hclear
  · exact hwritten.frame a (storedTo_idct_eq_false.mp ha)

end Sys2Proof.Machine
end

-- Fault entry, the host's writes of CTRL and IRQ, and the statements of 60_exceptions.md on them.
section
namespace Sys2Proof.Machine

open Sys2Proof

/-! ### Fault entry (60_exceptions.md R382, R384) -/

/-- Settles O7: a command that stops at a raise makes the fault entry from there; the codes are those
of the table. -/
theorem faultEntryRecord : Obligations.FaultEntryRecord := by
  unfold Obligations.FaultEntryRecord
  intro act s r c info hraise
  refine ⟨?_, rfl, rfl, rfl, rfl, rfl, rfl, rfl, rfl, rfl, rfl, rfl, rfl, rfl, rfl, rfl, rfl, rfl⟩
  rw [runCommand_raised hraise, faultEntry_eq_faulted]

/-! ### CTRL (10_state.md R37; 60_exceptions.md R388) -/

section

variable {s : State} {v : Word} {rest : List Event}

/-- The state with CTRL's two enables as a write of `v` leaves them. -/
def withEnables (v : Word) (s : State) : State :=
  { s with ctl := { s.ctl with ieDone := v.getLsbD 2, ieErr := v.getLsbD 3 } }

theorem writeCtrl_sreset (h : v.getLsbD 0 = true) : writeCtrl v s = doReset s := by
  rw [writeCtrl, if_pos h]

theorem writeCtrl_enables (h0 : v.getLsbD 0 = false) (h1 : v.getLsbD 1 = false) :
    writeCtrl v s = withEnables v s := by
  simp only [writeCtrl, h0, h1, Bool.false_eq_true, if_false, withEnables]

theorem writeCtrl_clrerr (h0 : v.getLsbD 0 = false) (h1 : v.getLsbD 1 = true) :
    writeCtrl v s = writeClrerr (withEnables v s) := by
  simp only [writeCtrl, h0, h1, Bool.false_eq_true, if_false, if_true, withEnables]

theorem writeClrerr_fault (h : s.ctl.estate = .fault) : writeClrerr s = clearError s := by
  rw [writeClrerr, h]

theorem writeClrerr_idle (h : s.ctl.estate = .idle) :
    writeClrerr s = { s with ctl := { s.ctl with drop := false } } := by
  rw [writeClrerr, h]

theorem writeClrerr_busy (h : s.ctl.estate = .busy) : writeClrerr s = dropWrite s := by
  rw [writeClrerr, h]

theorem step_ctrlWrite (h : s.env.events = .regWrite (s.env.regBase + 0x04) 4 v :: rest) :
    step s = .next (writeCtrl v (withEvents rest s)) :=
  step_regWrite (by decide) (by decide) h

/-- CTRL's strobes read 0, and its enables stand in bits 2 and 3. -/
theorem ctrlWord_eq (s : State) :
    ctrlWord s = 0#28 ++ (BitVec.ofBool s.ctl.ieErr ++ (BitVec.ofBool s.ctl.ieDone ++ 0#2)) := by
  rw [ctrlWord]
  cases s.ctl.ieErr <;> cases s.ctl.ieDone <;> rfl

/-! ### IRQ (10_state.md R39; 60_exceptions.md R393) -/

theorem step_irqWrite (h : s.env.events = .regWrite (s.env.regBase + 0x0C) 4 v :: rest) :
    step s = .next (writeIrq v (withEvents rest s)) :=
  step_regWrite (by decide) (by decide) h

theorem irqOut_iff (s : State) :
    irqOut s = true ↔
      (s.ctl.irqDone = true ∧ s.ctl.ieDone = true) ∨ (s.ctl.irqErr = true ∧ s.ctl.ieErr = true) := by
  simp only [irqOut, Bool.or_eq_true, Bool.and_eq_true]

end

/-- Settles O17: by SRESET, then by CLRERR, then by the engine's state; a read of CTRL, which has no
drawn bits, shows the enables. -/
theorem ctrlAndIrqWrites : Obligations.CtrlAndIrqWrites := by
  unfold Obligations.CtrlAndIrqWrites
  intro s u v rest
  refine ⟨fun hev => ⟨fun hreset => ?_, ?_⟩, fun hev => ?_, fun hev => ?_, irqOut_iff s⟩
  · rw [step_ctrlWrite hev, writeCtrl_sreset hreset, step_of_event rfl]
    rfl
  · rintro hreset rfl
    refine ⟨fun hclr => ?_, fun hclr => ⟨fun hfault => ?_, fun hidle => ?_, fun hbusy => ?_⟩⟩
    · rw [step_ctrlWrite hev, writeCtrl_enables hreset hclr]
      rfl
    · rw [step_ctrlWrite hev, writeCtrl_clrerr hreset hclr]
      exact congrArg _ (writeClrerr_fault hfault)
    · rw [step_ctrlWrite hev, writeCtrl_clrerr hreset hclr]
      exact congrArg _ (writeClrerr_idle hidle)
    · rw [step_ctrlWrite hev, writeCtrl_clrerr hreset hclr]
      exact congrArg _ (writeClrerr_busy hbusy)
  · obtain ⟨n, hread⟩ := regRead_of_undrawn (off := 0x04) (s := withEvents rest s) rfl
    exact ⟨n, by rw [step_regRead (by decide) (by decide) hev, hread, regValue, ctrlWord_eq]; rfl⟩
  · rw [step_irqWrite hev]
    rfl

end Sys2Proof.Machine
end

-- Which address E_BUS reports: no command reaches past 2^32, so FADDR is the address that no memory
-- answered (60_exceptions.md R392).
section
namespace Sys2Proof.Machine

open Sys2Proof

variable {α β : Type} {P P' Q Q' M : State → Prop}

/-! ### Pseudocode that reports the address of the bus (60_exceptions.md R392) -/

/-- From a state of `P`, the pseudocode ends in one of `Q`, MEMMAP as it was; and if it stops with
`E_BUS`, the information is an address outside MEMMAP. -/
structure ReportsBus (P : State → Prop) (act : Engine α) (Q : State → Prop) : Prop where
  answers : ∀ s x q, P s → act (Run.whole s) = .ok x q →
    ∃ t, q = Run.whole t ∧ t.bus.holes = s.bus.holes ∧ Q t
  reports : ∀ s info q, P s → act (Run.whole s) = .error (.raised .eBus info) q →
    inMap s.bus.holes info.toNat = false

theorem reportsBus_conseq {act : Engine α} (h : ReportsBus P' act Q') (hP : ∀ s, P s → P' s)
    (hQ : ∀ s, Q' s → Q s) : ReportsBus P act Q where
  answers s x q hs ho := by
    obtain ⟨t, hq, hholes, ht⟩ := h.answers s x q (hP s hs) ho
    exact ⟨t, hq, hholes, hQ t ht⟩
  reports s info q hs ho := h.reports s info q (hP s hs) ho

theorem reportsBus_pre {act : Engine α} (h : ReportsBus P' act Q) (hP : ∀ s, P s → P' s) :
    ReportsBus P act Q := reportsBus_conseq h hP fun _ => id

theorem reportsBus_pure (x : α) : ReportsBus P (pure x : Engine α) P where
  answers s x q hs ho := by
    cases ho
    exact ⟨s, rfl, rfl, hs⟩
  reports _ _ _ _ ho := nomatch ho

theorem reportsBus_raise {code : FaultCode} {info : Word} (h : code ≠ .eBus := by decide) :
    ReportsBus P (raise code info : Engine α) Q where
  answers _ _ _ _ ho := nomatch ho
  reports s i q _ ho := by
    rw [raise_run] at ho
    cases ho
    exact absurd rfl h

theorem reportsBus_outran : ReportsBus P (outran : Engine α) Q where
  answers _ _ _ _ ho := nomatch ho
  reports _ _ _ _ ho := nomatch ho

theorem reportsBus_bind {act : Engine α} {f : α → Engine β} (ha : ReportsBus P act M)
    (hf : ∀ x, ReportsBus M (f x) Q) : ReportsBus P (act >>= f) Q where
  answers s y u hs ho := by
    obtain ⟨x, q, hx, hy⟩ := bind_eq_ok ho
    obtain ⟨t, rfl, hholes, ht⟩ := ha.answers s x q hs hx
    obtain ⟨t', hu, hholes', ht'⟩ := (hf x).answers t y u ht hy
    exact ⟨t', hu, hholes'.trans hholes, ht'⟩
  reports s info u hs ho := by
    obtain hx | ⟨x, q, hx, hy⟩ := bind_eq_error ho
    · exact ha.reports s info u hs hx
    · obtain ⟨t, rfl, hholes, ht⟩ := ha.answers s x q hs hx
      rw [← hholes]
      exact (hf x).reports t info u ht hy

/-- What follows a look goes on from the state that it found. -/
theorem reportsBus_look {f : State → Engine α} (h : ∀ s, P s → ReportsBus (fun t => t = s) (f s) Q) :
    ReportsBus P (look >>= f) Q where
  answers s x q hs ho := (h s hs).answers s x q rfl ho
  reports s info q hs ho := (h s hs).reports s info q rfl ho

/-- The same where only that it was in `P` matters. -/
theorem reportsBus_look_pre {f : State → Engine α} (h : ∀ s, ReportsBus P (f s) Q) :
    ReportsBus P (look >>= f) Q :=
  reportsBus_look fun s hs => reportsBus_pre (h s) fun _ ht => ht ▸ hs

theorem reportsBus_ite {c : Prop} [Decidable c] {act act' : Engine α}
    (h : c → ReportsBus P act Q) (h' : ¬ c → ReportsBus P act' Q) :
    ReportsBus P (if c then act else act') Q := by
  split
  · exact h ‹_›
  · exact h' ‹_›

/-- Nothing follows a stop. -/
theorem reportsBus_stop {act : Engine α} {f : α → Engine β} (h : ReportsBus P act fun _ => False) :
    ReportsBus P (act >>= f) Q :=
  reportsBus_bind h fun _ => ⟨fun _ _ _ hs => hs.elim, fun _ _ _ hs => hs.elim⟩

/-- `if c then` a stop, and then the rest, which may rely on `¬ c`. -/
theorem reportsBus_guard {c : Prop} [Decidable c] {stop : Engine Unit} {rest : Unit → Engine α}
    (h : ReportsBus P stop fun _ => False) (h' : ¬ c → ReportsBus P (rest ()) Q) :
    ReportsBus P (if c then stop >>= rest else rest ()) Q :=
  reportsBus_ite (fun _ => reportsBus_stop h) h'

theorem reportsBus_assign {f : State → State}
    (h : ∀ s, P s → (f s).bus.holes = s.bus.holes ∧ Q (f s)) : ReportsBus P (assign f) Q where
  answers s x q hs ho := by
    rw [assign_run, after_whole] at ho
    cases ho
    exact ⟨f s, rfl, h s hs⟩
  reports _ _ _ _ ho := nomatch ho

theorem reportsBus_assignAll {fs : List (State → State)}
    (h : ∀ s, P s → (applied fs s).bus.holes = s.bus.holes ∧ Q (applied fs s)) :
    ReportsBus P (assignAll fs) Q where
  answers s x q hs ho := by
    rw [assignAll_run, afterAll_whole] at ho
    cases ho
    exact ⟨applied fs s, rfl, h s hs⟩
  reports _ _ _ _ ho := nomatch ho

/-! ### Accesses below 2^32 -/

/-- The information names the address itself when the address is a 32-bit one. -/
theorem reportsBus_needBus {a : Nat} (ha : a < addrEnd) : ReportsBus P (needBus a) P where
  answers s x q hs ho := by
    rw [needBus_run] at ho
    split at ho
    · cases ho
      exact ⟨s, rfl, rfl, hs⟩
    · cases ho
  reports s info q hs ho := by
    rw [needBus_run] at ho
    split at ho
    · cases ho
    · cases ho
      rw [Word.ofNat, BitVec.toNat_ofNat, Nat.mod_eq_of_lt (show a < 2 ^ 32 from ha)]
      exact Bool.eq_false_of_not_eq_true ‹_›

theorem reportsBus_memRead {a : Nat} (ha : a < addrEnd) : ReportsBus P (memRead a) P :=
  reportsBus_bind (reportsBus_needBus ha) fun _ =>
    reportsBus_look_pre fun _ => reportsBus_pure _

theorem reportsBus_memWrite {a : Nat} {v : Byte} (ha : a < addrEnd)
    (h : ∀ s, P s → Q (landWrite a v s)) : ReportsBus P (memWrite a v) Q :=
  reportsBus_bind (reportsBus_needBus ha) fun _ =>
    reportsBus_assign fun s hs => ⟨rfl, h s hs⟩

theorem reportsBus_readBytes {n a : Nat} (h : a + n ≤ addrEnd) :
    ReportsBus P (readBytes n a) P := by
  induction n generalizing a with
  | zero => exact reportsBus_pure _
  | succ n ih =>
    exact reportsBus_bind (reportsBus_memRead (by omega)) fun _ =>
      reportsBus_bind (ih (by omega)) fun _ => reportsBus_pure _

theorem reportsBus_writeBytes {bs : List Byte} {a : Nat} (h : a + bs.length ≤ addrEnd)
    (hP : ∀ s b v, P s → P (landWrite b v s)) : ReportsBus P (writeBytes bs a) P := by
  induction bs generalizing a with
  | nil => exact reportsBus_pure _
  | cons b bs ih =>
    rw [List.length_cons] at h
    exact reportsBus_bind (reportsBus_memWrite (by omega) fun s => hP s a b) fun _ =>
      ih (by omega)

/-! ### The decode-time checks (30_encoding.md R130) -/

theorem reportsBus_needLegal (legal : Bool) : ReportsBus P (needLegal legal) P :=
  reportsBus_look_pre fun _ => reportsBus_ite (fun _ => reportsBus_pure _) fun _ => reportsBus_raise

theorem reportsBus_needMode (m : Mode) : ReportsBus P (needMode m) P :=
  reportsBus_look_pre fun _ => reportsBus_ite (fun _ => reportsBus_pure _) fun _ => reportsBus_raise

theorem reportsBus_needTable (valid : Bool) (bit : Nat) : ReportsBus P (needTable valid bit) P :=
  reportsBus_ite (fun _ => reportsBus_pure _) fun _ => reportsBus_raise

theorem reportsBus_needApart (output other : Region) : ReportsBus P (needApart output other) P :=
  reportsBus_ite (fun _ => reportsBus_raise) fun _ => reportsBus_pure _

/-- Past its range check, a region ends by 2^32. -/
theorem reportsBus_needRange {r : Region} {f : Unit → Engine α}
    (h : r.lo + r.len ≤ addrEnd → ReportsBus P (f ()) Q) : ReportsBus P (needRange r >>= f) Q := by
  by_cases hr : regionFits r = true
  · rw [needRange, if_pos hr]
    exact reportsBus_bind (reportsBus_pure ()) fun _ => h (of_decide_eq_true hr)
  · rw [needRange, if_neg hr]
    exact reportsBus_stop reportsBus_raise

/-! ### The reader (41_bitreader.md R156 to R163) -/

/-- The input region ends by 2^32. -/
def InputFits (s : State) : Prop := s.rd.inBase.toNat + s.rd.inLen.toNat ≤ addrEnd

/-- What the reader's primitives need of a state, and keep. -/
structure ReaderInv (P : State → Prop) : Prop where
  fits : ∀ s, P s → InputFits s
  frame : ∀ s t, ReaderOnly s t → P s → P t

theorem readerInv_inputFits : ReaderInv InputFits where
  fits _ hs := hs
  frame s t h hs := by
    obtain ⟨-, -, hbase, hlen⟩ := h
    rwa [InputFits, hbase, hlen]

/-- Past the input's range check, the input region ends by 2^32. -/
theorem reportsBus_needInput (h : ∀ s, P s → InputFits s → Q s) : ReportsBus P needInput Q :=
  reportsBus_look fun s hs => by
    rw [← bind_pure (needRange (inputRegion s))]
    exact reportsBus_needRange fun hfits =>
      reportsBus_pre (reportsBus_pure _) fun t ht => ht ▸ h s hs hfits

theorem reportsBus_needInput_bind {f : Unit → Engine α} (h : ReportsBus InputFits (f ()) Q) :
    ReportsBus P (needInput >>= f) Q :=
  reportsBus_bind (reportsBus_needInput fun _ _ => id) fun _ => h

theorem reportsBus_raiseEof : ReportsBus P (raiseEof : Engine α) Q :=
  reportsBus_look_pre fun _ => reportsBus_raise

section

variable (hP : ReaderInv P)

include hP

theorem reportsBus_reader_assign {f : State → State} (h : ∀ s, ReaderOnly s (f s)) :
    ReportsBus P (assign f) P :=
  reportsBus_assign fun s hs => ⟨by rw [(h s).1], hP.frame s _ (h s) hs⟩

theorem reportsBus_reader_assignAll {fs : List (State → State)}
    (h : ∀ s, ReaderOnly s (applied fs s)) : ReportsBus P (assignAll fs) P :=
  reportsBus_assignAll fun s hs => ⟨by rw [(h s).1], hP.frame s _ (h s) hs⟩

/-- The byte that is fetched lies in the input region. -/
theorem reportsBus_fetchByte : ReportsBus P fetchByte P := by
  refine reportsBus_look fun s hs => reportsBus_pre (P' := P) ?_ fun _ ht => ht ▸ hs
  refine reportsBus_ite (fun hcur => ?_) fun _ => ?_
  · have hfits : s.rd.inBase.toNat + s.rd.inLen.toNat ≤ addrEnd := hP.fits s hs
    exact reportsBus_bind (reportsBus_memRead (by omega)) fun _ =>
      reportsBus_bind (reportsBus_reader_assign hP fun _ => ⟨rfl, rfl, rfl, rfl⟩) fun _ =>
        reportsBus_pure _
  · exact reportsBus_bind (reportsBus_reader_assign hP fun _ => ⟨rfl, rfl, rfl, rfl⟩) fun _ =>
      reportsBus_pure _

theorem reportsBus_skipFill (n : Nat) : ReportsBus P (skipFill n) P := by
  induction n with
  | zero => exact reportsBus_fetchByte hP
  | succ n ih =>
    refine reportsBus_bind (reportsBus_fetchByte hP) fun x => ?_
    obtain ⟨c, q⟩ := x
    cases q with
    | pad => exact reportsBus_pure _
    | real => exact reportsBus_ite (fun _ => ih) fun _ => reportsBus_pure _

theorem reportsBus_afterFF : ReportsBus P afterFF P := by
  refine reportsBus_look_pre fun s => reportsBus_bind (reportsBus_skipFill hP _) fun x => ?_
  obtain ⟨c, q⟩ := x
  cases q with
  | pad => exact reportsBus_pure _
  | real =>
    exact reportsBus_ite (fun _ => reportsBus_pure _) fun _ =>
      reportsBus_bind (reportsBus_reader_assignAll hP fun _ => ⟨rfl, rfl, rfl, rfl⟩) fun _ =>
        reportsBus_pure _

theorem reportsBus_nextMsbByte : ReportsBus P nextMsbByte P := by
  refine reportsBus_look_pre fun s => reportsBus_ite (fun _ => reportsBus_pure _) fun _ => ?_
  refine reportsBus_bind (reportsBus_fetchByte hP) fun x => ?_
  obtain ⟨c, q⟩ := x
  cases q with
  | pad => exact reportsBus_pure _
  | real => exact reportsBus_ite (fun _ => reportsBus_afterFF hP) fun _ => reportsBus_pure _

theorem reportsBus_nextByte : ReportsBus P nextByte P := by
  refine reportsBus_look_pre fun s => ?_
  cases s.rd.mode with
  | lsb => exact reportsBus_fetchByte hP
  | msb => exact reportsBus_nextMsbByte hP

theorem reportsBus_fillLoop (n : Nat) : ReportsBus P (fillLoop n) P := by
  induction n with
  | zero => exact reportsBus_pure _
  | succ n ih =>
    exact reportsBus_look_pre fun _ =>
      reportsBus_ite
        (fun _ => reportsBus_bind (reportsBus_nextByte hP) fun _ =>
          reportsBus_bind (reportsBus_reader_assignAll hP fun _ => ⟨rfl, rfl, rfl, rfl⟩) fun _ => ih)
        fun _ => reportsBus_pure _

theorem reportsBus_fill : ReportsBus P fill P := reportsBus_fillLoop hP 4

theorem reportsBus_need (n : Nat) : ReportsBus P (need n) P :=
  reportsBus_look_pre fun _ =>
    reportsBus_ite (fun _ => reportsBus_fill hP) fun _ => reportsBus_pure _

theorem reportsBus_consume (n : Nat) : ReportsBus P (consume n) P :=
  reportsBus_look_pre fun _ =>
    reportsBus_bind (reportsBus_reader_assignAll hP fun _ => ⟨rfl, rfl, rfl, rfl⟩) fun _ =>
      reportsBus_pure _

theorem reportsBus_readAlignedByte : ReportsBus P readAlignedByte P := by
  refine reportsBus_look_pre fun _ => reportsBus_ite (fun _ => reportsBus_consume hP 8) fun _ => ?_
  refine reportsBus_bind (reportsBus_fetchByte hP) fun x => ?_
  obtain ⟨c, q⟩ := x
  cases q with
  | real => exact reportsBus_pure _
  | pad =>
    exact reportsBus_bind (reportsBus_reader_assign hP fun _ => ⟨rfl, rfl, rfl, rfl⟩) fun _ =>
      reportsBus_pure _

theorem reportsBus_receive (n : Nat) : ReportsBus P (receive n) P :=
  reportsBus_ite (fun _ => reportsBus_pure _) fun _ =>
    reportsBus_bind (reportsBus_need hP n) fun _ =>
      reportsBus_bind (reportsBus_consume hP n) fun _ => reportsBus_pure _

theorem reportsBus_readBytesBE (n v : Nat) : ReportsBus P (readBytesBE n v) P := by
  induction n generalizing v with
  | zero => exact reportsBus_pure _
  | succ n ih => exact reportsBus_bind (reportsBus_readAlignedByte hP) fun _ => ih _

/-! ### Decoders (42_huffman.md R210, R211) -/

theorem reportsBus_zDecode (t : Fin 3) : ReportsBus P (zDecode t) P := by
  refine reportsBus_bind (reportsBus_need hP 16) fun _ => reportsBus_look_pre fun s => ?_
  split
  · exact reportsBus_raise
  · split
    · exact reportsBus_raise
    · exact reportsBus_bind (reportsBus_consume hP _) fun _ => reportsBus_pure _

theorem reportsBus_jDecode (c : JClass) (i : Fin 4) : ReportsBus P (jDecode c i) P := by
  refine reportsBus_bind (reportsBus_need hP 16) fun _ => reportsBus_look_pre fun s => ?_
  split
  · exact reportsBus_raise
  · split
    · exact reportsBus_raise
    · exact reportsBus_bind (reportsBus_consume hP _) fun _ => reportsBus_pure _

theorem reportsBus_bits (n : Nat) : ReportsBus P (bits n) P :=
  reportsBus_ite (fun _ => reportsBus_pure _) fun _ =>
    reportsBus_bind (reportsBus_need hP n) fun _ =>
      reportsBus_bind (reportsBus_consume hP n) fun _ =>
        reportsBus_ite (fun _ => reportsBus_raiseEof) fun _ => reportsBus_pure _

theorem reportsBus_zSym (t : Fin 3) : ReportsBus P (zSym t) P :=
  reportsBus_bind (reportsBus_zDecode hP t) fun _ =>
    reportsBus_ite (fun _ => reportsBus_raiseEof) fun _ => reportsBus_pure _

theorem reportsBus_headerByte : ReportsBus P headerByte P :=
  reportsBus_bind (reportsBus_readAlignedByte hP) fun _ =>
    reportsBus_ite (fun _ => reportsBus_raiseEof) fun _ => reportsBus_pure _

theorem reportsBus_readClLengths (syms cl : List Nat) : ReportsBus P (readClLengths syms cl) P := by
  induction syms generalizing cl with
  | nil => exact reportsBus_pure _
  | cons sym syms ih => exact reportsBus_bind (reportsBus_bits hP 3) fun _ => ih _

theorem reportsBus_lengthRun (c : Nat) (lens : List Nat) : ReportsBus P (lengthRun c lens) P := by
  refine reportsBus_ite (fun _ => ?_) fun _ => reportsBus_ite (fun _ => ?_) fun _ => ?_
  · cases lens with
    | nil => exact reportsBus_raise
    | cons _ _ => exact reportsBus_bind (reportsBus_bits hP 2) fun _ => reportsBus_pure _
  · exact reportsBus_bind (reportsBus_bits hP 3) fun _ => reportsBus_pure _
  · exact reportsBus_bind (reportsBus_bits hP 7) fun _ => reportsBus_pure _

theorem reportsBus_readLengths (total rounds : Nat) (lens : List Nat) :
    ReportsBus P (readLengths total rounds lens) P := by
  induction rounds generalizing lens with
  | zero => exact reportsBus_pure _
  | succ n ih =>
    refine reportsBus_ite (fun _ => ?_) fun _ => reportsBus_pure _
    refine reportsBus_bind (reportsBus_zSym hP 2) fun _ => reportsBus_ite (fun _ => ih _) fun _ => ?_
    exact reportsBus_bind (reportsBus_lengthRun hP _ _) fun _ =>
      reportsBus_ite (fun _ => reportsBus_raise) fun _ => ih _

end

/-! ### INFLATE (43_inflate.md R256 to R269) -/

/-- The input and the output region end by 2^32, and at least so many bytes are left in either. -/
def BuffersFit (input output : Nat) (s : State) : Prop :=
  InputFits s ∧ s.out.outBase.toNat + s.out.outCap.toNat ≤ addrEnd ∧
    input ≤ s.rd.inLen.toNat - s.rd.cur.toNat ∧ output ≤ s.out.outCap.toNat - s.out.outLen.toNat

theorem readerInv_buffersFit : ReaderInv (BuffersFit 0 0) where
  fits _ hs := hs.1
  frame s t h hs := by
    obtain ⟨hin, hout, -, -⟩ := hs
    have hsame : t.out = s.out := by rw [h.1]
    exact ⟨readerInv_inputFits.frame s t h hin, by rw [hsame]; exact hout, Nat.zero_le _,
      Nat.zero_le _⟩

theorem buffersFit_anyway {m n : Nat} (s : State) (hs : BuffersFit m n s) : BuffersFit 0 0 s :=
  ⟨hs.1, hs.2.1, Nat.zero_le _, Nat.zero_le _⟩

theorem buffersFit_growOutput {m n : Nat} {s : State} (hs : BuffersFit m (n + 1) s) :
    BuffersFit m n (growOutput s) := by
  obtain ⟨hin, hout, hleft, hroom⟩ := hs
  have hlen : (growOutput s).out.outLen.toNat = s.out.outLen.toNat + 1 := by
    rw [growOutput_out]
    bv_omega
  exact ⟨hin, hout, hleft, by rw [hlen, growOutput_out]; dsimp only; omega⟩

theorem buffersFit_advanceCur {m n : Nat} {s : State} (hs : BuffersFit (m + 1) n s) :
    BuffersFit m n (advanceCur s) := by
  obtain ⟨hin, hout, hleft, hroom⟩ := hs
  have hcur : (advanceCur s).rd.cur.toNat = s.rd.cur.toNat + 1 := by
    rw [advanceCur_rd]
    bv_omega
  exact ⟨hin, hout, by rw [hcur, advanceCur_rd]; dsimp only; omega, hroom⟩

theorem reportsBus_appendByte {m n : Nat} (b : Byte) :
    ReportsBus (BuffersFit m (n + 1)) (appendByte b) (BuffersFit m n) := by
  refine reportsBus_look fun s hs => reportsBus_pre (P' := BuffersFit m (n + 1)) ?_ fun _ ht => ht ▸ hs
  obtain ⟨-, hout, -, hroom⟩ := hs
  exact reportsBus_bind (reportsBus_memWrite (by omega) fun _ => id) fun _ =>
    reportsBus_assign fun _ ht => ⟨rfl, buffersFit_growOutput ht⟩

theorem reportsBus_outByte (b : Byte) :
    ReportsBus (BuffersFit 0 0) (outByte b) (BuffersFit 0 0) := by
  refine reportsBus_look fun s hs => reportsBus_ite (fun _ => reportsBus_raise) fun hroom => ?_
  obtain ⟨hin, hout, hleft, -⟩ := hs
  exact reportsBus_pre (reportsBus_appendByte b) fun t ht => ht ▸ ⟨hin, hout, hleft, by omega⟩

theorem reportsBus_copyStored (n : Nat) :
    ReportsBus (BuffersFit n n) (copyStored n) (BuffersFit 0 0) := by
  induction n with
  | zero => exact reportsBus_pure _
  | succ n ih =>
    refine reportsBus_look fun s hs =>
      reportsBus_pre (P' := BuffersFit (n + 1) (n + 1)) ?_ fun _ ht => ht ▸ hs
    obtain ⟨hin, -, hleft, -⟩ := hs
    rw [InputFits] at hin
    exact reportsBus_bind (reportsBus_memRead (by omega)) fun b =>
      reportsBus_bind (reportsBus_assign fun _ ht => ⟨rfl, buffersFit_advanceCur ht⟩) fun _ =>
        reportsBus_bind (reportsBus_appendByte b) fun _ => ih

theorem reportsBus_copyMatch (dist n : Nat) :
    ReportsBus (BuffersFit 0 n) (copyMatch dist n) (BuffersFit 0 0) := by
  induction n with
  | zero => exact reportsBus_pure _
  | succ n ih =>
    refine reportsBus_look fun s hs =>
      reportsBus_pre (P' := BuffersFit 0 (n + 1)) ?_ fun _ ht => ht ▸ hs
    obtain ⟨-, hout, -, hroom⟩ := hs
    exact reportsBus_bind (reportsBus_memRead (by omega)) fun b =>
      reportsBus_bind (reportsBus_appendByte b) fun _ => ih

theorem reportsBus_storedBlock :
    ReportsBus (BuffersFit 0 0) storedBlock (BuffersFit 0 0) := by
  have hR := readerInv_buffersFit
  refine reportsBus_look_pre fun s => reportsBus_bind (reportsBus_consume hR _) fun x =>
    reportsBus_guard reportsBus_raiseEof fun _ => ?_
  iterate 4 refine reportsBus_bind (reportsBus_headerByte hR) fun _ => ?_
  refine reportsBus_guard reportsBus_raise fun _ => reportsBus_look fun t ht =>
    reportsBus_guard reportsBus_raiseEof fun hleft => reportsBus_guard reportsBus_raise fun hroom => ?_
  obtain ⟨hin, hout, -, -⟩ := ht
  exact reportsBus_pre (reportsBus_copyStored _) fun u hu =>
    hu ▸ ⟨hin, hout, Nat.le_of_not_lt hleft, Nat.le_of_not_lt hroom⟩

theorem reportsBus_installZTable {t : Fin 3} {lens : List Nat}
    (h : ∀ s tbl, P s → P (setZTable t tbl s)) : ReportsBus P (installZTable t lens) P := by
  unfold installZTable
  split
  · exact reportsBus_raise
  · exact reportsBus_assign fun s hs => ⟨rfl, h s _ hs⟩

/-- A table's assignment leaves the buffers alone. -/
theorem reportsBus_rebuildZTable {m n : Nat} (t : Fin 3) (lens : List Nat) :
    ReportsBus (BuffersFit m n) (rebuildZTable t lens) (BuffersFit m n) :=
  reportsBus_bind (M := BuffersFit m n) (reportsBus_assign fun _ hs => ⟨rfl, hs⟩) fun _ =>
    reportsBus_installZTable fun _ _ => id

theorem reportsBus_dynamicTables :
    ReportsBus (BuffersFit 0 0) dynamicTables (BuffersFit 0 0) :=
  have hR := readerInv_buffersFit
  reportsBus_bind (reportsBus_bits hR 5) fun _ =>
    reportsBus_bind (reportsBus_bits hR 5) fun _ =>
      reportsBus_bind (reportsBus_bits hR 4) fun _ =>
        reportsBus_bind (reportsBus_readClLengths hR _ _) fun _ =>
          reportsBus_bind (reportsBus_rebuildZTable 2 _) fun _ =>
            reportsBus_bind (reportsBus_readLengths hR _ _ _) fun _ =>
              reportsBus_bind (reportsBus_rebuildZTable 0 _) fun _ => reportsBus_rebuildZTable 1 _

theorem reportsBus_lengthAndDistance (sym : Nat) :
    ReportsBus (BuffersFit 0 0) (lengthAndDistance sym) (BuffersFit 0 0) := by
  have hR := readerInv_buffersFit
  unfold lengthAndDistance
  refine reportsBus_bind (reportsBus_bits hR _) fun _ => ?_
  refine reportsBus_bind (reportsBus_zSym hR 1) fun _ => reportsBus_guard reportsBus_raise fun _ => ?_
  refine reportsBus_bind (reportsBus_bits hR _) fun _ => reportsBus_look fun s hs =>
    reportsBus_guard reportsBus_raise fun _ => reportsBus_guard reportsBus_raise fun hroom => ?_
  obtain ⟨hin, hout, hleft, -⟩ := hs
  exact reportsBus_pre (reportsBus_copyMatch _ _) fun t ht =>
    ht ▸ ⟨hin, hout, hleft, Nat.le_of_not_lt hroom⟩

theorem reportsBus_huffBlock (n : Nat) :
    ReportsBus (BuffersFit 0 0) (huffBlock n) (BuffersFit 0 0) := by
  induction n with
  | zero => exact reportsBus_outran
  | succ n ih =>
    rw [huffBlock]
    refine reportsBus_bind (reportsBus_zSym readerInv_buffersFit 0) fun _ => ?_
    split
    · exact reportsBus_bind (reportsBus_outByte _) fun _ => ih
    · split
      · exact reportsBus_pure _
      · exact reportsBus_ite (fun _ => reportsBus_raise) fun _ =>
          reportsBus_bind (reportsBus_lengthAndDistance _) fun _ => ih

theorem reportsBus_compressedBlock :
    ReportsBus (BuffersFit 0 0) compressedBlock (BuffersFit 0 0) :=
  reportsBus_look_pre fun _ => reportsBus_huffBlock _

theorem reportsBus_blockBody (b : Nat) :
    ReportsBus (BuffersFit 0 0) (blockBody b) (BuffersFit 0 0) := by
  refine reportsBus_ite (fun _ => reportsBus_storedBlock) fun _ =>
    reportsBus_ite (fun _ => ?_) fun _ => reportsBus_ite (fun _ => ?_) fun _ => ?_
  · exact reportsBus_bind
      (reportsBus_bind (reportsBus_rebuildZTable 0 _) fun _ => reportsBus_rebuildZTable 1 _)
      fun _ => reportsBus_compressedBlock
  · exact reportsBus_bind reportsBus_dynamicTables fun _ => reportsBus_compressedBlock
  · exact reportsBus_look_pre fun _ => reportsBus_raise

theorem reportsBus_inflateBlock :
    ReportsBus (BuffersFit 0 0) inflateBlock (BuffersFit 0 0) :=
  have hR := readerInv_buffersFit
  reportsBus_bind (reportsBus_bits hR 1) fun _ =>
    reportsBus_bind (reportsBus_bits hR 2) fun b =>
      reportsBus_bind (reportsBus_assign fun _ hs => ⟨rfl, hs⟩) fun _ =>
        reportsBus_bind (reportsBus_blockBody b) fun _ => reportsBus_pure _

theorem reportsBus_inflateBlocks (stepMode : Bool) (bound nblk : Nat) :
    ReportsBus (BuffersFit 0 0) (inflateBlocks stepMode bound nblk) (BuffersFit 0 0) := by
  induction bound generalizing nblk with
  | zero => exact reportsBus_outran
  | succ n ih =>
    refine reportsBus_bind reportsBus_inflateBlock fun _ => reportsBus_ite (fun _ => ?_) fun _ =>
      reportsBus_ite (fun _ => reportsBus_pure _) fun _ => ih _
    exact reportsBus_bind (reportsBus_assign fun _ hs => ⟨rfl, hs⟩) fun _ => reportsBus_pure _

/-! ### Accesses at addresses that the operands fix -/

/-- No condition on the state: for pseudocode whose addresses its operands fix. -/
def AnyState (_ : State) : Prop := True

theorem reportsBus_assign_any {f : State → State} (h : ∀ s, (f s).bus.holes = s.bus.holes) :
    ReportsBus P (assign f) AnyState := reportsBus_assign fun s _ => ⟨h s, trivial⟩

theorem reportsBus_pure_any (x : α) : ReportsBus P (pure x : Engine α) AnyState :=
  reportsBus_conseq (reportsBus_pure x) (fun _ => id) fun _ _ => trivial

theorem reportsBus_writeBytes_any {bs : List Byte} {a : Nat} (h : a + bs.length ≤ addrEnd) :
    ReportsBus AnyState (writeBytes bs a) AnyState := reportsBus_writeBytes h fun _ _ _ => id

theorem reportsBus_installJTable (c : JClass) (i : Fin 4) (bits : List Nat) (vals : List Byte) :
    ReportsBus P (installJTable c i bits vals) AnyState := by
  unfold installJTable
  split
  · exact reportsBus_raise
  · exact reportsBus_assign_any fun _ => by rw [setJTable_bus]

theorem reportsBus_quantEntry {p16 : Bool} {base i : Nat} (hi : i < 64)
    (h : base + quantBytes p16 ≤ addrEnd) : ReportsBus P (quantEntry p16 base i) P := by
  cases p16 with
  | true =>
    rw [quantBytes, if_pos rfl] at h
    exact reportsBus_bind (reportsBus_memRead (by omega)) fun _ =>
      reportsBus_bind (reportsBus_memRead (by omega)) fun _ => reportsBus_pure _
  | false =>
    rw [quantBytes, if_neg Bool.false_ne_true] at h
    exact reportsBus_bind (reportsBus_memRead (by omega)) fun _ => reportsBus_pure _

theorem reportsBus_quantEntries {p16 : Bool} {base left : Nat} {tbl : Vector Half 64}
    (h : base + quantBytes p16 ≤ addrEnd) : ReportsBus P (quantEntries p16 base left tbl) P := by
  induction left generalizing tbl with
  | zero => exact reportsBus_pure _
  | succ n ih => exact reportsBus_bind (reportsBus_quantEntry (by omega) h) fun _ => ih

theorem reportsBus_loadCoefs {base left i : Nat} (h : base + 2 * (i + left) ≤ addrEnd) :
    ReportsBus AnyState (loadCoefs base left i) AnyState := by
  induction left generalizing i with
  | zero => exact reportsBus_pure _
  | succ n ih =>
    exact reportsBus_bind (reportsBus_needBus (by omega)) fun _ =>
      reportsBus_bind (reportsBus_needBus (by omega)) fun _ =>
        reportsBus_bind (reportsBus_assign_any fun _ => rfl) fun _ => ih (by omega)

theorem length_coefBytes (s : State) : (coefBytes s).length = 128 := by
  simp [coefBytes, halfBytes, List.length_flatMap]

/-- Each row ends where the last one would at the latest. -/
theorem reportsBus_writeRows {stride : Nat} {rows : List (List Byte)} {a : Nat}
    (hlen : ∀ row ∈ rows, row.length = 8) (h : a + (rows.length - 1) * stride + 8 ≤ addrEnd) :
    ReportsBus AnyState (writeRows stride rows a) AnyState := by
  induction rows generalizing a with
  | nil => exact reportsBus_pure _
  | cons row rows ih =>
    have hrow : row.length = 8 := hlen row List.mem_cons_self
    rw [List.length_cons, Nat.add_sub_cancel] at h
    refine reportsBus_bind (reportsBus_writeBytes_any (by omega)) fun _ => ?_
    cases rows with
    | nil => exact reportsBus_pure _
    | cons row' rows =>
      refine ih (fun row hmem => hlen row (List.mem_cons_of_mem _ hmem)) ?_
      rw [List.length_cons, Nat.succ_mul] at h
      rw [List.length_cons, Nat.add_sub_cancel]
      omega

/-! ### The unfilter (44_png_filter.md R310) -/

section

variable {j : RowJob} {ft k left : Nat} {out : List Byte}

theorem reportsBus_priorAbove (hk : k < j.n)
    (hprior : j.first = false → (priorRegion j).lo + (priorRegion j).len ≤ addrEnd) :
    ReportsBus P (priorAbove j ft k) P := by
  refine reportsBus_ite (fun huse => reportsBus_memRead ?_) fun _ => reportsBus_pure _
  simp only [usesPrior, Bool.and_eq_true, Bool.not_eq_true'] at huse
  exact (prior_mem huse.1 hk).2.trans_le (hprior huse.1)

theorem reportsBus_priorAboveLeft (hk : k < j.n)
    (hprior : j.first = false → (priorRegion j).lo + (priorRegion j).len ≤ addrEnd) :
    ReportsBus P (priorAboveLeft j ft k) P := by
  refine reportsBus_ite (fun huse => reportsBus_memRead ?_) fun _ => reportsBus_pure _
  simp only [usesPrior, Bool.and_eq_true, Bool.not_eq_true'] at huse
  obtain ⟨⟨⟨hfirst, -⟩, -⟩, -⟩ := huse
  exact (prior_mem hfirst (Nat.sub_lt_of_lt hk)).2.trans_le (hprior hfirst)

theorem reportsBus_unfilterFrom (hbpp : 0 < j.bpp) (hk : k + left = j.n)
    (hraw : (rawRegion j).lo + (rawRegion j).len ≤ addrEnd)
    (hrow : (rowRegion j).lo + (rowRegion j).len ≤ addrEnd)
    (hprior : j.first = false → (priorRegion j).lo + (priorRegion j).len ≤ addrEnd) :
    ReportsBus AnyState (unfilterFrom j ft left k out) AnyState := by
  induction left generalizing k out with
  | zero => exact reportsBus_pure _
  | succ n ih =>
    have hlt : k < j.n := by omega
    refine reportsBus_bind (reportsBus_memRead ((raw_mem hlt).2.trans_le hraw)) fun _ =>
      reportsBus_bind (reportsBus_priorAbove hlt hprior) fun _ =>
        reportsBus_bind (reportsBus_priorAboveLeft hlt hprior) fun _ => ?_
    rw [RowJob.rowRegion_end] at hrow
    have hslot : j.slot (k + 1) ≤ j.slot j.n := RowJob.slot_le hlt
    rw [RowJob.write_emitted hbpp]
    exact reportsBus_bind
      (reportsBus_writeBytes_any (by rw [RowJob.slot_add_emitted hbpp]; omega)) fun _ =>
        ih (by omega)

theorem reportsBus_unfilterRow (hbpp : 0 < j.bpp)
    (hraw : (rawRegion j).lo + (rawRegion j).len ≤ addrEnd)
    (hrow : (rowRegion j).lo + (rowRegion j).len ≤ addrEnd)
    (hprior : j.first = false → (priorRegion j).lo + (priorRegion j).len ≤ addrEnd) :
    ReportsBus AnyState (unfilterRow j) AnyState := by
  have hfirst : j.raw + (1 + j.n) ≤ addrEnd := hraw
  exact reportsBus_bind (reportsBus_memRead (by omega)) fun _ =>
    reportsBus_guard reportsBus_raise fun _ =>
      reportsBus_bind (reportsBus_unfilterFrom hbpp (Nat.zero_add _) hraw hrow hprior) fun _ =>
        reportsBus_pure _

/-- The row after its checks of overlap. -/
theorem reportsBus_apartRow (hbpp : 0 < j.bpp)
    (hraw : (rawRegion j).lo + (rawRegion j).len ≤ addrEnd)
    (hrow : (rowRegion j).lo + (rowRegion j).len ≤ addrEnd)
    (hprior : j.first = false → (priorRegion j).lo + (priorRegion j).len ≤ addrEnd) :
    ReportsBus AnyState
      (do
        needApart (rowRegion j) (rawRegion j)
        needApart (rowRegion j) (priorRegion j)
        unfilterRow j)
      AnyState :=
  reportsBus_bind (reportsBus_needApart _ _) fun _ =>
    reportsBus_bind (reportsBus_needApart _ _) fun _ =>
      reportsBus_unfilterRow hbpp hraw hrow hprior

end

/-! ### J_DECODE_BLOCK (45_jpeg_idct.md R335) -/

theorem reportsBus_acLoop (ac : Fin 4) (rounds k : Nat) :
    ReportsBus InputFits (acLoop ac rounds k) InputFits := by
  have hR := readerInv_inputFits
  induction rounds generalizing k with
  | zero => exact reportsBus_pure _
  | succ n ih =>
    refine reportsBus_ite (fun _ => ?_) fun _ => reportsBus_pure _
    refine reportsBus_bind (reportsBus_jDecode hR .ac ac) fun _ => reportsBus_ite (fun _ => ?_) fun _ =>
      reportsBus_ite (fun _ => reportsBus_raise) fun _ => ?_
    · exact reportsBus_ite (fun _ => ih _) fun _ => reportsBus_pure _
    · exact reportsBus_bind (reportsBus_receive hR _) fun _ =>
        reportsBus_bind (reportsBus_assign fun _ hs => ⟨rfl, hs⟩) fun _ => ih _

/-! ### Every command -/

/-- Every command's accesses are below 2^32, so what it reports with `E_BUS` is the address that failed
(60_exceptions.md R392). -/
theorem reportsBus_pseudocode (i : Instr) : ReportsBus AnyState (pseudocode i) AnyState := by
  have hR := readerInv_inputFits
  cases i with
  | nop => exact reportsBus_pure _
  | brInit m =>
    exact reportsBus_needInput_bind <|
      reportsBus_bind (reportsBus_assignAll fun _ _ => ⟨rfl, trivial⟩) fun _ => reportsBus_pure _
  | brGetbits n =>
    exact reportsBus_bind (reportsBus_needLegal _) fun _ => reportsBus_needInput_bind <|
      reportsBus_bind (reportsBus_need hR _) fun _ =>
        reportsBus_bind (reportsBus_consume hR _) fun _ => reportsBus_pure_any _
  | brPeekbits n =>
    exact reportsBus_bind (reportsBus_needLegal _) fun _ => reportsBus_needInput_bind <|
      reportsBus_bind (reportsBus_need hR _) fun _ =>
        reportsBus_look_pre fun _ => reportsBus_pure_any _
  | brAlign =>
    exact reportsBus_needInput_bind <| reportsBus_look_pre fun _ =>
      reportsBus_bind (reportsBus_consume hR _) fun _ => reportsBus_pure_any _
  | brReadbytes sz chk =>
    exact reportsBus_bind (reportsBus_needLegal _) fun _ => reportsBus_needInput_bind <|
      reportsBus_look_pre fun _ => reportsBus_guard reportsBus_raise fun _ =>
        reportsBus_guard reportsBus_raise fun _ =>
          reportsBus_bind (reportsBus_readBytesBE hR _ _) fun _ => reportsBus_pure_any _
  | hbZlib tid =>
    exact reportsBus_look_pre fun _ => reportsBus_bind (reportsBus_needLegal _) fun _ =>
      reportsBus_bind (reportsBus_needLegal _) fun _ => reportsBus_needRange fun hfits =>
        reportsBus_bind (reportsBus_assign_any fun _ => rfl) fun _ =>
          reportsBus_bind (reportsBus_readBytes hfits) fun _ =>
            reportsBus_bind (reportsBus_installZTable fun _ _ => id) fun _ => reportsBus_pure _
  | hbJpeg cls idx =>
    exact reportsBus_look_pre fun _ => reportsBus_needRange fun hcounts =>
      reportsBus_bind (reportsBus_assign_any fun _ => by rw [setJTable_bus]) fun _ =>
        reportsBus_bind (reportsBus_readBytes hcounts) fun _ =>
          reportsBus_guard reportsBus_raise fun _ => reportsBus_needRange fun hvals =>
            reportsBus_bind (reportsBus_readBytes (by rwa [Nat.add_assoc])) fun _ =>
              reportsBus_bind (reportsBus_installJTable _ _ _ _) fun _ => reportsBus_pure _
  | hdZlib tid =>
    exact reportsBus_look_pre fun _ => reportsBus_bind (reportsBus_needLegal _) fun _ =>
      reportsBus_bind (reportsBus_needMode _) fun _ =>
        reportsBus_bind (reportsBus_needTable _ _) fun _ => reportsBus_needInput_bind <|
          reportsBus_bind (reportsBus_zDecode hR _) fun _ => reportsBus_pure_any _
  | hdJpeg cls idx =>
    exact reportsBus_look_pre fun _ => reportsBus_bind (reportsBus_needMode _) fun _ =>
      reportsBus_bind (reportsBus_needTable _ _) fun _ => reportsBus_needInput_bind <|
        reportsBus_bind (reportsBus_jDecode hR _ _) fun _ => reportsBus_pure_any _
  | zHeader =>
    exact reportsBus_bind (reportsBus_needMode _) fun _ => reportsBus_needInput_bind <|
      reportsBus_look_pre fun _ => reportsBus_guard reportsBus_raise fun _ =>
        reportsBus_bind (reportsBus_readAlignedByte hR) fun _ =>
          reportsBus_bind (reportsBus_readAlignedByte hR) fun _ =>
            reportsBus_guard reportsBus_raiseEof fun _ => reportsBus_guard reportsBus_raise fun _ =>
              reportsBus_guard reportsBus_raise fun _ =>
                reportsBus_guard reportsBus_raise fun _ => reportsBus_pure_any _
  | inflate stepMode =>
    refine reportsBus_look fun s _ => reportsBus_bind (reportsBus_needMode _) fun _ =>
      reportsBus_bind (M := fun t => t = s ∧ InputFits t)
        (reportsBus_needInput fun _ ht hfits => ⟨ht, hfits⟩) fun _ =>
        reportsBus_needRange fun hout => ?_
    refine reportsBus_pre (P' := BuffersFit 0 0) ?_ fun t ⟨ht, hfits⟩ =>
      ⟨hfits, ht ▸ hout, Nat.zero_le _, Nat.zero_le _⟩
    have hlen : ReportsBus (BuffersFit 0 0) needOutLen (BuffersFit 0 0) :=
      reportsBus_look_pre fun _ => reportsBus_ite (fun _ => reportsBus_pure _) fun _ => reportsBus_raise
    exact reportsBus_bind hlen fun _ => reportsBus_bind (reportsBus_needApart _ _) fun _ =>
      reportsBus_bind (reportsBus_inflateBlocks _ _ _) fun _ => reportsBus_pure_any _
  | pngUnfilter bppm1 first alpha a16 =>
    refine reportsBus_look_pre fun s => reportsBus_bind (reportsBus_needLegal _) fun _ =>
      reportsBus_bind (reportsBus_needLegal _) fun _ => reportsBus_needRange fun hraw =>
        reportsBus_needRange fun hrow => ?_
    exact reportsBus_ite
      (fun hfirst => reportsBus_apartRow (Nat.succ_pos _) hraw hrow fun h =>
        absurd (h.symm.trans hfirst) Bool.false_ne_true)
      fun _ => reportsBus_needRange fun hprior =>
        reportsBus_apartRow (Nat.succ_pos _) hraw hrow fun _ => hprior
  | qtLoad idx p16 =>
    exact reportsBus_look_pre fun _ => reportsBus_needRange fun hfits =>
      reportsBus_bind (reportsBus_assign_any fun _ => rfl) fun _ =>
        reportsBus_bind (reportsBus_quantEntries hfits) fun _ =>
          reportsBus_bind (reportsBus_assign_any fun _ => rfl) fun _ => reportsBus_pure _
  | jReceive n =>
    exact reportsBus_bind (reportsBus_needLegal _) fun _ =>
      reportsBus_bind (reportsBus_needMode _) fun _ => reportsBus_needInput_bind <|
        reportsBus_bind (reportsBus_receive hR _) fun _ => reportsBus_pure_any _
  | jDecodeBlock dct act comp =>
    exact reportsBus_look_pre fun _ => reportsBus_bind (reportsBus_needMode _) fun _ =>
      reportsBus_bind (reportsBus_needTable _ _) fun _ =>
        reportsBus_bind (reportsBus_needTable _ _) fun _ => reportsBus_needInput_bind <|
          reportsBus_bind (reportsBus_jDecode hR _ _) fun _ =>
            reportsBus_guard reportsBus_raise fun _ =>
              reportsBus_bind (M := InputFits) (reportsBus_assign fun _ hs => ⟨rfl, hs⟩) fun _ =>
                reportsBus_bind (reportsBus_receive hR _) fun _ =>
                  reportsBus_bind (M := InputFits) (reportsBus_assign fun _ hs => ⟨rfl, hs⟩)
                    fun _ => reportsBus_bind (reportsBus_acLoop _ _ _) fun _ =>
                      reportsBus_pure_any _
  | jReset =>
    exact reportsBus_bind (reportsBus_needMode _) fun _ =>
      reportsBus_bind (reportsBus_assignAll fun _ _ => ⟨rfl, trivial⟩) fun _ => reportsBus_pure _
  | jRestart =>
    have hrest : ReportsBus InputFits (look >>= fun t =>
        if isRestart t.rd.marker = true then assignAll entropySteps >>= fun _ => pure 1
        else (pure 0 : Engine Word)) AnyState :=
      reportsBus_look_pre fun _ => reportsBus_ite
        (fun _ => reportsBus_bind (reportsBus_assignAll fun _ _ => ⟨rfl, trivial⟩) fun _ =>
          reportsBus_pure _)
        fun _ => reportsBus_pure_any _
    exact reportsBus_bind (reportsBus_needMode _) fun _ => reportsBus_needInput_bind <|
      reportsBus_look_pre fun _ => reportsBus_ite
        (fun _ => reportsBus_bind (reportsBus_fill hR) fun _ => hrest) fun _ => hrest
  | coefLoad =>
    exact reportsBus_look_pre fun _ => reportsBus_needRange fun hfits =>
      reportsBus_bind (reportsBus_loadCoefs hfits) fun _ => reportsBus_pure _
  | coefStore =>
    exact reportsBus_look_pre fun s => reportsBus_needRange fun hfits =>
      reportsBus_bind (reportsBus_writeBytes_any (by rwa [length_coefBytes])) fun _ =>
        reportsBus_pure _
  | idct deq qidx =>
    refine reportsBus_look_pre fun s => reportsBus_bind (reportsBus_needLegal _) fun _ =>
      reportsBus_bind (reportsBus_needTable _ _) fun _ => reportsBus_needRange fun hfits =>
        reportsBus_bind (reportsBus_writeRows ?_ ?_) fun _ => reportsBus_pure _
    · intro row hmem
      obtain ⟨r, -, rfl⟩ := List.mem_map.mp hmem
      rfl
    · exact (Nat.add_assoc ..).trans_le hfits

theorem faultByte_eq_eBus_iff (code : FaultCode) : faultByte code = 0x06 ↔ code = .eBus := by
  cases code <;> decide

/-- A command that ends in FAULT made the fault entry of what its pseudocode raised. -/
theorem exec_fault {i : Instr} {s t : State} (h : exec i s = .next t) (hfault : t.ctl.estate = .fault) :
    ∃ code info r, pseudocode i (Run.whole s) = .error (.raised code info) r ∧
      t = faultEntry code info r.st := by
  rw [exec_eq] at h
  obtain ⟨res, r, -, hend⟩ | ⟨code, info, r, hraise, hend⟩ | ⟨r, -, hend⟩ :=
    runCommand_cases (pseudocode i) s
  · rw [hend] at h
    cases h
    cases hfault
  · rw [hend] at h
    cases h
    exact ⟨code, info, r, hraise, rfl⟩
  · rw [hend] at h
    cases h

/-- Settles O10: an access that MEMMAP does not hold raises where it stands; every command reports the
address of its failing access, which MEMMAP does not hold. -/
theorem unmappedByteRaisesBus : Obligations.UnmappedByteRaisesBus := by
  unfold Obligations.UnmappedByteRaisesBus
  refine ⟨fun a ha => inMap_nil ha, fun r a v hout => ⟨?_, ?_⟩, fun i s t hexec hfault hcode => ?_⟩
  · rw [memRead_run, hout, if_neg Bool.false_ne_true]
  · rw [memWrite_run, hout, if_neg Bool.false_ne_true]
  · obtain ⟨code, info, r, hraise, rfl⟩ := exec_fault hexec hfault
    obtain rfl := (faultByte_eq_eBus_iff code).mp hcode
    exact (reportsBus_pseudocode i).reports s info r trivial hraise

end Sys2Proof.Machine
end

-- What hard and soft reset leave, in every engine state (70_reset_and_hazards.md R420, R422).
section
namespace Sys2Proof.Machine

open Sys2Proof

variable {s : State}

/-- The event is a reset of a block at `regBase`: the platform's hard reset, or a CTRL write with
SRESET = 1 (70_reset_and_hazards.md R420). -/
def IsReset (regBase : Nat) (e : Event) : Prop :=
  ∃ v : Word, e = .hardReset ∨ (e = .regWrite (regBase + 0x04) 4 v ∧ v.getLsbD 0 = true)

/-- Hard and soft reset are one operation of the machine. -/
theorem step_reset {e : Event} {rest : List Event} (he : IsReset s.env.regBase e)
    (hev : s.env.events = e :: rest) : step s = .next (doReset (withEvents rest s)) := by
  obtain ⟨v, rfl | ⟨rfl, hsreset⟩⟩ := he
  · rw [step_of_event hev, happen]
  · rw [step_ctrlWrite hev, writeCtrl_sreset hsreset]

theorem doReset_of_not_busy (h : s.ctl.estate ≠ .busy) : doReset s = resetState s := by
  cases hs : s.ctl.estate with
  | busy => exact absurd hs h
  | idle => rw [doReset, hs]
  | fault => rw [doReset, hs]

theorem doReset_busy (h : s.ctl.estate = .busy) :
    doReset s = resetState
      { s with
        bus.mem := (passing (Config.abortPrefix s.env.freeCount) s).bus.mem
        env.freeCount := s.env.freeCount + 1 } := by
  rw [doReset, h]

/-- Whatever the engine was doing, a reset is `resetState` but for MEM and the count of free values,
and those change only where it aborts a command. -/
theorem doReset_eq_resetState (s : State) :
    ∃ mem n, doReset s = resetState { s with bus.mem := mem, env.freeCount := n } ∧
      (s.ctl.estate ≠ .busy → mem = s.bus.mem) := by
  by_cases hbusy : s.ctl.estate = .busy
  · exact ⟨_, _, doReset_busy hbusy, fun h => absurd hbusy h⟩
  · exact ⟨s.bus.mem, s.env.freeCount, doReset_of_not_busy hbusy, fun _ => rfl⟩

/-- Settles O22: either reset is `resetState`, whose values are those of R422 whatever the state, but
for the memory that an aborted command leaves; the command word left is the model's own. -/
theorem resetValues : Obligations.ResetValues := by
  unfold Obligations.ResetValues
  refine ⟨fun s e v rest he hev => ?_, rfl, rfl, rfl, rfl, rfl, rfl, rfl⟩
  obtain ⟨mem, n, hreset, hmem⟩ := doReset_eq_resetState (withEvents rest s)
  refine ⟨State.reset.ctl.cmd, mem, n, ?_, hmem⟩
  rw [step_reset ⟨v, he⟩ hev, hreset]
  rfl

end Sys2Proof.Machine
end

-- Decoding against encoding, and the statements of 30_encoding.md.
section
namespace Sys2Proof

/-! ### Fields and the words that hold them (30_encoding.md R111 to R123) -/

section

variable {w : Word} {i j : Instr}

/-- Two fields side by side, as a number. -/
theorem toNat_append_add {n m : Nat} (x : BitVec n) (y : BitVec m) :
    (x ++ y).toNat = x.toNat * 2 ^ m + y.toNat := by
  rw [BitVec.toNat_append, ← Nat.shiftLeft_add_eq_or_of_lt y.isLt, Nat.shiftLeft_eq]

theorem toNat_fieldBits (w : Word) (lo len : Nat) :
    (fieldBits w lo len).toNat = w.toNat / 2 ^ lo % 2 ^ len := by
  rw [fieldBits, BitVec.extractLsb'_toNat, Nat.shiftRight_eq_div_pow]

/-- A field is its low part, and the rest above it. -/
theorem fieldBits_add (w : Word) (lo a b : Nat) :
    fieldBits w lo (b + a) = fieldBits w (lo + a) b ++ fieldBits w lo a := by
  apply BitVec.eq_of_toNat_eq
  rw [toNat_append_add, toNat_fieldBits, toNat_fieldBits, toNat_fieldBits, Nat.pow_add,
    Nat.pow_add, ← Nat.div_div_eq_div_mul, Nat.mul_comm (2 ^ b), Nat.mod_mul]
  ring

/-- A one-bit field is the flag at its place. -/
theorem fieldBits_one (w : Word) (lo : Nat) : fieldBits w lo 1 = flagBit (fieldBit w lo) := by
  apply BitVec.eq_of_toNat_eq
  rw [toNat_fieldBits, flagBit, fieldBit, BitVec.getLsbD, Nat.testBit_eq_decide_div_mod_eq,
    BitVec.toNat_ofBool]
  have : w.toNat / 2 ^ lo % 2 < 2 := Nat.mod_lt _ (by decide)
  by_cases h : w.toNat / 2 ^ lo % 2 = 1
  · simp [h]
  · have : w.toNat / 2 ^ lo % 2 = 0 := by omega
    simp [this]

theorem bit_decodeMode (b : Bool) : (decodeMode b).bit = flagBit b := by cases b <;> rfl

theorem bit_decodeClass (b : Bool) : (decodeClass b).bit = flagBit b := by cases b <;> rfl

/-- A word is its fields above its opcode (30_encoding.md R110, R111). -/
theorem fields_append_opcodeOf (w : Word) : (fieldBits w 8 24 ++ opcodeOf w : Word) = w := by
  rw [opcodeOf, ← fieldBits_add w 0 8 24, fieldBits, BitVec.extractLsb'_eq_self]

/-- Where no reserved bit is set, the bits above OP are the format's `k` bits of fields, above them
zeros (30_encoding.md R127). -/
theorem withoutReserved_ok {r k : Nat} (hrk : r + k = 24)
    (h : withoutReserved w (8 + k) i = .ok j) :
    i = j ∧ ∀ x : BitVec k, x = fieldBits w 8 k → (0#r ++ x).cast hrk = fieldBits w 8 24 := by
  rw [withoutReserved] at h
  split at h
  · rename_i hz
    have hlt : w.toNat / 2 ^ 8 < 2 ^ k := by
      rw [Nat.pow_add, ← Nat.div_div_eq_div_mul] at hz
      exact (Nat.div_eq_zero_iff_lt (Nat.two_pow_pos k)).mp hz
    have hlt24 : w.toNat / 2 ^ 8 < 2 ^ 24 :=
      Nat.lt_of_lt_of_le hlt (Nat.pow_le_pow_right (by decide) (by omega))
    refine ⟨Except.ok.inj h, fun x hx => BitVec.eq_of_toNat_eq ?_⟩
    rw [BitVec.toNat_cast, toNat_append_add, hx, toNat_fieldBits, toNat_fieldBits,
      Nat.mod_eq_of_lt hlt, Nat.mod_eq_of_lt hlt24, BitVec.toNat_ofNat, Nat.zero_mod, Nat.zero_mul,
      Nat.zero_add]
  · cases h

/-- The fields and the opcode of the word that a command was decoded from are the command's. -/
theorem encodeFields_of_decode (h : decode w = .ok i) :
    encodeFields i = fieldBits w 8 24 ∧ (opcode i).toNat = (opcodeOf w).toNat := by
  rw [decode] at h
  split at h
  case h_22 => cases h
  all_goals
    rename_i hop
    rw [hop]
  case h_1 | h_5 | h_11 | h_17 | h_18 | h_19 | h_20 =>
    obtain ⟨rfl, hf⟩ := withoutReserved_ok (r := 24) (k := 0) rfl h
    exact ⟨hf 0 (BitVec.of_length_zero).symm, rfl⟩
  case h_2 | h_12 =>
    obtain ⟨rfl, hf⟩ := withoutReserved_ok (r := 23) (k := 1) rfl h
    exact ⟨hf _ (by simp only [fieldBits_one, bit_decodeMode]), rfl⟩
  case h_3 | h_4 | h_15 =>
    obtain ⟨rfl, hf⟩ := withoutReserved_ok (r := 19) (k := 5) rfl h
    exact ⟨hf _ rfl, rfl⟩
  case h_7 | h_9 =>
    obtain ⟨rfl, hf⟩ := withoutReserved_ok (r := 22) (k := 2) rfl h
    exact ⟨hf _ rfl, rfl⟩
  case h_6 =>
    obtain ⟨rfl, hf⟩ := withoutReserved_ok (r := 20) (k := 4) rfl h
    exact ⟨hf _ (by rw [fieldBits_add w 8 3 1, fieldBits_one]), rfl⟩
  case h_8 | h_10 =>
    obtain ⟨rfl, hf⟩ := withoutReserved_ok (r := 21) (k := 3) rfl h
    exact ⟨hf _ (by rw [fieldBits_add w 8 1 2, fieldBits_one, bit_decodeClass]), rfl⟩
  case h_13 =>
    obtain ⟨rfl, hf⟩ := withoutReserved_ok (r := 18) (k := 6) rfl h
    exact ⟨hf _ (by
      rw [fieldBits_add w 8 5 1, fieldBits_add w 8 4 1, fieldBits_add w 8 3 1, fieldBits_one,
        fieldBits_one, fieldBits_one]), rfl⟩
  case h_14 =>
    obtain ⟨rfl, hf⟩ := withoutReserved_ok (r := 21) (k := 3) rfl h
    exact ⟨hf _ (by rw [fieldBits_add w 8 2 1, fieldBits_one]), rfl⟩
  case h_16 =>
    obtain ⟨rfl, hf⟩ := withoutReserved_ok (r := 18) (k := 6) rfl h
    exact ⟨hf _ (by rw [fieldBits_add w 8 4 2, fieldBits_add w 8 2 2]), rfl⟩
  case h_21 =>
    obtain ⟨rfl, hf⟩ := withoutReserved_ok (r := 21) (k := 3) rfl h
    exact ⟨hf _ (by rw [fieldBits_add w 8 1 2, fieldBits_one]), rfl⟩

theorem encode_of_decode (h : decode w = .ok i) : encode i = w := by
  obtain ⟨hfields, hop⟩ := encodeFields_of_decode h
  rw [encode, hfields, BitVec.eq_of_toNat_eq hop, fields_append_opcodeOf]

end

/-- Every field has at most 6 bits, so each format has at most 64 words. -/
theorem decode_encode (i : Instr) : decode (encode i) = .ok i := by
  cases i with
  | nop | brAlign | zHeader | jReset | jRestart | coefLoad | coefStore => rfl
  | brInit mode => cases mode <;> rfl
  | brGetbits n => revert n; decide
  | brPeekbits n => revert n; decide
  | jReceive n => revert n; decide
  | brReadbytes sz chk => revert sz chk; decide
  | hbZlib tid => revert tid; decide
  | hdZlib tid => revert tid; decide
  | hbJpeg cls idx => cases cls <;> revert idx <;> decide
  | hdJpeg cls idx => cases cls <;> revert idx <;> decide
  | inflate stepMode => cases stepMode <;> rfl
  | pngUnfilter bppm1 first alpha a16 => revert bppm1 first alpha a16; decide
  | qtLoad idx p16 => revert idx p16; decide
  | jDecodeBlock dct act comp => revert dct act comp; decide
  | idct deq qidx => revert deq qidx; decide

/-- Settles O1: a command is found in its word format by format, and the word that a command was
decoded from is put together again from its fields. -/
theorem decodeInvertsEncode : Obligations.DecodeInvertsEncode := by
  unfold Obligations.DecodeInvertsEncode
  exact ⟨decode_encode, fun _ _ => encode_of_decode⟩

/-- Settles O2: each example word is the encoding of its command. -/
theorem spelledWordsDecode : Obligations.SpelledWordsDecode := by
  unfold Obligations.SpelledWordsDecode
  exact ⟨rfl, rfl, rfl, rfl, rfl, rfl, rfl, rfl, rfl, rfl, rfl, rfl, rfl, rfl, rfl, rfl, rfl, rfl,
    rfl, rfl, rfl⟩

end Sys2Proof
end

-- The engine's turn, the register file, and the host's accesses to MEM.
section
namespace Sys2Proof.Machine

open Sys2Proof

variable {s : State} {rest : List Event} {off : Nat} {v : Word}

/-! ### The engine's turn and the reset state -/

/-- Settles O5: by the engine's state and by what is scheduled. -/
theorem stepRunsDecodedCommand : Obligations.StepRunsDecodedCommand := by
  unfold Obligations.StepRunsDecodedCommand
  intro s rest i
  have hturn {u : State} (hb : u.ctl.estate ≠ .busy) : engineTurn u = .next u := by
    rw [engineTurn]
    cases he : u.ctl.estate with
    | busy => exact absurd he hb
    | idle => rfl
    | fault => rfl
  refine ⟨fun hb hdec => ⟨fun hev => step_busy_ok hb hev hdec, fun hev => ?_⟩,
    fun hb => ⟨fun hev => ?_, fun hev => ?_⟩⟩
  · rw [step_of_event hev, happen, engineTurn_busy (s := withEvents rest s) hb]
    exact runLatched_ok (s := withEvents rest s) hdec
  · rw [step_of_unscheduled hev, hturn hb]
  · rw [step_of_event hev, happen]
    exact hturn (u := withEvents rest s) hb

/-- Settles O14: each part of the invariant of a fixed state. -/
theorem resetMeetsInvariant : Obligations.ResetMeetsInvariant := by
  unfold Obligations.ResetMeetsInvariant
  decide

/-! ### Register writes (10_state.md R35, R44, R52, R53) -/

theorem unlessBusy_of_not_busy {t : State} (h : s.ctl.estate ≠ .busy) : unlessBusy t s = t := by
  rw [unlessBusy, if_neg h]

theorem unlessBusy_of_busy {t : State} (h : s.ctl.estate = .busy) :
    unlessBusy t s = dropWrite s := by
  rw [unlessBusy, if_pos h]

theorem regRead_of_not_busy (h : s.ctl.estate ≠ .busy) :
    regRead off s = { s with env := { s.env with hostData := regValue off s } } := by
  rw [regRead]
  cases he : s.ctl.estate with
  | busy => exact absurd he h
  | idle => rfl
  | fault => rfl

/-- Settles O16: register by register; a write outside BUSY is the register's own assignment, one in
BUSY is dropped, and a read-only offset is none that a write acts on. -/
theorem registerWrites : Obligations.RegisterWrites := by
  unfold Obligations.RegisterWrites
  intro s t off v rest hev
  refine ⟨fun hidle hmem => ?_, fun hmem => ?_, fun hbusy hmem => ?_⟩
  · have hw : (withEvents rest s).ctl.estate ≠ .busy := hidle
    simp only [List.mem_cons, Prod.mk.injEq, List.not_mem_nil, or_false] at hmem
    rcases hmem with ⟨rfl, rfl⟩ | ⟨rfl, rfl⟩ | ⟨rfl, rfl⟩ | ⟨rfl, rfl⟩ | ⟨rfl, rfl⟩ | ⟨rfl, rfl⟩ |
        ⟨rfl, rfl⟩ | ⟨rfl, rfl⟩ | ⟨rfl, rfl⟩ | ⟨rfl, rfl⟩ | ⟨rfl, rfl⟩ | ⟨rfl, rfl⟩ | ⟨rfl, rfl⟩ |
        ⟨rfl, rfl⟩ <;>
      rw [step_regWrite (by decide) (by decide) hev, regWrite, unlessBusy_of_not_busy hw] <;> rfl
  · simp only [List.mem_cons, List.not_mem_nil, or_false] at hmem
    rcases hmem with rfl | rfl | rfl | rfl | rfl | rfl | rfl | rfl | rfl | rfl <;>
      rw [step_regWrite (by decide) (by decide) hev] <;> rfl
  · have hw : (withEvents rest s).ctl.estate = .busy := hbusy
    rw [List.mem_cons] at hmem
    rcases hmem with rfl | hmem
    · rw [step_cmdWrite hev, writeCmd_of_not_idle (by rw [hw]; decide)]
      rfl
    · simp only [List.mem_cons, List.not_mem_nil, or_false] at hmem
      rcases hmem with rfl | rfl | rfl | rfl | rfl | rfl | rfl | rfl | rfl | rfl | rfl | rfl | rfl |
          rfl <;>
        rw [step_regWrite (by decide) (by decide) hev, regWrite, unlessBusy_of_busy hw] <;> rfl

/-! ### Reserved offsets and forms of access (10_state.md R51, R54) -/

theorem regOffset_of_form {size : Nat} (hlt : off < blockBytes) (h : size ≠ 4 ∨ off % 4 ≠ 0) :
    regOffset (s.env.regBase + off) size s =
      .error (.hostAccessForm (s.env.regBase + off) size) := by
  have hin : ¬(s.env.regBase + off < s.env.regBase ∨
      s.env.regBase + blockBytes ≤ s.env.regBase + off) := by omega
  rw [regOffset, if_neg hin, Nat.add_sub_cancel_left, if_pos h]

theorem regOffset_of_outside {size : Nat} (h : blockBytes ≤ off) :
    regOffset (s.env.regBase + off) size s = .error (.hostOutsideBlock (s.env.regBase + off)) := by
  rw [regOffset, if_pos (by omega)]

/-- An access whose form or place is refused, a write or a read, is refused as a step. -/
theorem step_regAccess_refused {size : Nat} {r : Refusal}
    (h : regOffset (s.env.regBase + off) size (withEvents rest s) = .error r) :
    (s.env.events = .regWrite (s.env.regBase + off) size v :: rest → step s = .refused r) ∧
      (s.env.events = .regRead (s.env.regBase + off) size :: rest → step s = .refused r) :=
  ⟨fun hev => by rw [step_of_event hev, happen, hostRegWrite, h],
    fun hev => by rw [step_of_event hev, happen, hostRegRead, h]⟩

/-- The offsets past the last register, and what the register file has there. -/
theorem reserved_register (h1 : 0x6C ≤ off) (h2 : off < 0x100) (h4 : off % 4 = 0) (u : State) :
    regWrite off v u = u ∧ regValue off u = 0 ∧ drawMask off = 0 := by
  obtain ⟨k, rfl, hk⟩ : ∃ k, off = 0x6C + 4 * k ∧ k < 37 := ⟨(off - 0x6C) / 4, by omega, by omega⟩
  interval_cases k <;> exact ⟨rfl, rfl, rfl⟩

/-- Settles O20: by the offset, what the register file has there or how the access is refused. -/
theorem reservedOffsetsAndForms : Obligations.ReservedOffsetsAndForms := by
  unfold Obligations.ReservedOffsetsAndForms
  intro s off size v rest
  refine ⟨fun h1 h2 h4 => ?_, fun hlt hform => ?_, fun hout => ?_⟩
  · obtain ⟨hwrite, hvalue, hmask⟩ := reserved_register (v := v) h1 h2 h4 (withEvents rest s)
    refine ⟨fun hev => ?_, fun hev => ?_⟩
    · rw [step_regWrite h2 h4 hev, hwrite]
      rfl
    · obtain ⟨n, hread⟩ := regRead_of_undrawn (s := withEvents rest s) hmask
      exact ⟨n, by rw [step_regRead h2 h4 hev, hread, hvalue]; rfl⟩
  · exact step_regAccess_refused (regOffset_of_form (s := withEvents rest s) hlt hform)
  · exact step_regAccess_refused (regOffset_of_outside (s := withEvents rest s) hout)

/-! ### The composed words bit by bit (10_state.md R35 to R49) -/

theorem getLsbD_bitAt (b : Bool) (i j : Nat) :
    (bitAt b i).getLsbD j = (decide (j < 32) && (decide (i = j) && b)) := by
  cases b with
  | false => simp [bitAt]
  | true => rw [bitAt, if_pos rfl, Word.ofNat, BitVec.getLsbD_ofNat, Nat.testBit_two_pow, Bool.and_true]

theorem getLsbD_fieldAt (n i j : Nat) :
    (fieldAt n i).getLsbD j = (decide (j < 32) && (decide (i ≤ j) && n.testBit (j - i))) := by
  rw [fieldAt, Word.ofNat, BitVec.getLsbD_ofNat, Nat.testBit_mul_two_pow]

theorem getLsbD_ofBool (b : Bool) (j : Nat) :
    (BitVec.ofBool b).getLsbD j = (decide (j = 0) && b) := by
  cases b <;> cases j <;> simp

theorem statusWord_eq (s : State) :
    statusWord s =
      0#22 ++ (s.out.zbtype ++ (BitVec.ofBool s.out.zfinal ++ (BitVec.ofBool s.rd.nomore ++
        (BitVec.ofBool s.rd.ovr ++ (BitVec.ofBool s.rd.eof ++
          (BitVec.ofBool (s.rd.mode == .msb) ++ (BitVec.ofBool s.ctl.drop ++
            (BitVec.ofBool (s.ctl.estate == .fault) ++
              BitVec.ofBool (s.ctl.estate == .busy))))))))) := by
  have hmode : modeBit s.rd.mode = (s.rd.mode == .msb) := by cases s.rd.mode <;> rfl
  rw [statusWord, statusControl, statusReader, hmode]
  apply BitVec.eq_of_getLsbD_eq
  intro j hj
  simp only [BitVec.getLsbD_or, getLsbD_bitAt, getLsbD_fieldAt, BitVec.getLsbD_append,
    getLsbD_ofBool, BitVec.testBit_toNat]
  interval_cases j <;> simp

theorem irqWord_eq (s : State) :
    irqWord s = 0#30 ++ (BitVec.ofBool s.ctl.irqErr ++ BitVec.ofBool s.ctl.irqDone) := by
  rw [irqWord]
  cases s.ctl.irqErr <;> cases s.ctl.irqDone <;> rfl

theorem errWord_eq (s : State) : errWord s = 0#16 ++ (s.ctl.errOp ++ s.ctl.errCode) := by
  rw [errWord]
  apply BitVec.eq_of_getLsbD_eq
  intro j hj
  simp only [BitVec.getLsbD_or, getLsbD_fieldAt, BitVec.getLsbD_append, BitVec.testBit_toNat]
  interval_cases j <;> simp

theorem brCntWord_eq (s : State) :
    brCntWord s = 0#18 ++ (BitVec.ofNat 6 s.rd.padbits ++ (0#2 ++ BitVec.ofNat 6 s.rd.bitcnt)) := by
  have hmod (n : Nat) : n % 64 = (BitVec.ofNat 6 n).toNat := (BitVec.toNat_ofNat n 6).symm
  rw [brCntWord, hmod, hmod]
  apply BitVec.eq_of_getLsbD_eq
  intro j hj
  simp only [BitVec.getLsbD_or, getLsbD_fieldAt, BitVec.getLsbD_append, BitVec.testBit_toNat]
  interval_cases j <;> simp

theorem tvalidWord_eq (s : State) :
    tvalidWord s =
      0#16 ++ (BitVec.ofBool s.tab.qt[3].isSome ++ (BitVec.ofBool s.tab.qt[2].isSome ++
        (BitVec.ofBool s.tab.qt[1].isSome ++ (BitVec.ofBool s.tab.qt[0].isSome ++
        (BitVec.ofBool s.tab.jac[3].isSome ++ (BitVec.ofBool s.tab.jac[2].isSome ++
        (BitVec.ofBool s.tab.jac[1].isSome ++ (BitVec.ofBool s.tab.jac[0].isSome ++
        (BitVec.ofBool s.tab.jdc[3].isSome ++ (BitVec.ofBool s.tab.jdc[2].isSome ++
        (BitVec.ofBool s.tab.jdc[1].isSome ++ (BitVec.ofBool s.tab.jdc[0].isSome ++
        (0#1 ++ (BitVec.ofBool s.tab.zt[2].isSome ++ (BitVec.ofBool s.tab.zt[1].isSome ++
          BitVec.ofBool s.tab.zt[0].isSome))))))))))))))) := by
  rw [tvalidWord]
  apply BitVec.eq_of_getLsbD_eq
  intro j hj
  simp only [BitVec.getLsbD_or, getLsbD_bitAt, BitVec.getLsbD_append, getLsbD_ofBool]
  interval_cases j <;> simp [zValid, jValid, qValid, jTables]

/-- Settles O18: a read outside BUSY shows `regValue`, and of that the composed words are those of the
register map. -/
theorem registerReads : Obligations.RegisterReads := by
  unfold Obligations.RegisterReads
  intro s off v rest hidle _ _ hmem hev
  suffices h : off < blockBytes ∧ off % 4 = 0 ∧ regValue off (withEvents rest s) = v by
    obtain ⟨hlt, h4, hvalue⟩ := h
    rw [step_regRead hlt h4 hev, regRead_of_not_busy (s := withEvents rest s) hidle, hvalue]
    rfl
  simp only [List.mem_cons, Prod.mk.injEq, List.not_mem_nil, or_false] at hmem
  rcases hmem with ⟨rfl, rfl⟩ | ⟨rfl, rfl⟩ | ⟨rfl, rfl⟩ | hmem
  · exact ⟨by decide, rfl, rfl⟩
  · exact ⟨by decide, rfl, statusWord_eq _⟩
  · exact ⟨by decide, rfl, irqWord_eq _⟩
  rcases hmem with ⟨rfl, rfl⟩ | ⟨rfl, rfl⟩ | ⟨rfl, rfl⟩ | ⟨rfl, rfl⟩ | ⟨rfl, rfl⟩ | hmem
  iterate 5 exact ⟨by decide, rfl, rfl⟩
  rcases hmem with ⟨rfl, rfl⟩ | ⟨rfl, rfl⟩ | ⟨rfl, rfl⟩ | ⟨rfl, rfl⟩ | ⟨rfl, rfl⟩ | ⟨rfl, rfl⟩ |
    ⟨rfl, rfl⟩ | hmem
  · exact ⟨by decide, rfl, errWord_eq _⟩
  iterate 5 exact ⟨by decide, rfl, rfl⟩
  · exact ⟨by decide, rfl, brCntWord_eq _⟩
  rcases hmem with ⟨rfl, rfl⟩ | ⟨rfl, rfl⟩ | ⟨rfl, rfl⟩ | ⟨rfl, rfl⟩ | ⟨rfl, rfl⟩ | ⟨rfl, rfl⟩ |
    ⟨rfl, rfl⟩ | ⟨rfl, rfl⟩ | ⟨rfl, rfl⟩ | ⟨rfl, rfl⟩
  · exact ⟨by decide, rfl, filterType_word _⟩
  iterate 7 exact ⟨by decide, rfl, rfl⟩
  · exact ⟨by decide, rfl, tvalidWord_eq _⟩
  · exact ⟨by decide, rfl, rfl⟩

/-! ### The host's accesses to MEM (20_memory.md R81, R93) -/

section

variable {i : Instr} {a : Nat}

theorem inRegion_eq_within (a lo len : Nat) : inRegion a ⟨lo, len⟩ = within a lo len := rfl

theorem within_zero (a lo : Nat) : within a lo 0 = false := by
  simp only [within, Nat.add_zero, Bool.and_eq_false_iff, decide_eq_false_iff_not]
  omega

/-- The model's write regions are the bytes that the spec's table gives a command. -/
theorem inRegions_writeRegions (i : Instr) (s : State) (a : Nat) :
    inRegions a (writeRegions i s) = storedTo i s a := by
  cases i with
  | inflate _ | coefStore => simp [inRegions, writeRegions, storedTo, inRegion_eq_within]
  | pngUnfilter bppm1 first alpha a16 =>
    simp [inRegions, writeRegions, storedTo, rowRegion, rowJob, inRegion_eq_within,
      outputRow_eq_rowLen]
  | idct _ _ =>
    simp [inRegions, writeRegions, storedTo, eight_eq_range, List.any_map, Function.comp_def,
      inRegion_eq_within]
  | _ => rfl

/-- So are its read regions. -/
theorem inRegions_readRegions (i : Instr) (s : State) (a : Nat) :
    inRegions a (readRegions i s) = loadedFrom i s a := by
  cases i with
  | pngUnfilter bppm1 first alpha a16 =>
    cases first <;>
      simp [inRegions, readRegions, loadedFrom, rawRegion, priorRegion, rowJob, inRegion_eq_within,
        outputRow_eq_rowLen, within_zero]
  | inflate _ => simp [inRegions, readRegions, loadedFrom, inputRegion, inRegion_eq_within]
  | nop | brInit _ | jReset | coefStore | idct _ _ => rfl
  | _ => exact Bool.or_false _

theorem latched_of_decode (h : decode s.ctl.cmd = .ok i) : latched s = some i := by
  rw [latched, h]
  rfl

theorem engineReads_busy (hb : s.ctl.estate = .busy) (h : decode s.ctl.cmd = .ok i) :
    engineReads a s = loadedFrom i s a := by
  rw [engineReads, hb, latched_of_decode h]
  exact inRegions_readRegions i s a

theorem engineWrites_busy (hb : s.ctl.estate = .busy) (h : decode s.ctl.cmd = .ok i) :
    engineWrites a s = storedTo i s a := by
  rw [engineWrites, hb, latched_of_decode h]
  exact inRegions_writeRegions i s a

theorem storedTo_withEvents : storedTo i (withEvents rest s) a = storedTo i s a := by
  cases i <;> rfl

theorem loadedFrom_withEvents : loadedFrom i (withEvents rest s) a = loadedFrom i s a := by
  cases i <;> rfl

end

/-- Settles O21: the model's regions are the spec's, so an access of a mapped byte is refused exactly
where it races. -/
theorem racingAccessRefused : Obligations.RacingAccessRefused := by
  unfold Obligations.RacingAccessRefused
  intro s i a v rest hbusy hdec hmap
  have hreads := engineReads_busy (s := withEvents rest s) (a := a) hbusy hdec
  have hwrites := engineWrites_busy (s := withEvents rest s) (a := a) hbusy hdec
  rw [loadedFrom_withEvents] at hreads
  rw [storedTo_withEvents] at hwrites
  have hmap' : inMap (withEvents rest s).bus.holes a = true := hmap
  refine ⟨fun hev => ⟨fun hrace => ?_, fun hst hld => ?_⟩, fun hev => ⟨fun hrace => ?_, fun hst => ?_⟩⟩
  · have hor : (loadedFrom i s a || storedTo i s a) = true := by
      rcases hrace with h | h <;> simp [h]
    rw [step_of_event hev, happen, hostMemWrite, hmap', hreads, hwrites, hor]
    rfl
  · rw [step_of_event hev, happen, hostMemWrite, hmap', hreads, hwrites, hst, hld]
    rfl
  · rw [step_of_event hev, happen, hostMemRead, hmap', hwrites, hrace]
    rfl
  · rw [step_of_event hev, happen, hostMemRead, hmap', hwrites, hst]
    exact congrArg (fun w => Host.Outcome.next { s with env := { s.env with events := rest, hostData := w } })
      (filterType_word _)

end Sys2Proof.Machine
end

-- What every command's pseudocode keeps, by the parts that the command is made of.
section
namespace Sys2Proof.Machine

open Sys2Proof

/-! ### Properties that sequencing keeps -/

section

variable {α β : Type}

/-- The pseudocode can answer `x`. -/
def Answers (act : Engine α) (x : α) : Prop := ∃ r q, act r = .ok x q

/-- The state with other control registers. -/
def withCtl (c : Control) (s : State) : State := { s with ctl := c }

/-- A property of pseudocode that its sequencing keeps: a continuation is met only with an answer that
the first piece can give; a state that is looked at meets `S`, and of its control registers only the
latched word is looked at. -/
structure Steady (S : State → Prop) (P : ∀ α : Type, Engine α → Prop) : Prop where
  pure : ∀ {α : Type} (x : α), P α (Pure.pure x)
  raise : ∀ {α : Type} (code : FaultCode) (info : Word), P α (raise code info)
  bind : ∀ {α β : Type} {act : Engine α} {f : α → Engine β}, P α act →
    (∀ x, Answers act x → P β (f x)) → P β (act >>= f)
  look : ∀ {β : Type} {f : State → Engine β}, (∀ s, S s → P β (f s)) →
    (unseen : ∀ c s, c.cmd = s.ctl.cmd → f (withCtl c s) = f s := by exact fun _ _ _ => rfl) →
    P β (look >>= f)

theorem bind_assoc_run {γ : Type} (act : Engine α) (f : α → Engine β) (g : β → Engine γ) :
    (act >>= f >>= g) = (act >>= fun x => f x >>= g) := by
  funext r
  simp only [bind_run]
  cases act r <;> rfl

theorem pure_bind_run (x : α) (f : α → Engine β) : (pure x >>= f) = f x := by
  funext r
  rw [bind_run, pure_run]

/-- An answer of a sequence comes from an answer of its first piece. -/
theorem answers_bind {act : Engine α} {f : α → Engine β} {y : β} (h : Answers (act >>= f) y) :
    ∃ x, Answers act x ∧ Answers (f x) y := by
  obtain ⟨r, u, h⟩ := h
  obtain ⟨x, q, h1, h2⟩ := bind_eq_ok h
  exact ⟨x, ⟨r, q, h1⟩, q, u, h2⟩

theorem answers_pure {x y : α} (h : Answers (pure x : Engine α) y) : y = x := by
  obtain ⟨r, q, h⟩ := h
  cases h
  rfl

theorem not_answers_raise {code : FaultCode} {info : Word} {x : α} :
    ¬ Answers (raise code info : Engine α) x := fun ⟨_, _, h⟩ => nomatch h

theorem answers_needLegal {legal : Bool} {x : Unit} (h : Answers (needLegal legal) x) :
    legal = true := by
  obtain ⟨r, q, h⟩ := h
  rw [needLegal_run] at h
  split at h
  · assumption
  · cases h

theorem answers_readBytes {n a : Nat} {bs : List Byte} (h : Answers (readBytes n a) bs) :
    bs.length = n := by
  induction n generalizing a bs with
  | zero => rw [answers_pure h]; rfl
  | succ n ih =>
    obtain ⟨b, -, h⟩ := answers_bind h
    obtain ⟨rest, hrest, h⟩ := answers_bind h
    rw [answers_pure h, List.length_cons, ih hrest]

variable {S : State → Prop} {P : ∀ α : Type, Engine α → Prop} (hP : Steady S P)

include hP

theorem steady_seq {act : Engine α} {f : α → Engine β} (h : P _ act) (h' : ∀ x, P _ (f x)) :
    P _ (act >>= f) := hP.bind h fun x _ => h' x

theorem steady_guard {c : Prop} [Decidable c] {code : FaultCode} {info : Word}
    {rest : Unit → Engine α} (h : ¬ c → P _ (rest ())) :
    P _ (if c then raise code info >>= rest else rest ()) := by
  split
  · exact hP.bind (hP.raise _ _) fun _ hx => absurd hx not_answers_raise
  · exact h ‹_›

theorem steady_raiseEof : P _ (raiseEof : Engine α) := hP.look fun _ _ => hP.raise _ _

theorem steady_guardEof {c : Prop} [Decidable c] {rest : Unit → Engine α} (h : P _ (rest ())) :
    P _ (if c then raiseEof >>= rest else rest ()) := by
  split
  · exact steady_seq hP (steady_raiseEof hP) fun _ => h
  · exact h

theorem steady_needLegal {legal : Bool} {f : Unit → Engine α} (h : legal = true → P _ (f ())) :
    P _ (needLegal legal >>= f) :=
  have hword : ∀ c s, c.cmd = s.ctl.cmd → (withCtl c s).ctl.cmd = s.ctl.cmd := fun _ _ hc => hc
  hP.bind (hP.look (fun _ _ => closed_ite (hP.pure _) (hP.raise _ _))
    fun c s hc => by rw [hword c s hc]) fun _ hx => h (answers_needLegal hx)

theorem steady_needMode (m : Mode) : P _ (needMode m) :=
  hP.look fun _ _ => closed_ite (hP.pure _) (hP.raise _ _)

theorem steady_needTable (valid : Bool) (bit : Nat) : P _ (needTable valid bit) :=
  closed_ite (hP.pure _) (hP.raise _ _)

theorem steady_needRange (r : Region) : P _ (needRange r) := closed_ite (hP.pure _) (hP.raise _ _)

theorem steady_needInput : P _ needInput := hP.look fun _ _ => steady_needRange hP _

theorem steady_needApart (output other : Region) : P _ (needApart output other) :=
  closed_ite (hP.raise _ _) (hP.pure _)

theorem steady_needBus (a : Nat) : P _ (needBus a) :=
  hP.look fun _ _ => closed_ite (hP.pure _) (hP.raise _ _)

theorem steady_memRead (a : Nat) : P _ (memRead a) :=
  steady_seq hP (steady_needBus hP a) fun _ => hP.look fun _ _ => hP.pure _

theorem steady_readBytes (n a : Nat) : P _ (readBytes n a) := by
  induction n generalizing a with
  | zero => exact hP.pure _
  | succ n ih =>
    exact steady_seq hP (steady_memRead hP a) fun _ => steady_seq hP (ih _) fun _ => hP.pure _

theorem steady_writeBytes (h : ∀ a v, P _ (memWrite a v)) (bs : List Byte) (a : Nat) :
    P _ (writeBytes bs a) := by
  induction bs generalizing a with
  | nil => exact hP.pure _
  | cons b bs ih => exact steady_seq hP (h a b) fun _ => ih _

end

/-! ### The reader's pieces, and a command made of parts -/

/-- The pieces that read the input. -/
structure ReaderParts (S : State → Prop) (P : ∀ α : Type, Engine α → Prop) : Prop where
  need : ∀ n, P _ (need n)
  fill : P _ fill
  take : ∀ n, n ≤ 16 → P _ (Machine.need n >>= fun _ => consume n)
  align : ∀ {β : Type} {g : State → Nat × Bool → Engine β}, (∀ s x, S s → P _ (g s x)) →
    (unseen : ∀ c s x, c.cmd = s.ctl.cmd → g (withCtl c s) x = g s x := by
      exact fun _ _ _ _ => rfl) →
    P _ (look >>= fun s => consume (s.rd.bitcnt % 8) >>= g s)
  alignedByte : P _ readAlignedByte
  zDecode : ∀ t, P _ (zDecode t)
  jDecode : ∀ c i, P _ (jDecode c i)

theorem align_unseen {β : Type} {g : State → Nat × Bool → Engine β}
    (h : ∀ c s x, c.cmd = s.ctl.cmd → g (withCtl c s) x = g s x) (c : Control) (s : State)
    (hc : c.cmd = s.ctl.cmd) :
    (consume ((withCtl c s).rd.bitcnt % 8) >>= g (withCtl c s)) =
      (consume (s.rd.bitcnt % 8) >>= g s) :=
  congrArg (consume (s.rd.bitcnt % 8) >>= ·) (funext fun x => h c s x hc)

/-- The commands that read the input (30_encoding.md R125). -/
def readsInput : Instr → Bool
  | .nop | .brInit _ | .hbZlib _ | .hbJpeg _ _ | .pngUnfilter _ _ _ _ | .qtLoad _ _ | .jReset
  | .coefLoad | .coefStore | .idct _ _ => false
  | _ => true

/-- The parts that a command is made of, each with what the pseudocode guarantees of its operands. -/
structure Parts (i : Instr) (S : State → Prop) (P : ∀ α : Type, Engine α → Prop) : Prop where
  reader : readsInput i = true → ReaderParts S P
  initSteps : ∀ m, i = .brInit m → P _ (assignAll (initSteps m))
  entropySteps : i = .jReset ∨ i = .jRestart → P _ (assignAll entropySteps)
  dropZTable : ∀ tid t, i = .hbZlib tid → P _ (dropZTable t)
  installZTable : ∀ tid t lens, i = .hbZlib tid → lens.length = zMaxSym t →
    P _ (installZTable t lens)
  dropJTable : ∀ cls idx, i = .hbJpeg cls idx → P _ (assign (setJTable cls (sel4 idx) none))
  installJTable : ∀ cls idx bits vals, i = .hbJpeg cls idx → bits.length = 16 → bits.sum ≤ jMaxSym →
    vals.length = bits.sum → P _ (installJTable cls (sel4 idx) bits vals)
  setQTable : ∀ idx p16 x, i = .qtLoad idx p16 → P _ (assign (setQTable (sel4 idx) x))
  clearCoefs : ∀ dct act comp, i = .jDecodeBlock dct act comp → P _ (assign clearCoefs)
  addDc : ∀ dct act comp d, i = .jDecodeBlock dct act comp → P _ (assign (addDc (sel4 comp) d))
  setCoef : ∀ dct act comp k v, i = .jDecodeBlock dct act comp → P _ (assign (setCoef k v))
  loadCoef : ∀ base k, i = .coefLoad → P _ (assign (loadCoef base k))
  coefStore : ∀ s, i = .coefStore → S s → P _ (writeBytes (coefBytes s) s.args.arg0.toNat)
  idct : ∀ deq qidx s, i = .idct deq qidx → S s →
    P _ (writeRows s.args.arg1.toNat (idctPixels (idctInput s (dequantTable deq qidx s)))
      s.args.arg0.toNat)
  unfilter : ∀ bppm1 first alpha a16 s, i = .pngUnfilter bppm1 first alpha a16 → S s →
    rowLengthLegal alpha (bytesPerPixel bppm1) s.args.arg3.toNat = true →
    P _ (unfilterRow (rowJob bppm1 first alpha a16 s))
  inflate : ∀ stepMode s, i = .inflate stepMode → S s → P _ (inflateBlocks stepMode (bitBound s) 0)

theorem length_padLengths {m : Nat} {lens : List Nat} (h : lens.length ≤ m) :
    (padLengths m lens).length = m := by
  rw [padLengths, List.length_append, List.length_replicate]
  omega

section

variable {S : State → Prop} {P : ∀ α : Type, Engine α → Prop} (hP : Steady S P)

include hP

theorem steady_receive (hr : ReaderParts S P) {n : Nat} (hn : n ≤ 16) : P _ (receive n) := by
  refine closed_ite (hP.pure _) ?_
  have h : P _ ((need n >>= fun _ => consume n) >>= fun x => pure (extend x.1 n)) :=
    steady_seq hP (hr.take n hn) fun _ => hP.pure _
  rw [bind_assoc_run] at h
  exact h

theorem steady_readBytesBE (hr : ReaderParts S P) (n v : Nat) : P _ (readBytesBE n v) := by
  induction n generalizing v with
  | zero => exact hP.pure _
  | succ n ih => exact steady_seq hP hr.alignedByte fun _ => ih _

theorem steady_quantEntries (p16 : Bool) (base left : Nat) (tbl : Vector Half 64) :
    P _ (quantEntries p16 base left tbl) := by
  induction left generalizing tbl with
  | zero => exact hP.pure _
  | succ n ih =>
    refine steady_seq hP (closed_ite ?_ ?_) fun _ => ih _
    · exact steady_seq hP (steady_memRead hP _) fun _ =>
        steady_seq hP (steady_memRead hP _) fun _ => hP.pure _
    · exact steady_seq hP (steady_memRead hP _) fun _ => hP.pure _

theorem steady_loadCoefs (h : ∀ base k, P _ (assign (loadCoef base k))) (base left k : Nat) :
    P _ (loadCoefs base left k) := by
  induction left generalizing k with
  | zero => exact hP.pure _
  | succ n ih =>
    exact steady_seq hP (steady_needBus hP _) fun _ => steady_seq hP (steady_needBus hP _) fun _ =>
      steady_seq hP (h base k) fun _ => ih _

theorem steady_acLoop (hr : ReaderParts S P) (h : ∀ k v, P _ (assign (setCoef k v))) (ac : Fin 4)
    (rounds k : Nat) : P _ (acLoop ac rounds k) := by
  induction rounds generalizing k with
  | zero => exact hP.pure _
  | succ n ih =>
    refine closed_ite (steady_seq hP (hr.jDecode .ac ac) fun rs => ?_) (hP.pure _)
    refine closed_ite (closed_ite (ih _) (hP.pure _)) (closed_ite (hP.raise _ _) ?_)
    exact steady_seq hP (steady_receive hP hr (by omega)) fun v =>
      steady_seq hP (h _ v) fun _ => ih _

/-- A property that the parts of a command have is one of its pseudocode. -/
theorem steady_pseudocode {i : Instr} (h : Parts i S P) : P _ (pseudocode i) := by
  cases i with
  | nop => exact hP.pure _
  | brInit m =>
    exact steady_seq hP (steady_needInput hP) fun _ =>
      steady_seq hP (h.initSteps m rfl) fun _ => hP.pure _
  | brGetbits n =>
    refine steady_needLegal hP fun hn => steady_seq hP (steady_needInput hP) fun _ => ?_
    simp only [readBitsLegal, Bool.and_eq_true, decide_eq_true_eq] at hn
    have ht := steady_seq hP ((h.reader rfl).take n.toNat hn.2)
      fun x => hP.pure (Word.ofNat x.1)
    rw [bind_assoc_run] at ht
    exact ht
  | brPeekbits n =>
    exact steady_needLegal hP fun _ => steady_seq hP (steady_needInput hP) fun _ =>
      steady_seq hP ((h.reader rfl).need _) fun _ => hP.look fun _ _ => hP.pure _
  | brAlign =>
    exact steady_seq hP (steady_needInput hP) fun _ =>
      (h.reader rfl).align fun _ _ _ => hP.pure _
  | brReadbytes sz chk =>
    exact steady_needLegal hP fun _ => steady_seq hP (steady_needInput hP) fun _ =>
      hP.look fun _ _ => steady_guard hP fun _ => steady_guard hP fun _ =>
        steady_seq hP (steady_readBytesBE hP (h.reader rfl) _ _) fun _ => hP.pure _
  | hbZlib tid =>
    refine hP.look fun s _ => steady_needLegal hP fun _ => steady_needLegal hP fun hn =>
      steady_seq hP (steady_needRange hP _) fun _ => steady_seq hP (h.dropZTable tid _ rfl) fun _ =>
        hP.bind (steady_readBytes hP _ _) fun bytes hb =>
          steady_seq hP (h.installZTable tid _ _ rfl ?_) fun _ => hP.pure _
    simp only [symCountLegal, Bool.and_eq_true, decide_eq_true_eq] at hn
    exact length_padLengths (by rw [List.length_map, answers_readBytes hb]; exact hn.2)
  | hbJpeg cls idx =>
    refine hP.look fun s _ => steady_seq hP (steady_needRange hP _) fun _ =>
      steady_seq hP (h.dropJTable cls idx rfl) fun _ =>
        hP.bind (steady_readBytes hP _ _) fun counts hc => steady_guard hP fun hsum =>
          steady_seq hP (steady_needRange hP _) fun _ =>
            hP.bind (steady_readBytes hP _ _) fun vals hv =>
              steady_seq hP (h.installJTable cls idx _ _ rfl ?_ (by omega) ?_) fun _ => hP.pure _
    · rw [List.length_map, answers_readBytes hc]
    · exact answers_readBytes hv
  | hdZlib tid =>
    exact hP.look fun _ _ => steady_needLegal hP fun _ => steady_seq hP (steady_needMode hP _) fun _ =>
      steady_seq hP (steady_needTable hP _ _) fun _ => steady_seq hP (steady_needInput hP) fun _ =>
        steady_seq hP ((h.reader rfl).zDecode _) fun _ => hP.pure _
  | hdJpeg cls idx =>
    exact hP.look fun _ _ => steady_seq hP (steady_needMode hP _) fun _ =>
      steady_seq hP (steady_needTable hP _ _) fun _ => steady_seq hP (steady_needInput hP) fun _ =>
        steady_seq hP ((h.reader rfl).jDecode _ _) fun _ => hP.pure _
  | zHeader =>
    have hr := h.reader rfl
    exact steady_seq hP (steady_needMode hP _) fun _ => steady_seq hP (steady_needInput hP) fun _ =>
      hP.look fun _ _ => steady_guard hP fun _ => steady_seq hP hr.alignedByte fun _ =>
        steady_seq hP hr.alignedByte fun _ => steady_guardEof hP (steady_guard hP fun _ =>
          steady_guard hP fun _ => steady_guard hP fun _ => hP.pure _)
  | inflate stepMode =>
    exact hP.look fun s hs => steady_seq hP (steady_needMode hP _) fun _ =>
      steady_seq hP (steady_needInput hP) fun _ => steady_seq hP (steady_needRange hP _) fun _ =>
        steady_seq hP (hP.look fun _ _ => closed_ite (hP.pure _) (hP.raise _ _)) fun _ =>
          steady_seq hP (steady_needApart hP _ _) fun _ =>
            steady_seq hP (h.inflate stepMode s rfl hs) fun _ => hP.pure _
  | pngUnfilter bppm1 first alpha a16 =>
    refine hP.look fun s hs => steady_needLegal hP fun _ => steady_needLegal hP fun hn =>
      steady_seq hP (steady_needRange hP _) fun _ => steady_seq hP (steady_needRange hP _) fun _ => ?_
    have hrest := steady_seq hP (steady_needApart hP (rowRegion (rowJob bppm1 first alpha a16 s))
      (rawRegion (rowJob bppm1 first alpha a16 s))) fun _ => steady_seq hP
        (steady_needApart hP (rowRegion (rowJob bppm1 first alpha a16 s))
          (priorRegion (rowJob bppm1 first alpha a16 s))) fun _ =>
            h.unfilter bppm1 first alpha a16 s rfl hs hn
    exact closed_ite hrest (steady_seq hP (steady_needRange hP _) fun _ => hrest)
  | qtLoad idx p16 =>
    exact hP.look fun _ _ => steady_seq hP (steady_needRange hP _) fun _ =>
      steady_seq hP (h.setQTable idx p16 none rfl) fun _ =>
        steady_seq hP (steady_quantEntries hP _ _ _ _) fun _ =>
          steady_seq hP (h.setQTable idx p16 _ rfl) fun _ => hP.pure _
  | jReceive n =>
    refine steady_needLegal hP fun hn => steady_seq hP (steady_needMode hP _) fun _ =>
      steady_seq hP (steady_needInput hP) fun _ =>
        steady_seq hP (steady_receive hP (h.reader rfl) ?_) fun _ => hP.pure _
    simpa only [receiveBitsLegal, decide_eq_true_eq] using hn
  | jDecodeBlock dct act comp =>
    have hr := h.reader rfl
    exact hP.look fun _ _ => steady_seq hP (steady_needMode hP _) fun _ =>
      steady_seq hP (steady_needTable hP _ _) fun _ => steady_seq hP (steady_needTable hP _ _) fun _ =>
        steady_seq hP (steady_needInput hP) fun _ => steady_seq hP (hr.jDecode _ _) fun t =>
          steady_guard hP fun ht => steady_seq hP (h.clearCoefs dct act comp rfl) fun _ =>
            steady_seq hP (steady_receive hP hr (by omega)) fun d =>
              steady_seq hP (h.addDc dct act comp d rfl) fun _ =>
                steady_seq hP (steady_acLoop hP hr (fun k v => h.setCoef dct act comp k v rfl) _ _ _)
                  fun _ => hP.pure _
  | jReset =>
    exact steady_seq hP (steady_needMode hP _) fun _ =>
      steady_seq hP (h.entropySteps (.inl rfl)) fun _ => hP.pure _
  | jRestart =>
    have hrest : P _ (look >>= fun t =>
        if isRestart t.rd.marker = true then assignAll entropySteps >>= fun _ => pure 1
        else (pure 0 : Engine Word)) :=
      hP.look fun _ _ => closed_ite
        (steady_seq hP (h.entropySteps (.inr rfl)) fun _ => hP.pure _) (hP.pure _)
    exact steady_seq hP (steady_needMode hP _) fun _ => steady_seq hP (steady_needInput hP) fun _ =>
      hP.look fun _ _ => closed_ite
        (steady_seq hP (h.reader rfl).fill fun _ => hrest) hrest
  | coefLoad =>
    exact hP.look fun _ _ => steady_seq hP (steady_needRange hP _) fun _ =>
      steady_seq hP (steady_loadCoefs hP (fun base k => h.loadCoef base k rfl) _ _ _) fun _ =>
        hP.pure _
  | coefStore =>
    exact hP.look fun s hs => steady_seq hP (steady_needRange hP _) fun _ =>
      steady_seq hP (h.coefStore s rfl hs) fun _ => hP.pure _
  | idct deq qidx =>
    exact hP.look fun s hs => steady_needLegal hP fun _ => steady_seq hP (steady_needTable hP _ _)
      fun _ => steady_seq hP (steady_needRange hP _) fun _ =>
        steady_seq hP (h.idct deq qidx s rfl hs) fun _ => hP.pure _

end

end Sys2Proof.Machine
end

-- INFLATE by its parts.
section
namespace Sys2Proof.Machine

open Sys2Proof

/-- The check of a match's distance and length, and its copy (43_inflate.md R268, R269, R271). -/
def checkedCopy (dist len : Nat) : Engine Unit := do
  let s ← look
  if s.out.outLen.toNat < dist then raise .eDist (Word.ofNat dist)
  if s.out.outCap.toNat - s.out.outLen.toNat < len then
    raise .eOutfull (Word.ofNat (s.out.outLen.toNat + len))
  copyMatch dist len

/-- A length symbol's match, up to that check. -/
theorem lengthAndDistance_eq (sym : Nat) : lengthAndDistance sym = (do
    let extraLen ← bits (lengthExtras.getD (sym - 257) 0)
    let d ← zSym 1
    if 30 ≤ d then raise .eBadcode (Word.ofNat d)
    let extraDist ← bits (distExtras.getD d 0)
    checkedCopy (distBases.getD d 0 + extraDist)
      (lengthBases.getD (sym - 257) 0 + extraLen)) := rfl

/-! ### What the reads of a block can answer -/

theorem peekBits_lt (s : State) {n : Nat} (hn : n ≤ 32) : peekBits s n < 2 ^ n := by
  rw [peekBits]
  cases s.rd.mode with
  | lsb => exact Nat.mod_lt _ (Nat.two_pow_pos n)
  | msb =>
    simp only
    split
    · exact Nat.two_pow_pos n
    · rw [Nat.div_lt_iff_lt_mul (Nat.two_pow_pos _), ← Nat.pow_add, show n + (32 - n) = 32 by omega]
      exact s.rd.acc.isLt

theorem not_answers_raiseEof {α : Type} {x : α} : ¬ Answers (raiseEof : Engine α) x := by
  rintro ⟨r, q, h⟩
  rw [raiseEof, bind_run, look_run] at h
  cases h

theorem answers_bits {n v : Nat} (hn : n ≤ 16) (h : Answers (bits n) v) : v < 2 ^ n := by
  obtain ⟨r, q, h⟩ := h
  rw [bits] at h
  split at h
  · cases h
    exact Nat.two_pow_pos n
  · obtain ⟨-, u, -, h⟩ := bind_eq_ok h
    rw [bind_run, consume_run] at h
    simp only at h
    split at h
    · exact absurd ⟨_, _, h⟩ not_answers_raiseEof
    · cases h
      exact peekBits_lt _ (by omega)

theorem answers_readClLengths {syms cl lens : List Nat} (h : Answers (readClLengths syms cl) lens) :
    lens.length = cl.length := by
  induction syms generalizing cl with
  | nil => rw [answers_pure h]
  | cons sym syms ih =>
    obtain ⟨l, -, h⟩ := answers_bind h
    rw [ih h, List.length_set]

theorem answers_readLengths {total rounds : Nat} {lens rev : List Nat} (hl : lens.length ≤ total)
    (h : Answers (readLengths total rounds lens) rev) : rev.length ≤ total := by
  induction rounds generalizing lens with
  | zero => rwa [answers_pure h]
  | succ n ih =>
    rw [readLengths] at h
    split at h
    · obtain ⟨c, -, h⟩ := answers_bind h
      split at h
      · exact ih (by rw [List.length_cons]; omega) h
      · obtain ⟨⟨r, v⟩, -, h⟩ := answers_bind h
        simp only at h
        split at h
        · exact absurd h not_answers_raise
        · exact ih (by rw [List.length_append, List.length_replicate]; omega) h
    · rwa [answers_pure h]

theorem getD_le_of_forall {l : List Nat} {b : Nat} (h : ∀ x ∈ l, x ≤ b) (k : Nat) :
    l.getD k 0 ≤ b := by
  rw [List.getD_eq_getElem?_getD]
  cases hk : l[k]? with
  | none => exact Nat.zero_le b
  | some x => exact h x (List.mem_of_getElem? hk)

theorem lengthExtras_le (k : Nat) : lengthExtras.getD k 0 ≤ 16 := getD_le_of_forall (by decide) k

theorem distExtras_le (k : Nat) : distExtras.getD k 0 ≤ 16 := getD_le_of_forall (by decide) k

theorem length_fixedLitlen : fixedLitlen.length = zMaxSym 0 := by
  rw [fixedLitlen]
  simp only [List.length_append, List.length_replicate]
  rfl

theorem length_fixedDist : fixedDist.length = zMaxSym 1 := by
  rw [fixedDist]
  simp only [List.length_replicate]
  rfl

/-! ### A property that the parts of INFLATE have -/

/-- The parts of INFLATE. -/
structure InflateParts (S : State → Prop) (P : ∀ α : Type, Engine α → Prop) : Prop where
  reader : ReaderParts S P
  dropZTable : ∀ t, P _ (dropZTable t)
  installZTable : ∀ t lens, lens.length = zMaxSym t → P _ (installZTable t lens)
  outByte : ∀ b, P _ (outByte b)
  checkedCopy : ∀ dist len, P _ (checkedCopy dist len)
  storedRest : ∀ len nlen, P _ (storedRest len nlen)
  noteBlock : ∀ b, P _ (assign (noteBlock b))

section

variable {S : State → Prop} {P : ∀ α : Type, Engine α → Prop} (hP : Steady S P)

include hP

theorem steady_bits (hr : ReaderParts S P) {n : Nat} (hn : n ≤ 16) : P _ (bits n) := by
  refine closed_ite (hP.pure _) ?_
  have h : P _ ((need n >>= fun _ => consume n) >>= fun x =>
      if x.2 = true then (raiseEof : Engine Nat) else pure x.1) :=
    steady_seq hP (hr.take n hn) fun _ => closed_ite (steady_raiseEof hP) (hP.pure _)
  rw [bind_assoc_run] at h
  exact h

theorem steady_zSym (hr : ReaderParts S P) (t : Fin 3) : P _ (zSym t) :=
  steady_seq hP (hr.zDecode t) fun _ => closed_ite (steady_raiseEof hP) (hP.pure _)

theorem steady_headerByte (hr : ReaderParts S P) : P _ headerByte :=
  steady_seq hP hr.alignedByte fun _ => closed_ite (steady_raiseEof hP) (hP.pure _)

theorem steady_readClLengths (hr : ReaderParts S P) (syms cl : List Nat) :
    P _ (readClLengths syms cl) := by
  induction syms generalizing cl with
  | nil => exact hP.pure _
  | cons sym syms ih => exact steady_seq hP (steady_bits hP hr (by decide)) fun _ => ih _

theorem steady_lengthRun (hr : ReaderParts S P) (c : Nat) (lens : List Nat) :
    P _ (lengthRun c lens) := by
  refine closed_ite ?_ (closed_ite ?_ ?_)
  · cases lens with
    | nil => exact hP.raise _ _
    | cons _ _ => exact steady_seq hP (steady_bits hP hr (by decide)) fun _ => hP.pure _
  · exact steady_seq hP (steady_bits hP hr (by decide)) fun _ => hP.pure _
  · exact steady_seq hP (steady_bits hP hr (by decide)) fun _ => hP.pure _

theorem steady_readLengths (hr : ReaderParts S P) (total rounds : Nat) (lens : List Nat) :
    P _ (readLengths total rounds lens) := by
  induction rounds generalizing lens with
  | zero => exact hP.pure _
  | succ n ih =>
    exact closed_ite
      (steady_seq hP (steady_zSym hP hr 2) fun _ => closed_ite (ih _)
        (steady_seq hP (steady_lengthRun hP hr _ _) fun _ => closed_ite (hP.raise _ _) (ih _)))
      (hP.pure _)

theorem steady_lengthAndDistance (h : InflateParts S P) (sym : Nat) :
    P _ (lengthAndDistance sym) := by
  rw [lengthAndDistance_eq]
  exact steady_seq hP (steady_bits hP h.reader (lengthExtras_le _)) fun _ =>
    steady_seq hP (steady_zSym hP h.reader 1) fun _ => steady_guard hP fun _ =>
      steady_seq hP (steady_bits hP h.reader (distExtras_le _)) fun _ => h.checkedCopy _ _

theorem steady_storedBlock (h : InflateParts S P) : P _ storedBlock := by
  rw [storedBlock_eq]
  refine h.reader.align fun _ x _ => steady_guardEof hP ?_
  iterate 4 refine steady_seq hP (steady_headerByte hP h.reader) fun _ => ?_
  exact h.storedRest _ _

theorem steady_rebuildZTable (h : InflateParts S P) {t : Fin 3} {lens : List Nat}
    (hl : lens.length = zMaxSym t) : P _ (rebuildZTable t lens) :=
  steady_seq hP (h.dropZTable t) fun _ => h.installZTable t lens hl

/-- The tables of a dynamic header have as many lengths as their slots have symbols
(43_inflate.md R262, R263). -/
theorem steady_dynamicTables (h : InflateParts S P) : P _ dynamicTables := by
  refine hP.bind (steady_bits hP h.reader (by decide)) fun x hx =>
    hP.bind (steady_bits hP h.reader (by decide)) fun y hy =>
      steady_seq hP (steady_bits hP h.reader (by decide)) fun z =>
        hP.bind (steady_readClLengths hP h.reader _ _) fun cl hcl =>
          steady_seq hP (steady_rebuildZTable hP h ?_) fun _ =>
            hP.bind (steady_readLengths hP h.reader _ _ _) fun rev hrev =>
              steady_seq hP (steady_rebuildZTable hP h ?_) fun _ => steady_rebuildZTable hP h ?_
  · rw [answers_readClLengths hcl, List.length_replicate]
    rfl
  · have := answers_bits (by decide) hx
    exact length_padLengths (by rw [List.length_take]; omega)
  · have := answers_bits (by decide) hy
    have := answers_readLengths (Nat.zero_le _) hrev
    exact length_padLengths (by rw [List.length_drop, List.length_reverse]; omega)

theorem steady_fixedTables (h : InflateParts S P) : P _ fixedTables :=
  steady_seq hP (steady_rebuildZTable hP h length_fixedLitlen) fun _ =>
    steady_rebuildZTable hP h length_fixedDist

variable (hout : ∀ α : Type, P α outran)

include hout

theorem steady_huffBlock (h : InflateParts S P) (bound : Nat) : P _ (huffBlock bound) := by
  induction bound with
  | zero => exact hout Unit
  | succ n ih =>
    rw [huffBlock]
    exact steady_seq hP (steady_zSym hP h.reader 0) fun _ =>
      closed_ite (steady_seq hP (h.outByte _) fun _ => ih)
        (closed_ite (hP.pure _) (closed_ite (hP.raise _ _)
          (steady_seq hP (steady_lengthAndDistance hP h _) fun _ => ih)))

theorem steady_blockBody (h : InflateParts S P) (b : Nat) : P _ (blockBody b) :=
  have hdata : P _ compressedBlock := hP.look fun _ _ => steady_huffBlock hP hout h _
  closed_ite (steady_storedBlock hP h)
    (closed_ite (steady_seq hP (steady_fixedTables hP h) fun _ => hdata)
      (closed_ite (steady_seq hP (steady_dynamicTables hP h) fun _ => hdata)
        (hP.look fun _ _ => hP.raise _ _)))

theorem steady_inflateBlock (h : InflateParts S P) : P _ inflateBlock :=
  steady_seq hP (steady_bits hP h.reader (by decide)) fun _ =>
    steady_seq hP (steady_bits hP h.reader (by decide)) fun b =>
      steady_seq hP (h.noteBlock b) fun _ =>
        steady_seq hP (steady_blockBody hP hout h b) fun _ => hP.pure _

theorem steady_inflateBlocks (h : InflateParts S P) (hfinal : P _ (assign markFinal))
    (stepMode : Bool) (bound nblk : Nat) : P _ (inflateBlocks stepMode bound nblk) := by
  induction bound generalizing nblk with
  | zero => exact hout Nat
  | succ n ih =>
    exact steady_seq hP (steady_inflateBlock hP hout h) fun _ =>
      closed_ite (steady_seq hP hfinal fun _ => hP.pure _) (closed_ite (hP.pure _) (ih _))

end

end Sys2Proof.Machine
end

-- What a command changes: its frame.
section
namespace Sys2Proof.Machine

open Sys2Proof

/-! ### Where pseudocode leads -/

/-- From a run that meets `A` the pseudocode answers in one that meets `B`, or stops in one that meets
`C`. -/
structure Leads (A B C : Run → Prop) {α : Type} (act : Engine α) : Prop where
  ok : ∀ {r x q}, A r → act r = .ok x q → B q
  error : ∀ {r e q}, A r → act r = .error e q → C q

/-- The pseudocode keeps a property of the run, however it ends. -/
def Stays (J : Run → Prop) (α : Type) (act : Engine α) : Prop := Leads J J J act

section

variable {α β : Type} {A A' B C J : Run → Prop}

theorem leads_pure {x : α} (h : ∀ r, A r → B r) : Leads A B C (pure x : Engine α) where
  ok hr ho := by cases ho; exact h _ hr
  error hr ho := by cases ho

theorem leads_raise {code : FaultCode} {info : Word} (h : ∀ r, A r → C r) :
    Leads A B C (raise code info : Engine α) where
  ok hr ho := by cases ho
  error hr ho := by cases ho; exact h _ hr

theorem leads_bind {act : Engine α} {f : α → Engine β} (ha : Leads A A' C act)
    (hf : ∀ x, Answers act x → Leads A' B C (f x)) : Leads A B C (act >>= f) where
  ok hr ho := by
    obtain ⟨x, q, h1, h2⟩ := bind_eq_ok ho
    exact (hf x ⟨_, _, h1⟩).ok (ha.ok hr h1) h2
  error hr ho := by
    rcases bind_eq_error ho with h1 | ⟨x, q, h1, h2⟩
    · exact ha.error hr h1
    · exact (hf x ⟨_, _, h1⟩).error (ha.ok hr h1) h2

theorem leads_look {f : State → Engine β}
    (h : ∀ s, Leads (fun r => A r ∧ r.st = s) B C (f s)) : Leads A B C (look >>= f) where
  ok hr ho := by
    rw [bind_run, look_run] at ho
    exact (h _).ok ⟨hr, rfl⟩ ho
  error hr ho := by
    rw [bind_run, look_run] at ho
    exact (h _).error ⟨hr, rfl⟩ ho

theorem leads_conseq {A₀ B₀ C₀ : Run → Prop} {act : Engine α} (h : Leads A₀ B₀ C₀ act)
    (hA : ∀ r, A r → A₀ r) (hB : ∀ r, B₀ r → B r) (hC : ∀ r, C₀ r → C r) : Leads A B C act where
  ok hr ho := hB _ (h.ok (hA _ hr) ho)
  error hr ho := hC _ (h.error (hA _ hr) ho)

theorem leads_pre {act : Engine α} (h : Leads A' B C act) (hA : ∀ r, A r → A' r) : Leads A B C act :=
  leads_conseq h hA (fun _ => id) fun _ => id

theorem leads_ite {c : Prop} [Decidable c] {act act' : Engine α} (h : c → Leads A B C act)
    (h' : ¬ c → Leads A B C act') : Leads A B C (if c then act else act') := by
  split
  · exact h ‹_›
  · exact h' ‹_›

/-- `if c then raise`, and then the rest. -/
theorem leads_guard {c : Prop} [Decidable c] {code : FaultCode} {info : Word}
    {rest : Unit → Engine α} (hC : ∀ r, A r → C r) (h : ¬ c → Leads A B C (rest ())) :
    Leads A B C (if c then raise code info >>= rest else rest ()) :=
  leads_ite (fun _ => leads_bind (A' := A) (leads_raise hC) fun _ hx =>
    absurd hx not_answers_raise) h

theorem leads_guardEof {c : Prop} [Decidable c] {rest : Unit → Engine α} (hC : ∀ r, A r → C r)
    (h : ¬ c → Leads A B C (rest ())) :
    Leads A B C (if c then raiseEof >>= rest else rest ()) :=
  leads_ite (fun _ => leads_bind (A' := A)
    (leads_look fun _ => leads_raise fun r hr => hC r hr.1) fun _ hx =>
      absurd hx not_answers_raiseEof) h

theorem leads_assign {f : State → State} (h : ∀ r, A r → B (r.after f)) :
    Leads A B C (assign f) where
  ok hr ho := by
    rw [assign_run] at ho
    cases ho
    exact h _ hr
  error hr ho := by
    rw [assign_run] at ho
    cases ho

theorem leads_needBus (a : Nat) (hA : ∀ r, A r → C r) :
    Leads A A C (needBus a) :=
  leads_look fun _ => leads_ite (fun _ => leads_pure fun _ h => h.1)
    fun _ => leads_raise fun r h => hA r h.1

theorem leads_memRead (a : Nat) (hA : ∀ r, A r → C r) : Leads A A C (memRead a) :=
  leads_bind (leads_needBus a hA) fun _ _ => leads_look fun _ => leads_pure fun _ h => h.1

theorem leads_memWrite {a : Nat} {v : Byte} (hA : ∀ r, A r → C r)
    (h : a < addrEnd → ∀ r, A r → B (r.after (landWrite a v))) : Leads A B C (memWrite a v) := by
  by_cases ha : a < addrEnd
  · exact leads_bind (leads_needBus a hA) fun _ _ => leads_assign (h ha)
  · rw [memWrite_outside v ha]
    exact leads_raise hA

/-- A property that runs keep is one that sequencing keeps, and a state looked at has what it gives. -/
theorem stays_steady_of {S : State → Prop} (hS : ∀ r, J r → S r.st) : Steady S (Stays J) where
  pure _ := leads_pure fun _ => id
  raise _ _ := leads_raise fun _ => id
  bind ha hf := leads_bind ha hf
  look h _ :=
    { ok := fun hr ho => by
        rw [bind_run, look_run] at ho
        exact (h _ (hS _ hr)).ok hr ho
      error := fun hr ho => by
        rw [bind_run, look_run] at ho
        exact (h _ (hS _ hr)).error hr ho }

theorem stays_steady {J : State → Prop} : Steady J (Stays fun r => J r.st) :=
  stays_steady_of fun _ => id

/-- What a relation keeps that the pseudocode keeps. -/
theorem stays_of_keeps {R : State → State → Prop} {J : State → Prop} {act : Engine α}
    (h : Keeps (Always R) act) (hR : ∀ s t, R s t → J s → J t) : Stays (fun r => J r.st) α act where
  ok {r x q} hr ho := by
    have h' := h.run r
    rw [ho] at h'
    exact hR _ _ h' hr
  error {r e q} hr ho := by
    have h' := h.run r
    rw [ho] at h'
    exact hR _ _ h' hr

/-- An assignment happens or, past the limit, does not. -/
theorem after_st (f : State → State) (r : Run) : (r.after f).st = f r.st ∨ (r.after f).st = r.st := by
  obtain ⟨s, _ | _ | n⟩ := r
  · exact .inl rfl
  · exact .inr rfl
  · exact .inl rfl

theorem stays_assign {J : State → Prop} {f : State → State} (h : ∀ s, J s → J (f s)) :
    Stays (fun r => J r.st) Unit (assign f) :=
  leads_assign fun r hr => by
    rcases after_st f r with hf | hf <;> rw [hf]
    · exact h _ hr
    · exact hr

theorem assignAll_cons (f : State → State) (fs : List (State → State)) :
    assignAll (f :: fs) = (assign f >>= fun _ => assignAll fs) := by
  funext r
  rw [bind_run, assign_run, assignAll_run]
  rfl

theorem stays_assignAll {J : State → Prop} {fs : List (State → State)}
    (h : ∀ f ∈ fs, ∀ s, J s → J (f s)) : Stays (fun r => J r.st) Unit (assignAll fs) := by
  induction fs with
  | nil => exact leads_pure fun _ => id
  | cons f fs ih =>
    rw [assignAll_cons]
    exact leads_bind (stays_assign (h f List.mem_cons_self)) fun _ _ =>
      ih fun g hg => h g (List.mem_cons_of_mem f hg)

/-- The reader's pieces have a property that the reader's assignments have. -/
theorem readerParts_of {S : State → Prop} {P Q : ∀ α : Type, Engine α → Prop} (hP : Steady S P)
    (hQ : Closed Q) (hr : AllowsReader Q) (h : ∀ {α : Type} {act : Engine α}, Q α act → P α act) :
    ReaderParts S P where
  need n := h (closed_need hQ hr n)
  fill := h (closed_fill hQ hr)
  take n _ := h (hQ.bind (closed_need hQ hr n) fun _ => closed_consume hQ hr n)
  align hg hu := hP.look
    (fun s hs => steady_seq hP (h (closed_consume hQ hr _)) fun x => hg s x hs) (align_unseen hu)
  alignedByte := h (closed_readAlignedByte hQ hr)
  zDecode t := h (closed_zDecode hQ hr t)
  jDecode c i := h (closed_jDecode hQ hr c i)

end

/-! ### The host's own registers -/

/-- Everything that only the host writes, and the control registers, are unchanged. -/
structure HostKept (s t : State) : Prop where
  ctl : t.ctl = s.ctl
  args : t.args = s.args
  inBase : t.rd.inBase = s.rd.inBase
  inLen : t.rd.inLen = s.rd.inLen
  outBase : t.out.outBase = s.out.outBase
  outCap : t.out.outCap = s.out.outCap
  holes : t.bus.holes = s.bus.holes
  env : t.env = s.env

theorem HostKept.refl (s : State) : HostKept s s := ⟨rfl, rfl, rfl, rfl, rfl, rfl, rfl, rfl⟩

theorem HostKept.trans {s t u : State} (h : HostKept s t) (h' : HostKept t u) : HostKept s u :=
  ⟨h'.ctl.trans h.ctl, h'.args.trans h.args, h'.inBase.trans h.inBase, h'.inLen.trans h.inLen,
    h'.outBase.trans h.outBase, h'.outCap.trans h.outCap, h'.holes.trans h.holes,
    h'.env.trans h.env⟩

theorem HostKept.of_owned {s t : State} (h : Owned s t) : HostKept s t := by
  rw [h]
  exact ⟨rfl, rfl, rfl, rfl, rfl, rfl, rfl, rfl⟩

theorem hostKept_allows : Allows HostKept where
  refl := .refl
  trans _ _ _ := .trans
  own _ _ := .of_owned
  write _ _ s _ := { HostKept.refl s with }

/-- Settles O8: the pseudocode keeps every control register, and a command's end writes its own. -/
theorem completionOrFaultEntry : Obligations.CompletionOrFaultEntry := by
  intro i s t h
  obtain ⟨q, hq, ⟨res, rfl⟩ | ⟨code, info, rfl⟩⟩ := exec_allows hostKept_allows h
  · left
    simp [hq.ctl]
  · right
    have hcode : 1 ≤ (faultByte code).toNat ∧ (faultByte code).toNat ≤ 0x11 := by
      cases code <;> decide
    simp [hq.ctl, hcode]

/-- Settles O11: no assignment of the pseudocode changes a register that only the host writes. -/
theorem engineKeepsHostRegisters : Obligations.EngineKeepsHostRegisters := by
  intro i s t h
  obtain ⟨q, hq, ⟨res, rfl⟩ | ⟨code, info, rfl⟩⟩ := exec_allows hostKept_allows h
  · simp [hq.ctl, hq.args, hq.inBase, hq.inLen, hq.outBase, hq.outCap, hq.holes, hq.env]
  · simp [hq.ctl, hq.args, hq.inBase, hq.inLen, hq.outBase, hq.outCap, hq.holes, hq.env]

end Sys2Proof.Machine
end

-- Which state each command owns.
section
namespace Sys2Proof.Machine

open Sys2Proof

/-! ### The frame of a command -/

/-- What a command may have changed by the time it has come from `s₀` to `s` (10_state.md R48, R56 to
R61; 20_memory.md R81). -/
structure Frame (i : Instr) (s₀ s : State) : Prop where
  host : HostKept s₀ s
  mode : (opcode i).toNat ≠ 0x01 → s.rd.mode = s₀.rd.mode ∧ (s₀.rd.eof = true → s.rd.eof = true) ∧
    (s₀.rd.ovr = true → s.rd.ovr = true)
  reader : (opcode i).toNat ∈ [0x00, 0x10, 0x11, 0x30, 0x40, 0x45, 0x46, 0x47] → s.rd = s₀.rd
  status : (opcode i).toNat ∉ [0x01, 0x21] → s.out.zfinal = s₀.out.zfinal ∧
    s.out.zbtype = s₀.out.zbtype
  outLen : (opcode i).toNat ≠ 0x21 → s.out.outLen = s₀.out.outLen
  zt : (opcode i).toNat ∉ [0x10, 0x21] → s.tab.zt = s₀.tab.zt
  jt : (opcode i).toNat ≠ 0x11 → s.tab.jdc = s₀.tab.jdc ∧ s.tab.jac = s₀.tab.jac
  qt : (opcode i).toNat ≠ 0x40 → s.tab.qt = s₀.tab.qt
  coef : (opcode i).toNat ∉ [0x42, 0x45] → s.coef = s₀.coef
  dcpred : (opcode i).toNat ∉ [0x42, 0x43, 0x44] → s.dcpred = s₀.dcpred
  mem : (opcode i).toNat ∉ [0x21, 0x30, 0x46, 0x47] → s.bus.mem = s₀.bus.mem
  grown : s₀.out.outLen.toNat ≤ s.out.outLen.toNat
  fits : s₀.out.outLen.toNat ≤ s₀.out.outCap.toNat → s.out.outLen.toNat ≤ s.out.outCap.toNat
  wf : Memory.wf s₀.bus.mem = true → Memory.wf s.bus.mem = true
  outside : Memory.wf s₀.bus.mem = true → ∀ a, storedTo i s₀ a = false → byteAt s a = byteAt s₀ a

section

variable {i : Instr} {s₀ s t : State}

theorem Frame.refl (i : Instr) (s : State) : Frame i s s :=
  ⟨.refl s, fun _ => ⟨rfl, id, id⟩, fun _ => rfl, fun _ => ⟨rfl, rfl⟩, fun _ => rfl, fun _ => rfl,
    fun _ => ⟨rfl, rfl⟩, fun _ => rfl, fun _ => rfl, fun _ => rfl, fun _ => rfl, Nat.le_refl _, id,
    id, fun _ _ _ => rfl⟩

/-- A byte that the command may write. -/
theorem Frame.landWrite {a : Nat} {v : Byte} (h : Frame i s₀ s) (ha : a < addrEnd)
    (hs : storedTo i s₀ a = true) : Frame i s₀ (landWrite a v s) :=
  { h with
    host := { h.host with }
    mem := fun hn => by
      cases i with
      | inflate _ | pngUnfilter _ _ _ _ | coefStore | idct _ _ => exact absurd hn (by simp [opcode])
      | _ => exact absurd hs Bool.false_ne_true
    wf := fun hw => memSet_wf v ha (h.wf hw)
    outside := fun hw b hb => by
      have hne : b ≠ a := fun hba => by rw [hba, hs] at hb; exact Bool.noConfusion hb
      exact (memGet_memSet_other v (h.wf hw) hne).trans (h.outside hw b hb) }

/-- The reader moved: nothing else changed, nor its mode and buffer, nor did a sticky flag fall. -/
structure ReaderMoved (s t : State) : Prop where
  frame : t = { s with rd := t.rd }
  mode : t.rd.mode = s.rd.mode
  inBase : t.rd.inBase = s.rd.inBase
  inLen : t.rd.inLen = s.rd.inLen
  eof : s.rd.eof = true → t.rd.eof = true
  ovr : s.rd.ovr = true → t.rd.ovr = true

theorem ReaderMoved.refl (s : State) : ReaderMoved s s := ⟨rfl, rfl, rfl, rfl, id, id⟩

theorem ReaderMoved.trans {s t u : State} (h : ReaderMoved s t) (h' : ReaderMoved t u) :
    ReaderMoved s u where
  frame := by
    rw [h'.frame, h.frame]
  mode := h'.mode.trans h.mode
  inBase := h'.inBase.trans h.inBase
  inLen := h'.inLen.trans h.inLen
  eof := h'.eof ∘ h.eof
  ovr := h'.ovr ∘ h.ovr

theorem readerMoved_allowsReader : AllowsReader fun _ => Keeps (Always ReaderMoved) := by
  have hr := ReaderMoved.refl
  have ht : ∀ s t u, ReaderMoved s t → ReaderMoved t u → ReaderMoved s u := fun _ _ _ => .trans
  exact
    { advanceCur := keeps_assign (always_after hr fun s => { hr s with frame := rfl })
      markEof := keeps_assign (always_after hr fun s => { hr s with frame := rfl, eof := fun _ => rfl })
      markOvr := keeps_assign (always_after hr fun s => { hr s with frame := rfl, ovr := fun _ => rfl })
      cacheMarker := fun c => keeps_assignAll <| always_afterAll hr ht (by
        simp only [markerSteps, List.mem_cons, List.not_mem_nil, or_false]
        rintro f (rfl | rfl) s <;> exact { hr s with frame := rfl })
      enterByte := fun b k => keeps_assignAll <| always_afterAll hr ht (by
        simp only [enterSteps, List.mem_cons, List.not_mem_nil, or_false]
        rintro f (rfl | rfl | rfl) s <;> exact { hr s with frame := rfl })
      dropBits := fun n ovr => keeps_assignAll <| always_afterAll hr ht (by
        simp only [dropSteps, List.mem_cons, List.not_mem_nil, or_false]
        rintro f (rfl | rfl | rfl | rfl) s
        · exact { hr s with frame := rfl, ovr := fun h => by simp [h] }
        all_goals exact { hr s with frame := rfl }) }

theorem readerMoved_closed : Closed fun _ => Keeps (Always ReaderMoved) :=
  keeps_closed (always_composes .refl fun _ _ _ => .trans)

theorem not_mem_of_readsInput (h : readsInput i = true) :
    (opcode i).toNat ∉ [0x00, 0x10, 0x11, 0x30, 0x40, 0x45, 0x46, 0x47] := by
  cases i <;> simp_all [readsInput, opcode]

theorem Frame.readerMoved (h : Frame i s₀ s) (hi : readsInput i = true) (hm : ReaderMoved s t) :
    Frame i s₀ t := by
  obtain ⟨hframe, hmode, hbase, hlen, heof, hovr⟩ := hm
  generalize t.rd = rd at *
  subst hframe
  exact
    { h with
      host := { h.host with inBase := hbase.trans h.host.inBase, inLen := hlen.trans h.host.inLen }
      mode := fun hn => ⟨hmode.trans (h.mode hn).1, heof ∘ (h.mode hn).2.1, hovr ∘ (h.mode hn).2.2⟩
      reader := fun hn => absurd hn (not_mem_of_readsInput hi) }

theorem frame_readerParts (hi : readsInput i = true) :
    ReaderParts (Frame i s₀) (Stays fun r => Frame i s₀ r.st) :=
  readerParts_of stays_steady readerMoved_closed readerMoved_allowsReader fun h =>
    stays_of_keeps h fun _ _ hm hs => hs.readerMoved hi hm

/-! ### The runs of bytes that commands write -/

theorem frame_memWrite {a : Nat} (v : Byte) (h : a < addrEnd → storedTo i s₀ a = true) :
    Stays (fun r => Frame i s₀ r.st) _ (memWrite a v) :=
  leads_memWrite (fun _ => id) fun ha r hr => by
    rcases after_st (Machine.landWrite a v) r with hf | hf <;> rw [hf]
    · exact hr.landWrite ha (h ha)
    · exact hr

theorem frame_writeBytes {bs : List Byte} {a : Nat}
    (h : ∀ d, d < bs.length → storedTo i s₀ (a + d) = true) :
    Stays (fun r => Frame i s₀ r.st) _ (writeBytes bs a) := by
  induction bs generalizing a with
  | nil => exact leads_pure fun _ => id
  | cons b bs ih =>
    refine leads_bind (frame_memWrite b fun _ => h 0 (by simp)) fun _ _ => ih fun d hd => ?_
    rw [show a + 1 + d = a + (d + 1) by omega]
    exact h (d + 1) (by simpa using hd)

theorem length_idctOnList (bias : Word) (shift : Nat) (v : List Word) :
    (idctOnList bias shift v).length = 8 := rfl

theorem length_rowPass (cols : List (List Word)) (r : Nat) : (rowPass cols r).length = 8 := by
  rw [rowPass, List.length_map, length_idctOnList]

theorem frame_writeRows {stride : Nat} {rows : List (List Byte)} {a : Nat}
    (h : ∀ r d, r < rows.length → d < 8 → storedTo i s₀ (a + r * stride + d) = true)
    (hrow : ∀ row ∈ rows, row.length = 8) :
    Stays (fun r => Frame i s₀ r.st) _ (writeRows stride rows a) := by
  induction rows generalizing a with
  | nil => exact leads_pure fun _ => id
  | cons row rows ih =>
    refine leads_bind (frame_writeBytes fun d hd => ?_) fun _ _ => ih (fun r d hr hd => ?_)
      fun row' hm => hrow row' (List.mem_cons_of_mem row hm)
    · have := h 0 d (by simp) (by rwa [hrow row List.mem_cons_self] at hd)
      simpa using this
    · rw [show a + stride + r * stride + d = a + (r + 1) * stride + d by rw [Nat.add_mul]; omega]
      exact h (r + 1) d (by simpa using hr) hd

theorem frame_unfilterFrom {j : RowJob} {ft left k : Nat} {out : List Byte} (hbpp : 0 < j.bpp)
    (hk : k + left = j.n) (h : ∀ a, j.dst ≤ a → a < j.slot j.n → storedTo i s₀ a = true) :
    Stays (fun r => Frame i s₀ r.st) _ (unfilterFrom j ft left k out) := by
  induction left generalizing k out with
  | zero => exact leads_pure fun _ => id
  | succ n ih =>
    refine leads_bind (leads_memRead _ fun _ => id) fun x _ => ?_
    refine leads_bind (leads_ite (fun _ => leads_memRead _ fun _ => id) fun _ => leads_pure fun _ => id)
      fun b _ => ?_
    refine leads_bind (leads_ite (fun _ => leads_memRead _ fun _ => id) fun _ => leads_pure fun _ => id)
      fun c _ => ?_
    rw [RowJob.write_emitted hbpp]
    refine leads_bind (frame_writeBytes fun d hd => h _ ?_ ?_) fun _ _ => ih (by omega)
    · exact Nat.le_trans RowJob.dst_le_slot (Nat.le_add_right _ _)
    · have hend := RowJob.slot_add_emitted (j := j) (k := k)
        (y := reconstruct ft x (if j.bpp ≤ k then out.getD (j.bpp - 1) 0 else 0) b c) hbpp
      have hlast : j.slot (k + 1) ≤ j.slot j.n := RowJob.slot_le (by omega)
      omega

end

/-! ### INFLATE's output -/

/-- The output can take `n` more bytes. -/
def FrameRoom (b : Bool) (s₀ : State) (n : Nat) (r : Run) : Prop :=
  Frame (.inflate b) s₀ r.st ∧ n ≤ r.st.out.outCap.toNat - r.st.out.outLen.toNat

section

variable {b : Bool} {s₀ s : State} {n : Nat}

theorem Frame.growOutput (h : Frame (.inflate b) s₀ s) (hr : s.out.outLen.toNat < s.out.outCap.toNat) :
    Frame (.inflate b) s₀ (growOutput s) ∧
      (growOutput s).out.outLen.toNat = s.out.outLen.toNat + 1 := by
  have hlen : (s.out.outLen + 1).toNat = s.out.outLen.toNat + 1 := by
    have := s.out.outCap.isLt
    rw [BitVec.toNat_add, show (1 : Word).toNat = 1 from rfl, Nat.mod_eq_of_lt (by omega)]
  refine ⟨{ h with
    host := { h.host with }
    status := h.status
    outLen := fun hn => absurd rfl hn
    grown := ?_
    fits := fun _ => ?_ }, hlen⟩
  · have hg := h.grown
    change s₀.out.outLen.toNat ≤ (s.out.outLen + 1).toNat
    omega
  · change (s.out.outLen + 1).toNat ≤ s.out.outCap.toNat
    omega

/-- The place of the next output byte is one that INFLATE may write. -/
theorem Frame.storedTo_outEnd (h : Frame (.inflate b) s₀ s)
    (hr : s.out.outLen.toNat < s.out.outCap.toNat) :
    storedTo (.inflate b) s₀ (s.out.outBase.toNat + s.out.outLen.toNat) = true := by
  have hg := h.grown
  rw [storedTo, within_iff, ← h.host.outBase, ← h.host.outCap]
  omega

theorem leads_appendByte (v : Byte) :
    Leads (FrameRoom b s₀ (n + 1)) (FrameRoom b s₀ n) (fun r => Frame (.inflate b) s₀ r.st)
      (appendByte v) := by
  refine leads_look fun s => leads_bind (A' := FrameRoom b s₀ (n + 1))
    (leads_memWrite (fun r hr => hr.1.1) fun ha r hr => ?_) fun _ _ => leads_assign fun r hr => ?_
  · obtain ⟨⟨hr, hroom⟩, rfl⟩ := hr
    have hw := hr.landWrite (v := v) ha (hr.storedTo_outEnd (by omega))
    rcases after_st (landWrite (r.st.out.outBase.toNat + r.st.out.outLen.toNat) v) r with hf | hf <;>
      rw [FrameRoom, hf]
    · exact ⟨hw, hroom⟩
    · exact ⟨hr, hroom⟩
  · obtain ⟨hr, hroom⟩ := hr
    rcases after_st growOutput r with hf | hf <;> rw [FrameRoom, hf]
    · obtain ⟨hg, hlen⟩ := hr.growOutput (by omega)
      refine ⟨hg, ?_⟩
      change n ≤ r.st.out.outCap.toNat - (growOutput r.st).out.outLen.toNat
      omega
    · exact ⟨hr, by omega⟩

theorem leads_copyMatch (dist n : Nat) :
    Leads (FrameRoom b s₀ n) (fun r => Frame (.inflate b) s₀ r.st)
      (fun r => Frame (.inflate b) s₀ r.st) (copyMatch dist n) := by
  induction n with
  | zero => exact leads_pure fun _ hr => hr.1
  | succ n ih =>
    exact leads_look fun s => leads_pre (leads_bind (leads_memRead _ fun _ hr => hr.1) fun v _ =>
      leads_bind (leads_appendByte v) fun _ _ => ih) fun _ hr => hr.1

theorem leads_copyStored (n : Nat) :
    Leads (FrameRoom b s₀ n) (fun r => Frame (.inflate b) s₀ r.st)
      (fun r => Frame (.inflate b) s₀ r.st) (copyStored n) := by
  induction n with
  | zero => exact leads_pure fun _ hr => hr.1
  | succ n ih =>
    refine leads_look fun s => leads_pre (leads_bind (leads_memRead _ fun _ hr => hr.1) fun v _ =>
      leads_bind (A' := FrameRoom b s₀ (n + 1)) (leads_assign fun r hr => ?_) fun _ _ =>
        leads_bind (leads_appendByte v) fun _ _ => ih) fun _ hr => hr.1
    rcases after_st advanceCur r with hf | hf <;> rw [FrameRoom, hf]
    · exact ⟨hr.1.readerMoved rfl { ReaderMoved.refl r.st with frame := rfl }, hr.2⟩
    · exact hr

theorem frame_inflateParts :
    InflateParts (Frame (.inflate b) s₀) (Stays fun r => Frame (.inflate b) s₀ r.st) where
  reader := frame_readerParts rfl
  dropZTable t := stays_assign fun s h =>
    { h with host := { h.host with }, zt := fun hn => absurd hn (by simp [opcode]) }
  installZTable t lens _ := by
    rw [installZTable]
    split
    · exact stays_steady.raise _ _
    · exact stays_assign fun s h =>
        { h with host := { h.host with }, zt := fun hn => absurd hn (by simp [opcode]) }
  outByte v := leads_look fun s => leads_ite (fun _ => leads_raise fun _ hr => hr.1) fun hc =>
    leads_conseq (leads_appendByte (n := 0) v)
      (fun r hr => ⟨hr.1, by rw [hr.2]; omega⟩) (fun _ hr => hr.1) fun _ => id
  checkedCopy dist len := leads_look fun s => leads_guard (fun _ hr => hr.1) fun hd =>
    leads_guard (fun _ hr => hr.1) fun hc => leads_pre (leads_copyMatch dist len)
      fun r hr => ⟨hr.1, by rw [hr.2]; omega⟩
  storedRest len nlen := by
    rw [storedRest]
    exact leads_guard (fun _ => id) fun _ => leads_look fun s =>
    leads_guardEof (fun _ hr => hr.1) fun _ => leads_guard (fun _ hr => hr.1) fun hc =>
      leads_pre (leads_copyStored len) fun r hr => ⟨hr.1, by rw [hr.2]; omega⟩
  noteBlock b := stays_assign fun s h =>
    { h with host := { h.host with }, status := fun hn => absurd hn (by simp [opcode]) }

theorem frame_markFinal :
    Stays (fun r => Frame (.inflate b) s₀ r.st) Unit (assign markFinal) :=
  stays_assign fun s h =>
    { h with host := { h.host with }, status := fun hn => absurd hn (by simp [opcode]) }

end

/-! ### Every command -/

section

variable {i : Instr} {s₀ s t : State}

theorem stays_outran {J : State → Prop} {α : Type} : Stays (fun r => J r.st) α outran where
  ok _ ho := by cases ho
  error hr ho := by
    cases ho
    exact hr

theorem opcode_of_entropy (h : i = .jReset ∨ i = .jRestart) :
    (opcode i).toNat = 0x43 ∨ (opcode i).toNat = 0x44 := by
  rcases h with rfl | rfl <;> simp [opcode]

/-- J_RESET's assignments, and J_RESTART's. -/
theorem frame_entropySteps (h : i = .jReset ∨ i = .jRestart) :
    Stays (fun r => Frame i s₀ r.st) _ (assignAll entropySteps) := by
  have ho := opcode_of_entropy h
  refine stays_assignAll ?_
  simp only [entropySteps, emptySteps, List.cons_append, List.nil_append, List.mem_cons,
    List.not_mem_nil, or_false]
  have hrd : (opcode i).toNat ∉ [0x00, 0x10, 0x11, 0x30, 0x40, 0x45, 0x46, 0x47] := by
    rcases ho with ho | ho <;> rw [ho] <;> decide
  rintro f (rfl | rfl | rfl | rfl | rfl | rfl) s hs
  on_goal 6 => exact
    { hs with
      host := { hs.host with }
      dcpred := fun hn => absurd hn (by rcases ho with ho | ho <;> rw [ho] <;> decide) }
  all_goals exact { hs with host := { hs.host with }, reader := fun hn => absurd hn hrd }

theorem frame_initSteps (m : Mode) :
    Stays (fun r => Frame (.brInit m) s₀ r.st) _ (assignAll (initSteps m)) := by
  refine stays_assignAll ?_
  simp only [initSteps, List.mem_cons, List.not_mem_nil, or_false]
  have hrd : (opcode (.brInit m)).toNat ∉ [0x00, 0x10, 0x11, 0x30, 0x40, 0x45, 0x46, 0x47] := by
    simp [opcode]
  have hst : ¬ (opcode (.brInit m)).toNat ∉ [0x01, 0x21] := by simp [opcode]
  rintro f (rfl | rfl | rfl | rfl | rfl | rfl | rfl | rfl | rfl | rfl | rfl) s hs
  on_goal 10 => exact { hs with host := { hs.host with }, status := fun hn => absurd hn hst }
  on_goal 10 => exact { hs with host := { hs.host with }, status := fun hn => absurd hn hst }
  all_goals exact
    { hs with
      host := { hs.host with }
      mode := fun hn => absurd rfl hn
      reader := fun hn => absurd hn hrd }

theorem setJTable_jt (hs : Frame (.hbJpeg cls idx) s₀ s) (c : JClass) (k : Fin 4)
    (tbl : Option JTable) : Frame (.hbJpeg cls idx) s₀ (setJTable c k tbl s) := by
  cases c <;> exact { hs with host := { hs.host with }, jt := fun hn => absurd rfl hn }

/-- The parts of a command keep its frame. -/
theorem frame_parts (i : Instr) (s₀ : State) :
    Parts i (Frame i s₀) (Stays fun r => Frame i s₀ r.st) where
  reader := frame_readerParts
  initSteps m hi := hi ▸ frame_initSteps m
  entropySteps := frame_entropySteps
  dropZTable tid t hi := stays_assign fun s hs =>
    { hs with host := { hs.host with }, zt := fun hn => absurd hn (by simp [hi, opcode]) }
  installZTable tid t lens hi _ := by
    rw [installZTable]
    split
    · exact stays_steady.raise _ _
    · exact stays_assign fun s hs =>
        { hs with host := { hs.host with }, zt := fun hn => absurd hn (by simp [hi, opcode]) }
  dropJTable cls idx hi := by
    subst hi
    exact stays_assign fun s hs => setJTable_jt hs _ _ _
  installJTable cls idx bits vals hi _ _ _ := by
    subst hi
    rw [installJTable]
    split
    · exact stays_steady.raise _ _
    · exact stays_assign fun s hs => setJTable_jt hs _ _ _
  setQTable idx p16 x hi := stays_assign fun s hs =>
    { hs with host := { hs.host with }, qt := fun hn => absurd (by rw [hi]; rfl) hn }
  clearCoefs dct act comp hi := stays_assign fun s hs =>
    { hs with host := { hs.host with }, coef := fun hn => absurd hn (by simp [hi, opcode]) }
  addDc dct act comp d hi := stays_assign fun s hs =>
    { hs with
      host := { hs.host with }
      coef := fun hn => absurd hn (by simp [hi, opcode])
      dcpred := fun hn => absurd hn (by simp [hi, opcode]) }
  setCoef dct act comp k v hi := stays_assign fun s hs =>
    { hs with host := { hs.host with }, coef := fun hn => absurd hn (by simp [hi, opcode]) }
  loadCoef base k hi := stays_assign fun s hs =>
    { hs with host := { hs.host with }, coef := fun hn => absurd hn (by simp [hi, opcode]) }
  coefStore s hi hs := by
    subst hi
    refine frame_writeBytes fun d hd => ?_
    rw [length_coefBytes] at hd
    rw [storedTo, hs.host.args, within_iff]
    omega
  idct deq qidx s hi hs := by
    subst hi
    refine frame_writeRows (fun r d hr hd => ?_) fun row hrow => ?_
    · rw [storedTo, hs.host.args, List.any_eq_true]
      refine ⟨r, List.mem_range.mpr hr, ?_⟩
      rw [within_iff]
      omega
    · obtain ⟨r, -, rfl⟩ := List.mem_map.mp hrow
      exact length_rowPass _ _
  unfilter bppm1 first alpha a16 s hi hs hn := by
    subst hi
    refine leads_bind (leads_memRead _ fun _ => id) fun ft _ => leads_guard (fun _ => id) fun _ =>
      leads_bind (frame_unfilterFrom (Nat.succ_pos _) (Nat.zero_add _) fun a h1 h2 => ?_) fun _ _ =>
        leads_pure fun _ => id
    rw [storedTo, within_iff, outputRow_eq_rowLen, ← hs.host.args]
    exact ⟨h1, by rw [← RowJob.rowRegion_end] at h2; exact h2⟩
  inflate b s hi hs := by
    subst hi
    exact steady_inflateBlocks stays_steady (fun _ => stays_outran) frame_inflateParts frame_markFinal _ _ _

/-- Every command keeps its frame, wherever a limit cuts it. -/
theorem frame_pseudocode (i : Instr) (s₀ : State) :
    Stays (fun r => Frame i s₀ r.st) _ (pseudocode i) :=
  steady_pseudocode stays_steady (frame_parts i s₀)

/-- A command's end keeps a property of its pseudocode's end. -/
theorem exec_stays {J : Run → Prop} {i : Instr} {s t : State} (h : Stays J _ (pseudocode i))
    (hs : J (Run.whole s)) (ht : exec i s = .next t) :
    ∃ q, J q ∧ ((∃ res, t = complete res q.st) ∨ ∃ code info, t = faultEntry code info q.st) := by
  rw [exec_eq] at ht
  rcases runCommand_cases (pseudocode i) s with ⟨res, q, ho, hn⟩ | ⟨code, info, q, ho, hn⟩ | ⟨q, -, hn⟩
  · rw [hn] at ht
    cases ht
    exact ⟨q, h.ok hs ho, .inl ⟨res, rfl⟩⟩
  · rw [hn] at ht
    cases ht
    exact ⟨q, h.error hs ho, .inr ⟨code, info, rfl⟩⟩
  · rw [hn] at ht
    cases ht

/-- The whole command's frame, but for the control registers. -/
theorem exec_frame {i : Instr} {s t : State} (h : exec i s = .next t) :
    ∃ q, Frame i s q ∧ t = { q with ctl := t.ctl } := by
  obtain ⟨q, hq, ⟨res, rfl⟩ | ⟨code, info, rfl⟩⟩ := exec_stays (frame_pseudocode i s) (.refl i s) h
  · exact ⟨q.st, hq, rfl⟩
  · exact ⟨q.st, hq, rfl⟩

/-- Settles O12: the frame of each command, whose clauses are those of its own opcode. -/
theorem stateOwnership : Obligations.StateOwnership := by
  intro i s t h
  obtain ⟨q, hq, ht⟩ := exec_frame h
  generalize t.ctl = c at ht
  subst ht
  exact ⟨hq.mode, hq.reader, hq.status, hq.outLen, hq.zt, hq.jt, hq.qt, hq.coef, hq.dcpred, hq.mem⟩

/-- Settles O13: no assignment of a command's pseudocode writes outside its region. -/
theorem storesStayInRegions : Obligations.StoresStayInRegions := by
  intro i s t hw h a ha
  obtain ⟨q, hq, ht⟩ := exec_frame h
  rw [ht]
  exact hq.outside hw a ha

end

end Sys2Proof.Machine
end

-- The invariant of the reader and the tables through a command.
section
namespace Sys2Proof.Machine

open Sys2Proof

/-! ### Properties of runs that no limit cuts -/

/-- No limit cuts the run, and its state has the property. -/
def WholeOf (J : State → Prop) (r : Run) : Prop := r.left = none ∧ J r.st

section

variable {J K : State → Prop} {s : State}

theorem WholeOf.eq_whole {r : Run} (h : WholeOf J r) : r = Run.whole r.st := by
  obtain ⟨s, left⟩ := r
  obtain ⟨rfl, -⟩ := h
  rfl

theorem wholeOf_whole : WholeOf J (Run.whole s) ↔ J s := ⟨And.right, fun h => ⟨rfl, h⟩⟩

theorem WholeOf.after {f : State → State} {r : Run} (h : WholeOf J r) (hf : ∀ s, J s → K (f s)) :
    WholeOf K (r.after f) := by
  rw [h.eq_whole, after_whole]
  exact ⟨rfl, hf _ h.2⟩

theorem WholeOf.afterAll {fs : List (State → State)} {r : Run} (h : WholeOf J r)
    (hf : ∀ s, J s → K (applied fs s)) : WholeOf K (r.afterAll fs) := by
  rw [h.eq_whole, afterAll_whole]
  exact ⟨rfl, hf _ h.2⟩

theorem whole_assign {f : State → State} (h : ∀ s, J s → K (f s)) {C : Run → Prop} :
    Leads (WholeOf J) (WholeOf K) C (assign f) := leads_assign fun _ hr => hr.after h

theorem whole_assignAll {fs : List (State → State)} (h : ∀ s, J s → K (applied fs s))
    {C : Run → Prop} : Leads (WholeOf J) (WholeOf K) C (assignAll fs) where
  ok hr ho := by
    rw [assignAll_run] at ho
    cases ho
    exact hr.afterAll h
  error _ ho := by
    rw [assignAll_run] at ho
    cases ho

theorem whole_steady : Steady J (Stays (WholeOf J)) := stays_steady_of fun _ hr => hr.2

theorem whole_outran {α : Type} : Stays (WholeOf J) α outran where
  ok _ ho := by cases ho
  error hr ho := by
    cases ho
    exact hr

/-- A byte written to a mapped place, or `E_BUS`. -/
theorem whole_memWrite {a : Nat} {v : Byte} (h : a < addrEnd → ∀ s, J s → J (landWrite a v s)) :
    Stays (WholeOf J) _ (memWrite a v) :=
  leads_memWrite (fun _ => id) fun ha _ hr => hr.after (h ha)

end

/-! ### The reader's pieces and its invariant -/

/-- The reader's invariant and the tables' (10_state.md R55, R58, R59). -/
def Sound (s : State) : Prop := readerOk s.rd = true ∧ tablesOk s.tab = true

/-- The same with room in ACC for a byte. -/
def Fetching (s : State) : Prop := Sound s ∧ s.rd.bitcnt ≤ 24

section

variable {s : State} {n : Nat}

/-- The bits leave ACC, however many are asked for. -/
theorem dropBits_readerOk (n : Nat) (h : readerOk s.rd = true) :
    readerOk (dropBits n s).rd = true := by
  have hok := (readerOk_iff _).mp h
  obtain ⟨hcnt, hpad, hwin, hmark⟩ := hok
  refine (readerOk_iff _).mpr ⟨?_, ?_, ?_, hmark⟩
  · rw [dropBits_bitcnt]
    omega
  · rw [dropBits_padbits s n hpad, dropBits_bitcnt]
    exact Nat.min_le_right _ _
  · cases hm : s.rd.mode with
    | lsb =>
      refine windowClear_of_bits_lsb hm fun j hj => ?_
      rw [dropBits_bitcnt] at hj
      rw [dropBits_acc_lsb s n hm, BitVec.getLsbD_ushiftRight]
      exact acc_high_lsb hm hwin (by omega)
    | msb =>
      refine windowClear_of_bits_msb hm fun j hj => ?_
      rw [dropBits_bitcnt] at hj
      rw [dropBits_acc_msb s n hm, BitVec.getLsbD_shiftLeft]
      by_cases hjn : j < n
      · simp [hjn]
      · rw [acc_low_msb hm hwin (by omega), Bool.and_false]

theorem sound_dropBits (n : Nat) (h : Sound s) : Sound (dropBits n s) :=
  ⟨dropBits_readerOk n h.1, h.2⟩

theorem sound_markOvr (h : Sound s) : Sound (markOvr s) := h

theorem fetching_cacheMarker {c : Byte} (h : Fetching s) (hm : s.rd.mode = .msb) (h0 : c ≠ 0x00)
    (hFF : c ≠ 0xFF) : Fetching (cacheMarker c s) := by
  obtain ⟨⟨hok, htab⟩, hcnt⟩ := h
  obtain ⟨hc, hp, hw, -⟩ := (readerOk_iff _).mp hok
  refine ⟨⟨(readerOk_iff _).mpr ⟨hc, hp, hw, ?_, h0, fun _ => hm⟩, htab⟩, hcnt⟩
  exact ⟨fun _ => hFF, fun _ => rfl⟩

theorem sound_enterByte (b : Byte) (k : ByteKind) (h : Fetching s) : Sound (enterByte b k s) :=
  ⟨enterByte_readerOk b k h.2 h.1.1, h.1.2⟩

/-- A property that the reader's two marks keep is one of the fetch. -/
theorem whole_fetchByte {J : State → Prop} (hcur : ∀ s, J s → J (advanceCur s))
    (heof : ∀ s, J s → J (markEof s)) : Stays (WholeOf J) _ fetchByte := by
  refine whole_steady.look fun s _ => leads_ite (fun _ => ?_) fun _ => ?_
  · exact steady_seq whole_steady (steady_memRead whole_steady _) fun _ =>
      steady_seq whole_steady (whole_assign hcur) fun _ => whole_steady.pure _
  · exact steady_seq whole_steady (whole_assign heof) fun _ => whole_steady.pure _

theorem whole_skipFill {J : State → Prop} (hcur : ∀ s, J s → J (advanceCur s))
    (heof : ∀ s, J s → J (markEof s)) (n : Nat) : Stays (WholeOf J) _ (skipFill n) := by
  induction n with
  | zero => exact whole_fetchByte hcur heof
  | succ n ih =>
    refine steady_seq whole_steady (whole_fetchByte hcur heof) fun x => ?_
    obtain ⟨c, q⟩ := x
    cases q with
    | pad => exact whole_steady.pure _
    | real => exact leads_ite (fun _ => ih) fun _ => whole_steady.pure _

/-- A real byte is fetched before the end of the input. -/
theorem fetchByte_real {c : Byte} {q : Run} (h : fetchByte (Run.whole s) = .ok (c, .real) q) :
    s.rd.cur.toNat < s.rd.inLen.toNat ∧ q = Run.whole (advanceCur s) := by
  rw [fetchByte_run] at h
  split at h
  · rename_i hlt
    split at h
    · cases h
      exact ⟨hlt, rfl⟩
    · cases h
  · cases h

/-- The byte after the fill bytes is not one. -/
theorem skipFill_real {c : Byte} {q : Run} (hn : inputLeft s ≤ n)
    (h : skipFill n (Run.whole s) = .ok (c, .real) q) : c ≠ 0xFF := by
  induction n generalizing s with
  | zero =>
    have hlt := (fetchByte_real h).1
    have := inputLeft_advanceCur hlt
    omega
  | succ n ih =>
    obtain ⟨⟨d, k⟩, u, hf, h⟩ := bind_eq_ok h
    cases k with
    | pad => cases h
    | real =>
      obtain ⟨hlt, rfl⟩ := fetchByte_real hf
      have hleft := inputLeft_advanceCur hlt
      simp only at h
      split at h
      · exact ih (by omega) h
      · cases h
        assumption

theorem whole_afterFF :
    Stays (WholeOf fun s => Fetching s ∧ s.rd.mode = .msb) _ afterFF := by
  have hskip := whole_skipFill (J := fun s => Fetching s ∧ s.rd.mode = .msb)
    (fun _ h => h) (fun _ h => h)
  constructor
  · intro r x q hr ho
    rw [afterFF, bind_run, look_run] at ho
    obtain ⟨⟨c, k⟩, u, hs, ho⟩ := bind_eq_ok ho
    have hu := (hskip _).ok hr hs
    cases k with
    | pad =>
      cases ho
      exact hu
    | real =>
      simp only at ho
      split at ho
      · cases ho
        exact hu
      · rename_i h0
        rw [hr.eq_whole] at hs
        have hFF := skipFill_real (Nat.le_refl _) hs
        rw [bind_run, assignAll_run] at ho
        cases ho
        exact hu.afterAll fun s hs => ⟨fetching_cacheMarker hs.1 hs.2 h0 hFF, hs.2⟩
  · intro r e q hr ho
    rw [afterFF, bind_run, look_run] at ho
    rcases bind_eq_error ho with hs | ⟨⟨c, k⟩, u, -, ho⟩
    · exact (hskip _).error hr hs
    · cases k with
      | pad => cases ho
      | real =>
        simp only at ho
        split at ho <;> cases ho

theorem whole_nextMsbByte :
    Stays (WholeOf fun s => Fetching s ∧ s.rd.mode = .msb) _ nextMsbByte := by
  refine whole_steady.look fun s _ => leads_ite (fun _ => whole_steady.pure _) fun _ =>
    steady_seq whole_steady (whole_fetchByte (fun _ h => h) (fun _ h => h)) fun x => ?_
  obtain ⟨b, k⟩ := x
  cases k with
  | pad => exact whole_steady.pure _
  | real => exact leads_ite (fun _ => whole_afterFF) fun _ => whole_steady.pure _

theorem whole_nextByte : Stays (WholeOf Fetching) _ nextByte := by
  refine leads_look fun s => ?_
  cases hm : s.rd.mode with
  | lsb => exact leads_pre (whole_fetchByte (fun _ h => h) (fun _ h => h)) fun _ hr => hr.1
  | msb =>
    exact leads_conseq whole_nextMsbByte (fun r hr => ⟨hr.1.1, hr.1.2, by rw [hr.2]; exact hm⟩)
      (fun _ hr => ⟨hr.1, hr.2.1⟩) fun _ hr => ⟨hr.1, hr.2.1⟩

theorem whole_fillLoop (n : Nat) : Stays (WholeOf Sound) _ (fillLoop n) := by
  induction n with
  | zero => exact whole_steady.pure _
  | succ n ih =>
    refine leads_look fun s => leads_ite (fun hc => ?_) fun _ => leads_pure fun _ hr => hr.1
    refine leads_pre (leads_bind (A' := WholeOf Fetching) (leads_conseq whole_nextByte (fun _ => id)
      (fun _ => id) fun _ hr => ⟨hr.1, hr.2.1⟩) fun x _ =>
        leads_bind (whole_assignAll fun s hs => sound_enterByte x.1 x.2 hs) fun _ _ => ih) ?_
    exact fun r hr => ⟨hr.1.1, hr.1.2, by rw [hr.2]; exact hc⟩

theorem whole_need (n : Nat) : Stays (WholeOf Sound) _ (need n) :=
  whole_steady.look fun _ _ => leads_ite (fun _ => whole_fillLoop 4) fun _ => whole_steady.pure _

theorem whole_consume (n : Nat) : Stays (WholeOf Sound) _ (consume n) where
  ok hr ho := by
    rw [hr.eq_whole, consume_whole] at ho
    cases ho
    exact ⟨rfl, sound_dropBits n hr.2⟩
  error _ ho := by
    rw [consume_run] at ho
    cases ho

theorem sound_readerParts : ReaderParts Sound (Stays (WholeOf Sound)) where
  need := whole_need
  fill := whole_fillLoop 4
  take n _ := steady_seq whole_steady (whole_need n) fun _ => whole_consume n
  align hg hu := whole_steady.look
    (fun s hs => steady_seq whole_steady (whole_consume _) fun x => hg s x hs) (align_unseen hu)
  alignedByte := whole_steady.look fun _ _ => leads_ite (fun _ => whole_consume 8) fun _ =>
    steady_seq whole_steady (whole_fetchByte (fun _ h => h) (fun _ h => h)) fun x => by
      obtain ⟨b, k⟩ := x
      cases k with
      | real => exact whole_steady.pure _
      | pad => exact steady_seq whole_steady (whole_assign fun _ => sound_markOvr) fun _ =>
        whole_steady.pure _
  zDecode t := steady_seq whole_steady (whole_need 16) fun _ => whole_steady.look fun s _ => by
    split
    · exact whole_steady.raise _ _
    · split
      · exact whole_steady.raise _ _
      · exact steady_seq whole_steady (whole_consume _) fun _ => whole_steady.pure _
  jDecode c i := steady_seq whole_steady (whole_need 16) fun _ => whole_steady.look fun s _ => by
    split
    · exact whole_steady.raise _ _
    · split
      · exact whole_steady.raise _ _
      · exact steady_seq whole_steady (whole_consume _) fun _ => whole_steady.pure _

end

/-! ### The tables -/

section

variable {s : State}

theorem toList_all_jSlotOk (v : Vector (Option JTable) 4) :
    v.toList.all jSlotOk = true ↔ ∀ k : Fin 4, jSlotOk v[k] = true := by
  rw [List.all_eq_true, List.forall_mem_iff_forall_getElem]
  exact ⟨fun h k => h k.val (by simp), fun h i hi => h ⟨i, by simpa using hi⟩⟩

theorem tablesOk_iff (t : Tables) : tablesOk t = true ↔
    (∀ k : Fin 3, zSlotOk k t.zt[k] = true) ∧ (∀ k : Fin 4, jSlotOk t.jdc[k] = true) ∧
      ∀ k : Fin 4, jSlotOk t.jac[k] = true := by
  simp only [tablesOk, Bool.and_eq_true, toList_all_jSlotOk, and_assoc]
  constructor
  · rintro ⟨h0, h1, h2, hj⟩
    exact ⟨Fin.forall_fin_succ.mpr ⟨h0, Fin.forall_fin_succ.mpr ⟨h1, Fin.forall_fin_succ.mpr ⟨h2, nofun⟩⟩⟩, hj⟩
  · rintro ⟨hz, hj⟩
    exact ⟨hz 0, hz 1, hz 2, hj⟩

theorem tablesOk_setZTable {k : Fin 3} {slot : Option ZTable} (h : tablesOk s.tab = true)
    (hs : zSlotOk k slot = true) : tablesOk (setZTable k slot s).tab = true := by
  obtain ⟨hz, hj⟩ := (tablesOk_iff _).mp h
  refine (tablesOk_iff _).mpr ⟨fun i => ?_, hj⟩
  rw [setZTable_tab]
  change zSlotOk i (s.tab.zt.set k slot)[i.val] = true
  rw [Vector.getElem_set]
  split
  · rename_i hki
    rwa [← Fin.ext hki]
  · exact hz i

theorem jSlotOk_set {v : Vector (Option JTable) 4} {k : Fin 4} {slot : Option JTable}
    (h : ∀ k : Fin 4, jSlotOk v[k] = true) (hs : jSlotOk slot = true) (i : Fin 4) :
    jSlotOk (v.set k slot)[i] = true := by
  change jSlotOk (v.set k slot)[i.val] = true
  rw [Vector.getElem_set]
  split
  · exact hs
  · exact h i

theorem tablesOk_setJTable {c : JClass} {k : Fin 4} {slot : Option JTable} (h : tablesOk s.tab = true)
    (hs : jSlotOk slot = true) : tablesOk (setJTable c k slot s).tab = true := by
  obtain ⟨hz, hdc, hac⟩ := (tablesOk_iff _).mp h
  cases c with
  | dc => exact (tablesOk_iff _).mpr ⟨hz, jSlotOk_set hdc hs, hac⟩
  | ac => exact (tablesOk_iff _).mpr ⟨hz, hdc, jSlotOk_set hac hs⟩

/-- Sixteen counts, by the length that each is of. -/
def countAt (bits : List Nat) (l : Nat) : Nat := bits.getD (l - 1) 0

theorem map_countAt {bits : List Nat} (h : bits.length = 16) : jLengths.map (countAt bits) = bits := by
  refine List.ext_getElem (by rw [List.length_map, h]; rfl) fun i h1 h2 => ?_
  simp only [List.getElem_map, jLengths_eq, List.getElem_range', countAt, Nat.one_mul,
    Nat.add_sub_cancel_left, List.getD_eq_getElem _ _ h2]

theorem jTableOk_of_jBuild {bits : List Nat} {vals : List Byte} {tbl : JTable}
    (h : jBuild bits vals = .ok tbl) (hb : bits.length = 16) (hv : vals.length = bits.sum)
    (hsum : bits.sum ≤ jMaxSym) : jTableOk tbl = true := by
  have hmap := map_countAt hb
  rw [← hmap] at h
  obtain ⟨-, rfl⟩ := jBuild_ok h
  have hlen : vals.length = (jLengths.map (countAt bits)).sum := by rw [hmap, hv]
  have hvals := canonEntries_val hlen
  have hcount : jLengths.map (jCount ⟨canonEntries (countAt bits) jLengths vals⟩) =
      jLengths.map (countAt bits) := by
    refine List.map_congr_left fun l hl => ?_
    rw [jCount_eq_count]
    simp only [canonEntries_size]
    rw [count_repeatedLengths jLengths_nodup hl]
  have hn : (canonEntries (countAt bits) jLengths vals).length = vals.length := by
    rw [← List.length_map (fun e : JCode => e.val), hvals]
  rw [jTableOk, hcount, hvals, h]
  simp only [Bool.and_eq_true, decide_eq_true_eq, beq_self_eq_true, and_true]
  omega

theorem sound_setZTable {k : Fin 3} {slot : Option ZTable} (hs : zSlotOk k slot = true)
    (h : Sound s) : Sound (setZTable k slot s) := ⟨h.1, tablesOk_setZTable h.2 hs⟩

theorem sound_setJTable {c : JClass} {k : Fin 4} {slot : Option JTable} (hs : jSlotOk slot = true)
    (h : Sound s) : Sound (setJTable c k slot s) :=
  ⟨by rw [setJTable_rd]; exact h.1, tablesOk_setJTable h.2 hs⟩

theorem sound_installZTable {t : Fin 3} {lens : List Nat} (hl : lens.length = zMaxSym t) :
    Stays (WholeOf Sound) _ (installZTable t lens) := by
  rw [installZTable]
  split
  · exact whole_steady.raise _ _
  · rename_i hb
    exact whole_assign fun _ => sound_setZTable (slot := some _) (zTableOk_of_zBuild hb hl)

theorem readerOk_empty {r : Reader} (hb : r.bitcnt = 0) (hp : r.padbits = 0) (ha : r.acc = 0)
    (hn : r.nomore = false) (hm : r.marker = 0xFF) : readerOk r = true := by
  refine (readerOk_iff r).mpr ⟨by omega, by omega, ?_, by simp [hn, hm], by rw [hm]; decide, by simp [hn]⟩
  cases hmode : r.mode with
  | lsb => exact windowClear_of_bits_lsb hmode fun j _ => by rw [ha]; exact BitVec.getLsbD_zero
  | msb => exact windowClear_of_bits_msb hmode fun j _ => by rw [ha]; exact BitVec.getLsbD_zero

theorem sound_landWrite (a : Nat) (v : Byte) (h : Sound s) : Sound (landWrite a v s) := h

theorem sound_memWrite (a : Nat) (v : Byte) : Stays (WholeOf Sound) _ (memWrite a v) :=
  whole_memWrite fun _ _ => sound_landWrite a v

theorem sound_writeBytes (bs : List Byte) (a : Nat) : Stays (WholeOf Sound) _ (writeBytes bs a) :=
  steady_writeBytes whole_steady sound_memWrite bs a

theorem sound_growOutput (h : Sound s) : Sound (growOutput s) := h

theorem sound_appendByte (b : Byte) : Stays (WholeOf Sound) _ (appendByte b) :=
  whole_steady.look fun _ _ => steady_seq whole_steady (sound_memWrite _ b) fun _ =>
    whole_assign fun _ => sound_growOutput

theorem sound_copyMatch (dist n : Nat) : Stays (WholeOf Sound) _ (copyMatch dist n) := by
  induction n with
  | zero => exact whole_steady.pure _
  | succ n ih =>
    exact whole_steady.look fun _ _ => steady_seq whole_steady (steady_memRead whole_steady _)
      fun b => steady_seq whole_steady (sound_appendByte b) fun _ => ih

theorem sound_advanceCur (h : Sound s) : Sound (advanceCur s) := h

theorem sound_copyStored (n : Nat) : Stays (WholeOf Sound) _ (copyStored n) := by
  induction n with
  | zero => exact whole_steady.pure _
  | succ n ih =>
    exact whole_steady.look fun _ _ => steady_seq whole_steady (steady_memRead whole_steady _)
      fun b => steady_seq whole_steady (whole_assign fun _ => sound_advanceCur) fun _ =>
        steady_seq whole_steady (sound_appendByte b) fun _ => ih

theorem sound_noteBlock (b : Nat) (h : Sound s) : Sound (noteBlock b s) := h

theorem sound_markFinal (h : Sound s) : Sound (markFinal s) := h

theorem sound_inflateParts : InflateParts Sound (Stays (WholeOf Sound)) where
  reader := sound_readerParts
  dropZTable t := whole_assign fun _ => sound_setZTable rfl
  installZTable _ _ := sound_installZTable
  outByte b := whole_steady.look fun _ _ =>
    leads_ite (fun _ => whole_steady.raise _ _) fun _ => sound_appendByte b
  checkedCopy dist len := whole_steady.look fun _ _ => steady_guard whole_steady fun _ =>
    steady_guard whole_steady fun _ => sound_copyMatch dist len
  storedRest len nlen := by
    rw [storedRest]
    exact steady_guard whole_steady fun _ => whole_steady.look fun _ _ =>
      steady_guardEof whole_steady (steady_guard whole_steady fun _ => sound_copyStored len)
  noteBlock b := whole_assign fun _ => sound_noteBlock b

theorem sound_unfilterFrom (j : RowJob) (ft left k : Nat) (out : List Byte) :
    Stays (WholeOf Sound) _ (unfilterFrom j ft left k out) := by
  induction left generalizing k out with
  | zero => exact whole_steady.pure _
  | succ n ih =>
    refine steady_seq whole_steady (steady_memRead whole_steady _) fun _ =>
      steady_seq whole_steady (leads_ite (fun _ => steady_memRead whole_steady _)
        fun _ => whole_steady.pure _) fun _ =>
        steady_seq whole_steady (leads_ite (fun _ => steady_memRead whole_steady _)
          fun _ => whole_steady.pure _) fun _ =>
          steady_seq whole_steady (sound_memWrite _ _) fun _ => leads_ite (fun _ => ?_) fun _ => ih _ _
    rw [writeAlpha_eq_writeBytes]
    exact steady_seq whole_steady (sound_writeBytes _ _) fun _ => ih _ _

theorem sound_writeRows (stride : Nat) (rows : List (List Byte)) (a : Nat) :
    Stays (WholeOf Sound) _ (writeRows stride rows a) := by
  induction rows generalizing a with
  | nil => exact whole_steady.pure _
  | cons row rows ih => exact steady_seq whole_steady (sound_writeBytes row a) fun _ => ih _

theorem sound_resetEntropy (h : Sound s) : Sound (applied entropySteps s) :=
  ⟨readerOk_empty rfl rfl rfl rfl rfl, h.2⟩

theorem sound_initReader (m : Mode) (h : Sound s) : Sound (applied (initSteps m) s) :=
  ⟨readerOk_empty rfl rfl rfl rfl rfl, h.2⟩

/-- The parts of a command keep the invariants of the reader and the tables. -/
theorem sound_parts (i : Instr) : Parts i Sound (Stays (WholeOf Sound)) where
  reader _ := sound_readerParts
  initSteps m _ := whole_assignAll fun _ => sound_initReader m
  entropySteps _ := whole_assignAll fun _ => sound_resetEntropy
  dropZTable _ _ _ := whole_assign fun _ => sound_setZTable rfl
  installZTable _ _ _ _ := sound_installZTable
  dropJTable _ _ _ := whole_assign fun _ => sound_setJTable rfl
  installJTable cls idx bits vals _ hb hsum hv := by
    rw [installJTable]
    split
    · exact whole_steady.raise _ _
    · rename_i hbuild
      exact whole_assign fun _ =>
        sound_setJTable (slot := some _) (jTableOk_of_jBuild hbuild hb hv hsum)
  setQTable _ _ _ _ := whole_assign fun _ h => ⟨h.1, h.2⟩
  clearCoefs _ _ _ _ := whole_assign fun _ h => ⟨h.1, h.2⟩
  addDc _ _ _ _ _ := whole_assign fun _ h => ⟨h.1, h.2⟩
  setCoef _ _ _ _ _ _ := whole_assign fun _ h => ⟨h.1, h.2⟩
  loadCoef _ _ _ := whole_assign fun _ h => ⟨h.1, h.2⟩
  coefStore _ _ _ := sound_writeBytes _ _
  idct _ _ _ _ _ := sound_writeRows _ _ _
  unfilter _ _ _ _ _ _ _ _ := steady_seq whole_steady (steady_memRead whole_steady _) fun _ =>
    steady_guard whole_steady fun _ => steady_seq whole_steady (sound_unfilterFrom _ _ _ _ _) fun _ =>
      whole_steady.pure _
  inflate b s _ _ := steady_inflateBlocks whole_steady (fun _ => whole_outran) sound_inflateParts
    (whole_assign fun _ => sound_markFinal) b _ _

/-- Every command keeps the invariants of the reader and the tables. -/
theorem exec_sound {i : Instr} {s t : State} (h : exec i s = .next t) (hs : Sound s) : Sound t := by
  obtain ⟨q, hq, ⟨res, rfl⟩ | ⟨code, info, rfl⟩⟩ :=
    exec_stays (steady_pseudocode whole_steady (sound_parts i)) ⟨rfl, hs⟩ h
  · exact hq.2
  · exact hq.2

/-! ### Every step -/

theorem inv_iff : s.inv = true ↔
    Sound s ∧ errorsOk s.ctl = true ∧ Memory.wf s.bus.mem = true := by
  simp only [State.inv, Sound, Bool.and_eq_true]
  constructor
  · rintro ⟨⟨⟨hr, he⟩, ht⟩, hm⟩
    exact ⟨⟨hr, ht⟩, he, hm⟩
  · rintro ⟨⟨hr, ht⟩, he, hm⟩
    exact ⟨⟨⟨hr, he⟩, ht⟩, hm⟩

theorem errorsOk_complete {res : Word} (h : errorsOk s.ctl = true) (hb : s.ctl.estate = .busy) :
    errorsOk (complete res s).ctl = true := by
  rw [errorsOk, hb] at h
  exact h

theorem errorsOk_faultEntry (code : FaultCode) (info : Word) :
    errorsOk (faultEntry code info s).ctl = true := by
  cases code <;> rfl

/-- A command's end leaves a code in FAULT and none in IDLE. -/
theorem exec_errorsOk {i : Instr} {t : State} (h : exec i s = .next t) (hs : errorsOk s.ctl = true)
    (hb : s.ctl.estate = .busy) : errorsOk t.ctl = true := by
  obtain ⟨q, hq, ⟨res, rfl⟩ | ⟨code, info, rfl⟩⟩ := exec_allows hostKept_allows h
  · exact errorsOk_complete (by rw [hq.ctl]; exact hs) (by rw [hq.ctl]; exact hb)
  · exact errorsOk_faultEntry code info

theorem inv_engineTurn {t : State} (hs : s.inv = true) (h : engineTurn s = .next t) :
    t.inv = true := by
  by_cases hb : s.ctl.estate = .busy
  · rw [engineTurn_busy hb] at h
    obtain ⟨hsound, herr, hmem⟩ := inv_iff.mp hs
    cases hd : decode s.ctl.cmd with
    | ok i =>
      rw [runLatched_ok hd] at h
      exact inv_iff.mpr ⟨exec_sound h hsound, exec_errorsOk h herr hb, (exec_keepsMem h).1 hmem⟩
    | error e =>
      rw [runLatched_error hd] at h
      cases h
      exact inv_iff.mpr ⟨hsound, rfl, hmem⟩
  · rw [engineTurn] at h
    cases he : s.ctl.estate with
    | busy => exact absurd he hb
    | idle =>
      rw [he] at h
      cases h
      exact hs
    | fault =>
      rw [he] at h
      cases h
      exact hs

theorem inv_doReset (hs : s.inv = true) : (doReset s).inv = true := by
  obtain ⟨-, -, hmem⟩ := inv_iff.mp hs
  have hfresh : ∀ t : State, Memory.wf t.bus.mem = true → (resetState t).inv = true := fun t ht =>
    inv_iff.mpr ⟨⟨readerOk_empty rfl rfl rfl rfl rfl, rfl⟩, rfl, ht⟩
  by_cases hb : s.ctl.estate = .busy
  · rw [doReset_busy hb]
    exact hfresh _ ((passing_wf _ s).1 hmem)
  · rw [doReset_of_not_busy hb]
    exact hfresh _ hmem

theorem inv_dropWrite (hs : s.inv = true) : (dropWrite s).inv = true := hs

theorem inv_unlessBusy {t : State} (hs : s.inv = true) (ht : t.inv = true) :
    (unlessBusy t s).inv = true := by
  rw [unlessBusy]
  split
  · exact inv_dropWrite hs
  · exact ht

theorem inv_writeCmd (v : Word) (hs : s.inv = true) : (writeCmd v s).inv = true := by
  obtain ⟨hsound, herr, hmem⟩ := inv_iff.mp hs
  cases he : s.ctl.estate with
  | idle =>
    rw [errorsOk, he] at herr
    rw [writeCmd, he]
    exact inv_iff.mpr ⟨hsound, herr, hmem⟩
  | busy =>
    rw [writeCmd, he]
    exact inv_dropWrite hs
  | fault =>
    rw [writeCmd, he]
    exact inv_dropWrite hs

theorem inv_writeClrerr (hs : s.inv = true) : (writeClrerr s).inv = true := by
  cases he : s.ctl.estate with
  | idle =>
    rw [writeClrerr, he]
    exact hs
  | busy =>
    rw [writeClrerr, he]
    exact inv_dropWrite hs
  | fault =>
    obtain ⟨hsound, -, hmem⟩ := inv_iff.mp hs
    rw [writeClrerr, he]
    exact inv_iff.mpr ⟨hsound, rfl, hmem⟩

theorem inv_writeCtrl (v : Word) (hs : s.inv = true) : (writeCtrl v s).inv = true := by
  rw [writeCtrl]
  split
  · exact inv_doReset hs
  · split
    · exact inv_writeClrerr (s := { s with ctl.ieDone := _, ctl.ieErr := _ }) hs
    · exact hs

theorem inv_writeInCur (v : Word) (hs : s.inv = true) : (writeInCur v s).inv = true := by
  obtain ⟨⟨-, htab⟩, hrest⟩ := inv_iff.mp hs
  exact inv_iff.mpr ⟨⟨readerOk_empty rfl rfl rfl rfl rfl, htab⟩, hrest⟩

theorem inv_regWrite (off : Nat) (v : Word) (hs : s.inv = true) : (regWrite off v s).inv = true := by
  unfold regWrite
  split
  · exact inv_writeCtrl v hs
  · exact hs
  · exact inv_writeCmd v hs
  on_goal 7 => exact inv_unlessBusy hs (inv_writeInCur v hs)
  on_goal 14 => exact hs
  all_goals exact inv_unlessBusy hs hs

theorem inv_regRead (off : Nat) (hs : s.inv = true) : (regRead off s).inv = true := by
  unfold regRead
  split <;> exact hs

theorem inv_happen {e : Event} {t : State} (hs : s.inv = true) (h : happen e s = .next t) :
    t.inv = true := by
  cases e with
  | engine => exact inv_engineTurn hs h
  | regWrite addr size v =>
    rw [happen, hostRegWrite] at h
    split at h
    · cases h
    · cases h
      exact inv_regWrite _ v hs
  | regRead addr size =>
    rw [happen, hostRegRead] at h
    split at h
    · cases h
    · cases h
      exact inv_regRead _ hs
  | memWrite a v =>
    have hwf := hostMemWrite_wf h
    rw [happen, hostMemWrite] at h
    split at h
    · cases h
    · split at h
      · cases h
      · cases h
        obtain ⟨hsound, herr, hmem⟩ := inv_iff.mp hs
        exact inv_iff.mpr ⟨hsound, herr, hwf hmem⟩
  | memRead a =>
    rw [happen, hostMemRead] at h
    split at h
    · cases h
    · split at h
      · cases h
      · cases h
        exact hs
  | hardReset =>
    cases h
    exact inv_doReset hs

/-- Settles O15: the reader's and the tables' part is kept by every part of a command's pseudocode, the
memory's by every assignment, and the host's accesses and the resets keep all of it. -/
theorem stepKeepsInvariant : Obligations.StepKeepsInvariant := by
  intro s t hs h
  rw [step, advance] at h
  split at h
  · exact inv_engineTurn hs h
  · rename_i rest _
    exact inv_happen (s := withEvents rest s) hs h

end

end Sys2Proof.Machine
end

-- Every command ends: the reader's real bits bound INFLATE's loops.
section
namespace Sys2Proof.Machine

open Sys2Proof

/-! ### Pseudocode that never outruns a bound -/

/-- From a run that meets `A` the pseudocode answers in one that meets `B`, or raises a fault. -/
structure Ends {α : Type} (A : Run → Prop) (B : α → Run → Prop) (act : Engine α) : Prop where
  ok : ∀ {r x q}, A r → act r = .ok x q → B x q
  live : ∀ {r q}, A r → act r ≠ .error .bound q

/-- No limit cuts the run, and at most `b` real bits are left. -/
def BitsLeft (b : Nat) : Run → Prop := WholeOf fun s => realBits s ≤ b

/-- The pseudocode ends, and the real bits left do not get more. -/
def Frugal (α : Type) (act : Engine α) : Prop := ∀ b, Ends (BitsLeft b) (fun _ => BitsLeft b) act

section

variable {α β : Type} {A A' : Run → Prop} {B : α → Run → Prop} {D : β → Run → Prop} {b n : Nat}
  {s : State}

theorem ends_pure {x : α} (h : ∀ r, A r → B x r) : Ends A B (pure x) where
  ok hr ho := by cases ho; exact h _ hr
  live _ ho := by cases ho

theorem ends_raise {code : FaultCode} {info : Word} : Ends A B (raise code info) where
  ok _ ho := by cases ho
  live _ ho := by cases ho

theorem ends_bind {act : Engine α} {f : α → Engine β} (ha : Ends A B act)
    (hf : ∀ x, Ends (B x) D (f x)) : Ends A D (act >>= f) where
  ok hr ho := by
    obtain ⟨x, q, h1, h2⟩ := bind_eq_ok ho
    exact (hf x).ok (ha.ok hr h1) h2
  live hr ho := by
    rcases bind_eq_error ho with h1 | ⟨x, q, h1, h2⟩
    · exact ha.live hr h1
    · exact (hf x).live (ha.ok hr h1) h2

theorem ends_look {f : State → Engine β} (h : ∀ s, Ends (fun r => A r ∧ r.st = s) D (f s)) :
    Ends A D (look >>= f) where
  ok hr ho := by
    rw [bind_run, look_run] at ho
    exact (h _).ok ⟨hr, rfl⟩ ho
  live hr ho := by
    rw [bind_run, look_run] at ho
    exact (h _).live ⟨hr, rfl⟩ ho

/-- A state looked at in a run that no limit cuts is the run. -/
theorem ends_look_whole {J : State → Prop} {f : State → Engine β}
    (h : ∀ s, J s → Ends (WholeOf fun t => t = s) D (f s)) : Ends (WholeOf J) D (look >>= f) where
  ok hr ho := by
    rw [bind_run, look_run] at ho
    exact (h _ hr.2).ok ⟨hr.1, rfl⟩ ho
  live hr ho := by
    rw [bind_run, look_run] at ho
    exact (h _ hr.2).live ⟨hr.1, rfl⟩ ho

theorem ends_ite {c : Prop} [Decidable c] {act act' : Engine α} (h : c → Ends A B act)
    (h' : ¬ c → Ends A B act') : Ends A B (if c then act else act') := by
  split
  · exact h ‹_›
  · exact h' ‹_›

theorem ends_conseq {B' : α → Run → Prop} {act : Engine α} (h : Ends A' B' act)
    (hA : ∀ r, A r → A' r) (hB : ∀ x r, B' x r → B x r) : Ends A B act where
  ok hr ho := hB _ _ (h.ok (hA _ hr) ho)
  live hr ho := h.live (hA _ hr) ho

theorem ends_pre {act : Engine α} (h : Ends A' B act) (hA : ∀ r, A r → A' r) : Ends A B act :=
  ends_conseq h hA fun _ _ => id

theorem ends_raiseEof : Ends A B raiseEof := ends_look fun _ => ends_raise

/-- What follows pseudocode that only stops is never met. -/
theorem ends_stop {act : Engine β} {f : β → Engine α} (h : Ends A (fun _ _ => False) act) :
    Ends A B (act >>= f) :=
  ends_bind h fun _ => ⟨fun hr _ => hr.elim, fun hr _ => hr.elim⟩

theorem ends_assign {J K : State → Prop} {f : State → State} (h : ∀ s, J s → K (f s)) :
    Ends (WholeOf J) (fun _ => WholeOf K) (assign f) where
  ok hr ho := by
    rw [assign_run] at ho
    cases ho
    exact hr.after h
  live _ ho := by
    rw [assign_run] at ho
    cases ho

theorem ends_assignAll {J K : State → Prop} {fs : List (State → State)}
    (h : ∀ s, J s → K (applied fs s)) :
    Ends (WholeOf J) (fun _ => WholeOf K) (assignAll fs) where
  ok hr ho := by
    rw [assignAll_run] at ho
    cases ho
    exact hr.afterAll h
  live _ ho := by
    rw [assignAll_run] at ho
    cases ho

theorem frugal_steady : Steady (fun _ => True) Frugal where
  pure _ _ := ends_pure fun _ => id
  raise _ _ _ := ends_raise
  bind {_ _ act f} ha hf b :=
    { ok := fun hr ho => by
        obtain ⟨x, q, h1, h2⟩ := bind_eq_ok ho
        exact (hf x ⟨_, _, h1⟩ b).ok ((ha b).ok hr h1) h2
      live := fun hr ho => by
        rcases bind_eq_error ho with h1 | ⟨x, q, h1, h2⟩
        · exact (ha b).live hr h1
        · exact (hf x ⟨_, _, h1⟩ b).live ((ha b).ok hr h1) h2 }
  look h _ b := ends_look fun s => ends_pre (h s trivial b) fun _ hr => hr.1

theorem frugal_assign {f : State → State} (h : ∀ s, realBits (f s) ≤ realBits s) :
    Frugal _ (assign f) := fun _ => ends_assign fun s hs => (h s).trans hs

theorem frugal_assignAll {fs : List (State → State)} (h : ∀ s, realBits (applied fs s) ≤ realBits s) :
    Frugal _ (assignAll fs) := fun _ => ends_assignAll fun s hs => (h s).trans hs

/-! ### The reader -/

/-- A real byte fetched costs eight of the bits left. -/
def FetchedBits (b : Nat) (k : ByteKind) : Run → Prop :=
  WholeOf fun s => realBits s + (if k = .real then 8 else 0) ≤ b

theorem FetchedBits.bitsLeft {k : ByteKind} {r : Run} (h : FetchedBits b k r) : BitsLeft b r :=
  ⟨h.1, (Nat.le_add_right _ _).trans h.2⟩

theorem realBits_advanceCur (h : s.rd.cur.toNat < s.rd.inLen.toNat) :
    realBits (advanceCur s) + 8 = realBits s := by
  have hleft := inputLeft_advanceCur h
  change s.rd.bitcnt - s.rd.padbits + 8 * inputLeft (advanceCur s) + 8 = realBits s
  rw [realBits]
  omega

theorem ends_fetchByte : Ends (BitsLeft b) (fun x => FetchedBits b x.2) fetchByte where
  ok {r x q} hr ho := by
    rw [hr.eq_whole, fetchByte_run] at ho
    split at ho
    · rename_i hlt
      split at ho
      · cases ho
        exact ⟨rfl, (realBits_advanceCur hlt).trans_le hr.2⟩
      · cases ho
    · cases ho
      exact ⟨rfl, hr.2⟩
  live hr ho := by
    rw [fetchByte_run] at ho
    split at ho
    · split at ho <;> cases ho
    · cases ho

theorem ends_skipFill (n : Nat) : Ends (BitsLeft b) (fun x => FetchedBits b x.2) (skipFill n) := by
  induction n with
  | zero => exact ends_fetchByte
  | succ n ih =>
    refine ends_bind ends_fetchByte fun x => ?_
    obtain ⟨c, q⟩ := x
    cases q with
    | pad => exact ends_pure fun _ => id
    | real => exact ends_ite (fun _ => ends_pre ih fun _ hr => hr.bitsLeft) fun _ => ends_pure fun _ => id

theorem ends_afterFF : Ends (BitsLeft b) (fun x => FetchedBits b x.2) afterFF := by
  refine ends_look fun s => ends_pre (ends_bind (ends_skipFill _) fun x => ?_) fun _ hr => hr.1
  obtain ⟨c, q⟩ := x
  cases q with
  | pad => exact ends_pure fun _ => id
  | real =>
    refine ends_ite (fun _ => ends_pure fun _ => id) fun _ => ends_bind
      (ends_assignAll (J := fun s => realBits s + 8 ≤ b) (K := fun s => realBits s + 8 ≤ b)
        fun _ => id) fun _ => ends_pure fun r hr => ⟨hr.1, ?_⟩
    exact (Nat.le_add_right _ 8).trans hr.2

theorem ends_nextByte : Ends (BitsLeft b) (fun x => FetchedBits b x.2) nextByte := by
  refine ends_look fun s => ends_pre (A' := BitsLeft b) ?_ fun _ hr => hr.1
  cases s.rd.mode with
  | lsb => exact ends_fetchByte
  | msb =>
    refine ends_look fun s => ends_pre (A' := BitsLeft b) ?_ fun _ hr => hr.1
    refine ends_ite (fun _ => ends_pure fun _ => id) fun _ => ends_bind ends_fetchByte fun x => ?_
    obtain ⟨c, q⟩ := x
    cases q with
    | pad => exact ends_pure fun _ => id
    | real =>
      exact ends_ite (fun _ => ends_pre ends_afterFF fun _ hr => hr.bitsLeft)
        fun _ => ends_pure fun _ => id

theorem realBits_enterByte (c : Byte) (k : ByteKind) (s : State) :
    realBits (enterByte c k s) ≤ realBits s + (if k = .real then 8 else 0) := by
  have hpad : (enterByte c k s).rd.bitcnt - (enterByte c k s).rd.padbits ≤
      s.rd.bitcnt - s.rd.padbits + (if k = .real then 8 else 0) := by
    cases k with
    | real =>
      rw [enterByte_padbits_real, enterByte_bitcnt, if_pos rfl]
      omega
    | pad =>
      rw [enterByte_padbits_pad, enterByte_bitcnt, if_neg (by decide)]
      omega
  change (enterByte c k s).rd.bitcnt - (enterByte c k s).rd.padbits + 8 * inputLeft s ≤ _
  rw [realBits]
  omega

theorem frugal_fillLoop (n : Nat) : Frugal _ (fillLoop n) := by
  induction n with
  | zero => exact frugal_steady.pure _
  | succ n ih =>
    refine fun b => ends_look fun s => ends_pre (A' := BitsLeft b) (ends_ite (fun _ => ?_)
      fun _ => ends_pure fun _ => id) fun _ hr => hr.1
    exact ends_bind ends_nextByte fun x => ends_bind
      (ends_assignAll (K := fun s => realBits s ≤ b) fun s hs =>
        (realBits_enterByte x.1 x.2 s).trans hs) fun _ => ih b

theorem frugal_need (n : Nat) : Frugal _ (need n) :=
  frugal_steady.look fun _ _ => closed_ite (frugal_fillLoop 4) (frugal_steady.pure _)

/-- The bits that leave ACC are real ones as long as there are any. -/
theorem realBits_dropBits (n : Nat) (s : State) :
    realBits (dropBits n s) = s.rd.bitcnt - s.rd.padbits - n + 8 * inputLeft s := by
  have hpad : (dropBits n s).rd.bitcnt - (dropBits n s).rd.padbits =
      s.rd.bitcnt - s.rd.padbits - n := by
    simp only [dropBits_rd, takesPad, decide_eq_true_eq]
    split <;> omega
  change (dropBits n s).rd.bitcnt - (dropBits n s).rd.padbits + 8 * inputLeft s = _
  rw [hpad]

theorem ends_consume (n : Nat) :
    Ends (BitsLeft b)
      (fun x r => BitsLeft b r ∧ (x.2 = false → n ≤ b ∧ BitsLeft (b - n) r)) (consume n) where
  ok {r x q} hr ho := by
    have hb := hr.2
    rw [hr.eq_whole, consume_whole] at ho
    cases ho
    simp only [realBits] at hb
    refine ⟨⟨rfl, ?_⟩, fun hov => ?_⟩
    · change realBits (dropBits n r.st) ≤ b
      rw [realBits_dropBits]
      omega
    · have hn : ¬ r.st.rd.bitcnt - r.st.rd.padbits < n := of_decide_eq_false hov
      refine ⟨by omega, rfl, ?_⟩
      change realBits (dropBits n r.st) ≤ b - n
      rw [realBits_dropBits]
      omega
  live _ ho := by
    rw [consume_run] at ho
    cases ho

theorem frugal_consume (n : Nat) : Frugal _ (consume n) := fun _ =>
  ends_conseq (ends_consume n) (fun _ => id) fun _ _ hr => hr.1

theorem frugal_fetchByte : Frugal _ fetchByte := fun _ =>
  ends_conseq ends_fetchByte (fun _ => id) fun _ _ hr => hr.bitsLeft

theorem frugal_readerParts : ReaderParts (fun _ => True) Frugal where
  need := frugal_need
  fill := frugal_fillLoop 4
  take n _ := steady_seq frugal_steady (frugal_need n) fun _ => frugal_consume n
  align hg hu := frugal_steady.look
    (fun s hs => steady_seq frugal_steady (frugal_consume _) fun x => hg s x hs) (align_unseen hu)
  alignedByte := frugal_steady.look fun _ _ => closed_ite (frugal_consume 8) <|
    steady_seq frugal_steady frugal_fetchByte fun x => by
      obtain ⟨c, k⟩ := x
      cases k with
      | real => exact frugal_steady.pure _
      | pad =>
        exact steady_seq frugal_steady (frugal_assign fun _ => Nat.le_refl _) fun _ =>
          frugal_steady.pure _
  zDecode t := steady_seq frugal_steady (frugal_need 16) fun _ => frugal_steady.look fun s _ => by
    split
    · exact frugal_steady.raise _ _
    · split
      · exact frugal_steady.raise _ _
      · exact steady_seq frugal_steady (frugal_consume _) fun _ => frugal_steady.pure _
  jDecode c i := steady_seq frugal_steady (frugal_need 16) fun _ => frugal_steady.look fun s _ => by
    split
    · exact frugal_steady.raise _ _
    · split
      · exact frugal_steady.raise _ _
      · exact steady_seq frugal_steady (frugal_consume _) fun _ => frugal_steady.pure _

/-! ### The other parts -/

theorem frugal_memWrite (a : Nat) (v : Byte) : Frugal _ (memWrite a v) :=
  steady_seq frugal_steady (steady_needBus frugal_steady a) fun _ =>
    frugal_assign fun _ => Nat.le_refl _

theorem frugal_writeBytes (bs : List Byte) (a : Nat) : Frugal _ (writeBytes bs a) :=
  steady_writeBytes frugal_steady frugal_memWrite bs a

theorem frugal_appendByte (v : Byte) : Frugal _ (appendByte v) :=
  frugal_steady.look fun _ _ => steady_seq frugal_steady (frugal_memWrite _ v) fun _ =>
    frugal_assign fun _ => Nat.le_refl _

theorem frugal_copyMatch (dist n : Nat) : Frugal _ (copyMatch dist n) := by
  induction n with
  | zero => exact frugal_steady.pure _
  | succ n ih =>
    exact frugal_steady.look fun _ _ => steady_seq frugal_steady (steady_memRead frugal_steady _)
      fun v => steady_seq frugal_steady (frugal_appendByte v) fun _ => ih

/-- The copy of a stored block reads bytes that the input has. -/
theorem ends_copyStored (n : Nat) :
    Ends (WholeOf fun s => realBits s ≤ b ∧ n ≤ inputLeft s) (fun _ => BitsLeft b) (copyStored n) := by
  induction n generalizing b with
  | zero => exact ends_pure fun _ hr => ⟨hr.1, hr.2.1⟩
  | succ n ih =>
    have hread : ∀ a, Ends (WholeOf fun s => realBits s ≤ b ∧ n + 1 ≤ inputLeft s)
        (fun _ => WholeOf fun s => realBits s ≤ b ∧ n + 1 ≤ inputLeft s) (memRead a) := fun a =>
      { ok := fun hr ho => by
          rw [memRead_run] at ho
          split at ho
          · cases ho
            exact hr
          · cases ho
        live := fun hr ho => by
          rw [memRead_run] at ho
          split at ho <;> cases ho }
    have happend : ∀ v, Ends (WholeOf fun s => realBits s ≤ b ∧ n ≤ inputLeft s)
        (fun _ => WholeOf fun s => realBits s ≤ b ∧ n ≤ inputLeft s) (appendByte v) := fun v => by
      refine ends_look fun s => ends_pre (ends_bind (B := fun _ => WholeOf fun s => realBits s ≤ b ∧
        n ≤ inputLeft s) ?_ fun _ => ends_assign fun _ => id) fun _ hr => hr.1
      exact
        { ok := fun hr ho => by
            rw [memWrite_run] at ho
            split at ho
            · cases ho
              exact hr.after fun _ => id
            · cases ho
          live := fun hr ho => by
            rw [memWrite_run] at ho
            split at ho <;> cases ho }
    refine ends_look fun s => ends_pre (ends_bind (hread _) fun v => ends_bind
      (ends_assign (K := fun s => realBits s ≤ b ∧ n ≤ inputLeft s) fun t ht => ?_) fun _ =>
        ends_bind (happend v) fun _ => ih) fun _ hr => hr.1
    have hlt : t.rd.cur.toNat < t.rd.inLen.toNat := by
      have := ht.2
      rw [inputLeft] at this
      omega
    have hbits := realBits_advanceCur hlt
    have hleft := inputLeft_advanceCur hlt
    exact ⟨by omega, by omega⟩

theorem frugal_storedRest (len nlen : Nat) : Frugal _ (storedRest len nlen) := by
  rw [storedRest]
  refine steady_guard frugal_steady fun _ b => ends_look fun s => ends_ite
    (fun _ => ends_stop ends_raiseEof) fun hc => ends_ite (fun _ => ends_stop ends_raise) fun _ => ?_
  refine ends_pre (ends_copyStored len) fun r hr => ⟨hr.1.1, hr.1.2, ?_⟩
  rw [hr.2]
  exact Nat.le_of_not_lt hc

theorem frugal_installZTable (t : Fin 3) (lens : List Nat) : Frugal _ (installZTable t lens) := by
  rw [installZTable]
  split
  · exact frugal_steady.raise _ _
  · exact frugal_assign fun _ => Nat.le_refl _

theorem frugal_inflateParts : InflateParts (fun _ => True) Frugal where
  reader := frugal_readerParts
  dropZTable _ := frugal_assign fun _ => Nat.le_refl _
  installZTable t lens _ := frugal_installZTable t lens
  outByte v := frugal_steady.look fun _ _ =>
    closed_ite (frugal_steady.raise _ _) (frugal_appendByte v)
  checkedCopy dist len := frugal_steady.look fun _ _ => steady_guard frugal_steady fun _ =>
    steady_guard frugal_steady fun _ => frugal_copyMatch dist len
  storedRest := frugal_storedRest
  noteBlock _ := frugal_assign fun _ => Nat.le_refl _

theorem frugal_writeRows (stride : Nat) (rows : List (List Byte)) (a : Nat) :
    Frugal _ (writeRows stride rows a) := by
  induction rows generalizing a with
  | nil => exact frugal_steady.pure _
  | cons row rows ih => exact steady_seq frugal_steady (frugal_writeBytes row a) fun _ => ih _

theorem frugal_unfilterFrom (j : RowJob) (ft left k : Nat) (out : List Byte) :
    Frugal _ (unfilterFrom j ft left k out) := by
  induction left generalizing k out with
  | zero => exact frugal_steady.pure _
  | succ n ih =>
    refine steady_seq frugal_steady (steady_memRead frugal_steady _) fun _ =>
      steady_seq frugal_steady (closed_ite (steady_memRead frugal_steady _) (frugal_steady.pure _))
        fun _ => steady_seq frugal_steady
          (closed_ite (steady_memRead frugal_steady _) (frugal_steady.pure _)) fun _ =>
            steady_seq frugal_steady (frugal_memWrite _ _) fun _ => closed_ite ?_ (ih _ _)
    rw [writeAlpha_eq_writeBytes]
    exact steady_seq frugal_steady (frugal_writeBytes _ _) fun _ => ih _ _

theorem realBits_resetEntropy (s : State) : realBits (applied entropySteps s) ≤ realBits s :=
  Nat.add_le_add_right (Nat.zero_le _) _

/-- The parts of a command that neither moves CUR back nor loops over blocks. -/
theorem frugal_parts {i : Instr} (hinit : ∀ m, i ≠ .brInit m) (hinf : ∀ b, i ≠ .inflate b) :
    Parts i (fun _ => True) Frugal where
  reader _ := frugal_readerParts
  initSteps m hi := absurd hi (hinit m)
  entropySteps _ := frugal_assignAll realBits_resetEntropy
  dropZTable _ _ _ := frugal_assign fun _ => Nat.le_refl _
  installZTable _ t lens _ _ := frugal_installZTable t lens
  dropJTable _ _ _ := frugal_assign fun s => by rw [realBits, inputLeft, setJTable_rd]; exact Nat.le_refl _
  installJTable _ _ _ _ _ _ _ _ := by
    rw [installJTable]
    split
    · exact frugal_steady.raise _ _
    · exact frugal_assign fun s => by rw [realBits, inputLeft, setJTable_rd]; exact Nat.le_refl _
  setQTable _ _ _ _ := frugal_assign fun _ => Nat.le_refl _
  clearCoefs _ _ _ _ := frugal_assign fun _ => Nat.le_refl _
  addDc _ _ _ _ _ := frugal_assign fun _ => Nat.le_refl _
  setCoef _ _ _ _ _ _ := frugal_assign fun _ => Nat.le_refl _
  loadCoef _ _ _ := frugal_assign fun _ => Nat.le_refl _
  coefStore _ _ _ := frugal_writeBytes _ _
  idct _ _ _ _ _ := frugal_writeRows _ _ _
  unfilter _ _ _ _ _ _ _ _ := steady_seq frugal_steady (steady_memRead frugal_steady _) fun _ =>
    steady_guard frugal_steady fun _ => steady_seq frugal_steady (frugal_unfilterFrom _ _ _ _ _)
      fun _ => frugal_steady.pure _
  inflate b _ hi _ := absurd hi (hinf b)

/-! ### INFLATE's loops (70_reset_and_hazards.md R433) -/

/-- A positive number of bits read leaves fewer of them. -/
def Spent (b : Nat) (r : Run) : Prop := 1 ≤ b ∧ BitsLeft (b - 1) r

theorem Spent.of_le {n : Nat} {r : Run} (hn : 1 ≤ n) (h : n ≤ b ∧ BitsLeft (b - n) r) : Spent b r :=
  ⟨hn.trans h.1, h.2.1, h.2.2.trans (by omega)⟩

theorem ends_bits {n : Nat} (hn : 1 ≤ n) : Ends (BitsLeft b) (fun _ => Spent b) (bits n) := by
  rw [bits, if_neg (by omega)]
  refine ends_bind (frugal_need n b) fun _ => ends_bind (ends_consume n) fun x => ?_
  refine ends_ite (fun _ => ends_raiseEof) fun hc => ends_pure fun r hr => ?_
  exact .of_le hn (hr.2 (by simpa using hc))

/-- A code that a DEFLATE search finds has at least one bit. -/
theorem zSearch_pos {tbl : ZTable} {ls : List Nat} {x : Nat × Nat} (hls : ∀ l ∈ ls, 1 ≤ l)
    (h : zSearch tbl s ls = some x) : 1 ≤ x.1 := by
  induction ls with
  | nil => cases h
  | cons l ls ih =>
    rw [zSearch] at h
    split at h
    · cases h
      exact hls l List.mem_cons_self
    · exact ih (fun l hl => hls l (List.mem_cons_of_mem _ hl)) h

theorem ends_zDecode (t : Fin 3) :
    Ends (BitsLeft b) (fun x r => BitsLeft b r ∧ (x.2 = false → Spent b r)) (zDecode t) := by
  refine ends_bind (frugal_need 16 b) fun _ => ends_look fun s => ends_pre (A' := BitsLeft b) ?_
    fun _ hr => hr.1
  split
  · exact ends_raise
  · split
    · exact ends_raise
    · rename_i l sym hsearch
      have hl : 1 ≤ l := zSearch_pos (fun l hl => (mem_zLengths_iff.mp hl).1) hsearch
      exact ends_bind (ends_consume l) fun x => ends_pure fun r hr =>
        ⟨hr.1, fun hov => .of_le hl (hr.2 hov)⟩

theorem ends_zSym (t : Fin 3) : Ends (BitsLeft b) (fun _ => Spent b) (zSym t) :=
  ends_bind (ends_zDecode t) fun x => ends_ite (fun _ => ends_raiseEof) fun hc =>
    ends_pure fun _ hr => hr.2 (by simpa using hc)

theorem frugal_spent {act : Engine α} (h : Frugal α act) :
    Ends (Spent b) (fun _ => Spent b) act where
  ok hr ho := ⟨hr.1, (h _).ok hr.2 ho⟩
  live hr ho := (h _).live hr.2 ho

/-- A loop's next round, with fewer bits left. -/
theorem ends_round {act : Engine α} {c : Nat} (hc : b + 1 ≤ c + 1)
    (h : ∀ b, b + 1 ≤ c → Ends (BitsLeft b) (fun _ => BitsLeft b) act) :
    Ends (Spent b) (fun _ => BitsLeft b) act where
  ok hr ho := by
    have hpos := hr.1
    have hq := (h (b - 1) (by omega)).ok hr.2 ho
    exact ⟨hq.1, hq.2.trans (by omega)⟩
  live hr ho := by
    have hpos := hr.1
    exact (h (b - 1) (by omega)).live hr.2 ho

theorem Spent.bitsLeft {r : Run} (h : Spent b r) : BitsLeft b r := ⟨h.2.1, h.2.2.trans (by omega)⟩

theorem ends_huffBlock (n : Nat) :
    ∀ b, b + 1 ≤ n → Ends (BitsLeft b) (fun _ => BitsLeft b) (huffBlock n) := by
  induction n with
  | zero => exact fun b hb => absurd hb (by omega)
  | succ n ih =>
    intro b hb
    rw [huffBlock]
    refine ends_bind (ends_zSym 0) fun sym => ?_
    exact ends_ite
      (fun _ => ends_bind (frugal_spent (frugal_inflateParts.outByte _)) fun _ => ends_round hb ih)
      fun _ => ends_ite (fun _ => ends_pure fun _ hr => hr.bitsLeft) fun _ =>
        ends_ite (fun _ => ends_raise) fun _ => ends_bind
          (frugal_spent (steady_lengthAndDistance frugal_steady frugal_inflateParts sym))
          fun _ => ends_round hb ih

theorem frugal_compressedBlock : Frugal _ compressedBlock := fun _ => ends_look_whole fun s hs =>
  ends_conseq (ends_huffBlock (bitBound s) (realBits s) (Nat.le_refl _))
    (fun _ hr => ⟨hr.1, hr.2 ▸ Nat.le_refl _⟩) fun _ _ hr => ⟨hr.1, hr.2.trans hs⟩

theorem frugal_blockBody (btype : Nat) : Frugal _ (blockBody btype) :=
  closed_ite (steady_storedBlock frugal_steady frugal_inflateParts)
    (closed_ite
      (steady_seq frugal_steady (steady_fixedTables frugal_steady frugal_inflateParts) fun _ =>
        frugal_compressedBlock)
      (closed_ite
        (steady_seq frugal_steady (steady_dynamicTables frugal_steady frugal_inflateParts) fun _ =>
          frugal_compressedBlock)
        (frugal_steady.look fun _ _ => frugal_steady.raise _ _)))

theorem ends_inflateBlock : Ends (BitsLeft b) (fun _ => Spent b) inflateBlock :=
  ends_bind (ends_bits (Nat.le_refl 1)) fun _ => frugal_spent <|
    steady_seq frugal_steady (steady_bits frugal_steady frugal_readerParts (by decide)) fun btype =>
      steady_seq frugal_steady (frugal_inflateParts.noteBlock btype) fun _ =>
        steady_seq frugal_steady (frugal_blockBody btype) fun _ => frugal_steady.pure _

theorem ends_inflateBlocks (stepMode : Bool) (n : Nat) : ∀ b, b + 1 ≤ n → ∀ nblk,
    Ends (BitsLeft b) (fun _ => BitsLeft b) (inflateBlocks stepMode n nblk) := by
  induction n with
  | zero => exact fun b hb => absurd hb (by omega)
  | succ n ih =>
    intro b hb nblk
    refine ends_bind ends_inflateBlock fun final => ends_ite (fun _ => ?_) fun _ => ends_ite
      (fun _ => ends_pure fun _ hr => hr.bitsLeft) fun _ => ends_round hb fun b hb => ih b hb _
    exact ends_pre (ends_bind (frugal_assign (f := markFinal) (fun _ => Nat.le_refl _) b) fun _ => ends_pure fun _ => id)
      fun _ hr => hr.bitsLeft

theorem ends_inflate (stepMode : Bool) :
    Ends (WholeOf fun _ => True) (fun _ _ => True) (inflate stepMode) := by
  refine ends_look_whole fun s _ => ?_
  have hblocks := ends_inflateBlocks stepMode (bitBound s) (realBits s) (Nat.le_refl _) 0
  have hchecks : Ends (BitsLeft (realBits s)) (fun _ => BitsLeft (realBits s)) _ :=
    ends_bind (steady_needMode frugal_steady .lsb _) fun _ =>
      ends_bind (steady_needInput frugal_steady _) fun _ =>
        ends_bind (steady_needRange frugal_steady (outputRegion s) _) fun _ =>
          ends_bind (B := fun _ => BitsLeft (realBits s))
            (frugal_steady.look (f := fun s => if s.out.outLen.toNat ≤ s.out.outCap.toNat then
              pure () else raise .eRange s.out.outLen)
              (fun _ _ => closed_ite (frugal_steady.pure _) (frugal_steady.raise _ _))
              (fun _ _ _ => rfl) _) fun _ =>
            ends_bind (steady_needApart frugal_steady (outputRegion s) (inputRegion s) _) fun _ =>
              ends_bind hblocks fun nblk => ends_pure (x := Word.ofNat nblk) fun _ => id
  exact ends_conseq hchecks (fun _ hr => ⟨hr.1, hr.2 ▸ Nat.le_refl _⟩) fun _ _ _ => trivial

/-! ### Every command -/

theorem ends_pseudocode (i : Instr) :
    Ends (WholeOf fun _ => True) (fun _ _ => True) (pseudocode i) := by
  have hframe : ∀ {act : Engine Word}, Frugal _ act →
      Ends (WholeOf fun _ => True) (fun _ _ => True) act := fun h =>
    { ok := fun _ _ => trivial
      live := fun hr ho => (h _).live ⟨hr.1, Nat.le_refl _⟩ ho }
  cases i with
  | inflate stepMode => exact ends_inflate stepMode
  | brInit m =>
    refine ends_bind (B := fun _ => WholeOf fun _ => True) ?_ fun _ =>
      ends_bind (ends_assignAll (K := fun _ => True) fun _ => id) fun _ => ends_pure fun _ _ => trivial
    exact
      { ok := fun hr ho => ⟨((steady_needInput frugal_steady _).ok ⟨hr.1, Nat.le_refl _⟩ ho).1, trivial⟩
        live := fun hr ho => (steady_needInput frugal_steady _).live ⟨hr.1, Nat.le_refl _⟩ ho }
  | _ =>
    exact hframe (steady_pseudocode frugal_steady
      (frugal_parts (fun _ h => by cases h) fun _ h => by cases h))

/-- Settles O9: INFLATE's loops take at least one of the reader's real bits in every round, and no other
command loops without a bound of its own. -/
theorem everyCommandEnds : Obligations.EveryCommandEnds := by
  intro i s
  rw [exec_eq]
  rcases runCommand_cases (pseudocode i) s with
    ⟨res, q, -, hn⟩ | ⟨code, info, q, -, hn⟩ | ⟨q, ho, -⟩
  · exact ⟨_, hn, .inl rfl⟩
  · exact ⟨_, hn, .inr rfl⟩
  · exact absurd ho ((ends_pseudocode i).live (wholeOf_whole.mpr trivial))

end

end Sys2Proof.Machine
end

-- COEF to and from MEM.
section
namespace Sys2Proof.Machine

open Sys2Proof

section

variable {s : State} {base n k : Nat}

/-! ### COEF_STORE -/

theorem getD_flatMap_halfBytes (hs : List Half) (j : Nat) (hj : j < 2 * hs.length) :
    (hs.flatMap halfBytes).getD j 0 = (hs.getD (j / 2) 0).extractLsb' (8 * (j % 2)) 8 := by
  induction hs generalizing j with
  | nil => simp at hj
  | cons h hs ih =>
    rw [List.flatMap_cons, halfBytes]
    match j with
    | 0 => rfl
    | 1 => rfl
    | j + 2 =>
      rw [List.length_cons] at hj
      rw [show (j + 2) / 2 = j / 2 + 1 by omega, show (j + 2) % 2 = j % 2 by omega]
      simp only [List.cons_append, List.nil_append, List.getD_cons_succ]
      exact ih j (by omega)

theorem vector_getD_eq {α : Type} {m : Nat} (v : Vector α m) (k : Nat) (d : α) :
    v.getD k d = v[k]?.getD d := by
  simp [Vector.getD]

theorem vector_getD_toList {α : Type} {m : Nat} (v : Vector α m) (k : Nat) (d : α) :
    v.toList.getD k d = v.getD k d := by
  rw [List.getD_eq_getElem?_getD, Vector.getElem?_toList, vector_getD_eq]

/-- COEF's bytes in memory order are its halves', the low one first. -/
theorem coefBytes_getD {j : Nat} (hj : j < 128) : (coefBytes s).getD j 0 = coefByte s j := by
  rw [coefBytes, getD_flatMap_halfBytes _ _ (by simpa using hj), vector_getD_toList, coefByte]

/-- COEF_STORE, as far as the run goes, writes the bytes of COEF in order (45_jpeg_idct.md R342). -/
theorem coefStore_run {left : Option Nat} (ha : answers s ⟨s.args.arg0.toNat, 128⟩ = true)
    (hwf : Memory.wf s.bus.mem = true) :
    ∃ mem left', coefStore ⟨s, left⟩ = .ok 0 ⟨withMem mem s, left'⟩ ∧ (left = none → left' = none) ∧
      Memory.wf mem = true ∧
      ∀ a, memGet mem a =
        if within a s.args.arg0.toNat (Run.reach ⟨s, left⟩ 128) then
          coefByte s (a - s.args.arg0.toNat)
        else byteAt s a := by
  have hmap : ∀ d, d < (coefBytes s).length →
      inMap (⟨s, left⟩ : Run).st.bus.holes (s.args.arg0.toNat + d) = true := fun d hd => by
    rw [length_coefBytes] at hd
    exact answers_inMap ha (Nat.le_add_right _ _) (Nat.add_lt_add_left hd _)
  obtain ⟨mem, hrun, hmem, hget⟩ := writeBytes_ok (coefBytes s) _ hmap hwf
  refine ⟨mem, left.map (fun n => n - (coefBytes s).length), ?_, fun hl => by rw [hl]; rfl, hmem,
    fun a => ?_⟩
  · rw [coefStore, bind_run, look_run]
    simp only
    rw [bind_run, needRange_run, if_pos (answers_regionFits ha)]
    simp only
    rw [bind_ok hrun]
    rfl
  · rw [hget, length_coefBytes]
    by_cases hin : within a s.args.arg0.toNat (Run.reach ⟨s, left⟩ 128) = true
    · rw [if_pos hin, if_pos hin]
      have hreach : Run.reach ⟨s, left⟩ 128 ≤ 128 := by
        cases left with
        | none => exact Nat.le_refl _
        | some m => exact Nat.min_le_right _ _
      have := within_iff.mp hin
      exact coefBytes_getD (by omega)
    · rw [if_neg hin, if_neg hin]
      rfl

/-! ### COEF_LOAD -/

theorem vector_getD_set {α : Type} {m : Nat} (v : Vector α m) {k : Nat} (hk : k < m) (j : Nat) (x d : α) :
    (v.setIfInBounds k x).getD j d = if j = k then x else v.getD j d := by
  simp only [vector_getD_eq]
  rw [Vector.getElem?_setIfInBounds]
  by_cases h : k = j
  · subst h
    simp [hk]
  · rw [if_neg h, if_neg (Ne.symm h)]

/-- `n` entries of COEF from entry `k` on, read from MEM as little-endian halves. -/
theorem loadCoefs_run (hk : k + n ≤ 64)
    (hmap : ∀ d, d < 128 → inMap s.bus.holes (base + d) = true) :
    ∃ coef : Vector Half 64, loadCoefs base n k (Run.whole s) =
        .ok () (Run.whole { s with coef := coef }) ∧
      ∀ j, coef.getD j 0 =
        if k ≤ j ∧ j < k + n then memHalf s.bus.mem (base + 2 * j) else s.coef.getD j 0 := by
  induction n generalizing k s with
  | zero =>
    refine ⟨s.coef, rfl, fun j => ?_⟩
    rw [if_neg (by omega)]
  | succ n ih =>
    obtain ⟨coef, hrun, hget⟩ := ih (s := loadCoef base k s) (k := k + 1) (by omega) hmap
    refine ⟨coef, ?_, fun j => ?_⟩
    · rw [loadCoefs, bind_run, needBus_run, if_pos (hmap (2 * k) (by omega))]
      simp only
      rw [bind_run, needBus_run, Nat.add_assoc, if_pos (hmap (2 * k + 1) (by omega))]
      exact hrun
    · rw [hget]
      change (if _ then memHalf s.bus.mem (base + 2 * j)
        else (s.coef.setIfInBounds k (memHalf s.bus.mem (base + 2 * k))).getD j 0) = _
      rw [vector_getD_set _ (by omega)]
      by_cases hj : j = k
      · subst hj
        rw [if_neg (by omega), if_pos rfl, if_pos (by omega)]
      · by_cases hin : k + 1 ≤ j ∧ j < k + 1 + n
        · rw [if_pos hin, if_pos (by omega)]
        · rw [if_neg hin, if_neg hj, if_neg (by omega)]

/-- COEF_LOAD reads the 64 entries from the 128 bytes at ARG0 (45_jpeg_idct.md R341). -/
theorem exec_coefLoad (ha : answers s ⟨s.args.arg0.toNat, 128⟩ = true) :
    ∃ coef : Vector Half 64, exec .coefLoad s = .next (completed 0 { s with coef := coef }) ∧
      ∀ j, j < 64 → coef.getD j 0 = memHalf s.bus.mem (s.args.arg0.toNat + 2 * j) := by
  obtain ⟨coef, hrun, hget⟩ := loadCoefs_run (s := s) (base := s.args.arg0.toNat) (n := 64) (k := 0)
    (by decide) fun d hd => answers_inMap ha (Nat.le_add_right _ _) (Nat.add_lt_add_left hd _)
  refine ⟨coef, ?_, fun j hj => ?_⟩
  · have hload : coefLoad (Run.whole s) = .ok 0 (Run.whole { s with coef := coef }) := by
      rw [coefLoad, bind_run, look_run]
      simp only
      rw [bind_run, needRange_run, if_pos (answers_regionFits ha)]
      simp only
      rw [bind_ok hrun]
      rfl
    rw [exec_eq]
    exact runCommand_ok hload
  · rw [hget, if_pos (by omega)]

/-- COEF_STORE writes the bytes of COEF to the 128 bytes at ARG0 (45_jpeg_idct.md R342). -/
theorem exec_coefStore (ha : answers s ⟨s.args.arg0.toNat, 128⟩ = true)
    (hwf : Memory.wf s.bus.mem = true) :
    ∃ mem, exec .coefStore s = .next (completed 0 (withMem mem s)) ∧ Memory.wf mem = true ∧
      ∀ a, memGet mem a =
        if within a s.args.arg0.toNat 128 then coefByte s (a - s.args.arg0.toNat)
        else byteAt s a := by
  obtain ⟨mem, left', hrun, hleft, hmem, hget⟩ := coefStore_run (left := none) ha hwf
  obtain rfl := hleft rfl
  refine ⟨mem, ?_, hmem, hget⟩
  rw [exec_eq]
  exact runCommand_ok hrun

/-- The two bytes of a half, put together again. -/
theorem append_coefBytes (s : State) (j : Nat) :
    coefByte s (2 * j + 1) ++ coefByte s (2 * j) = s.coef.getD j 0 := by
  rw [coefByte, coefByte, show (2 * j + 1) / 2 = j by omega, show 2 * j / 2 = j by omega,
    show (2 * j + 1) % 2 = 1 by omega, show 2 * j % 2 = 0 by omega]
  refine BitVec.eq_of_getLsbD_eq fun k hk => ?_
  rw [BitVec.getLsbD_append, BitVec.getLsbD_extractLsb', BitVec.getLsbD_extractLsb']
  by_cases h8 : k < 8
  · simp [h8]
  · simp [h8, show k - 8 < 8 by omega, show 8 + (k - 8) = k by omega]

theorem vector_ext_getD {α : Type} {m : Nat} {v w : Vector α m} {d : α}
    (h : ∀ j, j < m → v.getD j d = w.getD j d) : v = w := by
  refine Vector.ext fun j hj => ?_
  have := h j hj
  simpa [vector_getD_eq, Vector.getElem?_eq_getElem hj] using this

/-- What a store has left in MEM, a load at the same place reads back. -/
theorem memHalf_of_stored {mem : Memory} {a j : Nat} (hj : j < 64)
    (hget : ∀ b, within b a 128 = true → memGet mem b = coefByte s (b - a)) :
    memHalf mem (a + 2 * j) = s.coef.getD j 0 := by
  rw [memHalf, hget _ (within_iff.mpr (by omega)), hget _ (within_iff.mpr (by omega)),
    show a + 2 * j + 1 - a = 2 * j + 1 by omega, show a + 2 * j - a = 2 * j by omega,
    append_coefBytes]

/-- Settles O58: the loop over COEF reads and the run of bytes writes the same 128 places, so that a
load after a store restores COEF. -/
theorem coefTransfers : Obligations.CoefTransfers := by
  intro s ha
  refine ⟨exec_coefLoad ha, fun hwf => ?_⟩
  obtain ⟨mem, hstore, -, hget⟩ := exec_coefStore ha hwf
  refine ⟨mem, hstore, hget, fun other => ?_⟩
  obtain ⟨coef, hload, hcoef⟩ := exec_coefLoad
    (s := { s with bus := { s.bus with mem := mem }, coef := other }) ha
  refine ⟨_, hload, rfl, vector_ext_getD fun j hj => (hcoef j hj).trans ?_⟩
  exact memHalf_of_stored hj fun b hb => by rw [hget, if_pos hb]

/-! ### The host's accesses around a command -/

theorem run_succ {t : State} (h : step s = .next t) (n : Nat) :
    Host.Core.run Sys2Proof.core (n + 1) s = Host.Core.run Sys2Proof.core n t := by
  have hcore : Sys2Proof.core.step s = .next t := h
  simp only [Host.Core.run, hcore]

/-- The engine runs the word `w`, its turn having come (10_state.md R40). -/
def started (w : Word) (rest : List Event) (s : State) : State :=
  { s with ctl := { s.ctl with estate := .busy, cmd := w }, env := { s.env with events := rest } }

/-- The host's write of a command and the engine's turn after it. -/
theorem run_command {t : State} {w : Word} {i : Instr} {rest : List Event}
    (hidle : s.ctl.estate = .idle) (hd : decode w = .ok i)
    (hev : s.env.events = .regWrite (s.env.regBase + 0x10) 4 w :: .engine :: rest)
    (hx : exec i (started w rest s) = .next t) (n : Nat) :
    Host.Core.run Sys2Proof.core (n + 2) s = Host.Core.run Sys2Proof.core n t := by
  have hwrite : step s = .next (started w (.engine :: rest) s) := by
    rw [step_cmdWrite hev, writeCmd_idle (s := withEvents (.engine :: rest) s) hidle]
    rfl
  have hturn : step (started w (.engine :: rest) s) = .next t := by
    rw [step_of_event rfl, happen, engineTurn_busy rfl, runLatched_ok hd]
    exact hx
  rw [run_succ hwrite, run_succ hturn]

/-- COEF_LOAD between the host's accesses. -/
theorem run_coefLoad {rest : List Event} (hidle : s.ctl.estate = .idle)
    (ha : answers s ⟨s.args.arg0.toNat, 128⟩ = true)
    (hev : s.env.events = .regWrite (s.env.regBase + 0x10) 4 0x45 :: .engine :: rest) :
    ∃ t, (∀ n, Host.Core.run Sys2Proof.core (n + 2) s = Host.Core.run Sys2Proof.core n t) ∧
      t.ctl.estate = .idle ∧ t.env.regBase = s.env.regBase ∧ t.env.events = rest ∧ t.bus = s.bus ∧
      ∀ j, j < 64 → t.coef.getD j 0 = memHalf s.bus.mem (s.args.arg0.toNat + 2 * j) := by
  obtain ⟨coef, hload, hcoef⟩ := exec_coefLoad (s := started 0x45 rest s) ha
  exact ⟨_, run_command hidle rfl hev hload, rfl, rfl, rfl, rfl, hcoef⟩

/-- COEF_STORE between the host's accesses. -/
theorem run_coefStore {rest : List Event} (hidle : s.ctl.estate = .idle)
    (hwf : Memory.wf s.bus.mem = true) (ha : answers s ⟨s.args.arg0.toNat, 128⟩ = true)
    (hev : s.env.events = .regWrite (s.env.regBase + 0x10) 4 0x46 :: .engine :: rest) :
    ∃ t, (∀ n, Host.Core.run Sys2Proof.core (n + 2) s = Host.Core.run Sys2Proof.core n t) ∧
      t.ctl.estate = .idle ∧ t.env.events = rest ∧ t.bus.holes = s.bus.holes ∧
      ∀ j, j < 128 → byteAt t (s.args.arg0.toNat + j) = coefByte s j := by
  obtain ⟨mem, hstore, -, hget⟩ := exec_coefStore (s := started 0x46 rest s) ha hwf
  refine ⟨_, run_command hidle rfl hev hstore, rfl, rfl, rfl, fun j hj => ?_⟩
  have hin : within (s.args.arg0.toNat + j) s.args.arg0.toNat 128 = true :=
    within_iff.mpr ⟨Nat.le_add_right _ _, Nat.add_lt_add_left hj _⟩
  exact (hget _).trans ((if_pos hin).trans (congrArg (coefByte s) (Nat.add_sub_cancel_left _ _)))

theorem not_engineReads (h : s.ctl.estate = .idle) (a : Nat) : engineReads a s = false := by
  rw [engineReads, h]

theorem not_engineWrites (h : s.ctl.estate = .idle) (a : Nat) : engineWrites a s = false := by
  rw [engineWrites, h]

theorem step_memWrite_idle {a : Nat} {v : Byte} {rest : List Event} (hidle : s.ctl.estate = .idle)
    (ha : inMap s.bus.holes a = true) (hev : s.env.events = .memWrite a v :: rest) :
    ∃ t, step s = .next t ∧ t.ctl.estate = .idle ∧ t.env.regBase = s.env.regBase ∧
      t.env.events = rest ∧ t.args = s.args ∧
      t.bus = { s.bus with mem := memSet s.bus.mem a v } := by
  have hidle' : (withEvents rest s).ctl.estate = .idle := hidle
  have ha' : inMap (withEvents rest s).bus.holes a = true := ha
  rw [step_of_event hev, happen, hostMemWrite, ha', not_engineReads hidle', not_engineWrites hidle']
  exact ⟨_, rfl, hidle, rfl, rfl, rfl, rfl⟩

/-- The host's write of ARG0 in IDLE. -/
theorem step_arg0_idle {b : Word} {rest : List Event} (hidle : s.ctl.estate = .idle)
    (hev : s.env.events = .regWrite (s.env.regBase + 0x14) 4 b :: rest) :
    ∃ t, step s = .next t ∧ t.ctl.estate = .idle ∧ t.env.regBase = s.env.regBase ∧
      t.env.events = rest ∧ t.args.arg0 = b ∧ t.bus = s.bus ∧ t.coef = s.coef := by
  have hidle' : (withEvents rest s).ctl.estate ≠ .busy := by
    rw [withEvents_ctl, hidle]
    decide
  rw [step_regWrite (by decide) (by decide) hev, regWrite, unlessBusy_of_not_busy hidle']
  exact ⟨_, rfl, hidle, rfl, rfl, rfl, rfl, rfl⟩

theorem step_memRead_idle {a : Nat} {rest : List Event} (hidle : s.ctl.estate = .idle)
    (ha : inMap s.bus.holes a = true) (hev : s.env.events = .memRead a :: rest) :
    ∃ t, step s = .next t ∧ t.env.hostData = (byteAt s a).zeroExtend 32 := by
  have hidle' : (withEvents rest s).ctl.estate = .idle := hidle
  have ha' : inMap (withEvents rest s).bus.holes a = true := ha
  rw [step_of_event hev, happen, hostMemRead, ha', not_engineWrites hidle']
  exact ⟨_, rfl, rfl⟩

/-- The byte of COEF that a load took from MEM. -/
theorem coefByte_of_loaded {m : Memory} {a j : Nat}
    (h : s.coef.getD (j / 2) 0 = memHalf m (a + 2 * (j / 2))) : coefByte s j = memGet m (a + j) := by
  rw [coefByte, h, memHalf]
  rcases Nat.mod_two_eq_zero_or_one j with h2 | h2 <;> rw [h2]
  · rw [show a + 2 * (j / 2) = a + j by omega]
    exact BitVec.extractLsb'_append_eq_right
  · rw [show a + 2 * (j / 2) + 1 = a + j by omega]
    exact BitVec.extractLsb'_append_eq_left

/-- Settles O24: the byte goes from the host's write into COEF by the load, from there by the store to
the other place, and from there to the host's read. -/
theorem hostAndEngineOrdering : Obligations.HostAndEngineOrdering := by
  intro s b w j v hidle hwf hj hsrc hdst hw hev
  subst hw
  have hmap : inMap s.bus.holes (s.args.arg0.toNat + j) = true :=
    answers_inMap hsrc (Nat.le_add_right _ _) (Nat.add_lt_add_left hj _)
  have hmap' : inMap s.bus.holes (b.toNat + j) = true :=
    answers_inMap hdst (Nat.le_add_right _ _) (Nat.add_lt_add_left hj _)
  have hwritten := memSet_wf v (inMap_lt hmap) hwf
  -- the host's write, and COEF_LOAD
  obtain ⟨p, hput, hp, hbase, hevents, hargs, hbus⟩ := step_memWrite_idle hidle hmap hev
  rw [← hbase] at hevents
  obtain ⟨t, hload, ht, hbase', hevents', hbus', hcoef⟩ := run_coefLoad hp
    (by rw [hargs, answers, hbus]; exact hsrc) hevents
  rw [hargs, hbus] at hcoef
  -- the other place, and COEF_STORE
  rw [← hbase'] at hevents'
  obtain ⟨q, hmove, hq, hbase'', hevents'', harg0, hbus'', hcoef'⟩ := step_arg0_idle ht hevents'
  rw [← hbase''] at hevents''
  rw [hbus', hbus] at hbus''
  rw [← hcoef'] at hcoef
  obtain ⟨u, hstore, hu, hend, hholes, hbyte⟩ := run_coefStore hq (by rw [hbus'']; exact hwritten)
    (by rw [harg0, answers, hbus'']; exact hdst) hevents''
  rw [harg0] at hbyte
  -- the host's read
  obtain ⟨r, hread, hdata⟩ := step_memRead_idle hu (by rw [hholes, hbus'']; exact hmap') hend
  refine ⟨r, (run_succ hput 6).trans ((hload 4).trans ((run_succ hmove 3).trans
    ((hstore 1).trans (run_succ hread 0)))), hdata.trans ?_⟩
  rw [hbyte j hj, coefByte_of_loaded (hcoef (j / 2) (by omega)), memGet_memSet_same _ v hwf,
    filterType_word]

end

end Sys2Proof.Machine
end

-- A command part of the way: an aborted one and what it has written.
section
namespace Sys2Proof.Machine

open Sys2Proof

/-! ### Canonical memories with the same bytes are the same -/

section

variable {m m' : Memory} {lo lo' : Option Nat}

theorem memGet_cons (k : Nat) (v : Byte) (m : Memory) (a : Nat) :
    memGet ((k, v) :: m) a = if k < a then memGet m a else if k = a then v else memDefault := rfl

theorem memGet_head {k : Nat} {v : Byte} : memGet ((k, v) :: m) k = v := by
  rw [memGet_cons, if_neg (Nat.lt_irrefl k), if_pos rfl]

theorem memGet_before {k a : Nat} {v : Byte} (h : a < k) : memGet ((k, v) :: m) a = memDefault := by
  rw [memGet_cons, if_neg (by omega), if_neg (by omega)]

theorem memory_ext_from (h : memWfFrom lo m = true) (h' : memWfFrom lo' m' = true)
    (hget : ∀ a, memGet m a = memGet m' a) : m = m' := by
  induction m generalizing lo lo' m' with
  | nil =>
    cases m' with
    | nil => rfl
    | cons c m' =>
      obtain ⟨k, v⟩ := c
      obtain ⟨-, -, hv, -⟩ := memWfFrom_cons.mp h'
      exact absurd ((hget k).trans memGet_head).symm hv
  | cons c m ih =>
    obtain ⟨k, v⟩ := c
    obtain ⟨-, -, hv, hm⟩ := memWfFrom_cons.mp h
    cases m' with
    | nil => exact absurd (memGet_head.symm.trans (hget k)) hv
    | cons c' m' =>
      obtain ⟨k', v'⟩ := c'
      obtain ⟨-, -, hv', hm'⟩ := memWfFrom_cons.mp h'
      have hk : k = k' := by
        rcases Nat.lt_trichotomy k k' with hlt | heq | hgt
        · exact absurd (memGet_head.symm.trans ((hget k).trans (memGet_before hlt))) hv
        · exact heq
        · exact absurd (memGet_head.symm.trans ((hget k').symm.trans (memGet_before hgt))) hv'
      subst hk
      have hvv : v = v' := memGet_head.symm.trans ((hget k).trans memGet_head)
      rw [hvv, ih hm hm' fun a => ?_]
      by_cases ha : k < a
      · have := hget a
        rwa [memGet_cons, memGet_cons, if_pos ha, if_pos ha] at this
      · rw [memGet_below hm (Nat.le_of_not_lt ha), memGet_below hm' (Nat.le_of_not_lt ha)]

theorem memory_ext (h : Memory.wf m = true) (h' : Memory.wf m' = true)
    (hget : ∀ a, memGet m a = memGet m' a) : m = m' := memory_ext_from h h' hget

end

/-! ### The frame of a command part of the way -/

section

variable {i : Instr} {s u : State} {n : Nat}

/-- The assignments at a command's end touch the control registers only. -/
theorem lastSteps_ctl {o : EStateM.Result Stop Run Word} {f : State → State}
    (hf : f ∈ lastSteps s o) (t : State) : f t = { t with ctl := (f t).ctl } := by
  rcases o with ⟨res, q⟩ | ⟨_ | _, q⟩ <;>
    simp only [lastSteps, List.mem_cons, List.not_mem_nil, or_false] at hf
  · rw [hf]
  · rcases hf with rfl | rfl | rfl <;> rfl

theorem afterAll_ctl {fs : List (State → State)}
    (h : ∀ f ∈ fs, ∀ t, f t = { t with ctl := (f t).ctl }) (r : Run) :
    ∃ c, (r.afterAll fs).st = { r.st with ctl := c } := by
  induction fs generalizing r with
  | nil => exact ⟨r.st.ctl, rfl⟩
  | cons f fs ih =>
    obtain ⟨c, hc⟩ := ih (fun g hg => h g (List.mem_cons_of_mem f hg)) (r.after f)
    rw [afterAll_cons, hc]
    rcases after_st f r with hf | hf <;> rw [hf]
    · rw [h f List.mem_cons_self]
      exact ⟨c, rfl⟩
    · exact ⟨c, rfl⟩

theorem latchedPseudocode_of_latched (hi : latched s = some i) :
    latchedPseudocode s = pseudocode i := by
  rw [latchedPseudocode, hi]

theorem stays_runOf {J : Run → Prop} {α : Type} {act : Engine α} (h : Stays J α act) {r : Run}
    (hr : J r) : J (runOf (act r)) := by
  cases ho : act r with
  | ok x q => exact h.ok hr ho
  | error e q => exact h.error hr ho

/-- Where a command has got to lies in its frame, but for the control registers. -/
theorem passing_frame (hi : latched s = some i) (n : Nat) :
    ∃ q c, Frame i s q ∧ passing n s = { q with ctl := c } := by
  rw [passing, latchedPseudocode_of_latched hi]
  obtain ⟨c, hc⟩ := afterAll_ctl (fun f hf => lastSteps_ctl hf)
    (runOf (pseudocode i ⟨s, some n⟩))
    (fs := lastSteps s (pseudocode i ⟨s, some n⟩))
  exact ⟨_, c, stays_runOf (frame_pseudocode i s) (Frame.refl i s), hc⟩

theorem applied_take_succ {fs : List (State → State)} (h : n < fs.length) (s : State) :
    applied (fs.take (n + 1)) s = fs[n] (applied (fs.take n) s) := by
  rw [List.take_succ_eq_append_getElem h, applied_append]
  rfl

/-- Every assignment of a running command writes a byte that it may write, or none. -/
theorem passing_mem_succ (hi : latched s = some i) (hwf : Memory.wf s.bus.mem = true) (n : Nat) :
    (passing (n + 1) s).bus.mem = (passing n s).bus.mem ∨
      ∃ a b, storedTo i s a = true ∧
        (passing (n + 1) s).bus.mem = memSet (passing n s).bus.mem a b := by
  obtain ⟨fs, hA, -, hsteps⟩ := passing_steps hi
  obtain ⟨q, c, hq, hqn⟩ := passing_frame hi n
  obtain ⟨q', c', hq', hqn'⟩ := passing_frame hi (n + 1)
  by_cases hn : n < (fs ++ lastSteps s (pseudocode i (Run.whole s))).length
  · have hstep := hsteps (n + 1)
    rw [applied_take_succ hn, ← hsteps n] at hstep
    rcases List.mem_append.mp (List.getElem_mem hn) with hf | hf
    · rcases hA _ hf with ⟨a, v, ha, hland⟩ | hown
      · rw [hland] at hstep
        cases hsa : storedTo i s a with
        | true => exact .inr ⟨a, v, hsa, by rw [hstep]; rfl⟩
        | false =>
          left
          have hwfn : Memory.wf (passing n s).bus.mem = true := by rw [hqn]; exact hq.wf hwf
          have hwfn' : Memory.wf (passing (n + 1) s).bus.mem = true := by rw [hqn']; exact hq'.wf hwf
          refine memory_ext hwfn' hwfn fun b => ?_
          by_cases hb : b = a
          · subst hb
            rw [hqn, hqn']
            exact (hq'.outside hwf b hsa).trans (hq.outside hwf b hsa).symm
          · rw [hstep]
            exact memGet_memSet_other v hwfn hb
      · left
        rw [hstep, hown (passing n s)]
    · left
      rw [hstep, lastSteps_ctl hf]
  · left
    rw [hsteps, hsteps, List.take_of_length_le (by omega), List.take_of_length_le (by omega)]

/-- From some number of assignments on, a running command is as its end leaves it, but for the state of
the engine and the completion's or the fault's own mark. -/
theorem passing_end (hi : latched s = some i) (hu : exec i s = .next u) :
    ∃ last, ∀ n, last ≤ n → ∃ q : State,
      (∃ res, u = complete res q ∧ passing n s = { q with ctl.res := res }) ∨
      ∃ code info, u = faultEntry code info q ∧
        passing n s = { q with
          ctl.errCode := faultByte code, ctl.errOp := s.ctl.cmd.extractLsb' 0 8, ctl.faddr := info } := by
  obtain ⟨fs, -, hrun, hsteps⟩ := passing_steps hi
  refine ⟨(fs ++ lastSteps s (pseudocode i (Run.whole s))).length, fun n hn =>
    ⟨applied fs s, ?_⟩⟩
  rw [exec_eq] at hu
  rw [hsteps, List.take_of_length_le hn, applied_append]
  rcases runCommand_cases (pseudocode i) s with
    ⟨res, q, ho, hnext⟩ | ⟨code, info, q, ho, hnext⟩ | ⟨q, -, hnext⟩
  · rw [hnext] at hu
    cases hu
    rw [ho] at hrun ⊢
    obtain rfl : q = Run.whole (applied fs s) := hrun
    exact .inl ⟨res, rfl, rfl⟩
  · rw [hnext] at hu
    cases hu
    rw [ho] at hrun ⊢
    obtain rfl : q = Run.whole (applied fs s) := hrun
    exact .inr ⟨code, info, rfl, rfl⟩
  · rw [hnext] at hu
    cases hu

theorem passing_mem_end (hi : latched s = some i) (hu : exec i s = .next u) :
    ∃ last, ∀ n, last ≤ n → (passing n s).bus.mem = u.bus.mem := by
  obtain ⟨last, h⟩ := passing_end hi hu
  refine ⟨last, fun n hn => ?_⟩
  obtain ⟨q, ⟨res, rfl, hp⟩ | ⟨code, info, rfl, hp⟩⟩ := h n hn
  · rw [hp]
    rfl
  · rw [hp]
    rfl

/-- COEF_STORE part of the way has written the first bytes of its store. -/
theorem passing_coefStore (hi : latched s = some .coefStore) (hwf : Memory.wf s.bus.mem = true)
    (ha : answers s ⟨s.args.arg0.toNat, 128⟩ = true) (n : Nat) :
    ∃ k, k ≤ 128 ∧ ∀ a, byteAt (passing n s) a =
      if s.args.arg0.toNat ≤ a ∧ a < s.args.arg0.toNat + k then coefByte s (a - s.args.arg0.toNat)
      else byteAt s a := by
  obtain ⟨mem, left', hrun, -, -, hget⟩ := coefStore_run (left := some n) ha hwf
  refine ⟨min n 128, Nat.min_le_right _ _, fun a => ?_⟩
  have hp : pseudocode .coefStore ⟨s, some n⟩ = .ok 0 ⟨withMem mem s, left'⟩ := hrun
  obtain ⟨c, hc⟩ := afterAll_ctl (fun f hf => lastSteps_ctl hf) ⟨withMem mem s, left'⟩
    (fs := lastSteps s (.ok 0 ⟨withMem mem s, left'⟩))
  rw [passing, latchedPseudocode_of_latched hi, hp]
  simp only [runOf]
  rw [hc]
  refine (hget a).trans ?_
  simp only [within_iff, Run.reach]

/-- Settles O23: a command's assignments are one list, whose prefixes are what a reset leaves. -/
theorem abortLeavesPrefix : Obligations.AbortLeavesPrefix := by
  intro s p e v rest i hbusy hd hwf he hev hp
  subst hp
  have hi : latched (withEvents rest s) = some i := latched_of_decode hd
  have hbusy' : (withEvents rest s).ctl.estate = .busy := hbusy
  refine ⟨⟨by rw [passing_zero], fun n => ?_, fun u hu => passing_mem_end hi hu⟩, ?_⟩
  · rcases passing_mem_succ hi hwf n with h | ⟨a, b, ha, h⟩
    · exact .inl h
    · exact .inr ⟨a, b, by rwa [storedTo_withEvents] at ha, h⟩
  · obtain ⟨q, c, hq, hpass⟩ := passing_frame hi (Config.abortPrefix (withEvents rest s).env.freeCount)
    refine ⟨_, (step_reset ⟨v, he⟩ hev).trans (congrArg _ (doReset_busy hbusy')), rfl, ?_,
      ⟨Config.abortPrefix (withEvents rest s).env.freeCount, rfl⟩, fun a ha => ?_, fun hst ha => ?_⟩
    · exact (passing_wf _ _).1 hwf
    · have hout := hq.outside hwf a (by rwa [storedTo_withEvents])
      change memGet (passing _ (withEvents rest s)).bus.mem a = byteAt s a
      rw [hpass]
      exact hout
    · subst hst
      exact passing_coefStore hi hwf ha _

end

end Sys2Proof.Machine
end

-- Host reads while a command runs.
section
namespace Sys2Proof.Machine

open Sys2Proof

/-! ### The bits that a read draws -/

section

variable {s t : State} {off : Nat}

/-- The registers that R52 names. -/
def drawnOffsets : List Nat :=
  [0x24, 0x28, 0x2C, 0x38, 0x3C, 0x40, 0x44, 0x50, 0x54, 0x58, 0x5C, 0x60, 0x64]

theorem and_allOnes_word (v : Word) : v &&& 0xFFFFFFFF = v := by
  have h : (0xFFFFFFFF : Word) = BitVec.allOnes 32 := rfl
  rw [h, BitVec.and_allOnes]

theorem errWord_masked (s : State) : errWord s &&& 0x0000FFFF = errWord s := by
  rw [errWord_eq]
  refine BitVec.eq_of_getLsbD_eq fun j hj => ?_
  simp only [BitVec.getLsbD_and, BitVec.getLsbD_append]
  interval_cases j <;> simp

theorem brCntWord_masked (s : State) : brCntWord s &&& 0x00003F3F = brCntWord s := by
  rw [brCntWord_eq]
  refine BitVec.eq_of_getLsbD_eq fun j hj => ?_
  simp only [BitVec.getLsbD_and, BitVec.getLsbD_append]
  interval_cases j <;> simp

theorem marker_masked (b : Byte) : b.zeroExtend 32 &&& 0x000000FF = b.zeroExtend 32 := by
  rw [filterType_word]
  refine BitVec.eq_of_getLsbD_eq fun j hj => ?_
  simp only [BitVec.getLsbD_and, BitVec.getLsbD_append]
  interval_cases j <;> simp

theorem tvalidWord_masked (s : State) : tvalidWord s &&& 0x0000FFF7 = tvalidWord s := by
  rw [tvalidWord_eq]
  refine BitVec.eq_of_getLsbD_eq fun j hj => ?_
  simp only [BitVec.getLsbD_and, BitVec.getLsbD_append]
  interval_cases j <;> simp

/-- A register that R52 names has no bit outside the drawn ones. -/
theorem regValue_masked (h : off ∈ drawnOffsets) (s : State) :
    regValue off s &&& drawMask off = regValue off s := by
  simp only [drawnOffsets, List.mem_cons, List.not_mem_nil, or_false] at h
  rcases h with rfl | rfl | rfl | rfl | rfl | rfl | rfl | h
  · exact and_allOnes_word _
  · exact errWord_masked s
  iterate 3 exact and_allOnes_word _
  · exact brCntWord_masked s
  · exact marker_masked _
  rcases h with rfl | rfl | rfl | rfl | rfl | rfl
  iterate 5 exact and_allOnes_word _
  · exact tvalidWord_masked s

/-- A register that R52 does not name has no drawn bits but for STATUS. -/
theorem drawMask_of_not_drawn (h : off ∉ 0x08 :: drawnOffsets) : drawMask off = 0 := by
  unfold drawMask
  split
  on_goal 15 => rfl
  all_goals exact absurd (by decide) h

/-- The bits under a mask and the bits outside it come from where the read takes them. -/
theorem masked_parts (v w m : Word) : ((v &&& ~~~m) ||| (w &&& m)) &&& m = w &&& m ∧
    ((v &&& ~~~m) ||| (w &&& m)) &&& ~~~m = v &&& ~~~m := by
  constructor <;>
  · refine BitVec.eq_of_getLsbD_eq fun j hj => ?_
    simp only [BitVec.getLsbD_and, BitVec.getLsbD_or, BitVec.getLsbD_not, hj, decide_true,
      Bool.true_and]
    cases v.getLsbD j <;> cases w.getLsbD j <;> cases m.getLsbD j <;> rfl

theorem masked_whole (v m : Word) : (v &&& ~~~m) ||| (v &&& m) = v := by
  refine BitVec.eq_of_getLsbD_eq fun j hj => ?_
  simp only [BitVec.getLsbD_and, BitVec.getLsbD_or, BitVec.getLsbD_not, hj, decide_true,
    Bool.true_and]
  cases v.getLsbD j <;> cases m.getLsbD j <;> rfl

theorem busyValue_drawn (h : off ∈ drawnOffsets) (s : State) :
    busyValue off s = regValue off (passing (Config.busyDraw s.env.freeCount) s) := by
  have hzero : regValue off s &&& ~~~ drawMask off = 0 := by
    rw [← regValue_masked h, BitVec.and_assoc, BitVec.and_not_self]
    exact BitVec.and_zero
  rw [busyValue, hzero, regValue_masked h]
  exact BitVec.zero_or

theorem statusWord_flags (h : s.rd.eof = t.rd.eof ∧ s.rd.ovr = t.rd.ovr ∧ s.rd.nomore = t.rd.nomore) :
    statusWord s &&& 0x70 = statusWord t &&& 0x70 := by
  obtain ⟨heof, hovr, hnomore⟩ := h
  rw [statusWord_eq, statusWord_eq, heof, hovr, hnomore]
  refine BitVec.eq_of_getLsbD_eq fun j hj => ?_
  simp only [BitVec.getLsbD_and, BitVec.getLsbD_append]
  interval_cases j <;> simp

/-- STATUS in BUSY is STATUS in IDLE with its bit 0. -/
theorem statusWord_busy (hs : s.ctl.estate = .busy) (ht : t.ctl.estate = .idle)
    (h : t = { s with ctl := { s.ctl with estate := t.ctl.estate } }) :
    statusWord s = statusWord t ||| 1 := by
  rw [ht] at h
  subst h
  rw [statusWord_eq, statusWord_eq, hs]
  refine BitVec.eq_of_getLsbD_eq fun j hj => ?_
  simp only [BitVec.getLsbD_or, BitVec.getLsbD_append]
  interval_cases j <;> simp

theorem tables_ext {a b : Tables} (hz : a.zt = b.zt) (hdc : a.jdc = b.jdc) (hac : a.jac = b.jac)
    (hq : a.qt = b.qt) : a = b := by
  obtain ⟨_, _, _, _⟩ := a
  obtain ⟨_, _, _, _⟩ := b
  subst hz hdc hac hq
  rfl

theorem tvalidWord_congr (h : s.tab = t.tab) : tvalidWord s = tvalidWord t := by
  rw [tvalidWord_eq, tvalidWord_eq, h]

/-- A register outside STATUS does not show the engine's state. -/
theorem regValue_estate (h : off ≠ 0x08) (e : EState) (s : State) :
    regValue off { s with ctl := { s.ctl with estate := e } } = regValue off s := by
  unfold regValue
  split
  on_goal 3 => exact absurd rfl h
  all_goals rfl

end

/-! ### What a running command passes through -/

/-- The control registers that a command part of the way shows: as at its start, or with the first of
those that its end writes. -/
def CtlOnTheWay (c d e : Control) : Prop :=
  e = c ∨ e = { c with res := d.res } ∨ e = { c with errCode := d.errCode } ∨
    e = { c with errCode := d.errCode, errOp := d.errOp } ∨
    e = { c with errCode := d.errCode, errOp := d.errOp, faddr := d.faddr }

section

variable {i : Instr} {s u : State} {off n : Nat}

theorem lastSteps_ok_ctl {res : Word} {q : Run} (k : Nat) (p : State) {d : Control}
    (hd : d.res = res) : CtlOnTheWay p.ctl d (applied ((lastSteps s (.ok res q)).take k) p).ctl := by
  subst hd
  rcases k with _ | k
  · exact .inl rfl
  · exact .inr (.inl (by simp [lastSteps, applied]))

theorem lastSteps_raised_ctl {code : FaultCode} {info : Word} {q : Run} (k : Nat) (p : State)
    {d : Control} (hcode : d.errCode = faultByte code) (hop : d.errOp = s.ctl.cmd.extractLsb' 0 8)
    (hinfo : d.faddr = info) :
    CtlOnTheWay p.ctl d (applied ((lastSteps s (.error (.raised code info) q)).take k) p).ctl := by
  rw [CtlOnTheWay, hcode, hop, hinfo]
  rcases k with _ | _ | _ | k
  · exact .inl rfl
  · exact .inr (.inr (.inl rfl))
  · exact .inr (.inr (.inr (.inl rfl)))
  · exact .inr (.inr (.inr (.inr (by simp [lastSteps, applied]))))

/-- The control registers are the start's until the last of the pseudocode's assignments; then the
end's come one after the other. -/
theorem passing_ctl (hi : latched s = some i) (hu : exec i s = .next u) (n : Nat) :
    CtlOnTheWay s.ctl u.ctl (passing n s).ctl := by
  obtain ⟨fs, hA, hrun, hsteps⟩ := passing_steps hi
  have hfs : (applied fs s).ctl = s.ctl := (allows_applied hostKept_allows hA s).ctl
  rw [hsteps, List.take_append, applied_append]
  have hpart : (applied (fs.take n) s).ctl = s.ctl :=
    (allows_applied hostKept_allows (fun f hf => hA f (List.mem_of_mem_take hf)) s).ctl
  rcases Nat.lt_or_ge n fs.length with hlt | hge
  · left
    rw [show n - fs.length = 0 by omega]
    exact hpart
  · rw [List.take_of_length_le hge]
    rw [exec_eq] at hu
    rcases runCommand_cases (pseudocode i) s with
      ⟨res, q, ho, hnext⟩ | ⟨code, info, q, ho, hnext⟩ | ⟨q, -, hnext⟩
    · rw [hnext] at hu
      cases hu
      rw [ho, ← hfs]
      exact lastSteps_ok_ctl _ _ rfl
    · rw [hnext] at hu
      cases hu
      rw [ho] at hrun ⊢
      obtain rfl : q = Run.whole (applied fs s) := hrun
      have hway := lastSteps_raised_ctl (s := s) (q := Run.whole (applied fs s)) (n - fs.length)
        (applied fs s) (code := code) (info := info)
        (d := (faultEntry code info (applied fs s)).ctl) rfl (by rw [faultEntry_ctl, hfs]) rfl
      rwa [hfs] at hway
    · rw [hnext] at hu
      cases hu

/-- A named register at the end of the way reads as the whole command leaves it. -/
theorem passing_end_reads (hi : latched s = some i) (hu : exec i s = .next u) :
    ∃ last, ∀ m, last ≤ m →
      (off ∈ drawnOffsets → regValue off (passing m s) = regValue off u) ∧
      (off = 0x08 → regValue off (passing m s) &&& 0x70 = regValue off u &&& 0x70) := by
  obtain ⟨fs, hA, hrun, hsteps⟩ := passing_steps hi
  have hfs : (applied fs s).ctl = s.ctl := (allows_applied hostKept_allows hA s).ctl
  have hread : ∀ (p : State) (c : Control), u = { p with ctl := u.ctl } →
      u.ctl.res = c.res → u.ctl.errCode = c.errCode → u.ctl.errOp = c.errOp → u.ctl.faddr = c.faddr →
      (off ∈ drawnOffsets → regValue off { p with ctl := c } = regValue off u) ∧
      (off = 0x08 → regValue off { p with ctl := c } &&& 0x70 = regValue off u &&& 0x70) := by
    intro p c hp hres hcode hop hfaddr
    generalize u.ctl = d at *
    subst hp
    refine ⟨fun h => ?_, fun h => ?_⟩
    · simp only [drawnOffsets, List.mem_cons, List.not_mem_nil, or_false] at h
      rcases h with rfl | rfl | rfl | h
      · exact hres.symm
      · change errWord _ = errWord _
        rw [errWord_eq, errWord_eq]
        exact congrArg₂ (fun a b : Byte => 0#16 ++ (a ++ b)) hop.symm hcode.symm
      · exact hfaddr.symm
      rcases h with rfl | rfl | rfl | rfl | rfl | rfl | rfl | rfl | rfl | rfl <;> rfl
    · subst h
      exact statusWord_flags ⟨rfl, rfl, rfl⟩
  rw [exec_eq] at hu
  refine ⟨(fs ++ lastSteps s (pseudocode i (Run.whole s))).length, fun m hm => ?_⟩
  rw [hsteps, List.take_of_length_le hm, applied_append]
  rcases runCommand_cases (pseudocode i) s with
    ⟨res, q, ho, hnext⟩ | ⟨code, info, q, ho, hnext⟩ | ⟨q, -, hnext⟩
  · rw [hnext] at hu
    cases hu
    rw [ho] at hrun ⊢
    obtain rfl : q = Run.whole (applied fs s) := hrun
    exact hread (applied fs s) { (applied fs s).ctl with res := res } rfl rfl rfl rfl rfl
  · rw [hnext] at hu
    cases hu
    rw [ho] at hrun ⊢
    obtain rfl : q = Run.whole (applied fs s) := hrun
    refine hread (applied fs s) { (applied fs s).ctl with
      errCode := faultByte code, errOp := s.ctl.cmd.extractLsb' 0 8, faddr := info } rfl rfl rfl ?_ rfl
    change (applied fs s).ctl.cmd.extractLsb' 0 8 = s.ctl.cmd.extractLsb' 0 8
    rw [hfs]
  · rw [hnext] at hu
    cases hu

/-- BR_INIT part of the way has made the first of its assignments. -/
theorem passing_brInit {m : Mode} (hi : latched s = some (.brInit m)) (n : Nat) :
    ∃ j c, j ≤ 11 ∧ passing n s = { applied ((initSteps m).take j) s with ctl := c } := by
  have hrun : ∃ j, j ≤ 11 ∧
      (runOf (pseudocode (.brInit m) ⟨s, some n⟩)).st = applied ((initSteps m).take j) s := by
    have hp : pseudocode (.brInit m) = needInput >>= fun _ => assignAll (initSteps m) >>= fun _ =>
      pure 0 := rfl
    rw [hp, bind_run, needInput_run]
    split
    · rename_i x q hok
      split at hok
      · cases hok
        refine ⟨min n 11, Nat.min_le_right _ _, ?_⟩
        rw [bind_run, assignAll_run, afterAll_limited]
        exact congrArg (fun fs => applied fs s) (List.take_eq_take_min (i := n) (l := initSteps m))
      · cases hok
    · rename_i e q herr
      split at herr
      · cases herr
      · cases herr
        exact ⟨0, Nat.zero_le _, rfl⟩
  obtain ⟨j, hj, hst⟩ := hrun
  obtain ⟨c, hc⟩ := afterAll_ctl (fun f hf => lastSteps_ctl hf)
    (runOf (pseudocode (.brInit m) ⟨s, some n⟩))
    (fs := lastSteps s (pseudocode (.brInit m) ⟨s, some n⟩))
  refine ⟨j, c, hj, ?_⟩
  rw [passing, latchedPseudocode_of_latched hi, ← hst]
  exact hc

/-- What BR_INIT's assignments can have made of the reader's registers. -/
theorem passing_brInit_reader {m : Mode} (hi : latched s = some (.brInit m)) (n : Nat) :
    ((passing n s).rd.cur = s.rd.cur ∨ (passing n s).rd.cur = 0) ∧
    ((passing n s).rd.acc = s.rd.acc ∨ (passing n s).rd.acc = 0) ∧
    (((passing n s).rd.padbits = s.rd.padbits ∧ (passing n s).rd.bitcnt = s.rd.bitcnt) ∨
      ((passing n s).rd.padbits = s.rd.padbits ∧ (passing n s).rd.bitcnt = 0) ∨
      ((passing n s).rd.padbits = 0 ∧ (passing n s).rd.bitcnt = 0)) ∧
    ((passing n s).rd.marker = s.rd.marker ∨ (passing n s).rd.marker = 0xFF) := by
  obtain ⟨j, c, hj, hp⟩ := passing_brInit hi n
  rw [hp]
  interval_cases j <;> simp [initSteps, applied]

/-- A command that reads no input shows its start's reader all the way. -/
theorem passing_reader (hi : latched s = some i)
    (ho : (opcode i).toNat ∈ [0x00, 0x10, 0x11, 0x30, 0x40, 0x45, 0x46, 0x47]) (n : Nat) :
    (passing n s).rd = s.rd := by
  obtain ⟨q, c, hq, hp⟩ := passing_frame hi n
  rw [hp]
  exact hq.reader ho

/-! ### The value of a read -/

/-- The control registers that reads while BUSY show, from those on the way. -/
theorem ctl_reads {c d e : Control} (h : CtlOnTheWay c d e) :
    (e.res = c.res ∨ e.res = d.res) ∧
    ((e.errOp = c.errOp ∧ e.errCode = c.errCode) ∨ (e.errOp = c.errOp ∧ e.errCode = d.errCode) ∨
      (e.errOp = d.errOp ∧ e.errCode = d.errCode)) ∧
    (e.faddr = c.faddr ∨ e.faddr = d.faddr) := by
  rcases h with rfl | rfl | rfl | rfl | rfl <;> simp

theorem brCntWord_of_init {b p b' p' : Nat} (h : (p' = p ∧ b' = b) ∨ (p' = p ∧ b' = 0) ∨ (p' = 0 ∧ b' = 0)) :
    let w : Word := 0#18 ++ (BitVec.ofNat 6 p' ++ (0#2 ++ BitVec.ofNat 6 b'))
    w = 0#18 ++ (BitVec.ofNat 6 p ++ (0#2 ++ BitVec.ofNat 6 b)) ∨
      w = 0#18 ++ (BitVec.ofNat 6 p ++ 0#8) ∨ w = 0 := by
  rcases h with ⟨rfl, rfl⟩ | ⟨rfl, rfl⟩ | ⟨rfl, rfl⟩
  · exact .inl rfl
  · exact .inr (.inl rfl)
  · exact .inr (.inr rfl)

/-- A host read while BUSY. -/
theorem step_read_busy {rest : List Event} (hb : s.ctl.estate = .busy) (hlt : off < blockBytes)
    (h4 : off % 4 = 0) (hev : s.env.events = .regRead (s.env.regBase + off) 4 :: rest) :
    step s = .next
      { s with env := { s.env with
          events := rest, hostData := busyValue off (withEvents rest s)
          freeCount := s.env.freeCount + 1 } } := by
  have hb' : (withEvents rest s).ctl.estate = .busy := hb
  rw [step_regRead hlt h4 hev, regRead, hb']
  rfl

end

/-- Settles O19: a read while BUSY takes its bits under the mask from one state on the command's way
and the others from the current one, and the frame of the command says which of them the way changes. -/
theorem busyReads : Obligations.BusyReads := by
  intro s p idle t i off rest hb hd hlt h4 hev hp hidle ht
  have hi : latched (withEvents rest s) = some i := latched_of_decode hd
  obtain rfl : p = withEvents rest s := hp
  have hdata : t.env.hostData = regValue off
      { withEvents rest s with ctl := { s.ctl with estate := .idle } } := by
    rw [hidle, step_regRead (s := { s with ctl := { s.ctl with estate := .idle } }) hlt h4 hev] at ht
    cases ht
    rfl
  have hstatus : off = 0x08 → regValue off (withEvents rest s) = t.env.hostData ||| 1 := by
    rintro rfl
    rw [hdata]
    exact statusWord_busy hb rfl rfl
  have hnamed : off ∈ drawnOffsets → busyValue off (withEvents rest s) =
      regValue off (passing (Config.busyDraw s.env.freeCount) (withEvents rest s)) := fun h =>
    busyValue_drawn h _
  have hkept : off ∈ drawnOffsets →
      regValue off (passing (Config.busyDraw s.env.freeCount) (withEvents rest s)) =
        regValue off (withEvents rest s) →
      busyValue off (withEvents rest s) = t.env.hostData := by
    intro h heq
    have hne : off ≠ 0x08 := fun h8 => by
      subst h8
      exact absurd h (by decide)
    rw [hnamed h, heq, hdata]
    exact (regValue_estate hne .idle (withEvents rest s)).symm
  obtain ⟨q, c, hq, hpass⟩ := passing_frame hi (Config.busyDraw s.env.freeCount)
  refine ⟨⟨passing_zero _, fun u hu => passing_end_reads hi hu⟩, s.env.freeCount + 1,
    Config.busyDraw s.env.freeCount, busyValue off (withEvents rest s), step_read_busy hb hlt h4 hev,
    fun h => ?_, hnamed, fun h => ?_, fun h => ?_, fun u hu => ?_, fun ho => ⟨fun h => ?_, fun h => ?_⟩,
    fun ho h => ?_, fun ho h => ?_, fun ho h => ?_, fun m hm _ _ => ?_⟩
  · have hne : off ≠ 0x08 := fun h8 => h (by rw [h8]; exact List.mem_cons_self)
    rw [busyValue_of_undrawn (drawMask_of_not_drawn h), hdata]
    exact (regValue_estate hne .idle (withEvents rest s)).symm
  · subst h
    exact (masked_parts _ _ _).1
  · rw [← hstatus h]
    subst h
    exact (masked_parts _ _ 0x70).2
  · obtain ⟨hres, herr, hfaddr⟩ := ctl_reads (passing_ctl hi hu (Config.busyDraw s.env.freeCount))
    refine ⟨?_, ?_, ?_⟩
    · rintro rfl
      rw [hnamed (by decide)]
      exact hres
    · rintro rfl
      rw [hnamed (by decide)]
      change errWord _ = _ ∨ errWord _ = _ ∨ errWord _ = _
      rw [errWord_eq]
      rcases herr with ⟨h1, h2⟩ | ⟨h1, h2⟩ | ⟨h1, h2⟩
      · exact .inl (by rw [h1, h2]; rfl)
      · exact .inr (.inl (by rw [h1, h2]; rfl))
      · exact .inr (.inr (by rw [h1, h2]))
    · rintro rfl
      rw [hnamed (by decide)]
      exact hfaddr
  · have hrd := passing_reader hi ho (Config.busyDraw s.env.freeCount)
    simp only [List.mem_cons, List.not_mem_nil, or_false] at h
    rcases h with rfl | rfl | rfl | rfl
    · exact hkept (by decide) (congrArg Reader.cur hrd)
    · exact hkept (by decide) (congrArg Reader.acc hrd)
    · refine hkept (by decide) ?_
      change brCntWord _ = brCntWord _
      rw [brCntWord_eq, hrd, brCntWord_eq]
    · exact hkept (by decide) (congrArg (fun r : Reader => r.marker.zeroExtend 32) hrd)
  · have hrd := passing_reader hi ho (Config.busyDraw s.env.freeCount)
    rw [← hstatus h]
    subst h
    have hflags : statusWord (passing (Config.busyDraw s.env.freeCount) (withEvents rest s)) &&& 0x70 =
        statusWord (withEvents rest s) &&& 0x70 := statusWord_flags (by rw [hrd]; exact ⟨rfl, rfl, rfl⟩)
    exact (congrArg (fun w => statusWord (withEvents rest s) &&& ~~~0x70 ||| w) hflags).trans
      (masked_whole _ 0x70)
  · subst h
    refine hkept (by decide) ?_
    rw [hpass]
    exact hq.outLen ho
  · have hdc := hq.dcpred ho
    simp only [List.mem_cons, List.not_mem_nil, or_false] at h
    rcases h with rfl | rfl | rfl | rfl
    all_goals
      refine hkept (by decide) ?_
      rw [hpass]
    · exact congrArg (fun d : Vector Word 4 => d[0]) hdc
    · exact congrArg (fun d : Vector Word 4 => d[1]) hdc
    · exact congrArg (fun d : Vector Word 4 => d[2]) hdc
    · exact congrArg (fun d : Vector Word 4 => d[3]) hdc
  · subst h
    refine hkept (by decide) ?_
    rw [hpass]
    simp only [List.mem_cons, List.not_mem_nil, or_false, not_or] at ho
    obtain ⟨ho10, ho11, ho21, ho40⟩ := ho
    obtain ⟨hdc, hac⟩ := hq.jt ho11
    refine tvalidWord_congr (tables_ext (hq.zt ?_) hdc hac (hq.qt ho40))
    simp [ho10, ho21]
  · subst hm
    obtain ⟨hcur, hacc, hcnt, hmark⟩ := passing_brInit_reader hi (Config.busyDraw s.env.freeCount)
    refine ⟨?_, ?_, ?_, ?_⟩
    · rintro rfl
      rw [hnamed (by decide)]
      exact hcur
    · rintro rfl
      rw [hnamed (by decide)]
      exact hacc
    · rintro rfl
      rw [hnamed (by decide)]
      change brCntWord _ = _ ∨ brCntWord _ = _ ∨ brCntWord _ = _
      rw [brCntWord_eq]
      exact brCntWord_of_init hcnt
    · rintro rfl
      rw [hnamed (by decide)]
      change BitVec.zeroExtend 32 _ = _ ∨ BitVec.zeroExtend 32 _ = _
      rw [filterType_word]
      exact hmark.imp (fun h => by rw [h]; rfl) fun h => by rw [h]; rfl

end Sys2Proof.Machine
end

-- The tables that commands build from MEM.
section
namespace Sys2Proof.Machine

open Sys2Proof

section

variable {s : State} {α β : Type}

theorem look_bind_run (f : State → Engine β) (r : Run) : (look >>= f) r = f r.st r := by
  rw [bind_run, look_run]

theorem assign_bind_whole (g : State → State) (f : Unit → Engine β) (s : State) :
    (assign g >>= f) (Run.whole s) = f () (Run.whole (g s)) := by
  rw [bind_run, assign_run, after_whole]

theorem needRange_of_answers {g : Region} (h : answers s g = true) (r : Run) :
    needRange g r = .ok () r := by
  rw [needRange_run, if_pos (answers_regionFits h)]

/-- The bytes of a region that answers. -/
theorem readBytes_of_answers {t : State} {g : Region} {n a : Nat} (h : answers s g = true)
    (hbus : t.bus = s.bus) (hlo : g.lo ≤ a) (hhi : a + n ≤ g.lo + g.len) :
    readBytes n a (Run.whole t) =
      .ok ((List.range n).map fun k => byteAt s (a + k)) (Run.whole t) := by
  have hread := readBytes_ok (r := Run.whole t) n a fun k hk => by
    change inMap t.bus.holes (a + k) = true
    rw [hbus]
    exact answers_inMap h (by omega) (by omega)
  rw [hread]
  simp only [byteAt, ← hbus, Run.whole]

/-! ### The checks of a DEFLATE build (42_huffman.md R203, R222) -/

/-- The first symbol with a length above 15. -/
theorem firstTooLong_eq (lens : List Nat) (k : Nat) :
    firstTooLong lens k =
      ((List.range lens.length).find? fun s => decide (15 < lens.getD s 0)).map (k + ·) := by
  induction lens generalizing k with
  | nil => rfl
  | cons l ls ih =>
    rw [firstTooLong, List.length_cons, List.range_succ_eq_map, List.find?_cons, List.find?_map]
    by_cases h : zMaxLen < l
    · have h' : 15 < l := h
      simp [h, h']
    · have h' : ¬ 15 < l := h
      simp only [h, h', if_false, List.getD_cons_zero, decide_false, ih, Function.comp_def,
        List.getD_cons_succ, Option.map_map]
      congr 1
      funext x
      exact (Nat.add_right_comm k 1 x).trans (Nat.add_assoc k x 1).symm ▸ rfl

/-- Bit 31 and a small number. -/
theorem ofNat_top_add {n : Nat} (i : Nat) (h : n < 2 ^ i) (hi : i < 32) :
    Word.ofNat (2 ^ i + n) = BitVec.ofNat 32 (2 ^ i) ||| Word.ofNat n := by
  apply BitVec.eq_of_toNat_eq
  rw [BitVec.toNat_or, Word.ofNat, Word.ofNat, BitVec.toNat_ofNat, BitVec.toNat_ofNat, BitVec.toNat_ofNat]
  have hpow : 2 ^ i * 2 ≤ 2 ^ 32 := by
    rw [← Nat.pow_succ]
    exact Nat.pow_le_pow_right (by decide) hi
  rw [Nat.mod_eq_of_lt (by omega), Nat.mod_eq_of_lt (a := 2 ^ i) (by omega), Nat.mod_eq_of_lt (by omega)]
  have := Nat.two_pow_add_eq_or_of_lt h 1
  rwa [Nat.mul_one] at this

/-- Settles O32: the two checks are the first symbol too long and the first overfull length. -/
theorem buildChecks : Obligations.BuildChecks := by
  intro lens hlen
  refine ⟨fun k hk => ?_, fun hmax => ⟨fun l hl => ?_, fun hnone => ?_⟩⟩
  · have hlt : k < lens.length := List.mem_range.mp (List.mem_of_find?_eq_some hk)
    rw [zBuild, firstTooLong_eq, hk]
    simp only [Option.map_some, Nat.zero_add]
    exact congrArg _ (ofNat_top_add 31 (by omega) (by decide))
  · rw [zBuild, (firstTooLong_eq_none_iff 0).mpr hmax, firstCodes_zLengths, hl]
    rfl
  · rw [zBuild, (firstTooLong_eq_none_iff 0).mpr hmax, firstCodes_zLengths, hnone]
    exact ⟨_, rfl⟩

/-! ### HB_ZLIB (42_huffman.md R218) -/

theorem padded_bytes {n m : Nat} (f : Nat → Byte) (h : n ≤ m) :
    padLengths m (((List.range n).map f).map fun b => b.toNat) =
      (List.range m).map fun k => if k < n then (f k).toNat else 0 := by
  refine List.ext_getElem ?_ fun k h1 h2 => ?_
  · rw [length_padLengths (by simpa using h), List.length_map, List.length_range]
  · simp only [padLengths, List.getElem_append, List.getElem_map, List.getElem_range,
      List.length_map, List.length_range, List.getElem_replicate]
    by_cases hk : k < n
    · rw [dif_pos hk, if_pos hk]
    · rw [dif_neg hk, if_neg hk]

theorem dropZTable_setZTable (t : Fin 3) (tbl : Option ZTable) :
    setZTable t tbl (setZTable t none s) = setZTable t tbl s := by
  simp only [setZTable, Vector.set_set]

/-- HB_ZLIB past its checks: the slot's bit is cleared and the lengths build or do not. -/
theorem hbZlib_run {tid : BitVec 2} (hlegal : illegalValues (.hbZlib tid) s = false)
    (ha : answers s ⟨s.args.arg0.toNat, s.args.arg1.toNat⟩ = true) :
    hbZlib tid (Run.whole s) =
      (installZTable (tableSel tid) ((List.range (zMaxSym (tableSel tid))).map fun k =>
          if k < s.args.arg1.toNat then (byteAt s (s.args.arg0.toNat + k)).toNat else 0) >>= fun _ =>
        pure 0) (Run.whole (setZTable (tableSel tid) none s)) := by
  rw [illegalValues_eq] at hlegal
  simp only [legalValues, List.all_cons, List.all_nil, id, Bool.and_true, Bool.not_eq_false',
    Bool.and_eq_true] at hlegal
  obtain ⟨htid, hcount⟩ := hlegal
  have hn : s.args.arg1.toNat ≤ zMaxSym (tableSel tid) := by
    simp only [symCountLegal, Bool.and_eq_true, decide_eq_true_eq] at hcount
    exact hcount.2
  rw [hbZlib, look_bind_run, bind_ok (by rw [needLegal_run, if_pos htid]),
    bind_ok (by rw [needLegal_run, if_pos hcount]), bind_ok (needRange_of_answers ha _),
    dropZTable, assign_bind_whole,
    bind_ok (readBytes_of_answers (t := setZTable (tableSel tid) none s) ha rfl (Nat.le_refl _)
      (Nat.le_refl _)), padded_bytes _ hn]

/-- Settles O34: the bytes of the region, padded with zeros, are the lengths that build. -/
theorem hbZlibEffect : Obligations.HbZlibEffect := by
  intro tid s lens hlegal ha hlens
  have hrun := hbZlib_run hlegal ha
  rw [← hlens] at hrun
  refine ⟨fun tbl hbuild => ?_, fun e hbuild => ?_⟩
  · rw [exec_eq, runCommand_ok (act := pseudocode (.hbZlib tid))
      (r := Run.whole (setZTable (tableSel tid) (some tbl) s)) (res := 0)]
    · rfl
    · refine hrun.trans ?_
      rw [installZTable, hbuild]
      simp only
      rw [assign_bind_whole, dropZTable_setZTable, pure_run]
  · rw [exec_eq, runCommand_raised (act := pseudocode (.hbZlib tid))
      (r := Run.whole (setZTable (tableSel tid) none s)) (code := .eBadlen) (info := e)]
    · rfl
    · refine hrun.trans ?_
      rw [installZTable, hbuild]
      rfl

/-! ### HB_JPEG (42_huffman.md R219) -/

theorem setJTable_setJTable (c : JClass) (k : Fin 4) (x y : Option JTable) :
    setJTable c k x (setJTable c k y s) = setJTable c k x s := by
  cases c <;> simp only [setJTable, Vector.set_set]

/-- HB_JPEG past the counts: the slot's bit is cleared. -/
theorem hbJpeg_run {cls : JClass} {idx : BitVec 2} {bits : List Nat}
    (ha : answers s ⟨s.args.arg0.toNat, 16⟩ = true)
    (hbits : bits = (List.range 16).map fun k => (byteAt s (s.args.arg0.toNat + k)).toNat) :
    hbJpeg cls idx (Run.whole s) =
      (do
        if jMaxSym < bits.sum then raise .eBadlen (Word.ofNat (0x40000000 + bits.sum))
        needRange ⟨s.args.arg0.toNat, 16 + bits.sum⟩
        let vals ← readBytes bits.sum (s.args.arg0.toNat + 16)
        installJTable cls (sel4 idx) bits vals
        return Word.ofNat (16 + bits.sum) : Engine Word)
        (Run.whole (setJTable cls (sel4 idx) none s)) := by
  subst hbits
  rw [hbJpeg, look_bind_run, bind_ok (needRange_of_answers ha _), assign_bind_whole,
    bind_ok (readBytes_of_answers (t := setJTable cls (sel4 idx) none s) ha (setJTable_bus ..)
      (Nat.le_refl _) (Nat.le_refl _)), List.map_map]
  rfl

/-- Settles O35: the late checks in their order, each after the slot's bit is cleared. -/
theorem hbJpegEffect : Obligations.HbJpegEffect := by
  intro cls idx s bits vals put ha hbits hvals hput
  have hput' : put = fun x => setJTable cls (sel4 idx) x s := by
    rw [hput]
    funext x
    cases cls <;> rfl
  have hrun := hbJpeg_run (cls := cls) (idx := idx) ha hbits
  rw [hput']
  refine ⟨fun hsum => ?_, fun hsum => ⟨fun hend => ?_, fun ha' => ?_⟩⟩
  · rw [if_pos (show jMaxSym < bits.sum from hsum)] at hrun
    have hword : Word.ofNat (0x40000000 + bits.sum) = 0x40000000#32 ||| Word.ofNat bits.sum := by
      refine ofNat_top_add 30 ?_ (by decide)
      have hle : bits.sum ≤ bits.length • 255 := List.sum_le_card_nsmul _ _ fun x hx => by
        rw [hbits] at hx
        obtain ⟨k, -, rfl⟩ := List.mem_map.mp hx
        exact Nat.le_of_lt_succ (BitVec.isLt _)
      have hlen : bits.length = 16 := by rw [hbits, List.length_map, List.length_range]
      rw [hlen, smul_eq_mul] at hle
      omega
    rw [exec_eq, ← hword]
    exact runCommand_raised hrun
  · rw [if_neg (show ¬ jMaxSym < bits.sum from Nat.not_lt.mpr hsum)] at hrun
    have hfits : regionFits ⟨s.args.arg0.toNat, 16 + bits.sum⟩ = false := by
      refine decide_eq_false ?_
      change ¬ s.args.arg0.toNat + (16 + bits.sum) ≤ 2 ^ 32
      omega
    have hrange : needRange ⟨s.args.arg0.toNat, 16 + bits.sum⟩
        (Run.whole (setJTable cls (sel4 idx) none s)) =
          .error (.raised .eRange s.args.arg0) (Run.whole (setJTable cls (sel4 idx) none s)) := by
      rw [needRange_run, hfits, word_ofNat_toNat]
      rfl
    beta_reduce at hrun
    rw [bind_error hrange] at hrun
    rw [exec_eq]
    exact runCommand_raised hrun
  · rw [if_neg (show ¬ jMaxSym < bits.sum from Nat.not_lt.mpr hsum)] at hrun
    beta_reduce at hrun
    rw [bind_ok (needRange_of_answers ha' _),
      bind_ok (readBytes_of_answers (t := setJTable cls (sel4 idx) none s) ha' (setJTable_bus ..)
        (Nat.le_add_right _ _) (Nat.add_assoc ..).le), ← hvals] at hrun
    refine ⟨fun tbl hbuild => ?_, fun e hbuild => ?_⟩
    · rw [installJTable, hbuild] at hrun
      simp only at hrun
      rw [assign_bind_whole, setJTable_setJTable, pure_run] at hrun
      rw [exec_eq]
      exact runCommand_ok hrun
    · rw [installJTable, hbuild] at hrun
      rw [exec_eq]
      exact runCommand_raised hrun

/-! ### QT_LOAD (45_jpeg_idct.md R334) -/

/-- Entry `i` of a table in MEM. -/
def quantAt (p16 : Bool) (s : State) (base i : Nat) : Half :=
  if p16 then byteAt s (base + 2 * i) ++ byteAt s (base + 2 * i + 1) else 0#8 ++ byteAt s (base + i)

/-- The bytes of a table answer. -/
def QuantMapped (p16 : Bool) (s : State) (base : Nat) : Prop :=
  ∀ d, d < quantBytes p16 → inMap s.bus.holes (base + d) = true

variable {p16 : Bool} {base : Nat}

theorem quantEntry_run {t : State} (h : QuantMapped p16 s base) (hbus : t.bus = s.bus) {i : Nat}
    (hi : i < 64) : quantEntry p16 base i (Run.whole t) = .ok (quantAt p16 s base i) (Run.whole t) := by
  have hread : ∀ d, d < quantBytes p16 →
      memRead (base + d) (Run.whole t) = .ok (byteAt s (base + d)) (Run.whole t) := fun d hd => by
    have hm := h d hd
    rw [← hbus] at hm
    rw [memRead_ok (r := Run.whole t) hm, byteAt, ← hbus]
  cases p16 with
  | true =>
    have hbytes : quantBytes true = 128 := rfl
    rw [quantEntry, if_pos rfl, bind_ok (hread _ (by omega)), Nat.add_assoc,
      bind_ok (hread _ (by omega)), pure_run, quantAt, if_pos rfl, Nat.add_assoc]
    refine congrArg (fun v => EStateM.Result.ok v _) (BitVec.eq_of_toNat_eq ?_)
    have h1 := (byteAt s (base + 2 * i)).isLt
    have h2 := (byteAt s (base + (2 * i + 1))).isLt
    rw [BitVec.toNat_ofNat, toNat_append_add, Nat.mod_eq_of_lt (by omega)]
    rfl
  | false =>
    have hbytes : quantBytes false = 64 := rfl
    rw [quantEntry, if_neg (by decide), bind_ok (hread _ (by omega)), pure_run, quantAt, if_neg (by decide)]
    exact congrArg (fun v => EStateM.Result.ok v _) (BitVec.setWidth_eq_append (by decide))

theorem zz_eq_getElem {i : Nat} (h : i < 64) : zz i = zigzag[i]'h :=
  List.getD_eq_getElem zigzag 0 (show i < zigzag.length from h)

theorem zz_lt {i : Nat} (h : i < 64) : zz i < 64 := by
  have hall : ∀ x ∈ zigzag, x < 64 := by decide
  rw [zz_eq_getElem h]
  exact hall _ (List.getElem_mem _)

theorem zz_injective {i j : Nat} (hi : i < 64) (hj : j < 64) (h : zz i = zz j) : i = j := by
  have hnd : zigzag.Nodup := by decide
  rw [zz_eq_getElem hi, zz_eq_getElem hj] at h
  exact (hnd.getElem_inj_iff).mp h

/-- The last `n` entries, each put at its natural place. -/
theorem quantEntries_run {t : State} (h : QuantMapped p16 s base) (hbus : t.bus = s.bus) {n : Nat}
    (hn : n ≤ 64) (tbl : Vector Half 64) :
    ∃ out, quantEntries p16 base n tbl (Run.whole t) = .ok out (Run.whole t) ∧
      ∀ i, i < 64 → out.getD (zz i) 0 =
        if 64 - n ≤ i then quantAt p16 s base i else tbl.getD (zz i) 0 := by
  induction n generalizing tbl with
  | zero => exact ⟨tbl, rfl, fun i hi => by rw [if_neg (by omega)]⟩
  | succ n ih =>
    have hi : 64 - (n + 1) < 64 := by omega
    obtain ⟨out, hrun, hget⟩ := ih (by omega)
      (tbl.setIfInBounds (zz (64 - (n + 1))) (quantAt p16 s base (64 - (n + 1))))
    refine ⟨out, ?_, fun i hlt => ?_⟩
    · rw [quantEntries, bind_ok (quantEntry_run h hbus hi), hrun]
    · rw [hget i hlt, vector_getD_set _ (zz_lt hi)]
      by_cases heq : i = 64 - (n + 1)
      · subst heq
        rw [if_neg (by omega), if_pos rfl, if_pos (Nat.le_refl _)]
      · have hz : zz i ≠ zz (64 - (n + 1)) := fun h => heq (zz_injective hlt hi h)
        rw [if_neg hz]
        by_cases hle : 64 - n ≤ i
        · rw [if_pos hle, if_pos (by omega)]
        · rw [if_neg hle, if_neg (by omega)]

/-- Settles O54: the loop places each entry by the zigzag order, which repeats no place. -/
theorem quantTableLoaded : Obligations.QuantTableLoaded := by
  intro idx p16 s ha
  have ha' : answers s ⟨s.args.arg0.toNat, quantBytes p16⟩ = true := ha
  have hmap : QuantMapped p16 s s.args.arg0.toNat := fun d hd =>
    answers_inMap ha (Nat.le_add_right _ _) (Nat.add_lt_add_left hd _)
  obtain ⟨out, hrun, hget⟩ := quantEntries_run (t := setQTable (sel4 idx) none s) hmap rfl
    (Nat.le_refl 64) (Vector.replicate 64 0)
  refine ⟨out, ?_, fun i hi => ?_⟩
  · have hload : pseudocode (.qtLoad idx p16) (Run.whole s) = .ok (Word.ofNat (quantBytes p16))
        (Run.whole (setQTable (sel4 idx) (some out) s)) := by
      change qtLoad idx p16 (Run.whole s) = _
      rw [qtLoad, look_bind_run, bind_ok (needRange_of_answers ha' _), assign_bind_whole, bind_ok hrun,
        assign_bind_whole, pure_run]
      simp only [setQTable, Vector.set_set]
    rw [exec_eq, runCommand_ok hload]
    cases p16 <;> rfl
  · rw [hget i hi, if_pos (by omega)]
    rfl

end

end Sys2Proof.Machine
end

-- The flat block of the IDCT, and whole bytes of the bitstream.
section

namespace Sys2Proof.Machine

open Sys2Proof

/-! ### A block with only a DC coefficient (45_jpeg_idct.md R347, R348) -/

/-- With every input but the first 0, the kernel is the first one scaled. -/
theorem kernelOut_first {bias : Int} {f : Nat → Int} {k : Nat}
    (h : ∀ j, 1 ≤ j → j < 8 → f j = 0) : kernelOut bias f k = f 0 * 4096 + bias := by
  have h1 := h 1 (by omega) (by omega)
  have h2 := h 2 (by omega) (by omega)
  have h3 := h 3 (by omega) (by omega)
  have h4 := h 4 (by omega) (by omega)
  have h5 := h 5 (by omega) (by omega)
  have h6 := h 6 (by omega) (by omega)
  have h7 := h 7 (by omega) (by omega)
  simp only [kernelOut, h1, h2, h3, h4, h5, h6, h7]
  split_ifs <;> omega

theorem s32_of_small {v : Int} (h1 : -2 ^ 31 ≤ v) (h2 : v < 2 ^ 31) : s32 v = v :=
  Int.bmod_eq_of_le_mul_two (by omega) (by omega)

section

variable {x : Nat → Word} {dc : Half}

theorem columnAt_zero_of_dc (h0 : x 0 = dc.signExtend 32)
    (h : ∀ i, 1 ≤ i → i < 64 → x i = 0) (r : Nat) :
    columnAt x r 0 = 4 * dc.toInt := by
  have hx0 : (x (8 * 0 + 0)).toInt = dc.toInt := by
    rw [h0]
    exact BitVec.toInt_signExtend_of_le (by decide)
  have hlo := BitVec.le_two_mul_toInt (x := dc)
  have hhi := BitVec.two_mul_toInt_lt (x := dc)
  rw [columnAt, kernelOut_first fun j h1 h8 => by rw [h _ (by omega) (by omega)]; rfl, hx0,
    s32_of_small (by omega) (by omega)]
  omega

theorem columnAt_succ_of_dc (h : ∀ i, 1 ≤ i → i < 64 → x i = 0) (r : Nat) {j : Nat}
    (h1 : 1 ≤ j) (hj : j < 8) : columnAt x r j = 0 := by
  have hzero : ∀ i, i < 8 → (x (8 * i + j)).toInt = 0 := fun i hi => by
    rw [h _ (by omega) (by omega)]
    rfl
  rw [columnAt, kernelOut_first fun i _ hi => hzero i hi, hzero 0 (by omega),
    s32_of_small (by omega) (by omega)]
  rfl

theorem pixelAt_of_dc (h0 : x 0 = dc.signExtend 32) (h : ∀ i, 1 ≤ i → i < 64 → x i = 0)
    (r c : Nat) :
    ((pixelAt x r c).toNat : Int) = max 0 (min 255 ((dc.toInt + 4) / 8 + 128)) := by
  have hlo := BitVec.le_two_mul_toInt (x := dc)
  have hhi := BitVec.two_mul_toInt_lt (x := dc)
  have hsum : (4 * dc.toInt * 4096 + (65536 + 128 * 2 ^ 17)) / 2 ^ 17 =
      (dc.toInt + 4) / 8 + 128 := by omega
  rw [pixelAt, kernelOut_first fun j h1 h8 => columnAt_succ_of_dc h r h1 h8,
    columnAt_zero_of_dc h0 h r, s32_of_small (by omega) (by omega), hsum, Byte.ofNat,
    BitVec.toNat_ofNat]
  omega

end

theorem length_columnPass (x : Nat → Word) (i : Nat) : (columnPass x i).length = 8 := by
  rw [columnPass, length_idctOnList]

/-- Settles O60: the kernel's exact integers, of which only the first column's are not 0. -/
theorem flatBlockPixels : Obligations.FlatBlockPixels := by
  unfold Obligations.FlatBlockPixels
  refine fun x dc h0 h => ⟨List.ext_getElem
    ((length_columnPass x 0).trans List.length_replicate.symm) fun r hr _ => ?_, fun r c hr hc => ?_⟩
  · have hr8 : r < 8 := length_columnPass x 0 ▸ hr
    have hlo := BitVec.le_two_mul_toInt (x := dc)
    have hhi := BitVec.two_mul_toInt_lt (x := dc)
    have hcol := (columnPass_toInt (x := x) 0 hr8).trans (columnAt_zero_of_dc h0 h r)
    rw [List.getD_eq_getElem _ _ hr] at hcol
    have hx0 : (x 0).toInt = dc.toInt := by
      rw [h0]
      exact BitVec.toInt_signExtend_of_le (by decide)
    have hfour : (4 : Word).toInt = 4 := rfl
    rw [List.getElem_replicate]
    refine BitVec.eq_of_toInt_eq (hcol.trans ?_)
    rw [BitVec.toInt_mul, hx0, hfour, Int.bmod_eq_of_le_mul_two (by omega) (by omega)]
    omega
  · rw [idctPixels_getD hr hc, pixelAt_of_dc h0 h r c]

/-! ### Whole bytes of the bitstream (41_bitreader.md R155, R160, R162, R168, R169) -/

section

variable {s : State} {n k : Nat}

/-- The state after `n` held bits have left ACC, field by field. -/
theorem dropBits_eq (hpad : s.rd.padbits ≤ s.rd.bitcnt) (hn : n ≤ s.rd.bitcnt) :
    dropBits n s =
      { s with
        rd :=
          { s.rd with
            acc := if s.rd.mode = .lsb then s.rd.acc >>> n else s.rd.acc <<< n
            bitcnt := s.rd.bitcnt - n
            padbits := min s.rd.padbits (s.rd.bitcnt - n)
            ovr := s.rd.ovr || decide (s.rd.bitcnt - n < s.rd.padbits) } } := by
  have htake : takesPad s n = decide (s.rd.bitcnt - n < s.rd.padbits) :=
    decide_eq_decide.mpr (by omega)
  have hleft := dropBits_padbits s n hpad
  have hacc : (dropBits n s).rd.acc = if s.rd.mode = .lsb then s.rd.acc >>> n else s.rd.acc <<< n := by
    cases hm : s.rd.mode with
    | lsb => rw [dropBits_acc_lsb s n hm, if_pos rfl]
    | msb => rw [dropBits_acc_msb s n hm, if_neg (by decide)]
  rw [← htake, ← hleft, ← hacc]
  rfl

/-- Settles O29: the region fits, so BR_ALIGN is one `Consume` of the partial byte's bits. -/
theorem alignEffect : Obligations.AlignEffect := by
  unfold Obligations.AlignEffect
  intro s hok hrange
  have hfits : regionFits (inputRegion s) = true := decide_eq_true hrange
  have hrun : brAlign (Run.whole s) =
      .ok (Word.ofNat (s.rd.bitcnt % 8)) (Run.whole (dropBits (s.rd.bitcnt % 8) s)) := by
    rw [brAlign, bind_ok (needInput_of_fits hfits), bind_run, look_run]
    rfl
  rw [exec_eq, pseudocode, runCommand_ok hrun, complete_eq_completed,
    dropBits_eq ((readerOk_iff _).mp hok).2.1 (Nat.mod_le _ _)]

/-- The bytes that ACC holds whole. -/
def heldBytes (s : State) : Nat := s.rd.bitcnt / 8

/-- Byte `k` of an aligned reader: one that ACC holds, or else a raw one of the input, or else 0. -/
def wholeByte (s : State) (k : Nat) : Nat :=
  if k < heldBytes s then
    (if s.rd.mode = .lsb then s.rd.acc.extractLsb' (8 * k) 8
      else s.rd.acc.extractLsb' (24 - 8 * k) 8).toNat
  else if k - heldBytes s < inputLeft s then (inputByte s (k - heldBytes s)).toNat
  else 0

/-- Byte `k` of an aligned reader is a pad byte. -/
def wholePad (s : State) (k : Nat) : Bool :=
  if k < heldBytes s then decide (s.rd.bitcnt - 8 * (k + 1) < s.rd.padbits)
  else decide (inputLeft s < k + 1 - heldBytes s)

/-- The state after `k` whole bytes of an aligned reader have been read. -/
def afterBytes (k : Nat) (s : State) : State :=
  { s with
    rd :=
      { s.rd with
        cur := s.rd.cur + Word.ofNat (min (k - heldBytes s) (inputLeft s))
        acc := if s.rd.mode = .lsb then s.rd.acc >>> (8 * k) else s.rd.acc <<< (8 * k)
        bitcnt := s.rd.bitcnt - 8 * k
        padbits := min s.rd.padbits (s.rd.bitcnt - 8 * k)
        eof := s.rd.eof || decide (inputLeft s < k - heldBytes s)
        ovr :=
          s.rd.ovr || decide (s.rd.bitcnt - 8 * k < s.rd.padbits) ||
            decide (inputLeft s < k - heldBytes s) } }

theorem afterBytes_zero (hok : readerOk s.rd = true) : afterBytes 0 s = s := by
  obtain ⟨-, hpad, -, -, -, -⟩ := (readerOk_iff _).mp hok
  have hovr : decide (s.rd.bitcnt < s.rd.padbits) = false := decide_eq_false (by omega)
  simp [afterBytes, hovr, min_eq_left hpad, Word.ofNat]

/-- Once the bytes that ACC holds are read, ACC is 0. -/
theorem acc_of_consumed (hok : readerOk s.rd = true) (hn : s.rd.bitcnt ≤ n) :
    (if s.rd.mode = .lsb then s.rd.acc >>> n else s.rd.acc <<< n) = 0 := by
  obtain ⟨-, -, hwin, -, -, -⟩ := (readerOk_iff _).mp hok
  refine BitVec.eq_of_getLsbD_eq fun j hj => ?_
  cases hm : s.rd.mode with
  | lsb =>
    rw [if_pos rfl, BitVec.getLsbD_ushiftRight, acc_high_lsb hm hwin (by omega)]
    simp
  | msb =>
    rw [if_neg (by decide), BitVec.getLsbD_shiftLeft]
    by_cases hjn : j < n
    · simp [hjn]
    · rw [acc_low_msb hm hwin (by omega)]
      simp

theorem peekBits_afterBytes (hk : k < heldBytes s) (hbit : s.rd.bitcnt ≤ 32) :
    peekBits (afterBytes k s) 8 = wholeByte s k := by
  have hk4 : k < 4 := by
    rw [heldBytes] at hk
    omega
  rw [wholeByte, if_pos hk, peekBits, afterBytes]
  cases hm : s.rd.mode with
  | lsb => simp [BitVec.extractLsb'_toNat, BitVec.toNat_ushiftRight]
  | msb =>
    have hacc := s.rd.acc.isLt
    rw [if_neg (by decide), if_neg (by decide), if_neg (by decide), BitVec.extractLsb'_toNat,
      BitVec.toNat_shiftLeft, Nat.shiftLeft_eq, Nat.shiftRight_eq_div_pow]
    dsimp only
    interval_cases k <;> omega

theorem shifted_shifted (acc : Word) (m n : Nat) :
    (if s.rd.mode = .lsb then (if s.rd.mode = .lsb then acc >>> m else acc <<< m) >>> n
      else (if s.rd.mode = .lsb then acc >>> m else acc <<< m) <<< n) =
      if s.rd.mode = .lsb then acc >>> (m + n) else acc <<< (m + n) := by
  split
  · rw [BitVec.shiftRight_add]
  · rw [BitVec.shiftLeft_add]

/-- A byte that ACC holds leaves it. -/
theorem dropBits_afterBytes (hk : k < heldBytes s) :
    dropBits 8 (afterBytes k s) = afterBytes (k + 1) s := by
  have hk8 : 8 * k + 8 ≤ s.rd.bitcnt := by
    rw [heldBytes] at hk
    omega
  have hnone : k + 1 - heldBytes s = k - heldBytes s := by omega
  have hpad : (afterBytes k s).rd.padbits ≤ (afterBytes k s).rd.bitcnt := min_le_right _ _
  have hcnt : (afterBytes k s).rd.bitcnt = s.rd.bitcnt - 8 * k := rfl
  rw [dropBits_eq hpad (by omega)]
  refine congrArg (fun r => { s with rd := r }) ((Reader.mk.injEq ..).mpr
    ⟨rfl, rfl, rfl, ?_, shifted_shifted _ _ _, Nat.sub_sub .., ?_, ?_, ?_, rfl, rfl⟩)
  · rw [hnone]
    rfl
  · change min (min s.rd.padbits (s.rd.bitcnt - 8 * k)) (s.rd.bitcnt - 8 * k - 8) = _
    omega
  · rw [hnone]
    rfl
  · rw [hnone]
    change (s.rd.ovr || decide (s.rd.bitcnt - 8 * k < s.rd.padbits) || decide (inputLeft s < k - heldBytes s) ||
      decide (s.rd.bitcnt - 8 * k - 8 < min s.rd.padbits (s.rd.bitcnt - 8 * k))) = _
    simp only [Bool.or_assoc, ← Bool.decide_or]
    exact congrArg (s.rd.ovr || ·) (decide_eq_decide.mpr (by omega))

theorem cur_afterBytes (k : Nat) (s : State) :
    (afterBytes k s).rd.cur.toNat = s.rd.cur.toNat + min (k - heldBytes s) (inputLeft s) := by
  have hcur := s.rd.cur.isLt
  have hlen := s.rd.inLen.isLt
  have hleft : inputLeft s = s.rd.inLen.toNat - s.rd.cur.toNat := rfl
  change (s.rd.cur + Word.ofNat (min (k - heldBytes s) (inputLeft s))).toNat = _
  rw [BitVec.toNat_add, Word.ofNat, BitVec.toNat_ofNat]
  omega

/-- The two states after the bytes that ACC holds have been read differ in what one fetch changes. -/
theorem afterBytes_succ (hok : readerOk s.rd = true) (hk : s.rd.bitcnt ≤ 8 * k) :
    afterBytes (k + 1) s =
      { afterBytes k s with
        rd :=
          { (afterBytes k s).rd with
            cur := s.rd.cur + Word.ofNat (min (k + 1 - heldBytes s) (inputLeft s))
            eof := s.rd.eof || decide (inputLeft s < k + 1 - heldBytes s)
            ovr := (afterBytes k s).rd.ovr || decide (inputLeft s < k + 1 - heldBytes s) } } := by
  refine congrArg (fun r => { s with rd := r }) ((Reader.mk.injEq ..).mpr
    ⟨rfl, rfl, rfl, rfl, ?_, ?_, ?_, rfl, ?_, rfl, rfl⟩)
  · exact (acc_of_consumed hok (by omega)).trans (acc_of_consumed hok hk).symm
  · change s.rd.bitcnt - 8 * (k + 1) = s.rd.bitcnt - 8 * k
    omega
  · change min s.rd.padbits (s.rd.bitcnt - 8 * (k + 1)) = min s.rd.padbits (s.rd.bitcnt - 8 * k)
    omega
  · change _ = (s.rd.ovr || decide (s.rd.bitcnt - 8 * k < s.rd.padbits) ||
      decide (inputLeft s < k - heldBytes s) || decide (inputLeft s < k + 1 - heldBytes s))
    simp only [Bool.or_assoc, ← Bool.decide_or]
    exact congrArg (s.rd.ovr || ·) (decide_eq_decide.mpr (by omega))

/-- The fetch of a byte that ACC does not hold. -/
theorem fetch_afterBytes (ha : inputAnswers s = true) (hok : readerOk s.rd = true)
    (hk : heldBytes s ≤ k) (haligned : s.rd.bitcnt % 8 = 0) :
    (k - heldBytes s < inputLeft s ∧ fetchByte (Run.whole (afterBytes k s)) =
      .ok (inputByte s (k - heldBytes s), .real) (Run.whole (afterBytes (k + 1) s))) ∨
    (inputLeft s ≤ k - heldBytes s ∧ ∃ t, fetchByte (Run.whole (afterBytes k s)) =
      .ok (0, .pad) (Run.whole t) ∧ markOvr t = afterBytes (k + 1) s) := by
  have hbit : s.rd.bitcnt ≤ 8 * k := by
    rw [heldBytes] at hk
    omega
  have hcur := cur_afterBytes k s
  have hleft : inputLeft s = s.rd.inLen.toNat - s.rd.cur.toNat := rfl
  have hlen : (afterBytes k s).rd.inLen = s.rd.inLen := rfl
  have ha' : inputAnswers (afterBytes k s) = true :=
    (inputAnswers_readerOnly ⟨rfl, rfl, rfl, rfl⟩).trans ha
  rw [afterBytes_succ hok hbit]
  obtain ⟨hlt, hfetch⟩ | ⟨hge, hfetch⟩ := fetchByte_cases ha'
  · rw [hlen, hcur] at hlt
    have hmin : min (k + 1 - heldBytes s) (inputLeft s) = min (k - heldBytes s) (inputLeft s) + 1 := by
      omega
    have hreal : ∀ m, m ≤ k + 1 - heldBytes s → decide (inputLeft s < m) = false := fun m hm =>
      decide_eq_false (by omega)
    have hbyte : inputByte (afterBytes k s) 0 = inputByte s (k - heldBytes s) := by
      rw [inputByte, hcur, inputByte, Nat.add_zero, Nat.min_eq_left (by omega)]
      rfl
    refine .inl ⟨by omega, ?_⟩
    rw [hfetch, hbyte]
    refine congrArg (fun t => EStateM.Result.ok _ (Run.whole t)) ?_
    refine congrArg (fun r => { s with rd := r }) ((Reader.mk.injEq ..).mpr
      ⟨rfl, rfl, rfl, ?_, rfl, rfl, rfl, ?_, ?_, rfl, rfl⟩)
    · change s.rd.cur + Word.ofNat (min (k - heldBytes s) (inputLeft s)) + 1 = _
      rw [hmin, Word.ofNat, Word.ofNat, BitVec.ofNat_add, BitVec.add_assoc]
      rfl
    · change (s.rd.eof || decide (inputLeft s < k - heldBytes s)) = _
      rw [hreal _ (by omega), hreal _ (Nat.le_refl _)]
    · rw [hreal _ (Nat.le_refl _), Bool.or_false]
  · rw [hlen, hcur] at hge
    have hmin : min (k + 1 - heldBytes s) (inputLeft s) = min (k - heldBytes s) (inputLeft s) := by
      omega
    have hpad : decide (inputLeft s < k + 1 - heldBytes s) = true := decide_eq_true (by omega)
    refine .inr ⟨by omega, _, hfetch, ?_⟩
    rw [hmin, hpad, Bool.or_true, Bool.or_true]
    rfl

/-- The next whole byte, and whether it is a pad byte. -/
theorem readAlignedByte_afterBytes (ha : inputAnswers s = true) (hok : readerOk s.rd = true)
    (haligned : s.rd.bitcnt % 8 = 0) (k : Nat) :
    readAlignedByte (Run.whole (afterBytes k s)) =
      .ok (wholeByte s k, wholePad s k) (Run.whole (afterBytes (k + 1) s)) := by
  have hbit := ((readerOk_iff _).mp hok).1
  have hcnt : (Run.whole (afterBytes k s)).st.rd.bitcnt = s.rd.bitcnt - 8 * k := rfl
  rw [readAlignedByte_run]
  by_cases hk : k < heldBytes s
  · have hk8 : 8 * (k + 1) ≤ s.rd.bitcnt := by
      rw [heldBytes] at hk
      omega
    have htake : takesPad (afterBytes k s) 8 = wholePad s k := by
      rw [wholePad, if_pos hk, takesPad, decide_eq_decide]
      change s.rd.bitcnt - 8 * k - min s.rd.padbits (s.rd.bitcnt - 8 * k) < 8 ↔ _
      omega
    rw [if_pos (by rw [hcnt]; omega), consume_whole, peekBits_afterBytes hk hbit,
      dropBits_afterBytes hk, htake]
  · have hk8 : s.rd.bitcnt ≤ 8 * k := by
      rw [heldBytes] at hk
      omega
    rw [if_neg (by rw [hcnt]; omega)]
    obtain ⟨hlt, hfetch⟩ | ⟨hge, t, hfetch, hmark⟩ := fetch_afterBytes ha hok (Nat.le_of_not_lt hk) haligned
    · have hpad : wholePad s k = false := by
        rw [wholePad, if_neg hk, decide_eq_false_iff_not]
        omega
      rw [hfetch, wholeByte, if_neg hk, if_pos hlt, hpad]
    · have hpad : wholePad s k = true := by
        rw [wholePad, if_neg hk, decide_eq_true_eq]
        omega
      rw [hfetch, wholeByte, if_neg hk, if_neg (Nat.not_lt.mpr hge), hpad, ← hmark]
      rfl

/-- `n` whole bytes, big-endian, after the value `v` of those before. -/
theorem readBytesBE_afterBytes (ha : inputAnswers s = true) (hok : readerOk s.rd = true)
    (haligned : s.rd.bitcnt % 8 = 0) (k n v : Nat) :
    readBytesBE n v (Run.whole (afterBytes k s)) =
      .ok ((List.range n).foldl (fun v j => v * 256 + wholeByte s (k + j)) v)
        (Run.whole (afterBytes (k + n) s)) := by
  induction n generalizing k v with
  | zero => rfl
  | succ n ih =>
    rw [readBytesBE, bind_ok (readAlignedByte_afterBytes ha hok haligned k)]
    dsimp only
    rw [ih, List.range_succ_eq_map, List.foldl_cons, List.foldl_map, Nat.add_assoc,
      Nat.add_comm 1 n]
    simp only [Nat.succ_eq_add_one, Nat.add_assoc, Nat.add_comm 1, Nat.add_zero]

variable {sz : BitVec 3} {chk : Bool}

theorem brReadbytes_partial (hsz : byteCountLegal sz = true) (ha : inputAnswers s = true)
    (hal : s.rd.bitcnt % 8 ≠ 0) :
    brReadbytes sz chk (Run.whole s) =
      .error (.raised .eAlign (Word.ofNat s.rd.bitcnt)) (Run.whole s) := by
  rw [brReadbytes, bind_ok (by rw [needLegal_run, if_pos hsz]), bind_ok (needInput_of_answers ha),
    look_bind_run, Run.whole, if_pos hal]
  exact bind_error (raise_run _ _ _)

theorem brReadbytes_short (hsz : byteCountLegal sz = true) (ha : inputAnswers s = true)
    (hal : s.rd.bitcnt % 8 = 0) (hshort : (chk && decide (availBytes s < sz.toNat)) = true) :
    brReadbytes sz chk (Run.whole s) = .error (.raised .eEof s.rd.cur) (Run.whole s) := by
  rw [brReadbytes, bind_ok (by rw [needLegal_run, if_pos hsz]), bind_ok (needInput_of_answers ha),
    look_bind_run, Run.whole, if_neg (not_not.mpr hal), if_pos hshort]
  exact bind_error (raise_run _ _ _)

theorem brReadbytes_enough (hsz : byteCountLegal sz = true) (ha : inputAnswers s = true)
    (hok : readerOk s.rd = true) (hal : s.rd.bitcnt % 8 = 0)
    (henough : ¬ (chk && decide (availBytes s < sz.toNat)) = true) :
    brReadbytes sz chk (Run.whole s) =
      .ok (Word.ofNat ((List.range sz.toNat).foldl (fun v j => v * 256 + wholeByte s j) 0))
        (Run.whole (afterBytes sz.toNat s)) := by
  have hread := readBytesBE_afterBytes ha hok hal 0 sz.toNat 0
  simp only [afterBytes_zero hok, Nat.zero_add] at hread
  rw [brReadbytes, bind_ok (by rw [needLegal_run, if_pos hsz]), bind_ok (needInput_of_answers ha),
    look_bind_run, Run.whole, if_neg (not_not.mpr hal), if_neg henough]
  exact bind_ok hread

/-- Settles O30: the checks in order, then the bytes one by one from `afterBytes`. -/
theorem readbytesEffect : Obligations.ReadbytesEffect := by
  unfold Obligations.ReadbytesEffect
  intro sz chk s held hsz hok ha hheld
  have hlegal : byteCountLegal sz = true := by
    simpa [byteCountLegal, ← BitVec.toNat_inj, or_assoc] using hsz
  have havail : availBytes s = (s.rd.bitcnt - s.rd.padbits) / 8 + inputLeft s := rfl
  subst hheld
  refine ⟨fun hpart => ?_, fun hal => ⟨fun hchk hshort => ?_, fun henough => ?_⟩⟩
  · rw [exec_eq]
    exact runCommand_raised (brReadbytes_partial hlegal ha hpart)
  · rw [exec_eq]
    exact runCommand_raised (brReadbytes_short hlegal ha hal (by
      rw [hchk, havail, decide_eq_true hshort]
      rfl))
  · have hnot : ¬ (chk && decide (availBytes s < sz.toNat)) = true := by
      rw [Bool.and_eq_true, decide_eq_true_eq, havail]
      exact fun ⟨hchk, hlt⟩ => absurd (henough hchk) (by omega)
    rw [exec_eq]
    exact runCommand_ok (brReadbytes_enough hlegal ha hok hal hnot)

/-- What is left of Z_HEADER after its two bytes (43_inflate.md section 4). -/
def checkedHeader (cmf flg : Nat) (short : Bool) : Engine Word := do
  if short then raiseEof
  if (cmf * 256 + flg) % 31 ≠ 0 then raise .eZhdr 1
  if flg / 32 % 2 = 1 then raise .eZhdr 2
  if cmf % 16 ≠ 8 then raise .eZhdr 3
  return Word.ofNat (cmf * 256 + flg)

section

variable {cmf flg : Nat} {r : Run}

theorem checkedHeader_short :
    checkedHeader cmf flg true r = .error (.raised .eEof r.st.rd.cur) r := rfl

theorem checkedHeader_sum (h : (cmf * 256 + flg) % 31 ≠ 0) :
    checkedHeader cmf flg false r = .error (.raised .eZhdr 1) r := by
  rw [checkedHeader, if_neg Bool.false_ne_true, if_pos h]
  exact bind_error (raise_run _ _ _)

theorem checkedHeader_preset (h : (cmf * 256 + flg) % 31 = 0) (hset : flg / 32 % 2 = 1) :
    checkedHeader cmf flg false r = .error (.raised .eZhdr 2) r := by
  rw [checkedHeader, if_neg Bool.false_ne_true, if_neg (not_not.mpr h), if_pos hset]
  exact bind_error (raise_run _ _ _)

theorem checkedHeader_method (h : (cmf * 256 + flg) % 31 = 0) (hset : flg / 32 % 2 = 0)
    (hcm : cmf % 16 ≠ 8) : checkedHeader cmf flg false r = .error (.raised .eZhdr 3) r := by
  rw [checkedHeader, if_neg Bool.false_ne_true, if_neg (not_not.mpr h), if_neg (by omega), if_pos hcm]
  exact bind_error (raise_run _ _ _)

theorem checkedHeader_ok (h : (cmf * 256 + flg) % 31 = 0) (hset : flg / 32 % 2 = 0)
    (hcm : cmf % 16 = 8) :
    checkedHeader cmf flg false r = .ok (Word.ofNat (cmf * 256 + flg)) r := by
  rw [checkedHeader, if_neg Bool.false_ne_true, if_neg (not_not.mpr h), if_neg (by omega),
    if_neg (not_not.mpr hcm)]
  rfl

end

theorem zHeader_partial (hm : s.rd.mode = .lsb) (ha : inputAnswers s = true)
    (hal : s.rd.bitcnt % 8 ≠ 0) :
    zHeader (Run.whole s) = .error (.raised .eAlign (Word.ofNat s.rd.bitcnt)) (Run.whole s) := by
  rw [zHeader, bind_ok ((needMode_run _ _).trans (if_pos hm)), bind_ok (needInput_of_answers ha),
    look_bind_run, Run.whole, if_pos hal]
  exact bind_error (raise_run _ _ _)

theorem zHeader_run (hm : s.rd.mode = .lsb) (ha : inputAnswers s = true) (hok : readerOk s.rd = true)
    (hal : s.rd.bitcnt % 8 = 0) :
    zHeader (Run.whole s) =
      checkedHeader (wholeByte s 0) (wholeByte s 1) (wholePad s 0 || wholePad s 1)
        (Run.whole (afterBytes 2 s)) := by
  have hfirst := readAlignedByte_afterBytes ha hok hal 0
  rw [afterBytes_zero hok] at hfirst
  rw [zHeader, bind_ok ((needMode_run _ _).trans (if_pos hm)), bind_ok (needInput_of_answers ha),
    look_bind_run, if_neg (not_not.mpr hal)]
  exact (bind_ok hfirst).trans (bind_ok (readAlignedByte_afterBytes ha hok hal 1))

/-- One of the first two whole bytes is a pad byte. -/
theorem wholePad_two (hok : readerOk s.rd = true) (hal : s.rd.bitcnt % 8 = 0) :
    (wholePad s 0 || wholePad s 1) =
      (decide (s.rd.bitcnt - 16 < s.rd.padbits) || decide (inputLeft s < 2 - heldBytes s)) := by
  obtain ⟨-, hpad, -, -, -, -⟩ := (readerOk_iff _).mp hok
  have hheld : heldBytes s = s.rd.bitcnt / 8 := rfl
  simp only [wholePad]
  split_ifs <;> rw [← Bool.decide_or, ← Bool.decide_or, decide_eq_decide] <;> omega

/-- Settles O41: the two bytes by `afterBytes`, then the checks in their order. -/
theorem zHeaderEffect : Obligations.ZHeaderEffect := by
  unfold Obligations.ZHeaderEffect
  intro s read held byte short hm hok ha hheld hbyte hshort hread
  have hb : ∀ k, wholeByte s k = byte k := fun k => by
    rw [hbyte, wholeByte, if_pos hm, hheld]
    rfl
  have hbytes : s.rd.bitcnt % 8 = 0 → zHeader (Run.whole s) =
      checkedHeader (byte 0) (byte 1) short (Run.whole read) := fun hal => by
    have hstate : afterBytes 2 s = read := by
      rw [hread, hshort, hheld, afterBytes, if_pos hm]
      simp only [Bool.or_assoc]
      rfl
    rw [zHeader_run hm ha hok hal, hb, hb, wholePad_two hok hal, hstate, hshort, hheld]
    rfl
  rw [exec_eq]
  refine ⟨fun hpart => runCommand_raised (zHeader_partial hm ha hpart), fun hal => ?_⟩
  have hrun := hbytes hal
  refine ⟨fun hs => ?_, fun hs => ?_⟩ <;> subst hs
  · exact runCommand_raised (hrun.trans checkedHeader_short)
  refine ⟨fun hsum => runCommand_raised (hrun.trans (checkedHeader_sum hsum)), fun hsum =>
    ⟨fun hset => runCommand_raised (hrun.trans (checkedHeader_preset hsum hset)), fun hset =>
      ⟨fun hcm => runCommand_raised (hrun.trans (checkedHeader_method hsum hset hcm)), fun hcm =>
        runCommand_ok (hrun.trans (checkedHeader_ok hsum hset hcm))⟩⟩⟩

end

end Sys2Proof.Machine

end

-- The MODE 1 reader at a marker, and the entropy resets.
section

namespace Sys2Proof.Machine

open Sys2Proof

/-! ### A marker in the input (41_bitreader.md R153, R158) -/

section

variable {s t : State} {n k : Nat}

/-- The state after `j` pad bytes have entered ACC. -/
def padded (j : Nat) (s : State) : State :=
  { s with rd := { s.rd with bitcnt := s.rd.bitcnt + 8 * j, padbits := s.rd.padbits + 8 * j } }

theorem enterByte_zero_pad (s : State) : enterByte 0 .pad s = padded 1 s := by
  have hacc : (enterByte 0 .pad s).rd.acc = s.rd.acc := by
    cases hm : s.rd.mode <;> simp [enterByte_rd, hm]
  refine congrArg (fun r => { s with rd := r }) ((Reader.mk.injEq ..).mpr
    ⟨rfl, rfl, rfl, rfl, hacc, rfl, rfl, rfl, rfl, rfl, rfl⟩)

theorem padded_padded (i j : Nat) (s : State) : padded i (padded j s) = padded (j + i) s := by
  refine congrArg (fun r => { s with rd := r }) ((Reader.mk.injEq ..).mpr
    ⟨rfl, rfl, rfl, rfl, rfl, ?_, ?_, rfl, rfl, rfl, rfl⟩)
  · change s.rd.bitcnt + 8 * j + 8 * i = s.rd.bitcnt + 8 * (j + i)
    omega
  · change s.rd.padbits + 8 * j + 8 * i = s.rd.padbits + 8 * (j + i)
    omega

/-- A halted reader fills ACC with pad bytes only. -/
theorem fillLoop_halted (hm : s.rd.mode = .msb) (hno : s.rd.nomore = true) (n : Nat) :
    ∃ j, fillLoop n (Run.whole s) = .ok () (Run.whole (padded j s)) ∧
      (s.rd.bitcnt + 8 * n ≤ 32 → j = n) := by
  induction n generalizing s with
  | zero => exact ⟨0, rfl, fun _ => rfl⟩
  | succ n ih =>
    rw [fillLoop, look_bind_run]
    by_cases hb : s.rd.bitcnt ≤ 24
    · have hnext : nextByte (Run.whole s) = .ok (0, .pad) (Run.whole s) := by
        rw [nextByte_msb hm, nextMsbByte, look_bind_run, Run.whole, if_pos hno]
        rfl
      obtain ⟨j, hrun, hj⟩ := ih (s := padded 1 s) hm hno
      refine ⟨1 + j, ?_, fun h32 => ?_⟩
      · rw [if_pos hb]
        refine (bind_ok hnext).trans ((bind_ok (assignAll_run _ _)).trans ?_)
        rw [afterAll_whole, ← padded_padded]
        exact (congrArg (fun u => fillLoop n (Run.whole u)) (enterByte_zero_pad s)).trans hrun
      · have hcnt : (padded 1 s).rd.bitcnt = s.rd.bitcnt + 8 * 1 := rfl
        rw [hj (by omega), Nat.add_comm]
    · refine ⟨0, ?_, fun h32 => by omega⟩
      rw [if_neg hb]
      rfl

theorem fetchByte_of_left (ha : inputAnswers s = true) (hleft : 0 < inputLeft s) :
    s.rd.cur.toNat < s.rd.inLen.toNat ∧
      fetchByte (Run.whole s) = .ok (inputByte s 0, .real) (Run.whole (advanceCur s)) := by
  have hlt : s.rd.cur.toNat < s.rd.inLen.toNat := by
    rw [inputLeft] at hleft
    omega
  obtain ⟨-, hf⟩ | ⟨hge, -⟩ := fetchByte_cases ha
  · exact ⟨hlt, hf⟩
  · exact absurd hlt hge

theorem inputAnswers_advanceCur : inputAnswers (advanceCur s) = inputAnswers s :=
  inputAnswers_readerOnly (fetchOnly_advanceCur s).1

/-- Fill bytes skipped, and the byte after them. -/
theorem skipFill_fill (ha : inputAnswers s = true) (hkn : k ≤ n) (hleft : k < inputLeft s)
    (hff : ∀ j, j < k → inputByte s j = 0xFF) (hbyte : inputByte s k ≠ 0xFF) :
    skipFill n (Run.whole s) = .ok (inputByte s k, .real) (Run.whole (skipInput (k + 1) s)) := by
  induction n generalizing s k with
  | zero =>
    obtain rfl : k = 0 := by omega
    exact (fetchByte_of_left ha hleft).2
  | succ n ih =>
    obtain ⟨hlt, hfetch⟩ := fetchByte_of_left ha (by omega)
    rw [skipFill, bind_ok hfetch]
    cases k with
    | zero =>
      dsimp only
      rw [if_neg hbyte]
      rfl
    | succ k =>
      have hnext := inputLeft_advanceCur hlt
      dsimp only
      rw [if_pos (hff 0 (by omega)), ← inputByte_advanceCur hlt, ← skipInput_advanceCur]
      refine ih (inputAnswers_advanceCur.trans ha) (by omega) (by omega) (fun j hj => ?_) ?_
      · rw [inputByte_advanceCur hlt]
        exact hff _ (by omega)
      · rwa [inputByte_advanceCur hlt]

/-- A marker, with fill bytes before its code, is cached, and a pad byte is delivered for it. -/
theorem nextMsbByte_marker (ha : inputAnswers s = true) (hno : s.rd.nomore = false) (hk : 1 ≤ k)
    (hleft : k < inputLeft s) (hff : ∀ j, j < k → inputByte s j = 0xFF)
    (hbyte : inputByte s k ≠ 0xFF) (hzero : inputByte s k ≠ 0x00) :
    nextMsbByte (Run.whole s) =
      .ok (0, .pad) (Run.whole (cacheMarker (inputByte s k) (skipInput (k + 1) s))) := by
  obtain ⟨hlt, hfetch⟩ := fetchByte_of_left ha (by omega)
  obtain ⟨k, rfl⟩ := Nat.exists_eq_add_of_le' hk
  have hnext := inputLeft_advanceCur hlt
  have hskip := skipFill_fill (s := advanceCur s) (k := k) (n := inputLeft (advanceCur s))
    (inputAnswers_advanceCur.trans ha) (by omega) (by omega)
    (fun j hj => by rw [inputByte_advanceCur hlt]; exact hff _ (by omega))
    (by rwa [inputByte_advanceCur hlt])
  rw [inputByte_advanceCur hlt, skipInput_advanceCur, inputLeft] at hskip
  rw [nextMsbByte, look_bind_run, Run.whole, if_neg (by rw [hno]; exact Bool.false_ne_true)]
  refine (bind_ok hfetch).trans ?_
  dsimp only
  rw [if_pos (hff 0 (by omega)), afterFF, look_bind_run]
  refine (bind_ok hskip).trans ?_
  dsimp only
  rw [if_neg hzero]
  rfl

/-- `Fill` at a marker: the marker is cached, and all that enters ACC is padding. -/
theorem fill_marker (hm : s.rd.mode = .msb) (ha : inputAnswers s = true)
    (hno : s.rd.nomore = false) (hcnt : s.rd.bitcnt ≤ 24) (hk : 1 ≤ k) (hleft : k < inputLeft s)
    (hff : ∀ j, j < k → inputByte s j = 0xFF) (hbyte : inputByte s k ≠ 0xFF)
    (hzero : inputByte s k ≠ 0x00) :
    ∃ j, fill (Run.whole s) =
        .ok () (Run.whole (padded j (cacheMarker (inputByte s k) (skipInput (k + 1) s)))) ∧
      (s.rd.bitcnt = 0 → j = 4) := by
  have hnext := (nextByte_msb hm).trans (nextMsbByte_marker ha hno hk hleft hff hbyte hzero)
  obtain ⟨j, hrun, hj⟩ :=
    fillLoop_halted (s := padded 1 (cacheMarker (inputByte s k) (skipInput (k + 1) s))) hm rfl 3
  refine ⟨1 + j, ?_, fun h0 => ?_⟩
  · rw [fill, fillLoop, look_bind_run, Run.whole, if_pos hcnt]
    refine (bind_ok hnext).trans ((bind_ok (assignAll_run _ _)).trans ?_)
    rw [afterAll_whole, ← padded_padded]
    exact (congrArg (fun u => fillLoop 3 (Run.whole u)) (enterByte_zero_pad _)).trans hrun
  · have h8 : (padded 1 (cacheMarker (inputByte s k) (skipInput (k + 1) s))).rd.bitcnt =
      s.rd.bitcnt + 8 * 1 := rfl
    rw [hj (by omega)]

theorem acc_of_empty (hok : readerOk s.rd = true) (h : s.rd.bitcnt = 0) : s.rd.acc = 0 := by
  have hacc := acc_of_consumed (n := 0) hok h.le
  simpa using hacc

/-- Settles O28: `Need` fills at the marker, so four pad bytes stand in ACC. -/
theorem markerHaltsReader : Obligations.MarkerHaltsReader := by
  unfold Obligations.MarkerHaltsReader
  intro n s k h1 h16 hm hok ha hcnt hno hk hleft hff hbyte hzero
  obtain ⟨-, hpad, -, -, -, -⟩ := (readerOk_iff _).mp hok
  obtain ⟨j, hfill, hj⟩ := fill_marker hm ha hno (by omega) hk hleft hff hbyte hzero
  obtain rfl := hj hcnt
  have hneed : need n.toNat (Run.whole s) = _ := (need_run _ _).trans ((if_pos (by
    change s.rd.bitcnt < _
    omega)).trans hfill)
  have hacc := acc_of_empty hok hcnt
  have hpeek : ∀ u : State, u.rd.mode = .msb → u.rd.acc = 0 → peekBits u n.toNat = 0 :=
    fun u hmu hau => by simp [peekBits, hmu, hau]
  rw [exec_brPeekbits_of_need h1 h16 ha hneed ⟨rfl, rfl, rfl, rfl⟩ (hpeek _ hm hacc)]
  refine congrArg (fun r => Host.Outcome.next (completed 0 { s with rd := r }))
    ((Reader.mk.injEq ..).mpr ⟨rfl, rfl, rfl, rfl, hacc, ?_, ?_, rfl, rfl, rfl, rfl⟩)
  · change s.rd.bitcnt + 8 * 4 = 32
    omega
  · change s.rd.padbits + 8 * 4 = 32
    omega

/-! ### J_RESET and J_RESTART (45_jpeg_idct.md R339, R340) -/

theorem jRestart_of_fill (hm : s.rd.mode = .msb) (ha : inputAnswers s = true)
    (hcnt : s.rd.bitcnt < 24) (hfill : fill (Run.whole s) = .ok () (Run.whole t)) :
    jRestart (Run.whole s) =
      if isRestart t.rd.marker then .ok 1 (Run.whole (resetEntropy t)) else .ok 0 (Run.whole t) := by
  rw [jRestart, bind_ok ((needMode_run _ _).trans (if_pos hm)), bind_ok (needInput_of_answers ha),
    look_bind_run, Run.whole, if_pos hcnt]
  refine (bind_ok hfill).trans ((look_bind_run _ _).trans ?_)
  dsimp only [Run.whole]
  split <;> rfl

theorem jRestart_of_full (hm : s.rd.mode = .msb) (ha : inputAnswers s = true)
    (hcnt : ¬ s.rd.bitcnt < 24) :
    jRestart (Run.whole s) =
      if isRestart s.rd.marker then .ok 1 (Run.whole (resetEntropy s)) else .ok 0 (Run.whole s) := by
  rw [jRestart, bind_ok ((needMode_run _ _).trans (if_pos hm)), bind_ok (needInput_of_answers ha),
    look_bind_run, Run.whole, if_neg hcnt]
  refine (look_bind_run _ _).trans ?_
  dsimp only [Run.whole]
  split <;> rfl

theorem isRestart_iff (m : Byte) : isRestart m = true ↔ 0xD0 ≤ m.toNat ∧ m.toNat ≤ 0xD7 := by
  simp [isRestart]

/-- One byte that is no 0xFF, or a pad byte at the end of the input, leaves MARKER and NOMORE. -/
theorem nextMsbByte_data (ha : inputAnswers s = true) (hno : s.rd.nomore = false)
    (hdata : 0 < inputLeft s → inputByte s 0 ≠ 0xFF) :
    ∃ b k u, nextMsbByte (Run.whole s) = .ok (b, k) (Run.whole u) ∧ FetchOnly s u ∧
      u.rd.nomore = false ∧ u.rd.marker = s.rd.marker ∧ inputLeft u = inputLeft s - 1 ∧
      ∀ j, j < inputLeft u → inputByte u j = inputByte s (j + 1) := by
  rw [nextMsbByte, look_bind_run, Run.whole, if_neg (by rw [hno]; exact Bool.false_ne_true)]
  obtain ⟨hlt, hfetch⟩ | ⟨hge, hfetch⟩ := fetchByte_cases ha
  · have hnext := inputLeft_advanceCur hlt
    refine ⟨inputByte s 0, .real, _, (bind_ok hfetch).trans ?_, fetchOnly_advanceCur s, hno, rfl, by omega,
      fun j _ => inputByte_advanceCur hlt j⟩
    dsimp only
    rw [if_neg (hdata (by omega))]
    rfl
  · have hnone : inputLeft s = 0 := Nat.sub_eq_zero_of_le (Nat.not_lt.mp hge)
    have hnone' : inputLeft (markEof s) = 0 := hnone
    refine ⟨0, .pad, _, (bind_ok hfetch).trans rfl, fetchOnly_markEof s, hno, rfl, by omega,
      fun j hj => by omega⟩

/-- Where no marker is among the bytes that `Fill` can fetch, MARKER stays. -/
theorem fillLoop_keeps_marker (hm : s.rd.mode = .msb) (ha : inputAnswers s = true)
    (hno : s.rd.nomore = false) (hdata : ∀ j, j < n → j < inputLeft s → inputByte s j ≠ 0xFF)
    (h : fillLoop n (Run.whole s) = .ok () (Run.whole t)) : t.rd.marker = s.rd.marker := by
  induction n generalizing s with
  | zero =>
    cases h
    rfl
  | succ n ih =>
    rw [fillLoop, look_bind_run] at h
    by_cases hb : s.rd.bitcnt ≤ 24
    · obtain ⟨b, k, u, hnext, hfo, hnou, hmark, hleft, hbyte⟩ :=
        nextMsbByte_data ha hno (hdata 0 (by omega))
      rw [Run.whole, if_pos hb] at h
      have h := (bind_ok ((nextByte_msb hm).trans hnext)).symm.trans h
      have h := (bind_ok (assignAll_run _ _)).symm.trans h
      rw [afterAll_whole] at h
      refine (ih (s := enterByte b k u) (hfo.1.2.1.trans hm)
        ((inputAnswers_readerOnly hfo.1).trans ha) hnou (fun j hj hlt => ?_) h).trans hmark
      have hlt : j < inputLeft u := hlt
      exact (hbyte j hlt).symm ▸ hdata (j + 1) (by omega) (by omega)
    · rw [Run.whole, if_neg hb] at h
      cases h
      rfl

/-- Settles O57: `Fill` before the reset by where a marker stands: cached, next in the input, or not
within its reach. -/
theorem entropyResets : Obligations.EntropyResets := by
  unfold Obligations.EntropyResets
  rintro s cleared hm rfl
  have hreset : jReset (Run.whole s) = .ok 0 (Run.whole (resetEntropy s)) := by
    rw [jReset, bind_ok ((needMode_run _ _).trans (if_pos hm))]
    rfl
  refine ⟨?_, fun hok ha => ⟨fun hlo hhi => ?_, fun hcnt hno hleft hff hlo hhi => ?_,
    fun hcnt hnot => ?_, fun hcnt hnot hdata => ?_⟩⟩ <;> rw [exec_eq]
  · exact runCommand_ok hreset
  · have hmark := (isRestart_iff _).mpr ⟨hlo, hhi⟩
    have hno : s.rd.nomore = true := ((readerOk_iff _).mp hok).2.2.2.1.mpr fun h => by
      rw [h] at hhi
      exact absurd hhi (by decide)
    by_cases hcnt : s.rd.bitcnt < 24
    · obtain ⟨j, hfill, -⟩ := fillLoop_halted hm hno 4
      exact runCommand_ok ((jRestart_of_fill hm ha hcnt hfill).trans (if_pos hmark))
    · exact runCommand_ok ((jRestart_of_full hm ha hcnt).trans (if_pos hmark))
  · have hmark := (isRestart_iff _).mpr ⟨hlo, hhi⟩
    have hne : ∀ b : Byte, b.toNat < 0xD0 ∨ 0xD7 < b.toNat → inputByte s 1 ≠ b := fun b hb h => by
      rw [h] at hlo hhi
      omega
    have hfirst : ∀ j, j < 1 → inputByte s j = 0xFF := fun j hj => by
      obtain rfl : j = 0 := by omega
      exact hff
    obtain ⟨j, hfill, -⟩ := fill_marker hm ha hno hcnt.le (Nat.le_refl 1) hleft hfirst
      (hne _ (by decide)) (hne _ (by decide))
    exact runCommand_ok ((jRestart_of_fill hm ha hcnt hfill).trans (if_pos hmark))
  · have hmark : ¬ isRestart s.rd.marker = true := fun h => by
      have := (isRestart_iff _).mp h
      omega
    exact runCommand_ok ((jRestart_of_full hm ha (by omega)).trans (if_neg hmark))
  · have hmark : ¬ isRestart s.rd.marker = true := fun h => by
      have := (isRestart_iff _).mp h
      omega
    obtain ⟨t, hfill, hro, hadv, -, hovr⟩ := fillLoop_msb 4 hm hok ha
    have hsame : t.rd.marker = s.rd.marker := by
      cases hno : s.rd.nomore with
      | true =>
        obtain ⟨j, hrun, -⟩ := fillLoop_halted hm hno 4
        cases hfill.symm.trans hrun
        rfl
      | false =>
        exact fillLoop_keeps_marker hm ha hno (hdata.resolve_left (by rw [hno]; decide)) hfill
    refine ⟨t.rd, ?_, hadv, hsame, hovr⟩
    rw [← hro.1]
    exact runCommand_ok ((jRestart_of_fill hm ha hcnt hfill).trans (if_neg (hsame ▸ hmark)))

end

end Sys2Proof.Machine

end

-- Decoding with a DEFLATE table, and where no code begins the stream.
section

namespace Sys2Proof.Machine

open Sys2Proof

/-! ### The codes of a DEFLATE table in the stream (42_huffman.md R208, R210) -/

section

variable {b : Nat → Bool} {tbl : ZTable} {t : Fin 3} {sym sym' l n : Nat} {e e' : ZCode}

theorem highFirst_cons (b : Nat → Bool) (n : Nat) :
    highFirst b (n + 1) = (b 0).toNat * 2 ^ n + highFirst (fun j => b (j + 1)) n := by
  induction n with
  | zero => simp [highFirst]
  | succ n ih =>
    rw [highFirst, ih, highFirst, pow_succ]
    ring

/-- The stream is packed first bit lowest, and a code is read first bit highest. -/
theorem bitReverse_lowFirst (b : Nat → Bool) (n : Nat) :
    bitReverse n (lowFirst b n) = highFirst b n := by
  induction n generalizing b with
  | zero => rfl
  | succ n ih =>
    have hlow := (b 0).toNat_lt
    rw [lowFirst, bitReverse, highFirst_cons, ← ih,
      show ((b 0).toNat + 2 * lowFirst (fun j => b (j + 1)) n) / 2 = lowFirst (fun j => b (j + 1)) n by
        omega,
      show ((b 0).toNat + 2 * lowFirst (fun j => b (j + 1)) n) % 2 = (b 0).toNat by omega]

theorem zTableOk_built (hok : zTableOk t tbl = true) :
    zBuild (tbl.syms.map fun e => e.len) = .ok tbl := by
  rw [zTableOk, Bool.and_eq_true] at hok
  obtain ⟨-, hbuilt⟩ := hok
  cases hb : zBuild (tbl.syms.map fun e => e.len) with
  | ok built =>
    rw [hb] at hbuilt
    rw [beq_iff_eq.mp hbuilt]
  | error x =>
    rw [hb] at hbuilt
    cases hbuilt

theorem getD_lens (h : tbl.syms[sym]? = some e) :
    sym < (tbl.syms.map fun e => e.len).length ∧ (tbl.syms.map fun e => e.len).getD sym 0 = e.len := by
  rw [List.length_map, List.getD_eq_getElem?_getD, List.getElem?_map, h]
  exact ⟨(List.getElem?_eq_some_iff.mp h).1, rfl⟩

/-- A symbol with a code has its canonical one. -/
theorem zTableOk_code (hok : zTableOk t tbl = true) (h : tbl.syms[sym]? = some e) (hne : e.len ≠ 0) :
    e.code = canonCode (tbl.syms.map fun e => e.len) sym := by
  obtain ⟨hlt, hlen⟩ := getD_lens h
  have hentry := zBuild_entry (zTableOk_built hok) hlt
  rw [h, hlen, if_neg hne] at hentry
  exact congrArg ZCode.code (Option.some.inj hentry)

theorem zTableOk_code_lt (hok : zTableOk t tbl = true) (h : tbl.syms[sym]? = some e)
    (hne : e.len ≠ 0) : e.code < 2 ^ e.len := by
  obtain ⟨hlt, hlen⟩ := getD_lens h
  have hcode := zBuild_code_lt (zTableOk_built hok) hlt (hlen ▸ hne)
  rwa [hlen, ← zTableOk_code hok h hne] at hcode

theorem zTableOk_len_mem (hok : zTableOk t tbl = true) (h : tbl.syms[sym]? = some e)
    (hne : e.len ≠ 0) : e.len ∈ zLengths := by
  obtain ⟨hmax, -, -⟩ := zBuild_ok (zTableOk_built hok)
  exact mem_zLengths_iff.mpr ⟨Nat.pos_of_ne_zero hne, hmax _ (List.mem_map_of_mem (List.mem_of_getElem? h))⟩

theorem zTableOk_unique_of_le (hok : zTableOk t tbl = true) (h : tbl.syms[sym]? = some e)
    (h' : tbl.syms[sym']? = some e') (hne : e.len ≠ 0) (hcode : e.code = highFirst b e.len)
    (hcode' : e'.code = highFirst b e'.len) (hle : e.len ≤ e'.len) : sym = sym' := by
  by_contra hsym
  obtain ⟨hlt, hlen⟩ := getD_lens h
  obtain ⟨hlt', hlen'⟩ := getD_lens h'
  have hprefix := canonCode_not_prefix hlt hlt' hsym
  rw [hlen, hlen', ← zTableOk_code hok h hne, ← zTableOk_code hok h' (by omega), hcode, hcode',
    highFirst_div hle] at hprefix
  exact hprefix hne hle rfl

/-- Two codes of one good table that begin the same stream are one symbol's. -/
theorem zTableOk_unique (hok : zTableOk t tbl = true) (h : tbl.syms[sym]? = some e)
    (h' : tbl.syms[sym']? = some e') (hne : e.len ≠ 0) (hne' : e'.len ≠ 0)
    (hcode : e.code = highFirst b e.len) (hcode' : e'.code = highFirst b e'.len) : sym = sym' := by
  rcases Nat.le_total e.len e'.len with hle | hle
  · exact zTableOk_unique_of_le hok h h' hne hcode hcode' hle
  · exact (zTableOk_unique_of_le hok h' h hne' hcode' hcode hle).symm

/-- `findSymbol` finds a symbol of the length with the code. -/
theorem of_findSymbol {w : Nat} (h : findSymbol tbl l w = some sym) :
    ∃ e, tbl.syms[sym]? = some e ∧ e.len = l ∧ e.code = w := by
  obtain ⟨hlt, hp, -⟩ := List.findIdx?_eq_some_iff_getElem.mp h
  rw [Bool.and_eq_true, beq_iff_eq, beq_iff_eq] at hp
  exact ⟨_, List.getElem?_eq_getElem hlt, hp⟩

/-- The first bits of a stream that begins with a symbol's code are a code at its length alone. -/
theorem findSymbol_highFirst (hok : zTableOk t tbl = true) (h : tbl.syms[sym]? = some e)
    (hne : e.len ≠ 0) (hcode : e.code = highFirst b e.len) (hl : l ≠ 0) :
    findSymbol tbl l (highFirst b l) = if l = e.len then some sym else none := by
  cases hf : findSymbol tbl l (highFirst b l) with
  | some sym' =>
    obtain ⟨e', h', rfl, hcode'⟩ := of_findSymbol hf
    obtain rfl := zTableOk_unique hok h' h hl hne hcode' hcode
    rw [if_pos (congrArg ZCode.len (Option.some.inj (h'.symm.trans h)))]
  | none =>
    rw [findSymbol, List.findIdx?_eq_none_iff] at hf
    have hno := hf e (List.mem_of_getElem? h)
    rw [if_neg fun heq => by simp [heq, hcode] at hno]

theorem findSymbol_none (h : ∀ e, e ∈ tbl.syms → e.len ≠ 0 → e.code ≠ highFirst b e.len)
    (hl : l ≠ 0) : findSymbol tbl l (highFirst b l) = none := by
  cases hf : findSymbol tbl l (highFirst b l) with
  | none => rfl
  | some sym =>
    obtain ⟨e, he, rfl, hcode⟩ := of_findSymbol hf
    exact absurd hcode (h e (List.mem_of_getElem? he) hl)

end

/-! ### The searches (42_huffman.md R210, R211) -/

section

variable {s : State} {tbl : ZTable} {jtbl : JTable} {b : Nat → Bool} {t : Fin 3} {sym m : Nat}
  {ls : List Nat} {e : ZCode}

theorem zSearch_eq_some
    (h : ∀ l, l ∈ ls →
      findSymbol tbl l (bitReverse l (peekBits s l)) = if l = m then some sym else none)
    (hm : m ∈ ls) : zSearch tbl s ls = some (m, sym) := by
  induction ls with
  | nil => cases hm
  | cons l ls ih =>
    rw [zSearch, h l List.mem_cons_self]
    by_cases hl : l = m
    · rw [if_pos hl, hl]
    · rw [if_neg hl]
      exact ih (fun l' hl' => h l' (List.mem_cons_of_mem _ hl'))
        ((List.mem_cons.mp hm).resolve_left (Ne.symm hl))

theorem zSearch_eq_none
    (h : ∀ l, l ∈ ls → findSymbol tbl l (bitReverse l (peekBits s l)) = none) :
    zSearch tbl s ls = none := by
  induction ls with
  | nil => rfl
  | cons l ls ih =>
    rw [zSearch, h l List.mem_cons_self]
    exact ih fun l' hl' => h l' (List.mem_cons_of_mem _ hl')

theorem jSearch_eq_none (h : ∀ l, l ∈ ls → findValue jtbl l (peekBits s l) = none) :
    jSearch jtbl s ls = none := by
  induction ls with
  | nil => rfl
  | cons l ls ih =>
    rw [jSearch, h l List.mem_cons_self]
    exact ih fun l' hl' => h l' (List.mem_cons_of_mem _ hl')

/-- The bits that ACC holds are `b`, as far as a DEFLATE code can reach. -/
def PeeksLsb (b : Nat → Bool) (s : State) : Prop := ∀ l, l ≤ 16 → peekBits s l = lowFirst b l

/-- The same for a JPEG code. -/
def PeeksMsb (b : Nat → Bool) (s : State) : Prop := ∀ l, l ≤ 16 → peekBits s l = highFirst b l

theorem peeksLsb_stream (hm : s.rd.mode = .lsb) (hcnt : 16 ≤ s.rd.bitcnt) :
    PeeksLsb (lsbStream s) s := fun _ hl => peekBits_lsb (hl.trans hcnt) hm

theorem peeksMsb_stream (hm : s.rd.mode = .msb) (hok : readerOk s.rd = true)
    (hcnt : 16 ≤ s.rd.bitcnt) : PeeksMsb (msbStream s) s :=
  fun _ hl => peekBits_msb (hl.trans hcnt) ((readerOk_iff _).mp hok).1 hm

theorem PeeksLsb.reversed (h : PeeksLsb b s) {l : Nat} (hl : l ≤ 16) :
    bitReverse l (peekBits s l) = highFirst b l := by
  rw [h l hl, bitReverse_lowFirst]

theorem zLengths_pos {l : Nat} (hl : l ∈ zLengths) : l ≠ 0 ∧ l ≤ 16 := by
  obtain ⟨hpos, hmax⟩ := mem_zLengths_iff.mp hl
  rw [zMaxLen] at hmax
  omega

/-- The search finds the symbol whose code begins the stream. -/
theorem zSearch_of_code (hb : PeeksLsb b s) (hok : zTableOk t tbl = true)
    (h : tbl.syms[sym]? = some e) (hne : e.len ≠ 0) (hcode : e.code = highFirst b e.len) :
    zSearch tbl s zLengths = some (e.len, sym) := by
  refine zSearch_eq_some (fun l hl => ?_) (zTableOk_len_mem hok h hne)
  obtain ⟨hpos, hmax⟩ := zLengths_pos hl
  rw [hb.reversed hmax, findSymbol_highFirst hok h hne hcode hpos]

theorem zSearch_of_no_code (hb : PeeksLsb b s)
    (h : ∀ e, e ∈ tbl.syms → e.len ≠ 0 → e.code ≠ highFirst b e.len) :
    zSearch tbl s zLengths = none := by
  refine zSearch_eq_none fun l hl => ?_
  obtain ⟨hpos, hmax⟩ := zLengths_pos hl
  rw [hb.reversed hmax, findSymbol_none h hpos]

theorem jSearch_of_no_code (hb : PeeksMsb b s)
    (h : ∀ e, e ∈ jtbl.entries → e.code ≠ highFirst b e.size) :
    jSearch jtbl s jLengths = none := by
  refine jSearch_eq_none fun l hl => ?_
  obtain ⟨-, hmax⟩ := mem_jLengths_iff.mp hl
  rw [hb l hmax, findValue, Option.map_eq_none_iff, List.find?_eq_none]
  intro e he hmatch
  rw [Bool.and_eq_true, beq_iff_eq, beq_iff_eq] at hmatch
  obtain ⟨rfl, hcode⟩ := hmatch
  exact h e he hcode

end

/-! ### HD_ZLIB and HD_JPEG (42_huffman.md R220, R221) -/

section

variable {s u : State} {tbl : ZTable} {jtbl : JTable} {t : Fin 3} {tid : BitVec 2} {l sym : Nat}
  {c : JClass} {idx : BitVec 2}

theorem zDecode_of_search (hneed : need 16 (Run.whole s) = .ok () (Run.whole u))
    (htab : u.tab.zt[t] = some tbl) (hsearch : zSearch tbl u zLengths = some (l, sym)) :
    zDecode t (Run.whole s) = .ok (sym, takesPad u l) (Run.whole (dropBits l u)) := by
  rw [zDecode, bind_ok hneed, look_bind_run]
  simp only [htab, hsearch]
  rw [bind_ok (consume_whole _ _), pure_run]

theorem zDecode_of_none (hneed : need 16 (Run.whole s) = .ok () (Run.whole u))
    (htab : u.tab.zt[t] = some tbl) (hsearch : zSearch tbl u zLengths = none) :
    zDecode t (Run.whole s) = .error (.raised .eBadcode noCode) (Run.whole u) := by
  rw [zDecode, bind_ok hneed, look_bind_run]
  simp only [htab, hsearch]
  rfl

theorem jDecode_of_none {i : Fin 4} (hneed : need 16 (Run.whole s) = .ok () (Run.whole u))
    (htab : (jTables u c)[i] = some jtbl) (hsearch : jSearch jtbl u jLengths = none) :
    jDecode c i (Run.whole s) = .error (.raised .eBadcode noCode) (Run.whole u) := by
  rw [jDecode, bind_ok hneed, look_bind_run]
  simp only [htab, hsearch]
  rfl

/-- HD_ZLIB past its checks. -/
theorem hdZlib_run (htid : tid ≠ 3) (hm : s.rd.mode = .lsb) (ha : inputAnswers s = true)
    (htab : s.tab.zt[tableSel tid] = some tbl) :
    hdZlib tid (Run.whole s) =
      (zDecode (tableSel tid) >>= fun x => pure (Word.ofNat x.1)) (Run.whole s) := by
  have hlegal : tableIdLegal tid = true := by simpa [tableIdLegal] using htid
  have hvalid : zValid s (tableSel tid) = true := by
    rw [zValid, htab]
    rfl
  rw [hdZlib, look_bind_run, bind_ok ((needLegal_run _ _).trans (if_pos hlegal)),
    bind_ok ((needMode_run _ _).trans (if_pos hm)), bind_ok ((needTable_run _ _ _).trans (if_pos hvalid)),
    bind_ok (needInput_of_answers ha)]

/-- HD_JPEG past its checks. -/
theorem hdJpeg_run (hm : s.rd.mode = .msb) (ha : inputAnswers s = true)
    (htab : (jTables s c)[sel4 idx] = some jtbl) :
    hdJpeg c idx (Run.whole s) =
      (jDecode c (sel4 idx) >>= fun v => pure (v.zeroExtend 32)) (Run.whole s) := by
  have hvalid : jValid s c (sel4 idx) = true := by
    rw [jValid, htab]
    rfl
  rw [hdJpeg, look_bind_run, bind_ok ((needMode_run _ _).trans (if_pos hm)),
    bind_ok ((needTable_run _ _ _).trans (if_pos hvalid)), bind_ok (needInput_of_answers ha)]

end

/-- Settles O36: `Need(16)` keeps the stream, no code of a good table begins another, so the
search finds the symbol, and `Consume` drops its code. -/
theorem hdZlibDecodesCode : Obligations.HdZlibDecodesCode := by
  unfold Obligations.HdZlibDecodesCode
  intro tid s tbl sym e htid hm htab htbl hok ha hentry hne hnext
  obtain ⟨t, hneed, hro, hcnt, hadv, hreal, hovr⟩ := need_lsb (Nat.le_refl 16) hm hok ha
  have hmt : t.rd.mode = .lsb := hro.2.1.trans hm
  have hokt : readerOk t.rd = true := lsbAdvanced_readerOk hadv
  have hsize : e.len ≤ t.rd.bitcnt := (zLengths_pos (zTableOk_len_mem htbl hentry hne)).2.trans hcnt
  have hcode := (codeNext_iff (zTableOk_code_lt htbl hentry hne)).mp hnext
  have htabt : t.tab.zt[tableSel tid] = some tbl := by rwa [hro.1]
  have hsearch : zSearch tbl t zLengths = some (e.len, sym) :=
    zSearch_of_code (lsbStream_of_advanced_zero hro hadv ▸ peeksLsb_stream hmt hcnt) htbl hentry hne hcode
  have hrun := (hdZlib_run htid hm ha htab).trans (bind_ok (zDecode_of_search hneed htabt hsearch))
  refine ⟨(dropBits e.len t).rd, ?_, lsbAdvanced_after_fetch hro hadv (dropBits_lsb hsize hmt hokt),
    fun hpad => ?_⟩
  · rw [← withReader_of_readerOnly hro, exec_eq]
    exact runCommand_ok hrun
  · have hlast : PadsLast t := need_padsLast hok ha (.inl hpad) hneed
    rw [dropBits_ovr, hovr, takesPad_of_padsLast hlast hsize, bytesLeft_lsb hmt, ← hreal, realBits]

/-- Settles O38: with no code of the table at the stream, no length of the search finds one, and the
fault is raised where `Need(16)` left the reader. -/
theorem noCodeConsumesNothing : Obligations.NoCodeConsumesNothing := by
  unfold Obligations.NoCodeConsumesNothing
  refine ⟨fun tid s tbl htid hm htab htbl hok ha hnone => ?_,
    fun cls idx s tbl hm htab htbl hok ha hnone => ?_⟩
  · obtain ⟨t, hneed, hro, hcnt, hadv, -, hovr⟩ := need_lsb (Nat.le_refl 16) hm hok ha
    have hmt : t.rd.mode = .lsb := hro.2.1.trans hm
    have htabt : t.tab.zt[tableSel tid] = some tbl := by rwa [hro.1]
    have hsearch : zSearch tbl t zLengths = none :=
      zSearch_of_no_code (lsbStream_of_advanced_zero hro hadv ▸ peeksLsb_stream hmt hcnt)
        fun e he hne hcode => by
          obtain ⟨sym, hsym⟩ := List.mem_iff_getElem?.mp he
          have hno := hnone e he hne
          rw [(codeNext_iff (zTableOk_code_lt htbl hsym hne)).mpr hcode] at hno
          cases hno
    refine ⟨t.rd, ?_, hadv, hovr⟩
    rw [← hro.1, exec_eq]
    exact runCommand_raised ((hdZlib_run htid hm ha htab).trans
      (bind_error (zDecode_of_none hneed htabt hsearch)))
  · obtain ⟨t, hneed, hro, hcnt, hadv, -, hovr⟩ := need_msb (Nat.le_refl 16) hm hok ha
    have hmt : t.rd.mode = .msb := hro.2.1.trans hm
    rw [← jTables_eq_ite] at htab
    have htabt : (jTables t cls)[sel4 idx] = some tbl := by rwa [hro.1]
    have hsearch : jSearch tbl t jLengths = none :=
      jSearch_of_no_code (msbStream_of_advanced_zero hro hadv ▸
          peeksMsb_stream hmt (msbAdvanced_readerOk hadv) hcnt) fun e he hcode => by
        obtain ⟨k, hk⟩ := List.mem_iff_getElem?.mp he
        have hno := hnone e he
        rw [(codeNext_iff (jTableOk_code_lt htbl hk)).mpr hcode] at hno
        cases hno
    refine ⟨t.rd, ?_, hadv, hovr⟩
    rw [← hro.1, exec_eq]
    exact runCommand_raised ((hdJpeg_run hm ha htab).trans
      (bind_error (jDecode_of_none hneed htabt hsearch)))

end Sys2Proof.Machine

end

-- The fast tables and the slow path against the direct search.
section

namespace Sys2Proof.Machine

open Sys2Proof

/-! ### The code ranges of the lengths (42_huffman.md R203, R215) -/

/-- The first `l` bits of the stream are a code of length `l`. -/
def codeAt (count : Nat → Nat) (b : Nat → Bool) (l : Nat) : Bool :=
  decide (canonFirst count l ≤ highFirst b l) && decide (highFirst b l < canonFirst count l + count l)

section

variable {count : Nat → Nat} {b : Nat → Bool} {l m a n : Nat}

theorem codeAt_iff : codeAt count b l = true ↔
    canonFirst count l ≤ highFirst b l ∧ highFirst b l < canonFirst count l + count l := by
  rw [codeAt, Bool.and_eq_true, decide_eq_true_eq, decide_eq_true_eq]

theorem firstFrom_eq (count : Nat → Nat) (l : Nat) : firstFrom count l = canonFirst count l := by
  induction l with
  | zero => rfl
  | succ l ih =>
    rw [firstFrom, ih]
    cases l with
    | zero => rfl
    | succ l => rw [if_neg (Nat.succ_ne_zero l), canonFirst_succ (Nat.succ_pos l)]

theorem lt_maxCode_iff (hl : l ≤ 16) :
    highFirst b 16 < maxCode count l ↔ highFirst b l < canonFirst count l + count l := by
  rw [maxCode, firstFrom_eq, ← Nat.div_lt_iff_lt_mul (Nat.two_pow_pos _), highFirst_div hl]

/-- A stream below the end of a length's codes begins with a code of that length or a shorter one. -/
theorem exists_codeAt (hl : 1 ≤ l) (h : highFirst b l < canonFirst count l + count l) :
    ∃ m, 1 ≤ m ∧ m ≤ l ∧ codeAt count b m = true := by
  induction l, hl using Nat.le_induction with
  | base => exact ⟨1, Nat.le_refl 1, Nat.le_refl 1, codeAt_iff.mpr ⟨Nat.zero_le _, h⟩⟩
  | succ l hl ih =>
    by_cases hfirst : canonFirst count (l + 1) ≤ highFirst b (l + 1)
    · exact ⟨l + 1, by omega, Nat.le_refl _, codeAt_iff.mpr ⟨hfirst, h⟩⟩
    · rw [canonFirst_succ hl, highFirst] at hfirst
      obtain ⟨m, h1, hm, hcode⟩ := ih (by omega)
      exact ⟨m, h1, by omega, hcode⟩

/-- The code ranges of different lengths are disjoint. -/
theorem codeAt_le (h1 : 1 ≤ l) (hl : codeAt count b l = true) (hm : codeAt count b m = true) :
    m ≤ l := by
  by_contra hlt
  obtain ⟨-, hend⟩ := codeAt_iff.mp hl
  obtain ⟨hfirst, -⟩ := codeAt_iff.mp hm
  have hpast := canonFirst_past (count := count) h1 (Nat.lt_of_not_le hlt)
  rw [← highFirst_div (m := m) (by omega), Nat.div_lt_iff_lt_mul (Nat.two_pow_pos _)] at hend
  omega

/-- Where no shorter code begins the stream, the slow path finds the length whose code does. -/
theorem slowLength_eq_find (ha : 1 ≤ a) (han : a + n ≤ 17)
    (hnone : ∀ l, 1 ≤ l → l < a → codeAt count b l = false) :
    slowLength count (highFirst b 16) (List.range' a n) =
      (List.range' a n).find? (codeAt count b) := by
  induction n generalizing a with
  | zero => rfl
  | succ n ih =>
    rw [List.range'_succ, slowLength, List.find?_cons]
    cases hcode : codeAt count b a with
    | true => rw [if_pos ((lt_maxCode_iff (by omega)).mpr (codeAt_iff.mp hcode).2)]
    | false =>
      rw [if_neg fun hlt => ?_]
      · refine ih (by omega) (by omega) fun l h1 hlt => ?_
        rcases Nat.lt_succ_iff_lt_or_eq.mp hlt with hlt | rfl
        · exact hnone l h1 hlt
        · exact hcode
      · obtain ⟨m, h1, hm, hcodem⟩ := exists_codeAt ha ((lt_maxCode_iff (by omega)).mp hlt)
        rcases Nat.lt_or_eq_of_le hm with hma | rfl
        · rw [hnone m h1 hma] at hcodem
          cases hcodem
        · rw [hcode] at hcodem
          cases hcodem

/-- The slow path where exactly the length `l` has a code that begins the stream. -/
theorem slowLength_of_codeAt (ha : 1 ≤ a) (hal : a ≤ l) (hln : l < a + n) (han : a + n ≤ 17)
    (h : codeAt count b l = true) :
    slowLength count (highFirst b 16) (List.range' a n) = some l := by
  have honly : ∀ k, 1 ≤ k → codeAt count b k = true → k = l := fun k hk hcode =>
    Nat.le_antisymm (codeAt_le (by omega) h hcode) (codeAt_le hk hcode h)
  rw [slowLength_eq_find ha han fun k hk hka => ?_]
  · cases hfind : (List.range' a n).find? (codeAt count b) with
    | none =>
      have hno := List.find?_eq_none.mp hfind l (List.mem_range'_1.mpr ⟨hal, hln⟩)
      exact absurd h hno
    | some k =>
      obtain ⟨hk, -⟩ := List.mem_range'_1.mp (List.mem_of_find?_eq_some hfind)
      rw [honly k (by omega) (List.find?_some hfind)]
  · rw [← Bool.not_eq_true]
    exact fun hcode => by
      have := honly k hk hcode
      omega

theorem slowLength_of_none (ha : 1 ≤ a) (han : a + n ≤ 17)
    (h : ∀ l, 1 ≤ l → l < a + n → codeAt count b l = false) :
    slowLength count (highFirst b 16) (List.range' a n) = none := by
  rw [slowLength_eq_find ha han fun l h1 hl => h l h1 (by omega), List.find?_eq_none]
  intro l hl
  obtain ⟨hal, hln⟩ := List.mem_range'_1.mp hl
  rw [h l (by omega) hln]
  exact Bool.false_ne_true

theorem slowRank_eq (hl : l ≤ 16) :
    slowRank count (highFirst b 16) l = highFirst b l - canonFirst count l := by
  rw [slowRank, firstFrom_eq, highFirst_div hl]

end

/-! ### The symbols of a length, in order (42_huffman.md R205, R215) -/

section

variable {b : Nat → Bool} {tbl : ZTable} {t : Fin 3} {sym l n k N : Nat} {e : ZCode}

/-- The `n`-th number that passes has `n` earlier ones that pass. -/
theorem getElem?_filter_range {p : Nat → Bool} (h : ((List.range N).filter p)[n]? = some k) :
    k < N ∧ p k = true ∧ (List.range k).countP p = n := by
  induction N with
  | zero => simp at h
  | succ N ih =>
    rw [List.range_succ, List.filter_append] at h
    rcases Nat.lt_or_ge n ((List.range N).filter p).length with hlt | hge
    · rw [List.getElem?_append_left hlt] at h
      obtain ⟨hk, hp, hcount⟩ := ih h
      exact ⟨by omega, hp, hcount⟩
    · rw [List.getElem?_append_right hge] at h
      cases hp : p N with
      | false => simp [hp] at h
      | true =>
        rw [List.filter_cons_of_pos hp, List.filter_nil, List.getElem?_singleton] at h
        split at h
        · rename_i hn
          cases h
          refine ⟨by omega, hp, ?_⟩
          rw [List.countP_eq_length_filter]
          omega
        · cases h

theorem take_eq_map_getD {α : Type} {xs : List α} {d : α} (hk : k ≤ xs.length) :
    xs.take k = (List.range k).map fun i => xs.getD i d := by
  refine List.ext_getElem (by simpa using hk) fun i h1 h2 => ?_
  have hi : i < k := by simpa using h2
  rw [List.getElem_take, List.getElem_map, List.getElem_range, List.getD_eq_getElem]

theorem zCount_eq_count (tbl : ZTable) : zCount tbl = fun l => (tbl.syms.map fun e => e.len).count l := by
  funext l
  rw [zCount, List.count_eq_countP, List.countP_map]
  rfl

/-- The length of symbol `sym`, 0 past the last one. -/
def lenAt (syms : List ZCode) (sym : Nat) : Nat := (syms.getD sym { len := 0, code := 0 }).len

theorem countP_lenAt (hk : k ≤ tbl.syms.length) :
    (List.range k).countP (fun i => lenAt tbl.syms i == l) =
      ((tbl.syms.map fun e => e.len).take k).count l := by
  rw [← List.map_take, take_eq_map_getD (d := { len := 0, code := 0 }) hk, List.map_map,
    List.count_eq_countP, List.countP_map]
  rfl

/-- A code that begins the stream is that of the symbol with its rank. -/
theorem nthSymbol_of_codeAt (hok : zTableOk t tbl = true) (hl : l ≠ 0)
    (h : codeAt (zCount tbl) b l = true) :
    ∃ sym e, nthSymbol tbl.syms l (highFirst b l - canonFirst (zCount tbl) l) = some sym ∧
      tbl.syms[sym]? = some e ∧ e.len = l ∧ e.code = highFirst b l := by
  obtain ⟨hfirst, hend⟩ := codeAt_iff.mp h
  have hrank : highFirst b l - canonFirst (zCount tbl) l <
      ((List.range tbl.syms.length).filter fun i => lenAt tbl.syms i == l).length := by
    rw [← List.countP_eq_length_filter, countP_lenAt (Nat.le_refl _),
      List.take_of_length_le (by rw [List.length_map])]
    have hcount : zCount tbl l = (tbl.syms.map fun e => e.len).count l := by rw [zCount_eq_count]
    omega
  obtain ⟨sym, hsome⟩ : ∃ sym, nthSymbol tbl.syms l (highFirst b l - canonFirst (zCount tbl) l) =
    some sym := ⟨_, List.getElem?_eq_getElem hrank⟩
  obtain ⟨hsym, hlen, hcount⟩ := getElem?_filter_range (p := fun i => lenAt tbl.syms i == l) hsome
  obtain ⟨e, hentry⟩ : ∃ e, tbl.syms[sym]? = some e := ⟨_, List.getElem?_eq_getElem hsym⟩
  obtain ⟨-, hgetD⟩ := getD_lens hentry
  have hlenAt : lenAt tbl.syms sym = e.len := by
    rw [lenAt, List.getD_eq_getElem?_getD, hentry, Option.getD_some]
  have hlen : e.len = l := hlenAt.symm.trans (beq_iff_eq.mp hlen)
  rw [countP_lenAt hsym.le] at hcount
  refine ⟨sym, e, hsome, hentry, hlen, ?_⟩
  rw [zTableOk_code hok hentry (hlen ▸ hl), canonCode, hgetD, hlen, hcount, ← zCount_eq_count]
  omega

/-- And a symbol's code lies in the range of its length. -/
theorem codeAt_of_code (hok : zTableOk t tbl = true) (h : tbl.syms[sym]? = some e) (hne : e.len ≠ 0)
    (hcode : e.code = highFirst b e.len) : codeAt (zCount tbl) b e.len = true := by
  obtain ⟨hlt, hlen⟩ := getD_lens h
  have hrank := count_take_lt_count hlt
  rw [zTableOk_code hok h hne, canonCode, hlen] at hcode
  rw [hlen] at hrank
  rw [codeAt_iff, zCount_eq_count]
  dsimp only
  omega

/-- The low bits of a number read first bit lowest. -/
theorem lowFirst_mod {m : Nat} (h : l ≤ m) : lowFirst b m % 2 ^ l = lowFirst b l := by
  refine Nat.eq_of_testBit_eq fun j => ?_
  rw [Nat.testBit_mod_two_pow, lowFirst_testBit, lowFirst_testBit]
  by_cases hj : j < l
  · simp [hj, hj.trans_le h]
  · simp [hj]

/-- `ZFAST` at the next bits: a symbol of at most FAST_BITS bits whose code begins the stream. -/
theorem of_zFast {x : Nat × Nat} (h : zFast tbl (lowFirst b Config.fastBits) = some x) :
    ∃ e, tbl.syms[x.1]? = some e ∧ e.len = x.2 ∧ 1 ≤ e.len ∧ e.len ≤ Config.fastBits ∧
      e.code = highFirst b e.len := by
  obtain ⟨sym, hfind, rfl⟩ := Option.map_eq_some_iff.mp h
  obtain ⟨hlt, hp, -⟩ := List.findIdx?_eq_some_iff_getElem.mp hfind
  rw [Bool.and_eq_true, Bool.and_eq_true, decide_eq_true_eq, decide_eq_true_eq, beq_iff_eq] at hp
  obtain ⟨⟨h1, hfast⟩, hcode⟩ := hp
  rw [lowFirst_mod hfast, bitReverse_lowFirst] at hcode
  exact ⟨_, List.getElem?_eq_getElem hlt, by rw [List.getD_eq_getElem _ _ hlt], h1, hfast, hcode.symm⟩

theorem zFast_ne_none (h : tbl.syms[sym]? = some e) (hne : e.len ≠ 0)
    (hfast : e.len ≤ Config.fastBits) (hcode : e.code = highFirst b e.len) :
    zFast tbl (lowFirst b Config.fastBits) ≠ none := by
  rw [zFast, ne_eq, Option.map_eq_none_iff, List.findIdx?_eq_none_iff]
  intro hno
  have hmiss := hno e (List.mem_of_getElem? h)
  rw [lowFirst_mod hfast, bitReverse_lowFirst, ← hcode] at hmiss
  simp [hfast, Nat.one_le_iff_ne_zero.mpr hne] at hmiss

end

/-! ### The agreement for DEFLATE tables (42_huffman.md R212, R215) -/

section

variable {b : Nat → Bool} {s : State} {tbl : ZTable} {t : Fin 3} {sym : Nat} {e : ZCode}

theorem peeksLsb_acc (hm : s.rd.mode = .lsb) : PeeksLsb s.rd.acc.getLsbD s := fun l _ => by
  refine Nat.eq_of_testBit_eq fun j => ?_
  rw [lowFirst_testBit, peekBits, hm]
  exact Nat.testBit_mod_two_pow ..

theorem nextSixteen_lsb (hm : s.rd.mode = .lsb) (hb : PeeksLsb b s) : nextSixteen s = highFirst b 16 := by
  rw [nextSixteen, hm]
  exact hb.reversed (Nat.le_refl _)

theorem slowLengths_z : slowLengths zMaxLen = List.range' 10 6 := rfl

theorem slowLengths_j : slowLengths jMaxLen = List.range' 10 7 := rfl

/-- Both searches find the symbol whose code begins the stream. -/
theorem zFastSearch_of_code (hm : s.rd.mode = .lsb) (hb : PeeksLsb b s) (hok : zTableOk t tbl = true)
    (h : tbl.syms[sym]? = some e) (hne : e.len ≠ 0) (hcode : e.code = highFirst b e.len) :
    zFastSearch tbl s = some (e.len, sym) := by
  have hmax := (mem_zLengths_iff.mp (zTableOk_len_mem hok h hne)).2
  rw [zMaxLen] at hmax
  have hcodeAt := codeAt_of_code hok h hne hcode
  rw [zFastSearch, hb _ (by decide)]
  cases hfast : zFast tbl (lowFirst b Config.fastBits) with
  | some x =>
    obtain ⟨e', h', hlen', h1, -, hcode'⟩ := of_zFast hfast
    obtain rfl := zTableOk_unique hok h h' hne (by omega) hcode hcode'
    obtain rfl := Option.some.inj (h.symm.trans h')
    dsimp only
    rw [hlen']
  | none =>
    have hlong : 10 ≤ e.len := by
      by_contra hshort
      exact zFast_ne_none h hne (Nat.le_of_lt_succ (Nat.lt_of_not_le hshort)) hcode hfast
    obtain ⟨sym', e', hnth, h', hlen', hcode'⟩ := nthSymbol_of_codeAt hok hne hcodeAt
    obtain rfl := zTableOk_unique hok h h' hne (hlen' ▸ hne) hcode (hlen' ▸ hcode')
    dsimp only
    rw [zSlow, nextSixteen_lsb hm hb, slowLengths_z,
      slowLength_of_codeAt (by omega) hlong (by omega) (by omega) hcodeAt]
    dsimp only
    rw [slowRank_eq (by omega), hnth]
    rfl

theorem zFastSearch_of_no_code (hm : s.rd.mode = .lsb) (hb : PeeksLsb b s)
    (hok : zTableOk t tbl = true)
    (h : ∀ e, e ∈ tbl.syms → e.len ≠ 0 → e.code ≠ highFirst b e.len) : zFastSearch tbl s = none := by
  rw [zFastSearch, hb _ (by decide)]
  cases hfast : zFast tbl (lowFirst b Config.fastBits) with
  | some x =>
    obtain ⟨e, he, -, h1, -, hcode⟩ := of_zFast hfast
    exact absurd hcode (h e (List.mem_of_getElem? he) (by omega))
  | none =>
    dsimp only
    rw [zSlow, nextSixteen_lsb hm hb, slowLengths_z,
      slowLength_of_none (by omega) (by omega) fun l h1 _ => ?_]
    rw [← Bool.not_eq_true]
    intro hcodeAt
    obtain ⟨sym, e, -, he, hlen, hcode⟩ := nthSymbol_of_codeAt hok (by omega) hcodeAt
    exact h e (List.mem_of_getElem? he) (by omega) (hlen ▸ hcode)

theorem zFastSearch_eq (hm : s.rd.mode = .lsb) (hok : zTableOk t tbl = true) :
    zFastSearch tbl s = zSearch tbl s zLengths := by
  have hb := peeksLsb_acc hm
  by_cases h : ∃ e, e ∈ tbl.syms ∧ e.len ≠ 0 ∧ e.code = highFirst s.rd.acc.getLsbD e.len
  · obtain ⟨e, he, hne, hcode⟩ := h
    obtain ⟨sym, hsym⟩ := List.mem_iff_getElem?.mp he
    rw [zFastSearch_of_code hm hb hok hsym hne hcode, zSearch_of_code hb hok hsym hne hcode]
  · have hno : ∀ e, e ∈ tbl.syms → e.len ≠ 0 → e.code ≠ highFirst s.rd.acc.getLsbD e.len :=
      fun e he hne hcode => h ⟨e, he, hne, hcode⟩
    rw [zFastSearch_of_no_code hm hb hok hno, zSearch_of_no_code hb hno]

end

/-! ### The agreement for JPEG tables (42_huffman.md R213, R215) -/

section

variable {b : Nat → Bool} {s : State} {tbl : JTable} {k l : Nat} {e : JCode}

theorem peeksMsb_acc (hm : s.rd.mode = .msb) : PeeksMsb (fun j => s.rd.acc.getLsbD (31 - j)) s :=
  fun l hl => by
  refine Nat.eq_of_testBit_eq fun j => ?_
  rw [highFirst_testBit, peekBits, hm]
  dsimp only
  split
  · rename_i h0
    subst h0
    simp
  · rw [Nat.testBit_div_two_pow]
    by_cases hj : j < l
    · rw [show 31 - (l - 1 - j) = j + (32 - l) by omega]
      simp [hj, BitVec.getLsbD]
    · have hout : s.rd.acc.getLsbD (j + (32 - l)) = false := BitVec.getLsbD_of_ge _ _ (by omega)
      rw [decide_eq_false hj, Bool.false_and]
      exact hout

theorem nextSixteen_msb (hm : s.rd.mode = .msb) (hb : PeeksMsb b s) : nextSixteen s = highFirst b 16 := by
  rw [nextSixteen, hm]
  exact hb 16 (Nat.le_refl _)

theorem codeAt_of_jcode (hok : jTableOk tbl = true) (h : tbl.entries[k]? = some e)
    (hcode : e.code = highFirst b e.size) : codeAt (jCount tbl) b e.size = true := by
  have hrank := count_take_lt_count (length_sizes_of_getElem? h)
  rw [jTableOk_code hok h, canonCode, getD_sizes h] at hcode
  rw [getD_sizes h] at hrank
  rw [codeAt_iff, jCount_eq_count]
  dsimp only
  omega

/-- The entries of a good table, in the order of their sizes, split at one size. -/
theorem sizes_split (hok : jTableOk tbl = true) (hl : l ∈ jLengths) :
    ∃ lo hi : List Nat,
      (tbl.entries.map fun e => e.size) = lo ++ (List.replicate (jCount tbl l) l ++ hi) ∧
      lo.length = firstSym tbl l ∧ lo.count l = 0 := by
  obtain ⟨h1, hmax⟩ := mem_jLengths_iff.mp hl
  rw [jMaxLen] at hmax
  have hsplit : jLengths = List.range' 1 (l - 1) ++ l :: List.range' (l + 1) (16 - l) := by
    rw [jLengths_eq, show (16 : Nat) = (l - 1) + (16 - l + 1) by omega, ← List.range'_append_1,
      show 1 + (l - 1) = l by omega, List.range'_succ]
    congr 3
    omega
  have hsizes := jTableOk_sizes hok
  rw [hsplit, repeatedLengths, List.flatMap_append, List.flatMap_cons, ← repeatedLengths,
    ← repeatedLengths] at hsizes
  have hlo : ∀ m ∈ repeatedLengths (jCount tbl) (List.range' 1 (l - 1)), m < l := fun m hm => by
    have := List.mem_range'_1.mp (mem_of_mem_repeatedLengths hm)
    omega
  have hhi : ∀ m ∈ repeatedLengths (jCount tbl) (List.range' (l + 1) (16 - l)), l < m := fun m hm =>
    (List.mem_range'_1.mp (mem_of_mem_repeatedLengths hm)).1
  refine ⟨repeatedLengths (jCount tbl) (List.range' 1 (l - 1)),
    repeatedLengths (jCount tbl) (List.range' (l + 1) (16 - l)), hsizes, ?_,
    List.count_eq_zero.mpr fun hmem => Nat.lt_irrefl l (hlo l hmem)⟩
  have hfirst : firstSym tbl l = (tbl.entries.map fun e => e.size).countP fun m => decide (m < l) := by
    rw [firstSym, List.countP_map]
    rfl
  rw [hfirst, hsizes, List.countP_append, List.countP_append,
    List.countP_eq_length.mpr fun m hm => decide_eq_true (hlo m hm),
    List.countP_eq_zero.mpr fun m hm => by simp [List.eq_of_mem_replicate hm],
    List.countP_eq_zero.mpr fun m hm => by simp [(hhi m hm).le]]
  rfl

theorem entry_of_codeAt (hok : jTableOk tbl = true) (hl : l ∈ jLengths)
    (h : codeAt (jCount tbl) b l = true) :
    ∃ e, tbl.entries[firstSym tbl l + (highFirst b l - canonFirst (jCount tbl) l)]? = some e ∧
      e.size = l ∧ e.code = highFirst b l := by
  obtain ⟨hfirst, hend⟩ := codeAt_iff.mp h
  obtain ⟨lo, hi, hsizes, hlo, hcount⟩ := sizes_split hok hl
  generalize hn : highFirst b l - canonFirst (jCount tbl) l = n
  have hrank : n < jCount tbl l := by omega
  have hget : (tbl.entries.map fun e => e.size)[firstSym tbl l + n]? = some l := by
    rw [hsizes, ← hlo, List.getElem?_append_right (by omega), Nat.add_sub_cancel_left,
      List.getElem?_append_left (by simpa using hrank), List.getElem?_replicate, if_pos hrank]
  rw [List.getElem?_map, Option.map_eq_some_iff] at hget
  obtain ⟨e, he, hsize⟩ := hget
  have htake : ((tbl.entries.map fun e => e.size).take (firstSym tbl l + n)).count l = n := by
    rw [hsizes, ← hlo, List.take_length_add_append, List.count_append, hcount, Nat.zero_add,
      List.take_append_of_le_length (by simpa using hrank.le), List.take_replicate,
      min_eq_left hrank.le, List.count_replicate_self]
  refine ⟨e, he, hsize, ?_⟩
  rw [jTableOk_code hok he, canonCode, getD_sizes he, hsize, htake, ← jCount_eq_count]
  omega

/-- `JFAST` at the next bits: an entry of at most FAST_BITS bits whose code begins the stream. -/
theorem of_jFast (h : jFast tbl (highFirst b Config.fastBits) = some k) :
    ∃ e, tbl.entries[k]? = some e ∧ jEntry tbl k = e ∧ e.size ≤ Config.fastBits ∧
      e.code = highFirst b e.size := by
  obtain ⟨hlt, hp, -⟩ := List.findIdx?_eq_some_iff_getElem.mp h
  rw [Bool.and_eq_true, decide_eq_true_eq, beq_iff_eq] at hp
  obtain ⟨hfast, hcode⟩ := hp
  rw [highFirst_div hfast] at hcode
  exact ⟨_, List.getElem?_eq_getElem hlt, List.getD_eq_getElem _ _ hlt, hfast, hcode.symm⟩

theorem jFast_ne_none (h : tbl.entries[k]? = some e) (hfast : e.size ≤ Config.fastBits)
    (hcode : e.code = highFirst b e.size) : jFast tbl (highFirst b Config.fastBits) ≠ none := by
  rw [jFast, ne_eq, List.findIdx?_eq_none_iff]
  intro hno
  have hmiss := hno e (List.mem_of_getElem? h)
  rw [highFirst_div hfast, ← hcode] at hmiss
  simp [hfast] at hmiss

theorem jSearch_of_code (hb : PeeksMsb b s) (hok : jTableOk tbl = true) (h : tbl.entries[k]? = some e)
    (hcode : e.code = highFirst b e.size) : jSearch tbl s jLengths = some (e.size, e.val) := by
  refine jSearch_eq_some (fun l hl => ?_) (jTableOk_size_mem hok h)
  obtain ⟨-, hmax⟩ := mem_jLengths_iff.mp hl
  rw [hb l hmax, findValue_highFirst hok h hcode]

/-- Both searches find the entry whose code begins the stream. -/
theorem jFastSearch_of_code (hm : s.rd.mode = .msb) (hb : PeeksMsb b s) (hok : jTableOk tbl = true)
    (h : tbl.entries[k]? = some e) (hcode : e.code = highFirst b e.size) :
    jFastSearch tbl s = some (e.size, e.val) := by
  obtain ⟨h1, hmax⟩ := mem_jLengths_iff.mp (jTableOk_size_mem hok h)
  rw [jMaxLen] at hmax
  have hcodeAt := codeAt_of_jcode hok h hcode
  rw [jFastSearch, hb _ (by decide)]
  cases hfast : jFast tbl (highFirst b Config.fastBits) with
  | some k' =>
    obtain ⟨e', h', hentry, -, hcode'⟩ := of_jFast hfast
    obtain rfl := jTableOk_unique hok h h' hcode hcode'
    dsimp only
    rw [hentry]
  | none =>
    have hlong : 10 ≤ e.size := by
      by_contra hshort
      exact jFast_ne_none h (Nat.le_of_lt_succ (Nat.lt_of_not_le hshort)) hcode hfast
    obtain ⟨e', h', hsize', hcode'⟩ := entry_of_codeAt hok (jTableOk_size_mem hok h) hcodeAt
    obtain rfl := jTableOk_unique hok h h' hcode (hsize' ▸ hcode')
    dsimp only
    rw [jSlow, nextSixteen_msb hm hb, slowLengths_j,
      slowLength_of_codeAt (by omega) hlong (by omega) (by omega) hcodeAt]
    dsimp only
    rw [slowRank_eq hmax, h']
    rfl

theorem jFastSearch_of_no_code (hm : s.rd.mode = .msb) (hb : PeeksMsb b s) (hok : jTableOk tbl = true)
    (h : ∀ e, e ∈ tbl.entries → e.code ≠ highFirst b e.size) : jFastSearch tbl s = none := by
  rw [jFastSearch, hb _ (by decide)]
  cases hfast : jFast tbl (highFirst b Config.fastBits) with
  | some k =>
    obtain ⟨e, he, -, -, hcode⟩ := of_jFast hfast
    exact absurd hcode (h e (List.mem_of_getElem? he))
  | none =>
    dsimp only
    rw [jSlow, nextSixteen_msb hm hb, slowLengths_j,
      slowLength_of_none (by omega) (by omega) fun l h1 hl => ?_]
    rw [← Bool.not_eq_true]
    intro hcodeAt
    obtain ⟨e, he, hsize, hcode⟩ :=
      entry_of_codeAt hok (mem_jLengths_iff.mpr ⟨h1, by rw [jMaxLen]; omega⟩) hcodeAt
    exact h e (List.mem_of_getElem? he) (hsize ▸ hcode)

theorem jFastSearch_eq (hm : s.rd.mode = .msb) (hok : jTableOk tbl = true) :
    jFastSearch tbl s = jSearch tbl s jLengths := by
  have hb := peeksMsb_acc hm
  by_cases h : ∃ e, e ∈ tbl.entries ∧ e.code = highFirst (fun j => s.rd.acc.getLsbD (31 - j)) e.size
  · obtain ⟨e, he, hcode⟩ := h
    obtain ⟨k, hk⟩ := List.mem_iff_getElem?.mp he
    rw [jFastSearch_of_code hm hb hok hk hcode, jSearch_of_code hb hok hk hcode]
  · have hno : ∀ e, e ∈ tbl.entries →
        e.code ≠ highFirst (fun j => s.rd.acc.getLsbD (31 - j)) e.size :=
      fun e he hcode => h ⟨e, he, hcode⟩
    rw [jFastSearch_of_no_code hm hb hok hno, jSearch_of_no_code hb hno]

end

/-- Settles O39: where a code begins the stream both searches find it, by the ranges of the lengths
and the ranks within them; where none does, neither finds one. -/
theorem fastTablesAgree : Obligations.FastTablesAgree := by
  unfold Obligations.FastTablesAgree
  exact ⟨fun t tbl s hok hm => zFastSearch_eq hm hok, fun tbl s hok hm => jFastSearch_eq hm hok⟩

/-- The last bits of a number read first bit highest. -/
theorem highFirst_mod (b : Nat → Bool) (m n : Nat) :
    highFirst b (m + n) % 2 ^ n = highFirst (fun j => b (m + j)) n := by
  refine Nat.eq_of_testBit_eq fun j => ?_
  rw [Nat.testBit_mod_two_pow, highFirst_testBit, highFirst_testBit]
  by_cases hj : j < n
  · simp [hj, show m + n - 1 - j = m + (n - 1 - j) by omega, show j < m + n by omega]
  · simp [hj]

/-- The extra bits after a code, from the 9-bit index that holds both. -/
theorem extraBits_eq {s : State} {l n : Nat} (hm : s.rd.mode = .msb) (hfit : l + n ≤ 9) :
    peekBits (dropBits l s) n =
      highFirst (fun j => s.rd.acc.getLsbD (31 - j)) 9 / 2 ^ (9 - l - n) % 2 ^ n := by
  rw [peeksMsb_acc (s := dropBits l s) hm n (by omega), Nat.sub_sub, highFirst_div hfit, highFirst_mod,
    dropBits_acc_msb s l hm]
  refine Nat.eq_of_testBit_eq fun j => ?_
  rw [highFirst_testBit, highFirst_testBit]
  by_cases hj : j < n
  · rw [BitVec.getLsbD_shiftLeft]
    simp [show 31 - (n - 1 - j) < 32 by omega, show ¬ 31 - (n - 1 - j) < l by omega,
      show 31 - (n - 1 - j) - l = 31 - (l + (n - 1 - j)) by omega]
  · simp [hj]

/-- Settles O40: the entry's index holds its code and its extra bits, so the direct search finds it and
the bits after the code are the extra ones. -/
theorem fastAcAgrees : Obligations.FastAcAgrees := by
  unfold Obligations.FastAcAgrees
  intro tbl s v run total hok hm hfast
  have hb := peeksMsb_acc hm
  rw [hb 9 (by omega), jFastAc] at hfast
  cases hindex : jFast tbl (highFirst (fun j => s.rd.acc.getLsbD (31 - j)) 9) with
  | none =>
    rw [hindex] at hfast
    cases hfast
  | some k =>
    obtain ⟨e, he, hentry, hsize, hcode⟩ := of_jFast hindex
    rw [hindex] at hfast
    dsimp only at hfast
    rw [hentry] at hfast
    split at hfast
    · rename_i hfit
      obtain ⟨hcat, hfit⟩ := hfit
      cases hfast
      refine ⟨e.size, e.val, jSearch_of_code hb hok he hcode, rfl, rfl, ?_⟩
      rw [extraBits_eq hm hfit]
    · cases hfast

end Sys2Proof.Machine

end

-- The faults of J_DECODE_BLOCK.
section

namespace Sys2Proof.Machine

open Sys2Proof

section

variable {s t : State} {ac dc tbl : JTable} {n k k' rounds v : Nat} {rs cat : Byte}
  {coef : Vector Half 64} {xs : List AcItem} {ys : List Bool} {pred : Word} {c : JClass}
  {idx dct act comp : BitVec 2}

/-! ### The AC loop up to a fault (45_jpeg_idct.md R337) -/

/-- `JDecode` where no code begins the stream takes nothing. -/
theorem MsbReady.jDecode_none (h : MsbReady s) (htab : (jTables s c)[sel4 idx] = some tbl)
    (hok : jTableOk tbl = true)
    (hnone : ∀ e, e ∈ tbl.entries → codeNext e.size e.code (msbStream s) = false) :
    ∃ r, jDecode c (sel4 idx) (Run.whole s) =
        .error (.raised .eBadcode noCode) (Run.whole { s with rd := r }) ∧
      TakesMsb 0 s r := by
  obtain ⟨r, hneed, hcnt, hfetch⟩ := h.need_run (Nat.le_refl 16)
  have hr := hfetch.ready h
  have hsearch : jSearch tbl { s with rd := r } jLengths = none :=
    jSearch_of_no_code (hfetch.stream_zero ▸ peeksMsb_stream hr.mode hr.ok hcnt) fun e he hcode => by
      obtain ⟨k, hk⟩ := List.mem_iff_getElem?.mp he
      have hno := hnone e he
      rw [(codeNext_iff (jTableOk_code_lt hok hk)).mpr hcode] at hno
      cases hno
  have htabr : (jTables { s with rd := r } c)[sel4 idx] = some tbl := by
    rwa [jTables_eq_ite] at htab ⊢
  exact ⟨r, jDecode_of_none hneed htabr hsearch, hfetch⟩

/-- The AC loop places the items that the stream begins with, takes their bits, and goes on. -/
theorem acLoop_items (hok : jTableOk ac = true) (h : MsbReady s)
    (htab : s.tab.jac[sel4 act] = some ac)
    (hplace : placeItems ac xs k s.coef = some (k', coef)) (hrounds : 64 ≤ k + rounds)
    (hbits : beginsWithMsb s (xs.flatMap (itemBits ac) ++ ys)) :
    ∃ r rounds', acLoop (sel4 act) rounds k (Run.whole s) =
        acLoop (sel4 act) rounds' k' (Run.whole { s with rd := r, coef := coef }) ∧
      64 ≤ k' + rounds' ∧ TakesMsb (xs.flatMap (itemBits ac)).length s r := by
  induction xs generalizing s k rounds with
  | nil =>
    cases hplace
    exact ⟨s.rd, rounds, rfl, hrounds, .refl h⟩
  | cons x xs ih =>
    obtain ⟨hk, hentry, hextra, hitem⟩ := placeItems_cons hplace
    obtain ⟨rounds, rfl⟩ := Nat.exists_eq_add_of_le' (show 1 ≤ rounds by omega)
    rw [List.flatMap_cons, itemBits, List.append_assoc, List.append_assoc] at hbits
    rw [List.flatMap_cons, itemBits, List.append_assoc, List.length_append, List.length_append]
    obtain ⟨r₁, hdecode, htake₁⟩ := h.jDecode_begins (c := .ac) htab hok hentry hbits
    have h₁ := htake₁.ready h
    have hbits₁ := htake₁.begins hbits
    rcases hitem with ⟨hsize, hval, hplace⟩ | ⟨hsize, hrun, hplace⟩
    · rw [hval] at hdecode
      rw [hsize] at hbits₁ ⊢
      obtain ⟨r₂, rounds', hloop, hleft, htake₂⟩ :=
        ih (rounds := rounds) h₁ htab hplace (by omega) hbits₁
      refine ⟨r₂, rounds', (acLoop_skip hk hdecode).trans hloop, hleft, htake₁.trans ?_⟩
      rw [length_bitsOf, Nat.zero_add]
      exact htake₂
    · have hmax : itemSize ac x ≤ 16 := (Nat.mod_lt _ (by decide)).le
      obtain ⟨r₂, hreceive, htake₂⟩ := h₁.receive_begins hmax hextra hbits₁
      rw [extended, if_neg hsize] at hreceive
      obtain ⟨r₃, rounds', hloop, hleft, htake₃⟩ :=
        ih (rounds := rounds) ((htake₂.ready h₁).withBlock _ s.dcpred) htab hplace (by omega)
          (htake₂.begins hbits₁)
      exact ⟨r₃, rounds', (acLoop_coefficient hk hdecode hsize hrun hreceive).trans hloop, hleft,
        htake₁.trans (htake₂.trans htake₃.of_withBlock)⟩

theorem acLoop_pastEnd {idx : Fin 4} (hk : k < 64)
    (hdecode : jDecode .ac idx (Run.whole s) = .ok rs (Run.whole t)) (hsize : rs.toNat % 16 ≠ 0)
    (hrun : 63 < k + rs.toNat / 16) :
    acLoop idx (rounds + 1) k (Run.whole s) =
      .error (.raised .eRun (Word.ofNat (k + rs.toNat / 16))) (Run.whole t) := by
  rw [acLoop, if_pos hk, bind_ok hdecode]
  simp only [hsize, hrun, if_true, if_false]
  rfl

theorem acLoop_error {idx : Fin 4} {e : Stop} (hk : k < 64)
    (hdecode : jDecode .ac idx (Run.whole s) = .error e (Run.whole t)) :
    acLoop idx (rounds + 1) k (Run.whole s) = .error e (Run.whole t) := by
  rw [acLoop, if_pos hk, bind_error hdecode]

/-! ### J_DECODE_BLOCK up to a fault (45_jpeg_idct.md R335, R336) -/

/-- J_DECODE_BLOCK past its checks begins with the DC code. -/
theorem jDecodeBlock_dcError {e : Stop} (h : MsbReady s)
    (hdc : s.tab.jdc[sel4 dct] = some dc) (hac : s.tab.jac[sel4 act] = some ac)
    (hdecode : jDecode .dc (sel4 dct) (Run.whole s) = .error e (Run.whole t)) :
    jDecodeBlock dct act comp (Run.whole s) = .error e (Run.whole t) := by
  rw [jDecodeBlock, look_bind_run, bind_ok h.needMode_run,
    bind_ok (needTable_of_slot (c := .dc) hdc _), bind_ok (needTable_of_slot (c := .ac) hac _),
    bind_ok (needInput_of_answers h.input), bind_error hdecode]

theorem jDecodeBlock_category (h : MsbReady s)
    (hdc : s.tab.jdc[sel4 dct] = some dc) (hac : s.tab.jac[sel4 act] = some ac)
    (hdecode : jDecode .dc (sel4 dct) (Run.whole s) = .ok cat (Run.whole t))
    (hcat : 15 < cat.toNat) :
    jDecodeBlock dct act comp (Run.whole s) =
      .error (.raised .eBadcode (cat.zeroExtend 32)) (Run.whole t) := by
  rw [jDecodeBlock, look_bind_run, bind_ok h.needMode_run,
    bind_ok (needTable_of_slot (c := .dc) hdc _), bind_ok (needTable_of_slot (c := .ac) hac _),
    bind_ok (needInput_of_answers h.input), bind_ok hdecode, if_pos hcat]
  exact bind_error (raise_run _ _ _)

/-- The state after the DC value `pred` is known and the reader is `r` (45_jpeg_idct.md R335). -/
def blockStarted (i : Fin 4) (pred : Word) (r : Reader) (s : State) : State :=
  { s with
    rd := r
    coef := (Vector.replicate 64 0).set 0 (pred.setWidth 16)
    dcpred := s.dcpred.set i pred }

/-- J_DECODE_BLOCK from its DC value on is the AC loop. -/
theorem jDecodeBlock_open (h : MsbReady s) (hdcok : jTableOk dc = true)
    (hdc : s.tab.jdc[sel4 dct] = some dc) (hac : s.tab.jac[sel4 act] = some ac) {d : Nat}
    (hd : d < dc.entries.length) (hcat : (jEntry dc d).val.toNat ≤ 15)
    (hv : v < 2 ^ (jEntry dc d).val.toNat)
    (hpred : pred = s.dcpred[sel4 comp] +
      if (jEntry dc d).val = 0 then 0 else Word.ofInt (extend v (jEntry dc d).val.toNat))
    (hbits : beginsWithMsb s (bitsOf (jEntry dc d).size (jEntry dc d).code ++
      (bitsOf (jEntry dc d).val.toNat v ++ ys))) :
    ∃ r, jDecodeBlock dct act comp (Run.whole s) =
        (acLoop (sel4 act) 64 1 >>= fun k => pure (Word.ofNat (min k 64)))
          (Run.whole (blockStarted (sel4 comp) pred r s)) ∧
      TakesMsb (bitsOf (jEntry dc d).size (jEntry dc d).code ++
        bitsOf (jEntry dc d).val.toNat v).length s r := by
  obtain ⟨r₁, hdecode, htake₁⟩ := h.jDecode_begins (c := .dc) hdc hdcok hd hbits
  have h₁ := (htake₁.ready h).withBlock (Vector.replicate 64 0) s.dcpred
  obtain ⟨r₂, hreceive, htake₂⟩ := h₁.receive_begins (hcat.trans (by decide)) hv
    (htake₁.begins hbits)
  have hadd := addDc_extended (s := { s with rd := r₂, coef := Vector.replicate 64 0 })
    (i := sel4 comp) hpred
  refine ⟨r₂, ?_, by rw [List.length_append]; exact htake₁.trans htake₂.of_withBlock⟩
  rw [jDecodeBlock, look_bind_run, bind_ok h.needMode_run,
    bind_ok (needTable_of_slot (c := .dc) hdc _), bind_ok (needTable_of_slot (c := .ac) hac _),
    bind_ok (needInput_of_answers h.input), bind_ok hdecode, if_neg (Nat.not_lt.mpr hcat)]
  refine (bind_ok (assign_run _ _)).trans ((bind_ok hreceive).trans
    ((bind_ok (assign_run _ _)).trans ?_))
  rw [after_whole, hadd]
  rfl

/-- What a fault of J_DECODE_BLOCK gives, from its run and the bits it took. -/
theorem blockFaults_of_run {i : Instr} {dcpred : Vector Word 4} {bits : List Bool} {code : FaultCode}
    {info : Word} {r : Reader} (hi : i = .jDecodeBlock dct act comp)
    (hrun : jDecodeBlock dct act comp (Run.whole s) =
      .error (.raised code info) (Run.whole { s with rd := r, coef := coef, dcpred := dcpred }))
    (htake : TakesMsb bits.length s r) :
    BlockFaults i s coef dcpred bits (faultByte code) info := by
  refine ⟨r, ?_, htake.advanced, fun hpad => htake.ovr (.inl hpad)⟩
  rw [hi, exec_eq]
  exact runCommand_raised hrun

end

/-- Settles O56: the block's pieces take their bits one after the other up to the one that faults. -/
theorem blockFaultsKeepPartial : Obligations.BlockFaultsKeepPartial := by
  unfold Obligations.BlockFaultsKeepPartial
  intro dct act comp s dc ac i hi hm hrd hin hdc hac hdcok hacok
  have h : MsbReady s := ⟨hm, hrd, hin⟩
  refine ⟨fun d bits hd hcat hb hbits => ?_, fun hnone => ?_,
    fun d v k xs pred coef pre hd hcat hv hpred hplace hk hpre hbits => ?_⟩
  · subst hb
    rw [← List.append_nil (bitsOf _ _)] at hbits
    obtain ⟨r, hdecode, htake⟩ := h.jDecode_begins (c := .dc) hdc hdcok hd hbits
    have hword : (jEntry dc d).val.zeroExtend 32 = 0#24 ++ (jEntry dc d).val :=
      BitVec.setWidth_eq_append (by decide)
    rw [← hword]
    exact blockFaults_of_run hi (jDecodeBlock_category h hdc hac hdecode hcat) htake
  · obtain ⟨r, hdecode, htake⟩ := h.jDecode_none (c := .dc) hdc hdcok hnone
    exact blockFaults_of_run hi (jDecodeBlock_dcError h hdc hac hdecode) htake
  · have hopen : pre = bitsOf (jEntry dc d).size (jEntry dc d).code ++
        (bitsOf (jEntry dc d).val.toNat v ++ xs.flatMap (itemBits ac)) := by
      rw [hpre, openBlockBits, List.append_assoc]
    rw [hopen] at hbits
    obtain ⟨r₁, hrun, htake₁⟩ := jDecodeBlock_open (comp := comp) h hdcok hdc hac hd hcat hv hpred hbits
    have h₁ : MsbReady (blockStarted (sel4 comp) pred r₁ s) := (htake₁.ready h).withBlock _ _
    rw [← List.append_assoc] at hbits
    have hitems : beginsWithMsb (blockStarted (sel4 comp) pred r₁ s)
        (xs.flatMap (itemBits ac) ++ []) := by
      rw [List.append_nil]
      exact htake₁.begins hbits
    obtain ⟨r₂, rounds, hloop, hleft, htake₂⟩ :=
      acLoop_items (rounds := 64) hacok h₁ hac hplace (by decide) hitems
    have htake : TakesMsb pre.length s r₂ := by
      rw [hopen, ← List.append_assoc, List.length_append]
      exact htake₁.trans htake₂.of_withBlock
    have h₂ := (htake.ready h).withBlock coef (s.dcpred.set (sel4 comp) pred)
    obtain ⟨rounds, rfl⟩ := Nat.exists_eq_add_of_le' (show 1 ≤ rounds by omega)
    refine ⟨fun e bits he hsize hpast hb hbits' => ?_, fun hnone => ?_⟩
    · subst hb
      have hcode : beginsWithMsb { s with rd := r₂, coef := coef, dcpred := s.dcpred.set (sel4 comp) pred }
          (bitsOf (jEntry ac e).size (jEntry ac e).code ++ []) := by
        rw [List.append_nil]
        exact htake.begins hbits'
      obtain ⟨r₃, hdecode, htake₃⟩ := h₂.jDecode_begins (c := .ac) hac hacok he hcode
      refine blockFaults_of_run (r := r₃) hi (hrun.trans (bind_error
        (hloop.trans (acLoop_pastEnd hk hdecode hsize hpast)))) ?_
      rw [List.length_append]
      exact htake.trans htake₃.of_withBlock
    · obtain ⟨r₃, hdecode, htake₃⟩ := h₂.jDecode_none (c := .ac) hac hacok fun e he =>
        (congrArg (codeNext e.size e.code) (funext htake.stream)).trans (hnone e he)
      exact blockFaults_of_run (r := r₃) hi (hrun.trans (bind_error
        (hloop.trans (acLoop_error hk hdecode)))) (htake.trans htake₃.of_withBlock)

end Sys2Proof.Machine

end

-- What MODE 0 reads take from the stream, up to the end of the real bits.
section

namespace Sys2Proof.Machine

open Sys2Proof

/-! ### MODE 0 readers (41_bitreader.md R151, R154, R155) -/

/-- The stream from bit `n` on. -/
def after (n : Nat) (b : Nat → Bool) : Nat → Bool := fun j => b (j + n)

/-- The same input bytes, wherever the reader stands in them. -/
structure SameInput (s t : State) : Prop where
  holes : t.bus.holes = s.bus.holes
  bytes : ∀ k, k < s.rd.inLen.toNat →
    byteAt t (s.rd.inBase.toNat + k) = byteAt s (s.rd.inBase.toNat + k)

/-- A good MODE 0 reader over an input that answers, which has met the end of the input before it
holds pad bits. -/
structure LsbReady (s : State) : Prop where
  mode : s.rd.mode = .lsb
  ok : readerOk s.rd = true
  input : inputAnswers s = true
  pads : s.rd.padbits = 0 ∨ inputLeft s = 0 ∧ s.rd.eof = true

/-- `t` is reached from `s` by taking exactly `n` bits of its stream; OVR tells whether one of them was
a pad bit, and then the reader stands at the end of its input and knows it. -/
structure Reached (n : Nat) (s t : State) : Prop where
  advanced : lsbAdvanced n s t.rd
  ready : LsbReady t
  ovr : t.rd.ovr = (s.rd.ovr || decide (realBits s < n))
  realLeft : realBits t = realBits s - n
  short : realBits s < n → t.rd.eof = true ∧ s.rd.inLen.toNat ≤ t.rd.cur.toNat
  input : SameInput s t

section

variable {s t u : State} {n m : Nat}

theorem after_zero (b : Nat → Bool) : after 0 b = b := rfl

theorem after_after (b : Nat → Bool) : after m (after n b) = after (n + m) b :=
  funext fun j => congrArg b (by omega)

theorem sameInput_refl (s : State) : SameInput s s := ⟨rfl, fun _ _ => rfl⟩

theorem SameInput.trans (h : SameInput s t) (h' : SameInput t u) (hbase : t.rd.inBase = s.rd.inBase)
    (hlen : t.rd.inLen = s.rd.inLen) : SameInput s u where
  holes := h'.holes.trans h.holes
  bytes k hk := by
    have hb := h'.bytes k (hlen ▸ hk)
    rw [hbase] at hb
    exact hb.trans (h.bytes k hk)

theorem sameInput_of_bus (hbus : t.bus = s.bus) : SameInput s t :=
  ⟨congrArg Bus.holes hbus, fun _ _ => by rw [byteAt, hbus]; rfl⟩

/-- The stream of a reader over the same bytes. -/
theorem SameInput.stream_eq (h : SameInput s t) {r : Reader} (hbase : r.inBase = s.rd.inBase)
    (hlen : r.inLen = s.rd.inLen) : lsbStream { t with rd := r } = lsbStream { s with rd := r } := by
  funext j
  rw [lsbStream, lsbStream]
  have hleft : inputLeft { t with rd := r } = inputLeft { s with rd := r } := rfl
  rw [hleft]
  split
  · rfl
  · split
    · rename_i hlt
      refine congrArg (fun c : Byte => c.getLsbD ((j - r.bitcnt) % 8)) ?_
      have hk : r.cur.toNat + (j - r.bitcnt) / 8 < s.rd.inLen.toNat := by
        rw [← hlen]
        change (j - r.bitcnt) / 8 < r.inLen.toNat - r.cur.toNat at hlt
        omega
      have hbyte := h.bytes _ hk
      rw [← hbase] at hbyte
      exact hbyte
    · rfl

theorem LsbReady.padsLast (h : LsbReady s) : PadsLast s := by
  rw [PadsLast, bytesLeft_lsb h.mode]
  exact h.pads.imp_right And.left

theorem reached_zero (h : LsbReady s) : Reached 0 s s where
  advanced := ⟨rfl, rfl, rfl, rfl, rfl, h.ok, fun _ => rfl⟩
  ready := h
  ovr := by simp
  realLeft := rfl
  short := nofun
  input := sameInput_refl s

theorem Reached.stream (h : Reached n s t) : lsbStream t = after n (lsbStream s) := by
  obtain ⟨-, hbase, hlen, -, -, -, hstream⟩ := h.advanced
  exact (h.input.stream_eq hbase hlen).trans (funext hstream)

theorem Reached.trans (h : Reached n s t) (hn : n ≤ realBits s) (h' : Reached m t u) :
    Reached (n + m) s u := by
  obtain ⟨hmode, hbase, hlen, hno, hmark, -, -⟩ := h.advanced
  obtain ⟨hmode', hbase', hlen', hno', hmark', hok, -⟩ := h'.advanced
  have hin := h.input.trans h'.input hbase hlen
  have hreal := h.realLeft
  have hovr : decide (realBits s < n + m) = decide (realBits t < m) := decide_eq_decide.mpr (by omega)
  refine ⟨⟨hmode'.trans hmode, hbase'.trans hbase, hlen'.trans hlen, hno'.trans hno,
    hmark'.trans hmark, hok, fun j => ?_⟩, h'.ready, ?_, ?_, fun hlt => ?_, hin⟩
  · have hst := (hin.stream_eq (hbase'.trans hbase) (hlen'.trans hlen)).symm.trans h'.stream
    rw [h.stream, after_after] at hst
    exact congrFun hst j
  · rw [h'.ovr, h.ovr, decide_eq_false (Nat.not_lt.mpr hn), Bool.or_false, hovr]
  · rw [h'.realLeft, hreal, Nat.sub_sub]
  · rw [← hlen]
    exact h'.short (by omega)

/-- A state that differs from a reached one in neither its reader nor its memory is reached too. -/
theorem Reached.of_same (h : Reached n s t) (hrd : u.rd = t.rd) (hbus : u.bus = t.bus) : Reached n s u where
  advanced := hrd ▸ h.advanced
  ready := by
    refine ⟨hrd ▸ h.ready.mode, hrd ▸ h.ready.ok, ?_, ?_⟩
    · rw [inputAnswers, inputRegion, hrd, answers, hbus]
      exact h.ready.input
    · rw [inputLeft, hrd]
      exact h.ready.pads
  ovr := hrd ▸ h.ovr
  realLeft := by
    rw [← h.realLeft, realBits, inputLeft, hrd]
    rfl
  short hlt := hrd ▸ h.short hlt
  input := ⟨hbus ▸ h.input.holes, fun k hk => by rw [byteAt, hbus]; exact h.input.bytes k hk⟩

/-! ### Fetching and dropping (41_bitreader.md R157, R159, R160) -/

/-- `Fill`'s loop fetches whole bytes, and meets the end of the input before it holds pad bits. -/
theorem fillLoop_whole (h : LsbReady s) (hrun : fillLoop n (Run.whole s) = .ok () (Run.whole t)) :
    t.rd.bitcnt % 8 = s.rd.bitcnt % 8 ∧ (t.rd.padbits = 0 ∨ inputLeft t = 0 ∧ t.rd.eof = true) := by
  induction n generalizing s with
  | zero =>
    cases hrun
    exact ⟨rfl, h.pads⟩
  | succ n ih =>
    rw [fillLoop, look_bind_run] at hrun
    by_cases hb : s.rd.bitcnt ≤ 24
    · rw [Run.whole, if_pos hb] at hrun
      have hfetch := fetchByte_cases h.input
      obtain ⟨hlt, hf⟩ | ⟨hge, hf⟩ := hfetch
      · have hrun := (bind_ok ((nextByte_lsb h.mode).trans hf)).symm.trans hrun
        have hrun := (bind_ok (assignAll_run _ _)).symm.trans hrun
        rw [afterAll_whole] at hrun
        have hpad : s.rd.padbits = 0 := h.pads.resolve_right fun ⟨hnone, _⟩ => by
          rw [inputLeft] at hnone
          omega
        obtain ⟨hcnt, hpads⟩ := ih (s := enterByte (inputByte s 0) .real (advanceCur s)) ⟨h.mode,
          enterByte_readerOk _ _ hb h.ok, inputAnswers_advanceCur.trans h.input, .inl hpad⟩ hrun
        exact ⟨hcnt.trans (Nat.add_mod_right s.rd.bitcnt 8), hpads⟩
      · have hrun := (bind_ok ((nextByte_lsb h.mode).trans hf)).symm.trans hrun
        have hrun := (bind_ok (assignAll_run _ _)).symm.trans hrun
        rw [afterAll_whole] at hrun
        obtain ⟨hcnt, hpads⟩ := ih (s := enterByte 0 .pad (markEof s)) ⟨h.mode,
          enterByte_readerOk _ _ hb h.ok, h.input,
          .inr ⟨Nat.sub_eq_zero_of_le (Nat.not_lt.mp hge), rfl⟩⟩ hrun
        exact ⟨hcnt.trans (Nat.add_mod_right s.rd.bitcnt 8), hpads⟩
    · rw [Run.whole, if_neg hb] at hrun
      cases hrun
      exact ⟨rfl, h.pads⟩

theorem need_lsb_pads (h : LsbReady s) (hrun : need n (Run.whole s) = .ok () (Run.whole t)) :
    t.rd.bitcnt % 8 = s.rd.bitcnt % 8 ∧ (t.rd.padbits = 0 ∨ inputLeft t = 0 ∧ t.rd.eof = true) := by
  rw [Machine.need_run] at hrun
  split at hrun
  · exact fillLoop_whole h hrun
  · cases hrun
    exact ⟨rfl, h.pads⟩

/-- `Need(n)` takes nothing. -/
theorem LsbReady.need_run (h : LsbReady s) (hn : n ≤ 16) :
    ∃ t, need n (Run.whole s) = .ok () (Run.whole t) ∧ ReaderOnly s t ∧ n ≤ t.rd.bitcnt ∧
      Reached 0 s t := by
  obtain ⟨t, hneed, hro, hcnt, hadv, hreal, hovr⟩ := need_lsb hn h.mode h.ok h.input
  obtain ⟨-, hpads⟩ := need_lsb_pads h hneed
  refine ⟨t, hneed, hro, hcnt, hadv, ⟨hro.2.1.trans h.mode, lsbAdvanced_readerOk hadv,
    (inputAnswers_readerOnly hro).trans h.input, hpads⟩, by simpa using hovr, hreal, nofun,
    sameInput_of_bus (by rw [hro.1])⟩

/-- Bits that ACC holds are taken when they leave it, and one of them is a pad bit exactly where fewer
real bits are left. -/
theorem LsbReady.dropBits_reached (h : LsbReady s) (hn : n ≤ s.rd.bitcnt) :
    takesPad s n = decide (realBits s < n) ∧ Reached n s (dropBits n s) := by
  obtain ⟨-, hpad, -, -, -, -⟩ := (readerOk_iff _).mp h.ok
  have htake : takesPad s n = decide (realBits s < n) := by
    rw [takesPad_of_padsLast h.padsLast hn, bytesLeft_lsb h.mode, realBits]
  have hpads := dropBits_padbits s n hpad
  have hadv := dropBits_lsb hn h.mode h.ok
  have hleft : inputLeft (dropBits n s) = inputLeft s := rfl
  refine ⟨htake, hadv, ⟨h.mode, lsbAdvanced_readerOk hadv, h.input, ?_⟩, ?_, ?_, fun hlt => ?_,
    sameInput_of_bus rfl⟩
  · rw [hpads, hleft]
    exact h.pads.imp_left fun hzero => by rw [hzero, Nat.zero_min]
  · rw [dropBits_ovr, htake]
  · have hp := h.pads
    rw [realBits, hpads, hleft, dropBits_bitcnt, realBits]
    omega
  · obtain ⟨hnone, heof⟩ := h.pads.resolve_left fun hzero => by
      rw [realBits] at hlt
      omega
    exact ⟨heof, Nat.sub_eq_zero_iff_le.mp hnone⟩

end

end Sys2Proof.Machine

end

-- Pieces of INFLATE that read bits: what they answer, and the fault at the end of the real bits.
section

namespace Sys2Proof.Machine

open Sys2Proof

section

variable {α β : Type} {s : State} {n m k v sym : Nat} {zt : Vector (Option ZTable) 3}
  {b : Nat → Bool} {act : Engine α} {f : α → Engine β} {x : α} {e : Stop} {xs ys : List Bool}

/-! ### Reading bits (43_inflate.md R255) -/

/-- How a run ends that answers or stops at `r`. -/
def answered (res : Except Stop α) (r : Run) : EStateM.Result Stop Run α :=
  match res with
  | .ok x => .ok x r
  | .error e => .error e r

/-- `act` stops with E_EOF within `n` bits of the stream, as the real ones end there; only the reader
has changed. -/
def Short (n : Nat) (s : State) (act : Engine α) : Prop :=
  ∃ (r : Reader) (m : Nat),
    act (Run.whole s) = .error (.raised .eEof r.cur) (Run.whole { s with rd := r }) ∧
    realBits s < m ∧ m ≤ n ∧ Reached m s { s with rd := r }

/-- With the DEFLATE tables `zt` and the stream `b`, `act` ends as `res` says and takes exactly `n`
bits, all of them real; where fewer real bits are left, it is short. -/
def Reads (zt : Vector (Option ZTable) 3) (b : Nat → Bool) (act : Engine α) (n : Nat)
    (res : Except Stop α) : Prop :=
  ∀ s, LsbReady s → s.tab.zt = zt → lsbStream s = b →
    (n ≤ realBits s → ∃ r, act (Run.whole s) = answered res (Run.whole { s with rd := r }) ∧
      Reached n s { s with rd := r }) ∧
    (realBits s < n → Short n s act)

theorem short_bind (h : Short n s act) (hm : n ≤ m) : Short m s (act >>= f) := by
  obtain ⟨r, k, hrun, hlt, hk, hreach⟩ := h
  exact ⟨r, k, bind_error hrun, hlt, hk.trans hm, hreach⟩

theorem short_after {r : Reader} (hrun : act (Run.whole s) = .ok x (Run.whole { s with rd := r }))
    (hreach : Reached n s { s with rd := r }) (hn : n ≤ realBits s)
    (h : Short m { s with rd := r } (f x)) : Short (n + m) s (act >>= f) := by
  obtain ⟨r', k, hrun', hlt, hk, hreach'⟩ := h
  have hreal := hreach.realLeft
  exact ⟨r', n + k, (bind_ok hrun).trans hrun', by omega, by omega, hreach.trans hn hreach'⟩

theorem reads_pure (x : α) : Reads zt b (pure x) 0 (.ok x) := fun s h _ _ =>
  ⟨fun _ => ⟨s.rd, rfl, reached_zero h⟩, nofun⟩

theorem reads_raise (code : FaultCode) (info : Word) :
    Reads zt b (raise code info : Engine α) 0 (.error (.raised code info)) := fun s h _ _ =>
  ⟨fun _ => ⟨s.rd, rfl, reached_zero h⟩, nofun⟩

theorem reads_bind {res : Except Stop β} (h : Reads zt b act n (.ok x))
    (h' : Reads zt (after n b) (f x) m res) : Reads zt b (act >>= f) (n + m) res := by
  intro s hs htab hb
  obtain ⟨hreal, hshort⟩ := h s hs htab hb
  refine ⟨fun hnm => ?_, fun hlt => ?_⟩
  · obtain ⟨r, hrun, hreach⟩ := hreal (by omega)
    have hleft := hreach.realLeft
    obtain ⟨r', hrun', hreach'⟩ :=
      (h' _ hreach.ready htab (hreach.stream.trans (congrArg _ hb))).1 (by omega)
    exact ⟨r', (bind_ok hrun).trans hrun', hreach.trans (by omega) hreach'⟩
  · by_cases hn : n ≤ realBits s
    · obtain ⟨r, hrun, hreach⟩ := hreal hn
      have hleft := hreach.realLeft
      exact short_after hrun hreach hn
        ((h' _ hreach.ready htab (hreach.stream.trans (congrArg _ hb))).2 (by omega))
    · exact short_bind (hshort (by omega)) (by omega)

theorem reads_bind_error (h : Reads zt b act n (.error e)) : Reads zt b (act >>= f) n (.error e) := by
  intro s hs htab hb
  obtain ⟨hreal, hshort⟩ := h s hs htab hb
  refine ⟨fun hn => ?_, fun hlt => short_bind (hshort hlt) (Nat.le_refl n)⟩
  obtain ⟨r, hrun, hreach⟩ := hreal hn
  exact ⟨r, bind_error hrun, hreach⟩

/-- The answer of a read, unless one of its bits was a pad bit (43_inflate.md R255). -/
def realOnly (act : Engine (α × Bool)) : Engine α :=
  act >>= fun y => if y.2 then raiseEof else pure y.1

theorem zSym_eq (t : Fin 3) : zSym t = realOnly (zDecode t) := rfl

theorem bits_eq (hk : k ≠ 0) : bits k = realOnly (need k >>= fun _ => consume k) := by
  rw [bits, if_neg hk, realOnly, bind_assoc_run]

/-- A read that takes what ACC holds after a fetch. -/
theorem realOnly_reads {act : Engine (α × Bool)} {u : State}
    (hrun : act (Run.whole s) = .ok (x, takesPad u n) (Run.whole (dropBits n u)))
    (hro : ReaderOnly s u) (hu : Reached 0 s u) (hn : n ≤ u.rd.bitcnt) :
    (n ≤ realBits s → ∃ r, realOnly act (Run.whole s) = .ok x (Run.whole { s with rd := r }) ∧
      Reached n s { s with rd := r }) ∧
    (realBits s < n → Short n s (realOnly act)) := by
  obtain ⟨htake, hdrop⟩ := hu.ready.dropBits_reached hn
  have hreal : realBits u = realBits s := hu.realLeft
  have hreach := hu.trans (Nat.zero_le _) hdrop
  rw [Nat.zero_add] at hreach
  have hst : dropBits n u = { s with rd := (dropBits n u).rd } := by
    rw [← withReader_of_readerOnly hro]
    rfl
  rw [htake, hreal] at hrun
  refine ⟨fun hle => ⟨(dropBits n u).rd, ?_, hst ▸ hreach⟩,
    fun hlt => ⟨(dropBits n u).rd, n, ?_, hlt, Nat.le_refl n, hst ▸ hreach⟩⟩
  · rw [decide_eq_false (Nat.not_lt.mpr hle)] at hrun
    rw [← hst]
    exact bind_ok hrun
  · rw [decide_eq_true hlt] at hrun
    rw [← hst]
    exact bind_ok hrun

/-- `Bits(k)` is the next k bits, the first one lowest. -/
theorem reads_bits (hk : k ≤ 16) : Reads zt b (bits k) k (.ok (lowFirst b k)) := by
  intro s hs _ hb
  by_cases h0 : k = 0
  · subst h0
    exact ⟨fun _ => ⟨s.rd, rfl, reached_zero hs⟩, nofun⟩
  · obtain ⟨u, hneed, hro, hcnt, hu⟩ := hs.need_run hk
    have hpeek : peekBits u k = lowFirst b k := by
      rw [peekBits_lsb hcnt hu.ready.mode, hu.stream, after_zero, hb]
    have hrun : (need k >>= fun _ => consume k) (Run.whole s) =
        .ok (lowFirst b k, takesPad u k) (Run.whole (dropBits k u)) := by
      rw [bind_ok hneed, consume_whole, hpeek]
    rw [bits_eq h0]
    exact realOnly_reads hrun hro hu hcnt

/-! ### What the stream begins with -/

/-- The stream begins with the bits. -/
def Begins (b : Nat → Bool) (xs : List Bool) : Prop := ∀ j, j < xs.length → b j = xs.getD j false

theorem begins_append :
    Begins b (xs ++ ys) ↔ Begins b xs ∧ Begins (after xs.length b) ys := by
  constructor
  · refine fun h => ⟨fun j hj => ?_, fun j hj => ?_⟩
    · rw [h j (by rw [List.length_append]; omega), List.getD_append _ _ _ _ hj]
    · rw [after, h _ (by rw [List.length_append]; omega), List.getD_append_right _ _ _ _ (by omega),
        Nat.add_sub_cancel]
  · rintro ⟨hx, hy⟩ j hj
    rw [List.length_append] at hj
    by_cases hlt : j < xs.length
    · rw [hx j hlt, List.getD_append _ _ _ _ hlt]
    · have hyj := hy (j - xs.length) (by omega)
      rw [after, Nat.sub_add_cancel (by omega)] at hyj
      rw [hyj, List.getD_append_right _ _ _ _ (by omega)]

theorem length_lowBits (n v : Nat) : (lowBits n v).length = n := by
  rw [lowBits, List.length_map, List.length_range]

theorem lowFirst_of_begins (h : Begins b (lowBits n v)) (hv : v < 2 ^ n) : lowFirst b n = v := by
  refine Nat.eq_of_testBit_eq fun j => ?_
  rw [lowFirst_testBit]
  by_cases hj : j < n
  · rw [h j (by rwa [length_lowBits])]
    simp [lowBits, List.getD_eq_getElem?_getD, hj]
  · rw [Nat.testBit_lt_two_pow (hv.trans_le (Nat.pow_le_pow_right (by omega) (by omega)))]
    simp [hj]

/-- `Bits(k)` of a number that the stream begins with. -/
theorem reads_number (hk : k ≤ 16) (hv : v < 2 ^ k) (h : Begins b (lowBits k v)) :
    Reads zt b (bits k) (lowBits k v).length (.ok v) := by
  have hread := reads_bits (zt := zt) (b := b) hk
  rw [length_lowBits]
  rwa [lowFirst_of_begins h hv] at hread

/-! ### Reading a symbol (42_huffman.md R210; 43_inflate.md R255) -/

variable {t : Fin 3} {tbl : ZTable}

theorem length_codeBits (tbl : ZTable) (sym : Nat) : (codeBits tbl sym).length = (codeOf tbl sym).len := by
  rw [codeBits, List.length_map, List.length_range]

/-- A symbol with a code is one of the table's. -/
theorem codeOf_getElem? (h : hasCode tbl sym = true) :
    tbl.syms[sym]? = some (codeOf tbl sym) ∧ (codeOf tbl sym).len ≠ 0 := by
  have hne : (codeOf tbl sym).len ≠ 0 := by simpa [hasCode] using h
  refine ⟨?_, hne⟩
  cases hsym : tbl.syms[sym]? with
  | some e => rw [codeOf, List.getD_eq_getElem?_getD, hsym]; rfl
  | none =>
    rw [codeOf, List.getD_eq_getElem?_getD, hsym] at hne
    exact absurd rfl hne

theorem code_of_begins (hok : zTableOk t tbl = true) (hcode : hasCode tbl sym = true)
    (h : Begins b (codeBits tbl sym)) :
    (codeOf tbl sym).code = highFirst b (codeOf tbl sym).len := by
  obtain ⟨hsym, hne⟩ := codeOf_getElem? hcode
  refine (codeNext_iff (zTableOk_code_lt hok hsym hne)).mp ?_
  rw [codeNext, List.all_eq_true]
  intro j hj
  rw [List.mem_range] at hj
  rw [beq_iff_eq, h j (by rwa [length_codeBits])]
  simp [codeBits, List.getD_eq_getElem?_getD, hj]

theorem noneNext_iff (hok : zTableOk t tbl = true) (h : noneNext tbl b = true) :
    ∀ e, e ∈ tbl.syms → e.len ≠ 0 → e.code ≠ highFirst b e.len := by
  intro e he hne hcode
  obtain ⟨sym, hsym⟩ := List.mem_iff_getElem?.mp he
  rw [noneNext, List.all_eq_true] at h
  have hno := h e he
  rw [(codeNext_iff (zTableOk_code_lt hok hsym hne)).mpr hcode] at hno
  simp [hne] at hno

/-- `ZSym` of a symbol whose code the stream begins with. -/
theorem reads_zSym (htab : zt[t] = some tbl) (hok : zTableOk t tbl = true)
    (hcode : hasCode tbl sym = true) (h : Begins b (codeBits tbl sym)) :
    Reads zt b (zSym t) (codeBits tbl sym).length (.ok sym) := by
  intro s hs hst hb
  obtain ⟨hsym, hne⟩ := codeOf_getElem? hcode
  obtain ⟨u, hneed, hro, hcnt, hu⟩ := hs.need_run (Nat.le_refl 16)
  have hlen : (codeOf tbl sym).len ≤ u.rd.bitcnt :=
    (zLengths_pos (zTableOk_len_mem hok hsym hne)).2.trans hcnt
  have hub : PeeksLsb b u := by
    have hpeeks := peeksLsb_stream hu.ready.mode hcnt
    rwa [hu.stream, after_zero, hb] at hpeeks
  have hsearch := zSearch_of_code hub hok hsym hne (code_of_begins hok hcode h)
  have htabu : u.tab.zt[t] = some tbl := by rw [hro.1, hst]; exact htab
  rw [zSym_eq, length_codeBits]
  exact realOnly_reads (zDecode_of_search hneed htabu hsearch) hro hu hlen

/-- `ZSym` where no code begins the stream. -/
theorem reads_zSym_none (htab : zt[t] = some tbl) (hok : zTableOk t tbl = true)
    (h : noneNext tbl b = true) :
    Reads zt b (zSym t) 0 (.error (.raised .eBadcode noCode)) := by
  intro s hs hst hb
  obtain ⟨u, hneed, hro, hcnt, hu⟩ := hs.need_run (Nat.le_refl 16)
  have hub : PeeksLsb b u := by
    have hpeeks := peeksLsb_stream hu.ready.mode hcnt
    rwa [hu.stream, after_zero, hb] at hpeeks
  have hsearch := zSearch_of_no_code hub (noneNext_iff hok h)
  have htabu : u.tab.zt[t] = some tbl := by rw [hro.1, hst]; exact htab
  refine ⟨fun _ => ⟨u.rd, ?_, hro.1 ▸ hu⟩, nofun⟩
  rw [← hro.1, zSym_eq, realOnly]
  exact bind_error (zDecode_of_none hneed htabu hsearch)

end

end Sys2Proof.Machine

end

-- Compressed data of INFLATE: the output that each token writes.
section

namespace Sys2Proof.Machine

open Sys2Proof

/-! ### The output so far (43_inflate.md R256) -/

/-- The output region is mapped, holds the output so far, and does not meet the input. -/
structure OutReady (s : State) : Prop where
  room : OutputRoom 0 s
  apart : regionsMeet (outputRegion s) (inputRegion s) = false

/-- `t` is reached from `s` by taking exactly `n` bits and writing the output up to `w`; nothing else
differs. -/
structure Inflating (n : Nat) (w : List Byte) (s t : State) : Prop where
  reached : Reached n s t
  frame : t =
    { s with
      rd := t.rd
      out := { s.out with outLen := Word.ofNat w.length }
      bus := { s.bus with mem := t.bus.mem } }
  output : outputIs s w t.bus.mem
  wf : Memory.wf t.bus.mem = true
  grows : s.out.outLen.toNat ≤ w.length
  fits : w.length ≤ s.out.outCap.toNat

section

variable {s t u : State} {n m : Nat} {w w' : List Byte} {mem : Memory}

theorem length_window (s : State) : (window s).length = s.out.outLen.toNat := by
  rw [window, List.length_map, List.length_range]

theorem OutReady.fits (h : OutReady s) : s.out.outLen.toNat ≤ s.out.outCap.toNat := h.room.fits

theorem outputIs_window (s : State) (h : Memory.wf s.bus.mem = true) :
    outputIs s (window s) s.bus.mem := by
  have hout := (appended_nil h).outputIs
  rwa [List.append_nil] at hout

theorem Inflating.outLen (h : Inflating n w s t) : t.out.outLen.toNat = w.length := by
  have hcap := s.out.outCap.isLt
  have hfits := h.fits
  rw [h.frame]
  change (Word.ofNat w.length).toNat = w.length
  rw [Word.ofNat, BitVec.toNat_ofNat]
  omega

theorem Inflating.outBase (h : Inflating n w s t) : t.out.outBase = s.out.outBase := by
  rw [h.frame]

theorem Inflating.window_eq (h : Inflating n w s t) : window t = w := by
  refine List.ext_getElem (by rw [length_window, h.outLen]) fun k hk hk' => ?_
  have hout := h.output (s.out.outBase.toNat + k)
  rw [if_pos (within_iff.mpr ⟨by omega, by omega⟩), Nat.add_sub_cancel_left,
    List.getD_eq_getElem _ _ hk'] at hout
  simp only [window, List.getElem_map, List.getElem_range, byteAt, h.outBase]
  exact hout

theorem Inflating.outReady (h : Inflating n w s t) (hs : OutReady s) : OutReady t := by
  obtain ⟨hmode, hbase, hlen, -, -, -, -⟩ := h.reached.advanced
  have hcap : t.out.outCap = s.out.outCap := by rw [h.frame]
  refine ⟨⟨?_, ?_, h.wf⟩, ?_⟩
  · have hmapped := hs.room.mapped
    rw [answers, outputRegion, h.outBase, hcap, h.reached.input.holes]
    exact hmapped
  · rw [h.outLen, hcap]
    exact h.fits
  · rw [outputRegion, inputRegion, h.outBase, hcap, hbase, hlen]
    exact hs.apart

theorem outputIs_trans (h : outputIs s w t.bus.mem) (h' : outputIs t w' mem)
    (hbase : t.out.outBase = s.out.outBase) (hlen : w.length ≤ w'.length) : outputIs s w' mem := by
  intro a
  rw [h', hbase]
  by_cases hin : within a s.out.outBase.toNat w'.length = true
  · rw [if_pos hin, if_pos hin]
  · rw [if_neg hin, if_neg hin, byteAt, h, if_neg fun hw => hin ?_]
    rw [within_iff] at hw ⊢
    omega

theorem Inflating.trans (h : Inflating n w s t) (hn : n ≤ realBits s) (h' : Inflating m w' t u) :
    Inflating (n + m) w' s u := by
  have hgrows := h'.grows
  rw [h.outLen] at hgrows
  have hcap : t.out.outCap = s.out.outCap := by rw [h.frame]
  refine ⟨h.reached.trans hn h'.reached, ?_, outputIs_trans h.output h'.output h.outBase hgrows, h'.wf,
    h.grows.trans hgrows, hcap ▸ h'.fits⟩
  have hframe := h'.frame
  rw [h.frame] at hframe
  exact hframe

/-- A read leaves the output as it was. -/
theorem inflating_of_reached {r : Reader} (hs : OutReady s) (h : Reached n s { s with rd := r }) :
    Inflating n (window s) s { s with rd := r } where
  reached := h
  frame := by simp only [length_window, word_ofNat_toNat]
  output := outputIs_window s hs.room.wf
  wf := hs.room.wf
  grows := (length_window s).ge
  fits := (length_window s).trans_le hs.fits

/-- Bytes that are appended leave the reader and its stream. -/
theorem inflating_of_appended {bs : List Byte} (hl : LsbReady s) (hs : OutReady s)
    (hfits : s.out.outLen.toNat + bs.length ≤ s.out.outCap.toNat) (h : Appended s bs mem) :
    Inflating 0 (window s ++ bs) s (grownBy bs.length mem s) := by
  have hin : SameInput s (grownBy bs.length mem s) := by
    refine ⟨rfl, fun k hk => ?_⟩
    rw [byteAt]
    change memGet mem _ = _
    rw [h.get, if_neg fun hw => ?_]
    obtain ⟨hlo, hhi⟩ := within_iff.mp hw
    have hmeet : regionsMeet (outputRegion s) (inputRegion s) = true := by
      refine regionsMeet_of_mem (a := s.rd.inBase.toNat + k) ?_ ⟨Nat.le_add_right _ _, Nat.add_lt_add_left hk _⟩
      rw [outEnd] at hlo hhi
      change s.out.outBase.toNat ≤ _ ∧ _ < s.out.outBase.toNat + s.out.outCap.toNat
      omega
    rw [hs.apart] at hmeet
    cases hmeet
  have hlen : (window s ++ bs).length = s.out.outLen.toNat + bs.length := by
    rw [List.length_append, length_window]
  have hzero := reached_zero hl
  refine ⟨⟨⟨rfl, rfl, rfl, rfl, rfl, hl.ok, fun j => rfl⟩, ⟨hl.mode, hl.ok, hl.input, hl.pads⟩,
    hzero.ovr, rfl, nofun, hin⟩, ?_, h.outputIs, h.wf, by omega, by omega⟩
  have hword : Word.ofNat (window s ++ bs).length = s.out.outLen + Word.ofNat bs.length := by
    rw [hlen, Word.ofNat, BitVec.ofNat_add]
    exact congrArg (· + Word.ofNat bs.length) (word_ofNat_toNat _)
  rw [hword]
  rfl

end

/-! ### Pieces that read and then write (43_inflate.md R264 to R271) -/

/-- INFLATE's state where the DEFLATE tables are `zt`, the stream is `b`, and the output so far is `w`
of at most `cap` bytes. -/
structure At (zt : Vector (Option ZTable) 3) (b : Nat → Bool) (cap : Nat) (w : List Byte) (s : State) :
    Prop where
  lsb : LsbReady s
  out : OutReady s
  tab : s.tab.zt = zt
  stream : lsbStream s = b
  cap : s.out.outCap.toNat = cap
  window : window s = w

/-- In such a state `act` ends as `res` says, takes exactly `n` bits, all of them real, and leaves the
output `w'`; where fewer real bits are left, it is short and has written nothing. -/
def Writes (zt : Vector (Option ZTable) 3) (b : Nat → Bool) (cap : Nat) (w : List Byte) {α : Type}
    (act : Engine α) (n : Nat) (res : Except Stop α) (w' : List Byte) : Prop :=
  ∀ s, At zt b cap w s →
    (n ≤ realBits s → ∃ t, act (Run.whole s) = answered res (Run.whole t) ∧ Inflating n w' s t) ∧
    (realBits s < n → Short n s act)

section

variable {α β : Type} {s t : State} {n m cap bound : Nat} {zt : Vector (Option ZTable) 3}
  {b : Nat → Bool} {w w' : List Byte} {act : Engine α} {f : α → Engine β} {x : α}

theorem look_bind_whole (g : State → Engine β) (s : State) :
    (look >>= g) (Run.whole s) = g s (Run.whole s) := look_bind_run g (Run.whole s)

theorem At.outLen (h : At zt b cap w s) : s.out.outLen.toNat = w.length := by
  rw [← h.window, length_window]

theorem At.of_inflating (h : At zt b cap w s) (h' : Inflating n w' s t) : At zt (after n b) cap w' t where
  lsb := h'.reached.ready
  out := h'.outReady h.out
  tab := by rw [h'.frame]; exact h.tab
  stream := by rw [h'.reached.stream, h.stream]
  cap := by rw [h'.frame]; exact h.cap
  window := h'.window_eq

theorem writes_of_reads {res : Except Stop α} (h : Reads zt b act n res) : Writes zt b cap w act n res w := by
  intro s hs
  obtain ⟨hreal, hshort⟩ := h s hs.lsb hs.tab hs.stream
  refine ⟨fun hn => ?_, hshort⟩
  obtain ⟨r, hrun, hreach⟩ := hreal hn
  exact ⟨_, hrun, hs.window ▸ inflating_of_reached hs.out hreach⟩

theorem writes_bind {res : Except Stop β} (h : Reads zt b act n (.ok x))
    (h' : Writes zt (after n b) cap w (f x) m res w') :
    Writes zt b cap w (act >>= f) (n + m) res w' := by
  intro s hs
  obtain ⟨hreal, hshort⟩ := h s hs.lsb hs.tab hs.stream
  by_cases hn : n ≤ realBits s
  · obtain ⟨r, hrun, hreach⟩ := hreal hn
    have hleft := hreach.realLeft
    have hinf := inflating_of_reached hs.out hreach
    have hat := hs.of_inflating hinf
    rw [hs.window] at hinf hat
    obtain ⟨hreal', hshort'⟩ := h' _ hat
    refine ⟨fun hnm => ?_, fun hlt => short_after hrun hreach hn (hshort' (by omega))⟩
    obtain ⟨t, hrun', hinf'⟩ := hreal' (by omega)
    exact ⟨t, (bind_ok hrun).trans hrun', hinf.trans hn hinf'⟩
  · exact ⟨fun hnm => by omega, fun _ => short_bind (hshort (by omega)) (by omega)⟩

/-- A piece that writes, and then an answer. -/
theorem writes_then {y : β} (h : Writes zt b cap w act n (.ok x) w') (hf : f x = pure y) :
    Writes zt b cap w (act >>= f) n (.ok y) w' := by
  intro s hs
  obtain ⟨hreal, hshort⟩ := h s hs
  refine ⟨fun hn => ?_, fun hlt => short_bind (hshort hlt) (Nat.le_refl n)⟩
  obtain ⟨t, hrun, hinf⟩ := hreal hn
  refine ⟨t, (bind_ok hrun).trans ?_, hinf⟩
  rw [hf]
  rfl

theorem writes_error {e : Stop} (h : Writes zt b cap w act n (.error e) w') :
    Writes zt b cap w (act >>= f) n (.error e) w' := by
  intro s hs
  obtain ⟨hreal, hshort⟩ := h s hs
  refine ⟨fun hn => ?_, fun hlt => short_bind (hshort hlt) (Nat.le_refl n)⟩
  obtain ⟨t, hrun, hinf⟩ := hreal hn
  exact ⟨t, bind_error hrun, hinf⟩

/-! ### Writing (43_inflate.md R256, R268, R269, R271) -/

theorem outByte_writes {c : Byte} (hroom : w.length < cap) :
    Writes zt b cap w (outByte c) 0 (.ok ()) (w ++ [c]) := by
  intro s hs
  have hlen := hs.outLen
  have hcap := hs.cap
  refine ⟨fun _ => ⟨pushByte c s, ?_, ?_⟩, nofun⟩
  · rw [outByte, look_bind_whole, if_neg (by omega)]
    exact appendByte_run (n := 0) ⟨hs.out.room.mapped, by omega, hs.out.room.wf⟩
  · have hmem : Appended s [c] (pushByte c s).bus.mem := by
      have hroom1 : OutputRoom (0 + 1) s := ⟨hs.out.room.mapped, by omega, hs.out.room.wf⟩
      exact hroom1.appended_cons (appended_nil hroom1.after_pushByte.wf)
    have hinf := inflating_of_appended hs.lsb hs.out (bs := [c]) (by simp only [List.length_singleton]; omega) hmem
    rw [hs.window] at hinf
    have hst : grownBy [c].length (pushByte c s).bus.mem s = pushByte c s := by
      rw [List.length_singleton, ← grownBy_pushByte, grownBy_zero]
    rwa [hst] at hinf

theorem outByte_full {c : Byte} (hfull : cap ≤ w.length) :
    Writes zt b cap w (outByte c) 0 (.error (.raised .eOutfull (Word.ofNat (w.length + 1)))) w := by
  intro s hs
  have hlen := hs.outLen
  have hcap := hs.cap
  refine ⟨fun _ => ⟨s, ?_, hs.window ▸ inflating_of_reached hs.out (reached_zero hs.lsb)⟩, nofun⟩
  rw [outByte, look_bind_whole, if_pos (by omega), hlen]
  rfl

/-- The bytes of a match, from the output before it (43_inflate.md R269). -/
def matchBytes (w : List Byte) (dist len : Nat) : List Byte :=
  (List.range len).map fun j => w.getD (w.length - dist + j % dist) 0

theorem matchByte_eq {dist : Nat} (hs : At zt b cap w s) (h1 : 1 ≤ dist) (hd : dist ≤ w.length) (j : Nat) :
    matchByte s dist j = w.getD (w.length - dist + j % dist) 0 := by
  have hlt : j % dist < dist := Nat.mod_lt _ h1
  have hlen := hs.outLen
  have hpos : w.length - dist + j % dist < s.out.outLen.toNat := by omega
  have hget : (window s).getD (w.length - dist + j % dist) 0 =
      byteAt s (s.out.outBase.toNat + (w.length - dist + j % dist)) := getD_map_range hpos
  rw [hs.window] at hget
  rw [hget, matchByte, outEnd]
  congr 1
  omega

theorem checkedCopy_writes {dist len : Nat} (h1 : 1 ≤ dist) (hd : dist ≤ w.length)
    (hroom : w.length + len ≤ cap) :
    Writes zt b cap w (checkedCopy dist len) 0 (.ok ()) (w ++ matchBytes w dist len) := by
  intro s hs
  have hlen := hs.outLen
  have hcap := hs.cap
  obtain ⟨mem, hrun, hmem⟩ := copyMatch_run (s := s) (n := len) h1 (by omega)
    ⟨hs.out.room.mapped, by omega, hs.out.room.wf⟩
  rw [List.map_congr_left fun j _ => matchByte_eq hs h1 hd j] at hmem
  have hbytes : (matchBytes w dist len).length = len := by
    rw [matchBytes, List.length_map, List.length_range]
  have hinf := inflating_of_appended hs.lsb hs.out (bs := matchBytes w dist len) (by omega) hmem
  rw [hs.window, hbytes] at hinf
  refine ⟨fun _ => ⟨_, ?_, hinf⟩, nofun⟩
  rw [checkedCopy, look_bind_whole, if_neg (by omega), if_neg (by omega)]
  exact hrun

theorem checkedCopy_dist {dist len : Nat} (hd : w.length < dist) :
    Writes zt b cap w (checkedCopy dist len) 0 (.error (.raised .eDist (Word.ofNat dist))) w := by
  intro s hs
  have hlen := hs.outLen
  refine ⟨fun _ => ⟨s, ?_, hs.window ▸ inflating_of_reached hs.out (reached_zero hs.lsb)⟩, nofun⟩
  rw [checkedCopy, look_bind_whole, if_pos (by omega)]
  rfl

theorem checkedCopy_full {dist len : Nat} (hd : dist ≤ w.length) (hroom : cap < w.length + len) :
    Writes zt b cap w (checkedCopy dist len) 0
      (.error (.raised .eOutfull (Word.ofNat (w.length + len)))) w := by
  intro s hs
  have hlen := hs.outLen
  have hcap := hs.cap
  have hfits := hs.out.fits
  refine ⟨fun _ => ⟨s, ?_, hs.window ▸ inflating_of_reached hs.out (reached_zero hs.lsb)⟩, nofun⟩
  rw [checkedCopy, look_bind_whole, if_neg (by omega), if_pos (by omega), hlen]
  rfl

end

end Sys2Proof.Machine

end

-- The tokens of compressed data, and the loop over them.
section

namespace Sys2Proof.Machine

open Sys2Proof

/-! ### One symbol of compressed data (43_inflate.md R264) -/

/-- What a LITLEN symbol does: whether the data goes on after it. -/
def litlenStep (sym : Nat) : Engine Bool :=
  if sym < 256 then outByte (Byte.ofNat sym) >>= fun _ => pure true
  else if sym = 256 then pure false
  else if 286 ≤ sym then raise .eBadcode (Word.ofNat sym)
  else lengthAndDistance sym >>= fun _ => pure true

/-- One round of `HuffBlock`. -/
def huffToken : Engine Bool := zSym 0 >>= litlenStep

theorem huffBlock_succ (bound : Nat) :
    huffBlock (bound + 1) = huffToken >>= fun more => if more then huffBlock bound else pure () := by
  rw [huffToken, bind_assoc_run, huffBlock]
  congr 1
  funext sym
  rw [litlenStep]
  split
  · rw [bind_assoc_run]
    rfl
  · split
    · rfl
    · split
      · rfl
      · rw [bind_assoc_run]
        rfl

section

variable {zt : Vector (Option ZTable) 3} {b : Nat → Bool} {cap i e d f sym : Nat} {w w' : List Byte}
  {ll dt : ZTable} {lit : Byte} {res : Except Stop Unit}

theorem litlenStep_literal (lit : Byte) :
    litlenStep lit.toNat = outByte lit >>= fun _ => pure true := by
  rw [litlenStep, if_pos lit.isLt, Byte.ofNat, BitVec.ofNat_toNat, BitVec.setWidth_eq]

theorem litlenStep_illegal (h : 286 ≤ sym) :
    litlenStep sym = raise .eBadcode (Word.ofNat sym) := by
  rw [litlenStep, if_neg (by omega), if_neg (by omega), if_pos h]

theorem litlenStep_length (h : i < 29) :
    litlenStep (257 + i) = lengthAndDistance (257 + i) >>= fun _ => pure true := by
  rw [litlenStep, if_neg (by omega), if_neg (by omega), if_neg (by omega)]

/-! ### The match after a length symbol (43_inflate.md R267, R268) -/

section

variable (hdt : zt[(1 : Fin 3)] = some dt) (hdtok : zTableOk 1 dt = true)

include hdt hdtok

theorem lengthAndDistance_copy (he : e < 2 ^ lengthExtras.getD i 0) (hd : d < 30)
    (hcode : hasCode dt d = true) (hf : f < 2 ^ distExtras.getD d 0)
    (hb : Begins b (lowBits (lengthExtras.getD i 0) e ++
      (codeBits dt d ++ lowBits (distExtras.getD d 0) f)))
    (hcopy : ∀ b', Writes zt b' cap w (checkedCopy (matchDistance d f) (matchLength i e)) 0 res w') :
    Writes zt b cap w (lengthAndDistance (257 + i))
      (lowBits (lengthExtras.getD i 0) e ++
        (codeBits dt d ++ lowBits (distExtras.getD d 0) f)).length res w' := by
  obtain ⟨hb1, hb2⟩ := begins_append.mp hb
  obtain ⟨hb2, hb3⟩ := begins_append.mp hb2
  rw [lengthAndDistance_eq, Nat.add_sub_cancel_left, List.length_append, List.length_append]
  refine writes_bind (reads_number (lengthExtras_le i) he hb1)
    (writes_bind (reads_zSym hdt hdtok hcode hb2) ?_)
  rw [if_neg (by omega)]
  refine writes_bind (m := 0) (reads_number (distExtras_le d) hf hb3) ?_
  exact hcopy _

theorem lengthAndDistance_badDist (he : e < 2 ^ lengthExtras.getD i 0) (hd : 30 ≤ d)
    (hcode : hasCode dt d = true)
    (hb : Begins b (lowBits (lengthExtras.getD i 0) e ++ codeBits dt d)) :
    Writes zt b cap w (lengthAndDistance (257 + i))
      (lowBits (lengthExtras.getD i 0) e ++ codeBits dt d).length
      (.error (.raised .eBadcode (Word.ofNat d))) w := by
  obtain ⟨hb1, hb2⟩ := begins_append.mp hb
  rw [lengthAndDistance_eq, Nat.add_sub_cancel_left, List.length_append]
  refine writes_bind (reads_number (lengthExtras_le i) he hb1)
    (writes_bind (m := 0) (reads_zSym hdt hdtok hcode hb2) ?_)
  rw [if_pos hd]
  exact writes_of_reads (reads_bind_error (reads_raise _ _))

theorem lengthAndDistance_none (he : e < 2 ^ lengthExtras.getD i 0)
    (hb : Begins b (lowBits (lengthExtras.getD i 0) e))
    (hnone : noneNext dt (after (lowBits (lengthExtras.getD i 0) e).length b) = true) :
    Writes zt b cap w (lengthAndDistance (257 + i)) (lowBits (lengthExtras.getD i 0) e).length
      (.error (.raised .eBadcode noCode)) w := by
  rw [lengthAndDistance_eq, Nat.add_sub_cancel_left]
  refine writes_bind (m := 0) (reads_number (lengthExtras_le i) he hb) ?_
  exact (writes_error (writes_of_reads (reads_zSym_none hdt hdtok hnone)))

end

/-! ### Each kind of token (43_inflate.md R264 to R271) -/

section

variable (hll : zt[(0 : Fin 3)] = some ll) (hllok : zTableOk 0 ll = true)

include hll hllok

/-- A symbol and what it does. -/
theorem huffToken_symbol {n : Nat} {res : Except Stop Bool} (hcode : hasCode ll sym = true)
    (hb : Begins b (codeBits ll sym))
    (h : Writes zt (after (codeBits ll sym).length b) cap w (litlenStep sym) n res w') :
    Writes zt b cap w huffToken ((codeBits ll sym).length + n) res w' :=
  writes_bind (reads_zSym hll hllok hcode hb) h

theorem huffToken_end (hcode : hasCode ll 256 = true) (hb : Begins b (codeBits ll 256)) :
    Writes zt b cap w huffToken (codeBits ll 256).length (.ok false) w :=
  huffToken_symbol hll hllok hcode hb (writes_of_reads (reads_pure false))

theorem huffToken_none (hnone : noneNext ll b = true) :
    Writes zt b cap w huffToken 0 (.error (.raised .eBadcode noCode)) w :=
  writes_error (writes_of_reads (reads_zSym_none hll hllok hnone))

theorem huffToken_literal (hcode : hasCode ll lit.toNat = true) (hroom : w.length < cap)
    (hb : Begins b (codeBits ll lit.toNat)) :
    Writes zt b cap w huffToken (codeBits ll lit.toNat).length (.ok true) (w ++ [lit]) := by
  refine huffToken_symbol hll hllok hcode hb (n := 0) ?_
  rw [litlenStep_literal]
  exact writes_then (outByte_writes hroom) rfl

theorem huffToken_literalFull (hcode : hasCode ll lit.toNat = true) (hfull : cap ≤ w.length)
    (hb : Begins b (codeBits ll lit.toNat)) :
    Writes zt b cap w huffToken (codeBits ll lit.toNat).length
      (.error (.raised .eOutfull (Word.ofNat (w.length + 1)))) w := by
  refine huffToken_symbol hll hllok hcode hb (n := 0) ?_
  rw [litlenStep_literal]
  exact writes_error (outByte_full hfull)

theorem huffToken_illegal (hcode : hasCode ll sym = true) (hsym : 286 ≤ sym)
    (hb : Begins b (codeBits ll sym)) :
    Writes zt b cap w huffToken (codeBits ll sym).length
      (.error (.raised .eBadcode (Word.ofNat sym))) w := by
  refine huffToken_symbol hll hllok hcode hb (n := 0) ?_
  rw [litlenStep_illegal hsym]
  exact writes_of_reads (reads_raise _ _)

/-- A length symbol and a match that ends without a fault. -/
theorem huffToken_length_ok {xs : List Bool} (hi : i < 29) (hcode : hasCode ll (257 + i) = true)
    (hb : Begins b (codeBits ll (257 + i)))
    (h : Writes zt (after (codeBits ll (257 + i)).length b) cap w (lengthAndDistance (257 + i))
      xs.length (.ok ()) w') :
    Writes zt b cap w huffToken (codeBits ll (257 + i) ++ xs).length (.ok true) w' := by
  rw [List.length_append]
  refine huffToken_symbol hll hllok hcode hb ?_
  rw [litlenStep_length hi]
  exact writes_then h rfl

/-- A length symbol and a match that faults. -/
theorem huffToken_length_error {xs : List Bool} {stop : Stop} (hi : i < 29)
    (hcode : hasCode ll (257 + i) = true) (hb : Begins b (codeBits ll (257 + i)))
    (h : Writes zt (after (codeBits ll (257 + i)).length b) cap w (lengthAndDistance (257 + i))
      xs.length (.error stop) w') :
    Writes zt b cap w huffToken (codeBits ll (257 + i) ++ xs).length (.error stop) w' := by
  rw [List.length_append]
  refine huffToken_symbol hll hllok hcode hb ?_
  rw [litlenStep_length hi]
  exact writes_error h

end

theorem one_le_matchDistance (hd : d < 30) (f : Nat) : 1 ≤ matchDistance d f := by
  have hbase : ∀ k, k < 30 → 1 ≤ distBases.getD k 0 := by decide
  exact (hbase d hd).trans (Nat.le_add_right _ _)

/-- A copy that is checked ends in one of its three ways. -/
theorem checkedCopy_ends {dist : Nat} (len : Nat) (h1 : 1 ≤ dist) :
    ∃ res w', ∀ b', Writes zt b' cap w (checkedCopy dist len) 0 res w' := by
  by_cases hreach : w.length < dist
  · exact ⟨_, _, fun _ => checkedCopy_dist hreach⟩
  · by_cases hroom : cap < w.length + len
    · exact ⟨_, _, fun _ => checkedCopy_full (Nat.le_of_not_lt hreach) hroom⟩
    · exact ⟨_, _, fun _ => checkedCopy_writes h1 (Nat.le_of_not_lt hreach) (Nat.le_of_not_lt hroom)⟩

theorem tokenBits_copy (ll dt : ZTable) (i e d f : Nat) :
    tokenBits ll dt (.copy i e d f) = codeBits ll (257 + i) ++
      (lowBits (lengthExtras.getD i 0) e ++ (codeBits dt d ++ lowBits (distExtras.getD d 0) f)) := by
  simp only [tokenBits, lengthBits, List.append_assoc]

section

variable (hll : zt[(0 : Fin 3)] = some ll) (hllok : zTableOk 0 ll = true)
  (hdt : zt[(1 : Fin 3)] = some dt) (hdtok : zTableOk 1 dt = true)

include hll hllok hdt hdtok

/-- A token that the tables can express and the output has room for. -/
theorem huffToken_token {t : Token} (hcoded : tokenCoded ll dt t = true)
    (hreach : tokenReaches t w = true) (hfits : (appendToken t w).length ≤ cap)
    (hb : Begins b (tokenBits ll dt t)) :
    Writes zt b cap w huffToken (tokenBits ll dt t).length (.ok true) (appendToken t w) := by
  cases t with
  | literal lit =>
    rw [appendToken, List.length_append, List.length_singleton] at hfits
    exact huffToken_literal hll hllok hcoded hfits hb
  | copy i e d f =>
    simp only [tokenCoded, Bool.and_eq_true, decide_eq_true_eq] at hcoded
    obtain ⟨⟨⟨⟨⟨hi, hlen⟩, he⟩, hd⟩, hdist⟩, hf⟩ := hcoded
    have hreach : matchDistance d f ≤ w.length := by simpa [tokenReaches] using hreach
    have hroom : w.length + matchLength i e ≤ cap := by
      rw [appendToken, List.length_append, List.length_map, List.length_range] at hfits
      exact hfits
    rw [tokenBits_copy] at hb ⊢
    obtain ⟨hb1, hb2⟩ := begins_append.mp hb
    exact huffToken_length_ok hll hllok hi hlen hb1
      (lengthAndDistance_copy hdt hdtok he hd hdist hf hb2 fun _ =>
        checkedCopy_writes (one_le_matchDistance hd f) hreach hroom)

/-- A token that faults, up to its check (43_inflate.md R271). -/
theorem huffToken_fault {t : Token} {code : Byte} {info : Nat} {bits : List Bool}
    (h : tokenFault ll dt cap w t = some (code, info, bits)) (hb : Begins b bits) :
    ∃ fc, faultByte fc = code ∧
      Writes zt b cap w huffToken bits.length (.error (.raised fc (Word.ofNat info))) w := by
  cases t with
  | literal lit =>
    rw [tokenFault] at h
    split at h
    · rename_i hfull
      rw [Bool.and_eq_true, decide_eq_true_eq] at hfull
      obtain ⟨rfl, rfl, rfl⟩ := h
      exact ⟨.eOutfull, rfl, huffToken_literalFull hll hllok hfull.1 hfull.2 hb⟩
    · cases h
  | copy i e d f =>
    rw [tokenFault] at h
    split at h
    · cases h
    · rename_i hlen
      have hlen : hasCode ll (257 + i) = true := by simpa using hlen
      split at h
      · obtain ⟨rfl, rfl, rfl⟩ := h
        exact ⟨.eBadcode, rfl, huffToken_illegal hll hllok hlen (by omega) hb⟩
      · rename_i hi
        have hi : i < 29 := Nat.lt_of_not_le hi
        split at h
        · cases h
        · rename_i hbits
          obtain ⟨he, hdist⟩ := not_or.mp hbits
          have he : e < 2 ^ lengthExtras.getD i 0 := Nat.lt_of_not_le he
          have hdist : hasCode dt d = true := by simpa using hdist
          split at h
          · rename_i hd
            obtain ⟨rfl, rfl, rfl⟩ := h
            rw [lengthBits, List.append_assoc] at hb ⊢
            obtain ⟨hb1, hb2⟩ := begins_append.mp hb
            exact ⟨.eBadcode, rfl, huffToken_length_error hll hllok hi hlen hb1
              (lengthAndDistance_badDist hdt hdtok he hd hdist hb2)⟩
          · rename_i hd
            have hd : d < 30 := Nat.lt_of_not_le hd
            split at h
            · cases h
            · rename_i hf
              have hf : f < 2 ^ distExtras.getD d 0 := Nat.lt_of_not_le hf
              split at h
              · rename_i hreach
                obtain ⟨rfl, rfl, rfl⟩ := h
                rw [tokenBits_copy] at hb ⊢
                obtain ⟨hb1, hb2⟩ := begins_append.mp hb
                exact ⟨.eDist, rfl, huffToken_length_error hll hllok hi hlen hb1
                  (lengthAndDistance_copy hdt hdtok he hd hdist hf hb2 fun _ => checkedCopy_dist hreach)⟩
              · rename_i hreach
                split at h
                · rename_i hroom
                  obtain ⟨rfl, rfl, rfl⟩ := h
                  rw [tokenBits_copy] at hb ⊢
                  obtain ⟨hb1, hb2⟩ := begins_append.mp hb
                  exact ⟨.eOutfull, rfl, huffToken_length_error hll hllok hi hlen hb1
                    (lengthAndDistance_copy hdt hdtok he hd hdist hf hb2 fun _ =>
                      checkedCopy_full (Nat.le_of_not_lt hreach) hroom)⟩
                · cases h

/-- A next token or the end of the block whose bits are not all real (43_inflate.md R264). -/
theorem huffToken_next {next : List Bool}
    (hnext : (∃ t, tokenCoded ll dt t = true ∧ next = tokenBits ll dt t) ∨
      (hasCode ll 256 = true ∧ next = codeBits ll 256))
    (hb : Begins b next) {s : State} (hs : At zt b cap w s) (hlt : realBits s < next.length) :
    Short next.length s huffToken := by
  obtain ⟨t, hcoded, rfl⟩ | ⟨hcode, rfl⟩ := hnext
  · cases t with
    | literal lit =>
      by_cases hroom : w.length < cap
      · exact (huffToken_literal hll hllok hcoded hroom hb s hs).2 hlt
      · exact (huffToken_literalFull hll hllok hcoded (Nat.le_of_not_lt hroom) hb s hs).2 hlt
    | copy i e d f =>
      simp only [tokenCoded, Bool.and_eq_true, decide_eq_true_eq] at hcoded
      obtain ⟨⟨⟨⟨⟨hi, hlen⟩, he⟩, hd⟩, hdist⟩, hf⟩ := hcoded
      rw [tokenBits_copy] at hb hlt ⊢
      obtain ⟨hb1, hb2⟩ := begins_append.mp hb
      obtain ⟨res, w', hcopy⟩ := checkedCopy_ends (zt := zt) (cap := cap) (w := w) (matchLength i e)
        (one_le_matchDistance hd f)
      have hmatch := lengthAndDistance_copy hdt hdtok he hd hdist hf hb2 hcopy
      cases res with
      | ok x => exact (huffToken_length_ok hll hllok hi hlen hb1 hmatch s hs).2 hlt
      | error stop => exact (huffToken_length_error hll hllok hi hlen hb1 hmatch s hs).2 hlt
  · exact (huffToken_end hll hllok hcode hb s hs).2 hlt

end

end

end Sys2Proof.Machine

end

-- The loop over the tokens of compressed data.
section

namespace Sys2Proof.Machine

open Sys2Proof

section

variable {α β : Type} {s t : State} {n m cap bound : Nat} {zt : Vector (Option ZTable) 3}
  {b : Nat → Bool} {w w' : List Byte} {ll dt : ZTable} {ts : List Token} {act : Engine α}
  {f : α → Engine β} {x : α}

/-! ### Running out of real bits (43_inflate.md R255) -/

/-- `act` stops with E_EOF within `n` bits of the stream, as the real ones end there, whatever it has
written before. -/
def Starved (n : Nat) (s : State) (act : Engine α) : Prop :=
  ∃ (t : State) (m : Nat),
    act (Run.whole s) = .error (.raised .eEof t.rd.cur) (Run.whole t) ∧
    realBits s < m ∧ m ≤ n ∧ Reached m s t

theorem Short.starved (h : Short n s act) : Starved n s act := by
  obtain ⟨r, m, hrun, hlt, hm, hreach⟩ := h
  exact ⟨_, m, hrun, hlt, hm, hreach⟩

theorem Starved.mono (h : Starved n s act) (hm : n ≤ m) : Starved m s act := by
  obtain ⟨t, k, hrun, hlt, hk, hreach⟩ := h
  exact ⟨t, k, hrun, hlt, hk.trans hm, hreach⟩

theorem starved_bind (h : Starved n s act) : Starved n s (act >>= f) := by
  obtain ⟨t, m, hrun, hlt, hm, hreach⟩ := h
  exact ⟨t, m, bind_error hrun, hlt, hm, hreach⟩

/-! ### The loop (43_inflate.md R264) -/

theorem length_le_appendToken (t : Token) (w : List Byte) : w.length ≤ (appendToken t w).length := by
  cases t <;> simp [appendToken]

theorem expandTokens_cons {t : Token} (h : expandTokens ll dt (t :: ts) w = some w') :
    tokenCoded ll dt t = true ∧ tokenReaches t w = true ∧
      expandTokens ll dt ts (appendToken t w) = some w' := by
  rw [expandTokens] at h
  split at h
  · rename_i hlegal
    exact ⟨(Bool.and_eq_true_iff.mp hlegal).1, (Bool.and_eq_true_iff.mp hlegal).2, h⟩
  · cases h

theorem length_le_expandTokens (h : expandTokens ll dt ts w = some w') : w.length ≤ w'.length := by
  induction ts generalizing w with
  | nil =>
    cases h
    exact Nat.le_refl _
  | cons t ts ih => exact (length_le_appendToken t w).trans (ih (expandTokens_cons h).2.2)

theorem codeBits_pos {tbl : ZTable} {sym : Nat} (h : hasCode tbl sym = true) :
    1 ≤ (codeBits tbl sym).length := by
  rw [length_codeBits]
  exact Nat.one_le_iff_ne_zero.mpr (codeOf_getElem? h).2

theorem tokenBits_pos {t : Token} (h : tokenCoded ll dt t = true) :
    1 ≤ (tokenBits ll dt t).length := by
  cases t with
  | literal lit => exact codeBits_pos h
  | copy i e d f =>
    simp only [tokenCoded, Bool.and_eq_true] at h
    obtain ⟨⟨⟨⟨⟨-, hlen⟩, -⟩, -⟩, -⟩, -⟩ := h
    rw [tokenBits_copy, List.length_append]
    exact (codeBits_pos hlen).trans (Nat.le_add_right _ _)

theorem huffBlock_go (h : huffToken (Run.whole s) = .ok true (Run.whole t)) :
    huffBlock (bound + 1) (Run.whole s) = huffBlock bound (Run.whole t) := by
  rw [huffBlock_succ, bind_ok h]
  rfl

theorem huffBlock_done (h : huffToken (Run.whole s) = .ok false (Run.whole t)) :
    huffBlock (bound + 1) (Run.whole s) = .ok () (Run.whole t) := by
  rw [huffBlock_succ, bind_ok h]
  rfl

theorem huffBlock_error {e : Stop} (h : huffToken (Run.whole s) = .error e (Run.whole t)) :
    huffBlock (bound + 1) (Run.whole s) = .error e (Run.whole t) := by
  rw [huffBlock_succ, bind_error h]

variable (hll : zt[(0 : Fin 3)] = some ll) (hllok : zTableOk 0 ll = true)
  (hdt : zt[(1 : Fin 3)] = some dt) (hdtok : zTableOk 1 dt = true)

include hll hllok hdt hdtok

/-- The loop runs through the tokens that the stream begins with, as long as their bits are real. -/
theorem huffBlock_tokens (hs : At zt b cap w s) (hbound : realBits s < bound)
    (hexp : expandTokens ll dt ts w = some w') (hfits : w'.length ≤ cap)
    (hb : Begins b (ts.flatMap (tokenBits ll dt))) :
    ((ts.flatMap (tokenBits ll dt)).length ≤ realBits s →
      ∃ t bound', huffBlock bound (Run.whole s) = huffBlock bound' (Run.whole t) ∧
        realBits t < bound' ∧ Inflating (ts.flatMap (tokenBits ll dt)).length w' s t) ∧
    (realBits s < (ts.flatMap (tokenBits ll dt)).length →
      Starved (ts.flatMap (tokenBits ll dt)).length s (huffBlock bound)) := by
  induction ts generalizing s b w bound with
  | nil =>
    cases hexp
    exact ⟨fun _ => ⟨s, bound, rfl, hbound,
      hs.window ▸ inflating_of_reached hs.out (reached_zero hs.lsb)⟩, nofun⟩
  | cons tok ts ih =>
    obtain ⟨hcoded, hreaches, hexp⟩ := expandTokens_cons hexp
    have hpos := tokenBits_pos hcoded
    obtain ⟨bound, rfl⟩ := Nat.exists_eq_add_of_le' (show 1 ≤ bound by omega)
    rw [List.flatMap_cons] at hb ⊢
    obtain ⟨hb1, hb2⟩ := begins_append.mp hb
    rw [List.length_append]
    obtain ⟨hreal, hshort⟩ := huffToken_token hll hllok hdt hdtok hcoded hreaches
      ((length_le_expandTokens hexp).trans hfits) hb1 s hs
    by_cases hn : (tokenBits ll dt tok).length ≤ realBits s
    · obtain ⟨t, hrun, hinf⟩ := hreal hn
      have hleft := hinf.reached.realLeft
      obtain ⟨hreal', hstarved'⟩ := ih (hs.of_inflating hinf) (bound := bound) (by omega) hexp hb2
      refine ⟨fun hnm => ?_, fun hlt => ?_⟩
      · obtain ⟨u, bound', hrun', hbound', hinf'⟩ := hreal' (by omega)
        exact ⟨u, bound', (huffBlock_go hrun).trans hrun', hbound', hinf.trans hn hinf'⟩
      · clear hreal'
        have hltt : realBits t < (ts.flatMap (tokenBits ll dt)).length := by omega
        obtain ⟨u, k, hrun', hlt', hk, hreach'⟩ := hstarved' hltt
        exact ⟨u, _, (huffBlock_go hrun).trans hrun', by omega, by omega,
          hinf.reached.trans hn hreach'⟩
    · refine ⟨fun hnm => by omega, fun hlt => ?_⟩
      have hstarved := starved_bind (f := fun more => if more then huffBlock bound else pure ())
        (hshort (by omega)).starved
      rw [← huffBlock_succ] at hstarved
      exact hstarved.mono (by omega)

end

theorem begins_of_beginsWith {s : State} {xs : List Bool} (h : beginsWith s xs) :
    Begins (lsbStream s) xs := h

theorem realBits_lt_bitBound (s : State) : realBits s < bitBound s := Nat.lt_succ_self _

/-- INFLATE that is ready. -/
theorem at_of_ready {s : State} (h : readyToInflate s = true) :
    At s.tab.zt (lsbStream s) s.out.outCap.toNat (window s) s := by
  obtain ⟨hmode, hok, hpad, hin, hout, hlen, hapart, hwf⟩ := readyToInflate_iff.mp h
  exact ⟨⟨hmode, hok, hin, .inl hpad⟩, ⟨⟨hout, hlen, hwf⟩, hapart⟩, rfl, rfl, rfl, rfl⟩

theorem Reached.ovr_real {s t : State} {n : Nat} (h : Reached n s t) (hn : n ≤ realBits s) :
    t.rd.ovr = s.rd.ovr := by
  rw [h.ovr, decide_eq_false (Nat.not_lt.mpr hn), Bool.or_false]

/-- Settles O44: the loop runs through the tokens and ends at the end-of-block code. -/
theorem compressedDataExpands : Obligations.CompressedDataExpands := by
  unfold Obligations.CompressedDataExpands
  intro s ll dt ts w hready hll hdt hllok hdtok hend hexp hfits hbits hreal
  have hs := at_of_ready hready
  obtain ⟨hb1, hb2⟩ := begins_append.mp (begins_of_beginsWith hbits)
  rw [compressedBits, List.length_append] at hreal
  obtain ⟨t, bound, hrun, hbound, hinf⟩ := (huffBlock_tokens hll hllok hdt hdtok hs
    (realBits_lt_bitBound s) hexp hfits hb1).1 (by omega)
  have hleft := hinf.reached.realLeft
  obtain ⟨bound, rfl⟩ := Nat.exists_eq_add_of_le' (show 1 ≤ bound by omega)
  obtain ⟨u, hrun', hinf'⟩ := (huffToken_end hll hllok hend hb2 t (hs.of_inflating hinf)).1 (by omega)
  have hall := hinf.trans (by omega) hinf'
  rw [compressedBits, List.length_append]
  refine ⟨u.rd, u.bus.mem, ?_, hall.reached.advanced, hall.reached.ovr_real (by omega), hall.output⟩
  rw [← hall.frame, compressedBlock, look_bind_whole, hrun, huffBlock_done hrun']

end Sys2Proof.Machine

end

-- The tables of a block: the fixed ones, and the header of a dynamic block.
section

namespace Sys2Proof.Machine

open Sys2Proof

/-! ### Pieces that read and build tables (43_inflate.md R261 to R263) -/

section

variable {α β : Type} {s t : State} {n m total rounds : Nat} {zt zt' zt'' : Vector (Option ZTable) 3}
  {b : Nat → Bool} {act : Engine α} {f : α → Engine β} {x : α} {e : Stop} {lens more : List Nat}

/-- The state with another reader and other DEFLATE tables. -/
def headed (r : Reader) (zt : Vector (Option ZTable) 3) (s : State) : State :=
  { s with rd := r, tab := { s.tab with zt := zt } }

/-- With the DEFLATE tables `zt` and the stream `b`, `act` ends as `res` says, takes exactly `n` bits,
all of them real, and leaves the tables `zt'`; where fewer real bits are left, it starves. -/
def Heads (zt : Vector (Option ZTable) 3) (b : Nat → Bool) (act : Engine α) (n : Nat)
    (res : Except Stop α) (zt' : Vector (Option ZTable) 3) : Prop :=
  ∀ s, LsbReady s → s.tab.zt = zt → lsbStream s = b →
    (n ≤ realBits s → ∃ r, act (Run.whole s) = answered res (Run.whole (headed r zt' s)) ∧
      Reached n s (headed r zt' s)) ∧
    (realBits s < n → Starved n s act)

theorem heads_of_reads {res : Except Stop α} (h : Reads zt b act n res) : Heads zt b act n res zt := by
  intro s hs htab hb
  obtain ⟨hreal, hshort⟩ := h s hs htab hb
  refine ⟨fun hn => ?_, fun hlt => (hshort hlt).starved⟩
  obtain ⟨r, hrun, hreach⟩ := hreal hn
  have hst : headed r zt s = { s with rd := r } := by
    rw [← htab]
    rfl
  exact ⟨r, by rw [hst]; exact hrun, hst ▸ hreach⟩

theorem heads_bind {res : Except Stop β} (h : Heads zt b act n (.ok x) zt')
    (h' : Heads zt' (after n b) (f x) m res zt'') : Heads zt b (act >>= f) (n + m) res zt'' := by
  intro s hs htab hb
  obtain ⟨hreal, hshort⟩ := h s hs htab hb
  by_cases hn : n ≤ realBits s
  · obtain ⟨r, hrun, hreach⟩ := hreal hn
    have hleft := hreach.realLeft
    obtain ⟨hreal', hshort'⟩ := h' _ hreach.ready rfl (hreach.stream.trans (congrArg _ hb))
    refine ⟨fun hnm => ?_, fun hlt => ?_⟩
    · obtain ⟨r', hrun', hreach'⟩ := hreal' (by omega)
      exact ⟨r', (bind_ok hrun).trans hrun', hreach.trans hn hreach'⟩
    · clear hreal hreal' hshort
      obtain ⟨u, k, hrun', hlt', hk, hreach'⟩ := hshort' (by omega)
      exact ⟨u, n + k, (bind_ok hrun).trans hrun', by omega, by omega, hreach.trans hn hreach'⟩
  · exact ⟨fun hnm => by omega, fun _ => (starved_bind (hshort (by omega))).mono (by omega)⟩

theorem heads_bind_error (h : Heads zt b act n (.error e) zt') :
    Heads zt b (act >>= f) n (.error e) zt' := by
  intro s hs htab hb
  obtain ⟨hreal, hshort⟩ := h s hs htab hb
  refine ⟨fun hn => ?_, fun hlt => starved_bind (hshort hlt)⟩
  obtain ⟨r, hrun, hreach⟩ := hreal hn
  exact ⟨r, bind_error hrun, hreach⟩

theorem rebuildZTable_ok {k : Fin 3} {tbl : ZTable} (h : zBuild lens = .ok tbl) :
    Heads zt b (rebuildZTable k lens) 0 (.ok ()) (zt.set k (some tbl)) := by
  intro s hs htab _
  refine ⟨fun _ => ⟨s.rd, ?_, (reached_zero hs).of_same rfl rfl⟩, nofun⟩
  rw [rebuildZTable, dropZTable, assign_bind_whole, installZTable, h]
  dsimp only
  rw [assign_run, after_whole, dropZTable_setZTable, ← htab]
  rfl

theorem rebuildZTable_error {k : Fin 3} {info : Word} (h : zBuild lens = .error info) :
    Heads zt b (rebuildZTable k lens) 0 (.error (.raised .eBadlen info)) (zt.set k none) := by
  intro s hs htab _
  refine ⟨fun _ => ⟨s.rd, ?_, (reached_zero hs).of_same rfl rfl⟩, nofun⟩
  rw [rebuildZTable, dropZTable, assign_bind_whole, installZTable, h, ← htab]
  rfl

/-! ### The code-length lengths (43_inflate.md R253, R262) -/

/-- The list with the lengths put at the symbols. -/
def placed (syms cl acc : List Nat) : List Nat :=
  (syms.zip cl).foldl (fun l p => l.set p.1 p.2) acc

theorem reads_clLengths {syms cl acc : List Nat} (hlen : syms.length = cl.length)
    (hcl : ∀ l, l ∈ cl → l < 8) (hb : Begins b (cl.flatMap (lowBits 3))) :
    Reads zt b (readClLengths syms acc) (cl.flatMap (lowBits 3)).length (.ok (placed syms cl acc)) := by
  induction syms generalizing cl acc b with
  | nil =>
    obtain rfl : cl = [] := List.length_eq_zero_iff.mp hlen.symm
    exact reads_pure _
  | cons sym syms ih =>
    cases cl with
    | nil => cases hlen
    | cons l cl =>
      rw [List.flatMap_cons] at hb ⊢
      obtain ⟨hb1, hb2⟩ := begins_append.mp hb
      rw [readClLengths, List.length_append]
      exact reads_bind (reads_number (by omega) (hcl l List.mem_cons_self) hb1)
        (ih (Nat.succ.inj hlen) (fun l' hl' => hcl l' (List.mem_cons_of_mem _ hl')) hb2)

theorem length_placed (syms cl acc : List Nat) : (placed syms cl acc).length = acc.length := by
  rw [placed]
  induction syms.zip cl generalizing acc with
  | nil => rfl
  | cons p ps ih => rw [List.foldl_cons, ih, List.length_set]

theorem placed_getD {syms cl acc : List Nat} {k : Nat} (hnd : syms.Nodup)
    (hlen : syms.length = cl.length) (hk : k < acc.length) :
    (placed syms cl acc).getD k 0 =
      if k ∈ syms then cl.getD (syms.idxOf k) 0 else acc.getD k 0 := by
  induction syms generalizing cl acc with
  | nil => rfl
  | cons sym syms ih =>
    cases cl with
    | nil => cases hlen
    | cons l cl =>
      obtain ⟨hsym, hsyms⟩ := List.nodup_cons.mp hnd
      have hstep : placed (sym :: syms) (l :: cl) acc = placed syms cl (acc.set sym l) := rfl
      rw [hstep, ih hsyms (Nat.succ.inj hlen) (by rwa [List.length_set])]
      by_cases hks : k = sym
      · subst hks
        rw [if_neg hsym, if_pos List.mem_cons_self, List.idxOf_cons_self,
          List.getD_eq_getElem _ _ (by rwa [List.length_set]), List.getElem_set_self]
        rfl
      · have hset : (acc.set sym l).getD k 0 = acc.getD k 0 := by
          rw [List.getD_eq_getElem?_getD, List.getElem?_set_ne (Ne.symm hks), List.getD_eq_getElem?_getD]
        rw [hset, List.idxOf_cons_ne _ (Ne.symm hks)]
        simp only [List.mem_cons, hks, false_or]
        rfl

/-- The first code-length lengths at their places in CLORDER, the others 0. -/
theorem placed_clOrder {cl : List Nat} (h : cl.length ≤ 19) :
    placed (clOrder.take cl.length) cl (List.replicate 19 0) = clLengths cl := by
  have hlen : (clOrder.take cl.length).length = cl.length := by
    rw [List.length_take]
    exact min_eq_left h
  have hnd : clOrder.Nodup := by decide
  refine List.ext_getElem (by rw [length_placed]; rfl) fun k hk hk' => ?_
  rw [length_placed, List.length_replicate] at hk
  have hget := placed_getD (k := k) (acc := List.replicate 19 0) (hnd.sublist (List.take_sublist _ _)) hlen
    (by rwa [List.length_replicate])
  rw [List.getD_eq_getElem _ _ (by rw [length_placed]; rwa [List.length_replicate])] at hget
  rw [hget]
  simp only [clLengths, List.getElem_map, List.getElem_range]
  have hsplit : clOrder.idxOf k = ((clOrder.take cl.length) ++ (clOrder.drop cl.length)).idxOf k := by
    rw [List.take_append_drop]
  split
  · rename_i hmem
    rw [hsplit, List.idxOf_append_of_mem hmem]
  · rename_i hmem
    rw [hsplit, List.idxOf_append_of_notMem hmem, hlen, List.getD_replicate _ hk,
      List.getD_eq_default _ _ (Nat.le_add_right _ _)]

/-! ### The lengths (43_inflate.md R263) -/

section

variable {ct : ZTable} {y : LengthItem} {items : List LengthItem}

/-- An item appends at least one length. -/
theorem itemLengths_pos (h : itemLengths y lens = some more) : 1 ≤ more.length := by
  rw [itemLengths] at h
  split_ifs at h
  · cases h
    exact Nat.le_refl 1
  · obtain ⟨v, -, rfl⟩ := Option.map_eq_some_iff.mp h
    rw [List.length_replicate]
    omega
  · cases h
    rw [List.length_replicate]
    omega
  · cases h
    rw [List.length_replicate]
    omega

theorem getLast?_eq_head?_reverse (lens : List Nat) : lens.getLast? = lens.reverse.head? := by
  rw [List.head?_reverse]

/-- The run of a repeating item: how often, and which length. -/
theorem reads_lengthRun (hy : 16 ≤ y.code) (hmax : y.code < 19)
    (hextra : y.extra < 2 ^ itemExtra y.code) (hmore : itemLengths y lens = some more)
    (hb : Begins b (lowBits (itemExtra y.code) y.extra)) :
    ∃ count v, more = List.replicate count v ∧
      Reads zt b (lengthRun y.code lens.reverse) (lowBits (itemExtra y.code) y.extra).length
        (.ok (count, v)) := by
  rw [itemLengths, if_neg (by omega)] at hmore
  by_cases h16 : y.code = 16
  · rw [if_pos h16, getLast?_eq_head?_reverse] at hmore
    have hbits : itemExtra y.code = 2 := by rw [itemExtra, if_pos h16]
    rw [hbits] at hb hextra ⊢
    rw [lengthRun.eq_def, if_pos h16]
    cases hrev : lens.reverse with
    | nil =>
      rw [hrev] at hmore
      cases hmore
    | cons prev rest =>
      rw [hrev] at hmore
      cases hmore
      refine ⟨3 + y.extra, prev, rfl, reads_bind (m := 0) (reads_number (by omega) hextra hb) ?_⟩
      rw [Nat.add_comm 3 y.extra]
      exact reads_pure _
  · rw [if_neg h16] at hmore
    by_cases h17 : y.code = 17
    · rw [if_pos h17] at hmore
      cases hmore
      have hbits : itemExtra y.code = 3 := by rw [itemExtra, if_neg h16, if_pos h17]
      rw [hbits] at hb hextra ⊢
      rw [lengthRun.eq_def, if_neg h16, if_pos h17]
      refine ⟨3 + y.extra, 0, rfl, reads_bind (m := 0) (reads_number (by omega) hextra hb) ?_⟩
      rw [Nat.add_comm 3 y.extra]
      exact reads_pure _
    · rw [if_neg h17] at hmore
      cases hmore
      have hbits : itemExtra y.code = 7 := by
        rw [itemExtra, if_neg h16, if_neg h17, if_pos (by omega)]
      rw [hbits] at hb hextra ⊢
      rw [lengthRun.eq_def, if_neg h16, if_neg h17]
      refine ⟨11 + y.extra, 0, rfl, reads_bind (m := 0) (reads_number (by omega) hextra hb) ?_⟩
      rw [Nat.add_comm 11 y.extra]
      exact reads_pure _

theorem readLengths_full (h : total ≤ lens.length) : readLengths total rounds lens = pure lens := by
  cases rounds with
  | zero => rfl
  | succ rounds => rw [readLengths, if_neg (Nat.not_lt.mpr h)]

/-- What a code-length symbol does to the lengths so far, which stand latest first. -/
def lengthStep (total rounds : Nat) (rev : List Nat) (c : Nat) : Engine (List Nat) :=
  if c < 16 then readLengths total rounds (c :: rev)
  else lengthRun c rev >>= fun x =>
    if total < rev.length + x.1 then raise .eBadlen (badRun c)
    else readLengths total rounds (List.replicate x.1 x.2 ++ rev)

theorem readLengths_succ (h : lens.length < total) :
    readLengths total (rounds + 1) lens = zSym 2 >>= lengthStep total rounds lens := by
  rw [readLengths, if_pos h]
  rfl

theorem itemCoded_iff (ct : ZTable) (y : LengthItem) :
    itemCoded ct y = true ↔ hasCode ct y.code = true ∧ y.extra < 2 ^ itemExtra y.code := by
  rw [itemCoded, Bool.and_eq_true, decide_eq_true_eq]

theorem code_lt_of_itemCoded (hctok : zTableOk 2 ct = true) (h : itemCoded ct y = true) : y.code < 19 := by
  obtain ⟨hcode, -⟩ := (itemCoded_iff ct y).mp h
  have hlt := (List.getElem?_eq_some_iff.mp (codeOf_getElem? hcode).1).1
  rw [zTableOk, Bool.and_eq_true, decide_eq_true_eq] at hctok
  exact hlt.trans_eq hctok.1

variable (hct : zt[(2 : Fin 3)] = some ct) (hctok : zTableOk 2 ct = true)

include hct hctok

/-- One round of the loop, from the item that the stream begins with. -/
theorem reads_item {res : Except Stop (List Nat)} (hcoded : itemCoded ct y = true)
    (hmore : itemLengths y lens = some more) (hlt : lens.length < total)
    (hfits : lens.length + more.length ≤ total) (hb : Begins b (lengthItemBits ct y))
    (hrest : Reads zt (after (lengthItemBits ct y).length b)
      (readLengths total rounds (lens ++ more).reverse) m res) :
    Reads zt b (readLengths total (rounds + 1) lens.reverse) ((lengthItemBits ct y).length + m) res := by
  have hmax := code_lt_of_itemCoded hctok hcoded
  obtain ⟨hcode, hextra⟩ := (itemCoded_iff ct y).mp hcoded
  obtain ⟨hb1, hb2⟩ := begins_append.mp hb
  rw [lengthItemBits, List.length_append] at hrest ⊢
  rw [readLengths_succ (by rwa [List.length_reverse]), Nat.add_assoc]
  refine reads_bind (reads_zSym hct hctok hcode hb1) ?_
  rw [lengthStep]
  by_cases h16 : y.code < 16
  · rw [itemLengths, if_pos h16] at hmore
    cases hmore
    have hnone : itemExtra y.code = 0 := by
      rw [itemExtra, if_neg (by omega), if_neg (by omega), if_neg (by omega)]
    rw [length_lowBits, hnone] at hrest ⊢
    rw [if_pos h16, Nat.zero_add]
    rw [List.reverse_append] at hrest
    exact hrest
  · obtain ⟨count, v, rfl, hrun⟩ := reads_lengthRun (zt := zt) (Nat.le_of_not_lt h16) hmax hextra hmore hb2
    rw [List.length_replicate] at hfits
    rw [if_neg h16]
    refine reads_bind hrun ?_
    rw [if_neg (by rw [List.length_reverse]; omega)]
    rw [List.reverse_append, List.reverse_replicate, ← after_after] at hrest
    exact hrest

/-- A run that passes the last length. -/
theorem reads_item_past (hcoded : itemCoded ct y = true)
    (hmore : itemLengths y lens = some more) (hlt : lens.length < total)
    (hpast : total < lens.length + more.length) (hb : Begins b (lengthItemBits ct y)) :
    Reads zt b (readLengths total (rounds + 1) lens.reverse) (lengthItemBits ct y).length
      (.error (.raised .eBadlen (badRun y.code))) := by
  have hmax := code_lt_of_itemCoded hctok hcoded
  obtain ⟨hcode, hextra⟩ := (itemCoded_iff ct y).mp hcoded
  obtain ⟨hb1, hb2⟩ := begins_append.mp hb
  rw [lengthItemBits, List.length_append, readLengths_succ (by rwa [List.length_reverse])]
  refine reads_bind (reads_zSym hct hctok hcode hb1) ?_
  have h16 : ¬ y.code < 16 := fun h16 => by
    rw [itemLengths, if_pos h16] at hmore
    cases hmore
    rw [List.length_singleton] at hpast
    omega
  obtain ⟨count, v, rfl, hrun⟩ := reads_lengthRun (zt := zt) (Nat.le_of_not_lt h16) hmax hextra hmore hb2
  rw [List.length_replicate] at hpast
  rw [lengthStep, if_neg h16]
  refine reads_bind (m := 0) hrun ?_
  rw [if_pos (by rwa [List.length_reverse])]
  exact reads_raise _ _

/-- Code 16 with no length before it. -/
theorem reads_item_noPrevious (hcoded : itemCoded ct y = true) (hnone : itemLengths y lens = none)
    (hlt : lens.length < total) (hb : Begins b (codeBits ct 16)) :
    Reads zt b (readLengths total (rounds + 1) lens.reverse) (codeBits ct 16).length
      (.error (.raised .eBadlen (badRun 16))) := by
  obtain ⟨hcode, -⟩ := (itemCoded_iff ct y).mp hcoded
  rw [itemLengths] at hnone
  have h16 : y.code = 16 := by
    by_contra hne
    rw [if_neg hne] at hnone
    split_ifs at hnone
  rw [if_neg (by omega), if_pos h16, Option.map_eq_none_iff, List.getLast?_eq_none_iff] at hnone
  rw [h16] at hcode
  rw [readLengths_succ (by rwa [List.length_reverse])]
  refine reads_bind (m := 0) (reads_zSym hct hctok hcode hb) ?_
  rw [hnone]
  exact reads_bind_error (reads_raise _ _)

theorem reads_item_none (hlt : lens.length < total) (hnone : noneNext ct b = true) :
    Reads zt b (readLengths total (rounds + 1) lens) 0 (.error (.raised .eBadcode noCode)) := by
  rw [readLengths_succ hlt]
  exact reads_bind_error (reads_zSym_none hct hctok hnone)

/-- The loop over the items that the stream begins with, and what follows them. -/
theorem reads_items {lens' : List Nat} {res : Except Stop (List Nat)}
    (hexp : expandItems ct total items lens = some lens') (hrounds : total ≤ lens.length + rounds)
    (hb : Begins b (items.flatMap (lengthItemBits ct)))
    (hrest : ∀ rounds', total ≤ lens'.length + rounds' →
      Reads zt (after (items.flatMap (lengthItemBits ct)).length b)
        (readLengths total rounds' lens'.reverse) m res) :
    Reads zt b (readLengths total rounds lens.reverse)
      ((items.flatMap (lengthItemBits ct)).length + m) res := by
  induction items generalizing lens rounds b with
  | nil =>
    cases hexp
    rw [List.flatMap_nil, List.length_nil, Nat.zero_add]
    exact hrest rounds hrounds
  | cons y items ih =>
    rw [expandItems] at hexp
    cases hmore : itemLengths y lens with
    | none =>
      rw [hmore] at hexp
      cases hexp
    | some more =>
      rw [hmore] at hexp
      dsimp only at hexp
      split at hexp
      · rename_i hlegal
        rw [Bool.and_eq_true, Bool.and_eq_true, decide_eq_true_eq, decide_eq_true_eq] at hlegal
        obtain ⟨⟨hcoded, hlt⟩, hfits⟩ := hlegal
        obtain ⟨rounds, rfl⟩ := Nat.exists_eq_add_of_le' (show 1 ≤ rounds by omega)
        have hpos : 1 ≤ more.length := itemLengths_pos hmore
        rw [List.flatMap_cons] at hb hrest ⊢
        obtain ⟨hb1, hb2⟩ := begins_append.mp hb
        rw [List.length_append] at hrest ⊢
        rw [Nat.add_assoc]
        refine reads_item hct hctok hcoded hmore hlt hfits hb1 (ih hexp ?_ hb2 fun rounds' h => ?_)
        · rw [List.length_append]
          omega
        · rw [after_after]
          exact hrest rounds' h
      · cases hexp

end

end

end Sys2Proof.Machine

end

-- A block of INFLATE from its three header bits to its compressed data.
section

namespace Sys2Proof.Machine

open Sys2Proof

/-! ### The header of a dynamic block (43_inflate.md R262, R263) -/

/-- The counts of a dynamic header, and the lengths of the code-length symbols. -/
def dynamicCounts : Engine (Nat × Nat × List Nat) := do
  let hlit := (← bits 5) + 257
  let hdist := (← bits 5) + 1
  let hclen := (← bits 4) + 4
  let cl ← readClLengths (clOrder.take hclen) (List.replicate 19 0)
  return (hlit, hdist, cl)

/-- The rest of a dynamic header. -/
def dynamicRest (hlit hdist : Nat) (cl : List Nat) : Engine Unit := do
  rebuildZTable 2 cl
  let rev ← readLengths (hlit + hdist) (hlit + hdist) []
  rebuildZTable 0 (padLengths 288 (rev.reverse.take hlit))
  rebuildZTable 1 (padLengths 32 (rev.reverse.drop hlit))

theorem dynamicTables_eq :
    dynamicTables = dynamicCounts >>= fun x => dynamicRest x.1 x.2.1 x.2.2 := by
  simp only [dynamicTables, dynamicCounts, dynamicRest, bind_assoc_run, pure_bind_run]

section

variable {zt : Vector (Option ZTable) 3} {b : Nat → Bool} {hlit hdist m : Nat} {cl lens : List Nat}
  {ct ll dt : ZTable} {items : List LengthItem} {e : Word}

theorem reads_dynamicCounts (hfit : countsFit hlit hdist cl = true)
    (hb : Begins b (countBits hlit hdist cl)) :
    Reads zt b dynamicCounts (countBits hlit hdist cl).length
      (.ok (hlit, hdist, clLengths cl)) := by
  simp only [countsFit, Bool.and_eq_true, decide_eq_true_eq, List.all_eq_true] at hfit
  obtain ⟨⟨⟨⟨⟨⟨hl1, hl2⟩, hd1⟩, hd2⟩, hc1⟩, hc2⟩, hcl⟩ := hfit
  rw [countBits, List.append_assoc, List.append_assoc] at hb ⊢
  obtain ⟨hb1, hb2⟩ := begins_append.mp hb
  obtain ⟨hb2, hb3⟩ := begins_append.mp hb2
  obtain ⟨hb3, hb4⟩ := begins_append.mp hb3
  have hlen : (clOrder.take (cl.length - 4 + 4)).length = cl.length := by
    rw [Nat.sub_add_cancel hc1, List.length_take]
    exact min_eq_left hc2
  rw [List.length_append, List.length_append, List.length_append]
  refine reads_bind (reads_number (by omega) (by omega) hb1)
    (reads_bind (reads_number (by omega) (by omega) hb2)
      (reads_bind (reads_number (by omega) (by omega) hb3)
        (reads_bind (m := 0) (reads_clLengths hlen hcl hb4) ?_)))
  rw [Nat.sub_add_cancel hc1, placed_clOrder hc2, Nat.sub_add_cancel hl1, Nat.sub_add_cancel hd1]
  exact reads_pure _

theorem padLengths_take (hlen : lens.length = hlit + hdist) (hl : hlit ≤ 288) :
    padLengths 288 (lens.take hlit) = litlenLengths hlit lens := by
  have htake : (lens.take hlit).length = hlit := by
    rw [List.length_take]
    omega
  refine List.ext_getElem (by simp [padLengths, litlenLengths, htake, hl]) fun k hk hk' => ?_
  simp only [litlenLengths, List.getElem_map, List.getElem_range, padLengths]
  split
  · rename_i hlt
    rw [List.getElem_append_left (by omega), List.getElem_take, List.getD_eq_getElem]
  · rename_i hge
    rw [List.getElem_append_right (by omega), List.getElem_replicate]

theorem padLengths_drop (hlen : lens.length = hlit + hdist) (hd : hdist ≤ 32) :
    padLengths 32 (lens.drop hlit) = distLengths hlit lens := by
  have hdrop : (lens.drop hlit).length = hdist := by
    rw [List.length_drop]
    omega
  refine List.ext_getElem (by simp [padLengths, distLengths, hdrop, hd]) fun k hk hk' => ?_
  simp only [distLengths, List.getElem_map, List.getElem_range, padLengths]
  by_cases hlt : k < hdist
  · rw [List.getElem_append_left (by omega), List.getElem_drop, List.getD_eq_getElem]
  · rw [List.getElem_append_right (by omega), List.getElem_replicate,
      List.getD_eq_default _ _ (by omega)]

theorem clTable_ok (h : zBuild (clLengths cl) = .ok ct) : zTableOk 2 ct = true := by
  refine zTableOk_of_zBuild h ?_
  rw [clLengths, List.length_map, List.length_range]
  rfl

/-- A header whose code-length lengths do not build. -/
theorem dynamic_badClLengths (hfit : countsFit hlit hdist cl = true)
    (hb : Begins b (countBits hlit hdist cl)) (hbuild : zBuild (clLengths cl) = .error e) :
    Heads zt b dynamicTables (countBits hlit hdist cl).length (.error (.raised .eBadlen e))
      (zt.set 2 none) := by
  rw [dynamicTables_eq]
  exact heads_bind (m := 0) (heads_of_reads (reads_dynamicCounts hfit hb))
    (heads_bind_error (rebuildZTable_error hbuild))

/-- A header from its lengths on, which stop. -/
theorem dynamic_badItem {stop : Stop} (hfit : countsFit hlit hdist cl = true)
    (hb : Begins b (countBits hlit hdist cl)) (hbuild : zBuild (clLengths cl) = .ok ct)
    (hread : Reads (zt.set 2 (some ct)) (after (countBits hlit hdist cl).length b)
      (readLengths (hlit + hdist) (hlit + hdist) []) m (.error stop)) :
    Heads zt b dynamicTables ((countBits hlit hdist cl).length + m) (.error stop)
      (zt.set 2 (some ct)) := by
  rw [dynamicTables_eq]
  refine heads_bind (heads_of_reads (reads_dynamicCounts hfit hb)) ?_
  rw [← Nat.zero_add m]
  exact heads_bind (rebuildZTable_ok hbuild) (heads_bind_error (heads_of_reads hread))

/-- A header from its lengths on, which are complete, with the two tables still to build. -/
theorem dynamic_tables {res : Except Stop Unit} {zt' : Vector (Option ZTable) 3}
    (hfit : countsFit hlit hdist cl = true) (hbuild : zBuild (clLengths cl) = .ok ct)
    (hexp : expandItems ct (hlit + hdist) items [] = some lens) (hlen : lens.length = hlit + hdist)
    (hb : Begins b (countBits hlit hdist cl ++ items.flatMap (lengthItemBits ct)))
    (hrest : ∀ b', Heads (zt.set 2 (some ct)) b' (do
      rebuildZTable 0 (litlenLengths hlit lens)
      rebuildZTable 1 (distLengths hlit lens)) 0 res zt') :
    Heads zt b dynamicTables (countBits hlit hdist cl ++ items.flatMap (lengthItemBits ct)).length
      res zt' := by
  obtain ⟨hb1, hb2⟩ := begins_append.mp hb
  have hfit' := hfit
  simp only [countsFit, Bool.and_eq_true, decide_eq_true_eq] at hfit'
  obtain ⟨⟨⟨⟨⟨⟨-, hl⟩, -⟩, hd⟩, -⟩, -⟩, -⟩ := hfit'
  have hread := reads_items (zt := zt.set 2 (some ct)) (m := 0) (rounds := hlit + hdist)
    (res := .ok lens.reverse) (by simp) (clTable_ok hbuild) hexp (Nat.le_add_left _ _) hb2
    fun rounds' _ => by
      rw [readLengths_full (by rw [List.length_reverse]; exact hlen.ge)]
      exact reads_pure _
  rw [Nat.add_zero] at hread
  rw [dynamicTables_eq, List.length_append]
  refine heads_bind (heads_of_reads (reads_dynamicCounts hfit hb1)) ?_
  rw [← Nat.zero_add (items.flatMap (lengthItemBits ct)).length]
  refine heads_bind (rebuildZTable_ok hbuild) (heads_bind (m := 0) (heads_of_reads hread) ?_)
  rw [List.reverse_reverse, padLengths_take hlen hl, padLengths_drop hlen hd]
  exact hrest _

end

end Sys2Proof.Machine

end

-- A block of INFLATE from its three header bits to the tables of its compressed data.
section

namespace Sys2Proof.Machine

open Sys2Proof

/-! ### The tables of a block (43_inflate.md R259 to R263) -/

/-- The bits of a block's head after BFINAL and BTYPE. -/
def headRest (h : BlockHead) (b : BlockTables) : List Bool :=
  match h with
  | .fixed => []
  | .dynamic hlit hdist cl items =>
    countBits hlit hdist cl ++ items.flatMap (lengthItemBits (b.clen.getD ⟨[]⟩))

/-- What builds a block's tables. -/
def buildTables (h : BlockHead) : Engine Unit :=
  match h with
  | .fixed => fixedTables
  | .dynamic _ _ _ _ => dynamicTables

/-- BFINAL and BTYPE. -/
def kindBits (final : Bool) (btype : Nat) : List Bool := final :: lowBits 2 btype

theorem headBits_eq (final : Bool) (h : BlockHead) (b : BlockTables) :
    headBits final h b = kindBits final (headType h).toNat ++ headRest h b := by
  cases h with
  | fixed => rfl
  | dynamic hlit hdist cl items =>
    have hkind : kindBits final 2 = [final, false, true] := rfl
    rw [headBits, headRest, List.append_assoc, ← hkind]
    rfl

theorem fixedLitlenLengths_eq : fixedLitlenLengths = fixedLitlen := by
  have hlen : fixedLitlenLengths.length = fixedLitlen.length := by
    rw [length_fixedLitlen, fixedLitlenLengths, List.length_map, List.length_range]
    rfl
  refine List.ext_getElem hlen fun k hk _ => ?_
  simp only [fixedLitlenLengths, List.length_map, List.length_range] at hk
  simp only [fixedLitlenLengths, fixedLitlen, List.getElem_map, List.getElem_range,
    List.getElem_append, List.length_append, List.length_replicate, List.getElem_replicate]
  split_ifs <;> omega

section

variable {zt : Vector (Option ZTable) 3} {β : Nat → Bool} {h : BlockHead} {b : BlockTables}
  {ll dt : ZTable} {lens lens' : List Nat}

theorem rebuild_both (hll : zBuild lens = .ok ll) (hdt : zBuild lens' = .ok dt) :
    Heads zt β (do
      rebuildZTable 0 lens
      rebuildZTable 1 lens') 0 (.ok ()) ((zt.set 0 (some ll)).set 1 (some dt)) :=
  heads_bind (m := 0) (rebuildZTable_ok hll) (rebuildZTable_ok hdt)

theorem length_litlenLengths (hlit : Nat) (lens : List Nat) : (litlenLengths hlit lens).length = 288 := by
  rw [litlenLengths, List.length_map, List.length_range]

theorem length_distLengths (hlit : Nat) (lens : List Nat) : (distLengths hlit lens).length = 32 := by
  rw [distLengths, List.length_map, List.length_range]

/-- A legal dynamic head, taken apart. -/
theorem headTables_dynamic {hlit hdist : Nat} {cl : List Nat} {items : List LengthItem}
    (hb : headTables (.dynamic hlit hdist cl items) = some b) :
    ∃ ct lens, zBuild (clLengths cl) = .ok ct ∧ expandItems ct (hlit + hdist) items [] = some lens ∧
      zBuild (litlenLengths hlit lens) = .ok b.ll ∧ zBuild (distLengths hlit lens) = .ok b.dt ∧
      countsFit hlit hdist cl = true ∧ lens.length = hlit + hdist ∧ b.clen = some ct := by
  unfold headTables at hb
  dsimp only at hb
  split at hb
  · cases hb
  · rename_i ct hct
    split at hb
    · cases hb
    · rename_i lens hexp
      split at hb
      · rename_i ll dt hll hdt
        split at hb
        · rename_i hlegal
          rw [Bool.and_eq_true, beq_iff_eq] at hlegal
          cases hb
          exact ⟨ct, lens, hct, hexp, hll, hdt, hlegal.1, hlegal.2, rfl⟩
        · cases hb
      · cases hb

/-- The fixed tables. -/
theorem headTables_fixed (hb : headTables .fixed = some b) :
    zBuild fixedLitlen = .ok b.ll ∧ zBuild fixedDist = .ok b.dt ∧ b.clen = none := by
  unfold headTables at hb
  dsimp only at hb
  rw [fixedLitlenLengths_eq] at hb
  split at hb
  · rename_i ll dt hll hdt
    cases hb
    exact ⟨hll, hdt, rfl⟩
  · cases hb

theorem headTables_ok (hb : headTables h = some b) :
    zTableOk 0 b.ll = true ∧ zTableOk 1 b.dt = true := by
  cases h with
  | fixed =>
    obtain ⟨hll, hdt, -⟩ := headTables_fixed hb
    exact ⟨zTableOk_of_zBuild hll length_fixedLitlen, zTableOk_of_zBuild hdt length_fixedDist⟩
  | dynamic hlit hdist cl items =>
    obtain ⟨ct, lens, -, -, hll, hdt, -⟩ := headTables_dynamic hb
    exact ⟨zTableOk_of_zBuild hll (length_litlenLengths _ _),
      zTableOk_of_zBuild hdt (length_distLengths _ _)⟩

theorem tablesAfter_slots (b : BlockTables) (zt : Vector (Option ZTable) 3) :
    (tablesAfter b zt)[(0 : Fin 3)] = some b.ll ∧ (tablesAfter b zt)[(1 : Fin 3)] = some b.dt := by
  rw [tablesAfter]
  split <;> simp

/-- A legal head builds its tables. -/
theorem heads_buildTables (hb : headTables h = some b) (hbits : Begins β (headRest h b)) :
    Heads zt β (buildTables h) (headRest h b).length (.ok ()) (tablesAfter b zt) := by
  cases h with
  | fixed =>
    obtain ⟨hll, hdt, hclen⟩ := headTables_fixed hb
    rw [tablesAfter, hclen]
    exact rebuild_both hll hdt
  | dynamic hlit hdist cl items =>
    obtain ⟨ct, lens, hct, hexp, hll, hdt, hfit, hlen, hclen⟩ := headTables_dynamic hb
    rw [headRest, hclen] at hbits ⊢
    rw [tablesAfter, hclen]
    exact dynamic_tables hfit hct hexp hlen hbits fun _ => rebuild_both hll hdt

end

/-! ### The three bits of a block's kind (43_inflate.md R258) -/

/-- BFINAL and BTYPE, read. -/
def blockKind : Engine (Nat × Nat) := do
  let final ← bits 1
  let btype ← bits 2
  return (final, btype)

theorem inflateBlock_eq :
    inflateBlock = blockKind >>= fun k => assign (noteBlock k.2) >>= fun _ =>
      blockBody k.2 >>= fun _ => pure (k.1 == 1) := by
  simp only [inflateBlock, blockKind, bind_assoc_run, pure_bind_run]

theorem kindBits_append (final : Bool) (btype : Nat) :
    kindBits final btype = lowBits 1 final.toNat ++ lowBits 2 btype := by
  cases final <;> rfl

theorem reads_blockKind {zt : Vector (Option ZTable) 3} {b : Nat → Bool} {final : Bool} {btype : Nat}
    (ht : btype < 4) (hb : Begins b (kindBits final btype)) :
    Reads zt b blockKind 3 (.ok (final.toNat, btype)) := by
  rw [kindBits_append] at hb
  obtain ⟨hb1, hb2⟩ := begins_append.mp hb
  exact reads_bind (n := 1) (m := 2) (reads_number (by omega) (Bool.toNat_lt final) hb1)
    (reads_bind (n := 2) (m := 0) (reads_number (by omega) ht hb2) (reads_pure _))

/-! ### INFLATE inside a block (43_inflate.md R258) -/

/-- `t` is reached from `s` inside a block of type `btype`, by taking exactly `n` bits, with the DEFLATE
tables `zt` and the output `w`; nothing else differs. -/
structure InBlock (n : Nat) (w : List Byte) (btype : BitVec 2) (zt : Vector (Option ZTable) 3)
    (s t : State) : Prop where
  reached : Reached n s t
  frame : t =
    { s with
      rd := t.rd
      out := { s.out with outLen := Word.ofNat w.length, zfinal := false, zbtype := btype }
      tab := { s.tab with zt := zt }
      bus := { s.bus with mem := t.bus.mem } }
  output : outputIs s w t.bus.mem
  state : At zt (after n (lsbStream s)) s.out.outCap.toNat w t

section

variable {s t u : State} {n m btype : Nat} {w w' : List Byte} {zt : Vector (Option ZTable) 3}
  {bt : BitVec 2}

theorem inBlock_of_headed {r : Reader} (hs : OutReady s)
    (h : Reached n s (headed r zt (noteBlock btype s))) :
    InBlock n (window s) (BitVec.ofNat 2 btype) zt s (headed r zt (noteBlock btype s)) where
  reached := h
  frame := by
    rw [length_window, word_ofNat_toNat]
    rfl
  output := outputIs_window s hs.room.wf
  state := by
    obtain ⟨-, hbase, hlen, -, -, -, -⟩ := h.advanced
    refine ⟨h.ready, ⟨⟨hs.room.mapped, hs.room.fits, hs.room.wf⟩, ?_⟩, rfl, h.stream, rfl, rfl⟩
    rw [inputRegion, hbase, hlen]
    exact hs.apart

theorem InBlock.inflating (h : InBlock n w bt zt s t) (hn : n ≤ realBits s)
    (h' : Inflating m w' t u) : InBlock (n + m) w' bt zt s u where
  reached := h.reached.trans hn h'.reached
  frame := by
    have hframe := h'.frame
    rw [h.frame] at hframe
    exact hframe
  output := by
    have hgrows := h'.grows
    rw [h.state.outLen] at hgrows
    have hbase : t.out.outBase = s.out.outBase := by rw [h.frame]
    exact outputIs_trans h.output h'.output hbase hgrows
  state := after_after (lsbStream s) ▸ h.state.of_inflating h'

/-- The header bits of a block, all of them real. -/
theorem inflateBlock_noted {final : Bool} (hs : LsbReady s) (ht : btype < 4)
    (hb : Begins (lsbStream s) (kindBits final btype)) :
    (3 ≤ realBits s → ∃ r, blockKind (Run.whole s) =
        .ok (final.toNat, btype) (Run.whole { s with rd := r }) ∧
      Reached 3 s (noteBlock btype { s with rd := r }) ∧
      inflateBlock (Run.whole s) =
        (blockBody btype >>= fun _ => pure final) (Run.whole (noteBlock btype { s with rd := r }))) ∧
    (realBits s < 3 → Starved 3 s inflateBlock) := by
  obtain ⟨hreal, hshort⟩ := reads_blockKind (zt := s.tab.zt) ht hb s hs rfl rfl
  rw [inflateBlock_eq]
  refine ⟨fun hn => ?_, fun hlt => starved_bind (hshort hlt).starved⟩
  obtain ⟨r, hrun, hreach⟩ := hreal hn
  refine ⟨r, hrun, hreach.of_same rfl rfl, (bind_ok hrun).trans ((assign_bind_whole _ _ _).trans ?_)⟩
  cases final <;> rfl

end

/-! ### INFLATE whose first block faults (43_inflate.md R258; 60_exceptions.md R384) -/

section

variable {s t : State} {n : Nat} {w : List Byte} {zt : Vector (Option ZTable) 3} {bt : BitVec 2}
  {stepMode : Bool} {code : FaultCode} {info : Word}

theorem exec_inflate_error (h : readyToInflate s = true)
    (hrun : inflateBlock (Run.whole s) = .error (.raised code info) (Run.whole t)) :
    exec (.inflate stepMode) s = .next (faulted (faultByte code) info t) := by
  have hblocks : inflateBlocks stepMode (bitBound s) 0 (Run.whole s) =
      .error (.raised code info) (Run.whole t) := by
    rw [bitBound, inflateBlocks]
    exact bind_error hrun
  have hinf : inflate stepMode (Run.whole s) = .error (.raised code info) (Run.whole t) := by
    rw [inflate_of_ready h]
    exact bind_error hblocks
  rw [exec_eq, pseudocode, runCommand_raised hinf, faultEntry_eq_faulted]

theorem InBlock.faults {bits : List Bool} (h : InBlock bits.length w bt zt s t)
    (hready : readyToInflate s = true) (hreal : bits.length ≤ realBits s)
    (hrun : inflateBlock (Run.whole s) = .error (.raised code info) (Run.whole t)) :
    InflateFaults stepMode s bt zt w bits (faultByte code) info :=
  ⟨t.rd, t.bus.mem, (exec_inflate_error hready hrun).trans (by rw [← h.frame]),
    h.reached.advanced, h.reached.ovr_real hreal, h.output⟩

/-- A block that starves. -/
theorem inflate_starved (hready : readyToInflate s = true) (h : Starved n s inflateBlock) :
    ∃ t, exec (.inflate stepMode) s = .next t ∧ t.ctl.estate = .fault ∧ t.ctl.errCode = 0x07 ∧
      t.ctl.faddr = t.rd.cur ∧ t.rd.ovr = true ∧ t.rd.eof = true := by
  obtain ⟨t, m, hrun, hlt, -, hreach⟩ := h
  refine ⟨_, exec_inflate_error hready hrun, rfl, rfl, rfl, ?_, (hreach.short hlt).1⟩
  change t.rd.ovr = true
  rw [hreach.ovr, decide_eq_true hlt, Bool.or_true]

end

end Sys2Proof.Machine

end

-- Fixed and dynamic blocks of INFLATE, to their end or to their fault.
section

namespace Sys2Proof.Machine

open Sys2Proof

/-! ### A block's head, and its tokens (43_inflate.md R258 to R264) -/

section

variable {α : Type} {s t : State} {n btype cap : Nat} {zt : Vector (Option ZTable) 3} {act : Engine α}
  {f : α → Engine Unit} {res : Except Stop α} {final stepMode : Bool} {h : BlockHead} {b : BlockTables}
  {ts : List Token} {w : List Byte} {pre : List Bool}

theorem blockBody_head (h : BlockHead) :
    blockBody (headType h).toNat = buildTables h >>= fun _ => compressedBlock := by
  cases h <;> rfl

/-- The header bits of a block, and the piece that its body begins with. -/
theorem inflateBlock_heads (hready : readyToInflate s = true) (ht : btype < 4)
    (hb : Begins (lsbStream s) (kindBits final btype)) (hbody : blockBody btype = act >>= f)
    (hact : Heads s.tab.zt (after 3 (lsbStream s)) act n res zt) :
    (3 + n ≤ realBits s → ∃ u t, act (Run.whole u) = answered res (Run.whole t) ∧
      inflateBlock (Run.whole s) = (act >>= f >>= fun _ => pure final) (Run.whole u) ∧
      InBlock (3 + n) (window s) (BitVec.ofNat 2 btype) zt s t) ∧
    (realBits s < 3 + n → Starved (3 + n) s inflateBlock) := by
  have hs := at_of_ready hready
  obtain ⟨hreal, hshort⟩ := inflateBlock_noted hs.lsb ht hb
  by_cases h3 : 3 ≤ realBits s
  · obtain ⟨r, -, hreach, hrun⟩ := hreal h3
    rw [hbody] at hrun
    have hleft := hreach.realLeft
    obtain ⟨hreal', hshort'⟩ := hact _ hreach.ready rfl hreach.stream
    refine ⟨fun hn => ?_, fun hlt => ?_⟩
    · obtain ⟨r', hrun', hreach'⟩ := hreal' (by omega)
      exact ⟨_, _, hrun', hrun, inBlock_of_headed (btype := btype) hs.out (hreach.trans h3 hreach')⟩
    · clear hreal hreal' hshort
      have hltu := hreach.realLeft ▸ (show realBits s - 3 < n by omega)
      obtain ⟨t, m, hrun', hlt', hm, hreach'⟩ := hshort' hltu
      exact ⟨t, 3 + m, hrun.trans (bind_error (bind_error hrun')), by omega, by omega,
        hreach.trans h3 hreach'⟩
  · exact ⟨fun hn => by omega, fun _ => (hshort (by omega)).mono (by omega)⟩

theorem length_headBits (final : Bool) (h : BlockHead) (b : BlockTables) :
    (headBits final h b).length = 3 + (headRest h b).length := by
  rw [headBits_eq, List.length_append]
  rfl

/-- A block through its tables. -/
theorem inflateBlock_head (hready : readyToInflate s = true) (htab : headTables h = some b)
    (hb : Begins (lsbStream s) (headBits final h b)) :
    ((headBits final h b).length ≤ realBits s → ∃ t,
      inflateBlock (Run.whole s) = (compressedBlock >>= fun _ => pure final) (Run.whole t) ∧
      InBlock (headBits final h b).length (window s) (headType h) (tablesAfter b s.tab.zt) s t) ∧
    (realBits s < (headBits final h b).length →
      Starved (headBits final h b).length s inflateBlock) := by
  rw [headBits_eq] at hb
  obtain ⟨hb1, hb2⟩ := begins_append.mp hb
  obtain ⟨hreal, hshort⟩ := inflateBlock_heads hready (headType h).isLt hb1 (blockBody_head h)
    (heads_buildTables htab hb2)
  rw [length_headBits]
  refine ⟨fun hn => ?_, hshort⟩
  obtain ⟨u, t, hact, hrun, hin⟩ := hreal hn
  rw [BitVec.ofNat_toNat, BitVec.setWidth_eq] at hin
  refine ⟨t, hrun.trans ?_, hin⟩
  rw [bind_assoc_run]
  exact bind_ok hact

/-- A block through the tokens that the stream begins with. -/
theorem inflateBlock_tokens (hready : readyToInflate s = true) (htab : headTables h = some b)
    (hexp : expandTokens b.ll b.dt ts (window s) = some w) (hfits : w.length ≤ s.out.outCap.toNat)
    (hpre : pre = headBits final h b ++ ts.flatMap (tokenBits b.ll b.dt))
    (hb : Begins (lsbStream s) pre) :
    (pre.length ≤ realBits s → ∃ t bound,
      inflateBlock (Run.whole s) = (huffBlock (bound + 1) >>= fun _ => pure final) (Run.whole t) ∧
      InBlock pre.length w (headType h) (tablesAfter b s.tab.zt) s t) ∧
    (realBits s < pre.length → Starved pre.length s inflateBlock) := by
  subst hpre
  obtain ⟨hb1, hb2⟩ := begins_append.mp hb
  obtain ⟨hllok, hdtok⟩ := headTables_ok htab
  obtain ⟨hll, hdt⟩ := tablesAfter_slots b s.tab.zt
  obtain ⟨hreal, hshort⟩ := inflateBlock_head hready htab hb1
  rw [List.length_append]
  by_cases hn : (headBits final h b).length ≤ realBits s
  · obtain ⟨t, hrun, hin⟩ := hreal hn
    have hleft := hin.reached.realLeft
    have hrun : inflateBlock (Run.whole s) =
        (huffBlock (bitBound t) >>= fun _ => pure final) (Run.whole t) := by
      rw [hrun, compressedBlock, bind_assoc_run, look_bind_whole]
    obtain ⟨hreal', hshort'⟩ := huffBlock_tokens hll hllok hdt hdtok hin.state
      (realBits_lt_bitBound t) hexp hfits hb2
    refine ⟨fun hnm => ?_, fun hlt => ?_⟩
    · obtain ⟨u, bound, hrun', hbound, hinf⟩ := hreal' (by omega)
      obtain ⟨bound, rfl⟩ := Nat.exists_eq_add_of_le' (show 1 ≤ bound by omega)
      refine ⟨u, bound, hrun.trans ?_, hin.inflating hn hinf⟩
      rw [bind_run, hrun', bind_run]
    · clear hreal hreal' hshort
      have hltt := hin.reached.realLeft ▸
        (show realBits s - (headBits final h b).length < (ts.flatMap (tokenBits b.ll b.dt)).length by omega)
      obtain ⟨u, m, hrun', hlt', hm, hreach'⟩ := hshort' hltt
      exact ⟨u, _, hrun.trans (bind_error hrun'), by omega, by omega, hin.reached.trans hn hreach'⟩
  · exact ⟨fun hnm => by omega, fun _ => (hshort (by omega)).mono (by omega)⟩

end

/-! ### The fixed LITLEN codes (43_inflate.md R254) -/

theorem count_fixedLitlen (l : Nat) : fixedLitlen.count l =
    if l = 7 then 24 else if l = 8 then 152 else if l = 9 then 112 else 0 := by
  simp only [fixedLitlen, List.count_append, List.count_replicate, beq_iff_eq]
  split_ifs <;> omega

theorem fixedLitlen_first :
    canonFirst (fun l => fixedLitlen.count l) 7 = 0 ∧
      canonFirst (fun l => fixedLitlen.count l) 8 = 0x30 ∧
      canonFirst (fun l => fixedLitlen.count l) 9 = 0x190 := by
  simp only [count_fixedLitlen]
  decide

theorem fixedLitlen_getD {sym : Nat} (h : sym ≤ 256) :
    fixedLitlen.getD sym 0 = if sym ≤ 143 then 8 else if sym ≤ 255 then 9 else 7 := by
  rw [List.getD_eq_getElem _ _ (by rw [length_fixedLitlen]; exact h.trans_lt (by decide))]
  simp only [fixedLitlen, List.getElem_append, List.length_append, List.length_replicate,
    List.getElem_replicate]
  split_ifs <;> omega

theorem count_take_fixedLitlen {sym : Nat} (h : sym ≤ 256) :
    (fixedLitlen.take sym).count (fixedLitlen.getD sym 0) =
      if sym ≤ 143 then sym else if sym ≤ 255 then sym - 144 else 0 := by
  rw [fixedLitlen_getD h]
  simp only [fixedLitlen, List.take_append, List.length_append, List.length_replicate,
    List.take_replicate, List.count_append, List.count_replicate, beq_iff_eq]
  split_ifs <;> omega

theorem codeOf_fixedLitlen {tbl : ZTable} {sym : Nat} (htbl : zBuild fixedLitlen = .ok tbl)
    (h : sym ≤ 256) : codeOf tbl sym = ⟨fixedLitlen.getD sym 0, canonCode fixedLitlen sym⟩ := by
  have hpos : fixedLitlen.getD sym 0 ≠ 0 := by
    rw [fixedLitlen_getD h]
    split_ifs <;> decide
  have hentry := zBuild_entry htbl (sym := sym) (by rw [length_fixedLitlen]; exact h.trans_lt (by decide))
  rw [if_neg hpos] at hentry
  rw [codeOf, List.getD_eq_getElem?_getD, hentry]
  rfl

theorem codeBits_fixedLiteral {tbl : ZTable} (htbl : zBuild fixedLitlen = .ok tbl) (lit : Byte) :
    codeBits tbl lit.toNat = fixedLiteral lit := by
  have hlit : lit.toNat ≤ 255 := Nat.le_of_lt_succ lit.isLt
  obtain ⟨-, h8, h9⟩ := fixedLitlen_first
  rw [codeBits, codeOf_fixedLitlen htbl (by omega), canonCode, count_take_fixedLitlen (by omega),
    fixedLitlen_getD (by omega), fixedLiteral]
  split_ifs
  · rw [h8]
  · rw [h9]

theorem codeBits_fixedEnd {tbl : ZTable} (htbl : zBuild fixedLitlen = .ok tbl) :
    codeBits tbl 256 = List.replicate 7 false := by
  have hlen : fixedLitlen.getD 256 0 = 7 := fixedLitlen_getD (Nat.le_refl 256)
  obtain ⟨h7, -, -⟩ := fixedLitlen_first
  rw [codeBits, codeOf_fixedLitlen htbl (Nat.le_refl 256), canonCode,
    count_take_fixedLitlen (Nat.le_refl 256), hlen, h7]
  decide

/-- Settles O43: the head builds its tables, the loop runs through the tokens, and the end-of-block code
ends the block. -/
theorem huffmanBlockInflates : Obligations.HuffmanBlockInflates := by
  unfold Obligations.HuffmanBlockInflates
  refine ⟨fun b htab => ?_, ?_⟩
  · obtain ⟨hll, -, -⟩ := headTables_fixed htab
    exact ⟨codeBits_fixedLiteral hll, codeBits_fixedEnd hll⟩
  intro final stepMode s h b ts w bits hready hone htab hend hexp hfits hbits hbegins hreal
  obtain ⟨hllok, hdtok⟩ := headTables_ok htab
  obtain ⟨hll, hdt⟩ := tablesAfter_slots b s.tab.zt
  rw [compressedBits, ← List.append_assoc] at hbits
  subst hbits
  obtain ⟨hb1, hb2⟩ := begins_append.mp (begins_of_beginsWith hbegins)
  rw [List.length_append] at hreal ⊢
  obtain ⟨t, bound, hrun, hin⟩ := (inflateBlock_tokens hready htab hexp hfits rfl hb1).1 (by omega)
  have hleft := hin.reached.realLeft
  obtain ⟨u, hrun', hinf⟩ := (huffToken_end hll hllok hend hb2 t hin.state).1 (by omega)
  have hall := hin.inflating (by omega) hinf
  have hblock : inflateBlock (Run.whole s) = .ok final (Run.whole u) :=
    hrun.trans (bind_ok (huffBlock_done hrun'))
  refine ⟨u.rd, u.bus.mem, ?_, hall.reached.advanced, hall.reached.ovr_real hreal, hall.output⟩
  rw [exec_inflate_one hready hblock hone]
  have hframe := hall.frame
  cases final with
  | true => exact congrArg (fun v => Host.Outcome.next (completed 1 (markFinal v))) hframe
  | false => exact congrArg (fun v => Host.Outcome.next (completed 1 v)) hframe

/-! ### Faults (43_inflate.md R262 to R271) -/

section

variable {s t : State} {n bound : Nat} {zt : Vector (Option ZTable) 3} {bt : BitVec 2} {w : List Byte}
  {final stepMode : Bool} {code : FaultCode} {info : Word} {pre bits : List Bool}

/-- A token that faults, in a block. -/
theorem InBlock.token_faults (hin : InBlock pre.length w bt zt s t) (hready : readyToInflate s = true)
    (hrun : inflateBlock (Run.whole s) = (huffBlock (bound + 1) >>= fun _ => pure final) (Run.whole t))
    (hreal : (pre ++ bits).length ≤ realBits s)
    (htok : Writes zt (after pre.length (lsbStream s)) s.out.outCap.toNat w huffToken bits.length
      (.error (.raised code info)) w) :
    InflateFaults stepMode s bt zt w (pre ++ bits) (faultByte code) info := by
  rw [List.length_append] at hreal
  have hleft := hin.reached.realLeft
  obtain ⟨u, hrun', hinf⟩ := (htok t hin.state).1 (by omega)
  have hall := hin.inflating (by omega) hinf
  rw [← List.length_append] at hall hreal
  exact hall.faults hready hreal (hrun.trans (bind_error (huffBlock_error hrun')))

/-- A token whose bits are not all real, in a block. -/
theorem InBlock.token_short (hin : InBlock pre.length w bt zt s t)
    (hrun : inflateBlock (Run.whole s) = (huffBlock (bound + 1) >>= fun _ => pure final) (Run.whole t))
    (hreal : pre.length ≤ realBits s) (hshort : Short n t huffToken) :
    ∃ u m, inflateBlock (Run.whole s) = .error (.raised .eEof u.rd.cur) (Run.whole u) ∧
      realBits s < m ∧ m ≤ pre.length + n ∧ InBlock m w bt zt s u := by
  have hleft := hin.reached.realLeft
  obtain ⟨r, m, hrun', hlt, hm, hreach⟩ := hshort
  have hinf := inflating_of_reached hin.state.out hreach
  rw [hin.state.window] at hinf
  exact ⟨_, pre.length + m, hrun.trans (bind_error (huffBlock_error hrun')), by omega, by omega,
    hin.inflating hreal hinf⟩

/-- A dynamic header that faults. -/
theorem inflate_header_faults (hready : readyToInflate s = true)
    (hb : Begins (lsbStream s) ([final, false, true] ++ bits))
    (hreal : ([final, false, true] ++ bits).length ≤ realBits s)
    (hact : Begins (after 3 (lsbStream s)) bits →
      Heads s.tab.zt (after 3 (lsbStream s)) dynamicTables bits.length (.error (.raised code info)) zt) :
    InflateFaults stepMode s 2 zt (window s) ([final, false, true] ++ bits) (faultByte code) info := by
  obtain ⟨hb1, hb2⟩ := begins_append.mp hb
  have hkind : kindBits final 2 = [final, false, true] := rfl
  rw [← hkind] at hb1
  rw [List.length_append] at hreal
  obtain ⟨u, t, hrun', hrun, hin⟩ := (inflateBlock_heads (btype := 2) (f := fun _ => compressedBlock)
    hready (by omega) hb1 rfl (hact hb2)).1 hreal
  have hin : InBlock ([final, false, true] ++ bits).length (window s) 2 zt s t := by
    rw [List.length_append]
    exact hin
  exact hin.faults hready (by rwa [List.length_append]) (hrun.trans (bind_error (bind_error hrun')))

variable {hlit hdist : Nat} {cl lens : List Nat} {ct : ZTable} {items : List LengthItem}

/-- A dynamic header whose lengths stop after the items. -/
theorem inflate_items_fault (hready : readyToInflate s = true) (hfit : countsFit hlit hdist cl = true)
    (hct : zBuild (clLengths cl) = .ok ct) (hexp : expandItems ct (hlit + hdist) items [] = some lens)
    (hlt : lens.length < hlit + hdist)
    (hpre : pre = [final, false, true] ++ countBits hlit hdist cl ++ items.flatMap (lengthItemBits ct))
    (hb : Begins (lsbStream s) (pre ++ bits)) (hreal : (pre ++ bits).length ≤ realBits s)
    (hstop : ∀ rounds, Begins (after pre.length (lsbStream s)) bits →
      Reads (s.tab.zt.set 2 (some ct)) (after pre.length (lsbStream s))
        (readLengths (hlit + hdist) (rounds + 1) lens.reverse) bits.length
        (.error (.raised code info))) :
    InflateFaults stepMode s 2 (s.tab.zt.set 2 (some ct)) (window s) (pre ++ bits) (faultByte code)
      info := by
  obtain ⟨-, hbits⟩ := begins_append.mp hb
  have hall : pre ++ bits = [final, false, true] ++
      (countBits hlit hdist cl ++ (items.flatMap (lengthItemBits ct) ++ bits)) := by
    rw [hpre, List.append_assoc, List.append_assoc]
  rw [hall] at hb hreal ⊢
  refine inflate_header_faults hready hb hreal fun hb => ?_
  obtain ⟨hb1, hb2⟩ := begins_append.mp hb
  obtain ⟨hb2, -⟩ := begins_append.mp hb2
  rw [List.length_append, List.length_append]
  refine dynamic_badItem hfit hb1 hct (reads_items (by simp) (clTable_ok hct) hexp
    (Nat.le_add_left _ _) hb2 fun rounds hrounds => ?_)
  obtain ⟨rounds, rfl⟩ := Nat.exists_eq_add_of_le' (show 1 ≤ rounds by omega)
  rw [after_after, after_after, ← List.length_append]
  have hlen : pre.length = 3 + (countBits hlit hdist cl ++ items.flatMap (lengthItemBits ct)).length := by
    rw [hpre, List.append_assoc, List.length_append]
    rfl
  rw [← hlen]
  exact hstop rounds hbits

/-- A dynamic header whose lengths are complete and do not build. -/
theorem inflate_tables_fault (hready : readyToInflate s = true) (hfit : countsFit hlit hdist cl = true)
    (hct : zBuild (clLengths cl) = .ok ct) (hexp : expandItems ct (hlit + hdist) items [] = some lens)
    (hlen : lens.length = hlit + hdist)
    (hpre : pre = [final, false, true] ++ countBits hlit hdist cl ++ items.flatMap (lengthItemBits ct))
    (hb : Begins (lsbStream s) pre) (hreal : pre.length ≤ realBits s)
    (hstop : ∀ b, Heads (s.tab.zt.set 2 (some ct)) b (do
      rebuildZTable 0 (litlenLengths hlit lens)
      rebuildZTable 1 (distLengths hlit lens)) 0 (.error (.raised code info)) zt) :
    InflateFaults stepMode s 2 zt (window s) pre (faultByte code) info := by
  rw [List.append_assoc] at hpre
  subst hpre
  exact inflate_header_faults hready hb hreal fun hb => dynamic_tables hfit hct hexp hlen hb hstop

theorem badRun_eq {c : Nat} (h : c < 19) : badRun c = 0x20000000#32 ||| Word.ofNat c := by
  have hall : ∀ k, k < 19 → badRun k = 0x20000000#32 ||| Word.ofNat k := by decide
  exact hall c h

end

/-- Settles O47: each item and each table that fails ends the header there. -/
theorem dynamicHeaderFaults : Obligations.DynamicHeaderFaults := by
  unfold Obligations.DynamicHeaderFaults
  intro final stepMode s hlit hdist cl bits hready hfit hbegins hreal
  have hbegins := begins_of_beginsWith hbegins
  refine ⟨fun e hbuild hbits => ?_, fun ct items lens x pre zt hct hexp hpre hzt => ?_⟩
  · subst hbits
    exact inflate_header_faults hready hbegins hreal fun hb => dynamic_badClLengths hfit hb hbuild
  · subst hzt
    have hct2 : (s.tab.zt.set 2 (some ct))[(2 : Fin 3)] = some ct := by simp
    have hctok := clTable_ok hct
    refine ⟨fun hlt hcoded => ⟨fun hnone hbits => ?_, fun more hmore hpast hbits => ?_⟩,
      fun hlt hbits hnone => ?_, fun hlen hbits => ?_⟩
    · subst hbits
      exact inflate_items_fault hready hfit hct hexp hlt hpre hbegins hreal fun rounds hb =>
        reads_item_noPrevious hct2 hctok hcoded hnone hlt hb
    · subst hbits
      rw [← badRun_eq (code_lt_of_itemCoded hctok hcoded)]
      exact inflate_items_fault hready hfit hct hexp hlt hpre hbegins hreal fun rounds hb =>
        reads_item_past hct2 hctok hcoded hmore hlt hpast hb
    · subst hbits
      rw [← List.append_nil bits] at hbegins hreal ⊢
      exact inflate_items_fault hready hfit hct hexp hlt hpre hbegins hreal fun rounds hb =>
        reads_item_none hct2 hctok (by rwa [List.length_reverse]) hnone
    · subst hbits
      refine ⟨fun e hll => ?_, fun ll e hll hdt => ?_⟩
      · exact inflate_tables_fault hready hfit hct hexp hlen hpre hbegins hreal fun b =>
          heads_bind_error (rebuildZTable_error hll)
      · exact inflate_tables_fault hready hfit hct hexp hlen hpre hbegins hreal fun b =>
          heads_bind (m := 0) (rebuildZTable_ok hll) (rebuildZTable_error hdt)

/-- Settles O48: after the tokens, the next one faults in one of its ways, or its bits run out. -/
theorem compressedDataFaults : Obligations.CompressedDataFaults := by
  unfold Obligations.CompressedDataFaults
  intro final stepMode s h b ts w pre hready htab hexp hfits hpre
  obtain ⟨hllok, hdtok⟩ := headTables_ok htab
  obtain ⟨hll, hdt⟩ := tablesAfter_slots b s.tab.zt
  have hblock := inflateBlock_tokens hready htab hexp hfits hpre
  refine ⟨fun t code info bits hfault hbegins hreal => ?_, fun hbegins hreal hnone => ?_,
    fun i e bits hbits hi hlen he hbegins hreal hnone => ?_, fun next hnext hbegins hlt => ?_⟩
  · obtain ⟨hb1, hb2⟩ := begins_append.mp (begins_of_beginsWith hbegins)
    obtain ⟨u, bound, hrun, hin⟩ := (hblock hb1).1 (by rw [List.length_append] at hreal; omega)
    obtain ⟨fc, rfl, htok⟩ := huffToken_fault hll hllok hdt hdtok hfault hb2
    exact hin.token_faults hready hrun hreal htok
  · obtain ⟨u, bound, hrun, hin⟩ := (hblock hbegins).1 hreal
    have hfaults := hin.token_faults (bits := []) (stepMode := stepMode) hready hrun
      (by rwa [List.append_nil]) (huffToken_none hll hllok hnone)
    rwa [List.append_nil] at hfaults
  · subst hbits
    obtain ⟨hb1, hb2⟩ := begins_append.mp (begins_of_beginsWith hbegins)
    obtain ⟨u, bound, hrun, hin⟩ := (hblock hb1).1 (by rw [List.length_append] at hreal; omega)
    refine hin.token_faults (code := .eBadcode) (info := noCode) hready hrun hreal ?_
    rw [lengthBits] at hb2 hnone ⊢
    obtain ⟨hb2, hb3⟩ := begins_append.mp hb2
    refine huffToken_length_error hll hllok hi hlen hb2 (lengthAndDistance_none hdt hdtok he hb3 ?_)
    rw [after_after, after_after, ← List.length_append, ← List.length_append]
    exact hnone
  · obtain ⟨hb1, hb2⟩ := begins_append.mp (begins_of_beginsWith hbegins)
    rw [List.length_append] at hlt ⊢
    have hends : pre.length ≤ realBits s → ∃ u m,
        inflateBlock (Run.whole s) = .error (.raised .eEof u.rd.cur) (Run.whole u) ∧
          realBits s < m ∧ m ≤ pre.length + next.length ∧
          InBlock m w (headType h) (tablesAfter b s.tab.zt) s u := fun hreal => by
      obtain ⟨u, bound, hrun, hin⟩ := (hblock hb1).1 hreal
      have hleft := hin.reached.realLeft
      exact hin.token_short hrun hreal (huffToken_next hll hllok hdt hdtok hnext hb2 hin.state (by omega))
    refine ⟨?_, fun hreal => ?_⟩
    · by_cases hreal : pre.length ≤ realBits s
      · obtain ⟨u, m, hrun, hlt', -, hin⟩ := hends hreal
        exact inflate_starved hready ⟨u, m, hrun, hlt', Nat.le_refl m, hin.reached⟩
      · exact inflate_starved hready ((hblock hb1).2 (by omega))
    · obtain ⟨u, m, hrun, hlt', hm, hin⟩ := hends hreal
      refine ⟨u.rd, u.bus.mem, m, ?_, hlt', hm, hin.reached.advanced, ?_, hin.output⟩
      · rw [exec_inflate_error hready hrun, ← hin.frame]
        rfl
      · rw [hin.reached.ovr, decide_eq_true hlt', Bool.or_true]

end Sys2Proof.Machine

end

-- Blocks of INFLATE that are malformed before a byte is written.
section

namespace Sys2Proof.Machine

open Sys2Proof

/-! ### How the reader stands to the byte border (43_inflate.md R260) -/

section

variable {s t : State} {q : Run} {k v : Nat}

/-- `Bits(k)` moves the reader by `k` bits within its bytes. -/
theorem bits_bitcnt (h : LsbReady s) (hk : k ≤ 16) (hrun : bits k (Run.whole s) = .ok v q) :
    LsbReady q.st ∧ q = Run.whole q.st ∧ (q.st.rd.bitcnt + k) % 8 = s.rd.bitcnt % 8 := by
  by_cases h0 : k = 0
  · subst h0
    cases hrun
    exact ⟨h, rfl, rfl⟩
  · obtain ⟨u, hneed, -, hcnt, hu⟩ := h.need_run hk
    obtain ⟨hmod, -⟩ := need_lsb_pads h hneed
    have htake : (need k >>= fun _ => consume k) (Run.whole s) =
        .ok (peekBits u k, takesPad u k) (Run.whole (dropBits k u)) := by
      rw [bind_ok hneed, consume_whole]
    rw [bits_eq h0, realOnly, bind_ok htake] at hrun
    split at hrun
    · cases hrun
    · cases hrun
      refine ⟨(hu.ready.dropBits_reached hcnt).2.ready, rfl, ?_⟩
      rw [Run.whole, dropBits_bitcnt, Nat.sub_add_cancel hcnt, hmod]

theorem blockKind_bitcnt {kind : Nat × Nat} (h : LsbReady s)
    (hrun : blockKind (Run.whole s) = .ok kind (Run.whole t)) :
    (t.rd.bitcnt + 3) % 8 = s.rd.bitcnt % 8 := by
  obtain ⟨final, q, hrun1, hrest⟩ := bind_eq_ok hrun
  obtain ⟨btype, q', hrun2, hrest⟩ := bind_eq_ok hrest
  obtain ⟨h1, hq, hcnt1⟩ := bits_bitcnt h (by omega) hrun1
  rw [hq] at hrun2
  obtain ⟨-, -, hcnt2⟩ := bits_bitcnt h1 (by omega) hrun2
  cases hrest
  change (t.rd.bitcnt + 2) % 8 = _ at hcnt2
  omega

end

/-! ### The first bytes of a stored block where the input ends (43_inflate.md R260) -/

section

variable {s v : State} {k n : Nat} {act : Engine Unit} {f : Nat → Engine Unit}

/-- After `k` whole bytes `act` stops with E_EOF at a pad byte. -/
def StopsAtPad (v : State) (k : Nat) (act : Engine Unit) : Prop :=
  ∃ j, wholePad v j = true ∧
    act (Run.whole (afterBytes k v)) =
      .error (.raised .eEof (afterBytes (j + 1) v).rd.cur) (Run.whole (afterBytes (j + 1) v))

theorem headerByte_stops (h : LsbReady v) (haligned : v.rd.bitcnt % 8 = 0)
    (hrest : wholePad v k = false → StopsAtPad v (k + 1) (f (wholeByte v k))) :
    StopsAtPad v k (headerByte >>= f) := by
  have hbyte := readAlignedByte_afterBytes h.input h.ok haligned k
  have hrun : headerByte (Run.whole (afterBytes k v)) =
      (if wholePad v k then raiseEof else pure (wholeByte v k))
        (Run.whole (afterBytes (k + 1) v)) := bind_ok hbyte
  cases hpad : wholePad v k with
  | true =>
    rw [hpad] at hrun
    exact ⟨k, hpad, bind_error hrun⟩
  | false =>
    obtain ⟨j, hj, hrun'⟩ := hrest hpad
    rw [hpad] at hrun
    exact ⟨j, hj, (bind_ok hrun).trans hrun'⟩

/-- The reader after a pad byte. -/
theorem afterBytes_pad (h : LsbReady v) (hpad : wholePad v k = true) :
    (afterBytes (k + 1) v).rd.ovr = true ∧ (afterBytes (k + 1) v).rd.eof = true ∧
      v.rd.inLen.toNat ≤ (afterBytes (k + 1) v).rd.cur.toNat := by
  have hpads := h.pads
  have hleft : inputLeft v = v.rd.inLen.toNat - v.rd.cur.toNat := rfl
  rw [cur_afterBytes]
  rw [wholePad] at hpad
  split at hpad
  · rw [decide_eq_true_eq] at hpad
    obtain ⟨hnone, heof⟩ := hpads.resolve_left (by omega)
    refine ⟨?_, ?_, by omega⟩
    · simp [afterBytes, hpad]
    · simp [afterBytes, heof]
  · rw [decide_eq_true_eq] at hpad
    refine ⟨?_, ?_, by omega⟩
    · simp [afterBytes, hpad]
    · simp [afterBytes, hpad]

/-- Fewer than four whole bytes are real. -/
theorem wholePad_three (h : LsbReady v) (haligned : v.rd.bitcnt % 8 = 0) (hshort : realBits v < 32) :
    wholePad v 3 = true := by
  have hpads := h.pads
  rw [realBits] at hshort
  rw [wholePad, heldBytes]
  split
  · rw [decide_eq_true_eq]
    omega
  · rw [decide_eq_true_eq]
    omega

/-- A stored block whose four header bytes are not all real. -/
theorem storedBlock_short (h : LsbReady s) (hshort : realBits s < s.rd.bitcnt % 8 + 32) :
    ∃ r, storedBlock (Run.whole s) = .error (.raised .eEof r.cur) (Run.whole { s with rd := r }) ∧
      r.ovr = true ∧ r.eof = true ∧ s.rd.inLen.toNat ≤ r.cur.toNat := by
  obtain ⟨htake, hdrop⟩ := h.dropBits_reached (Nat.mod_le s.rd.bitcnt 8)
  rw [storedBlock_eq, look_bind_whole]
  have hconsume := consume_whole (s.rd.bitcnt % 8) s
  rw [htake] at hconsume
  by_cases hlt : realBits s < s.rd.bitcnt % 8
  · rw [decide_eq_true hlt] at hconsume
    obtain ⟨heof, hcur⟩ := hdrop.short hlt
    refine ⟨(dropBits (s.rd.bitcnt % 8) s).rd, (bind_ok hconsume).trans (bind_error rfl), ?_, heof, hcur⟩
    rw [hdrop.ovr, decide_eq_true hlt, Bool.or_true]
  · rw [decide_eq_false hlt] at hconsume
    have hready := hdrop.ready
    have haligned : (dropBits (s.rd.bitcnt % 8) s).rd.bitcnt % 8 = 0 := by
      rw [dropBits_bitcnt]
      omega
    have hpad := wholePad_three hready haligned (by rw [hdrop.realLeft]; omega)
    have hstops : StopsAtPad (dropBits (s.rd.bitcnt % 8) s) 0 (do
        let h0 ← headerByte
        let h1 ← headerByte
        let h2 ← headerByte
        let h3 ← headerByte
        storedRest (h0 + h1 * 256) (h2 + h3 * 256)) :=
      headerByte_stops hready haligned fun _ => headerByte_stops hready haligned fun _ =>
        headerByte_stops hready haligned fun _ => headerByte_stops hready haligned fun hno =>
          absurd hpad (by rw [hno]; decide)
    obtain ⟨j, hj, hrun⟩ := hstops
    rw [afterBytes_zero hready.ok] at hrun
    obtain ⟨hovr, heof, hcur⟩ := afterBytes_pad hready hj
    exact ⟨(afterBytes (j + 1) (dropBits (s.rd.bitcnt % 8) s)).rd, (bind_ok hconsume).trans hrun,
      hovr, heof, hcur⟩

end

/-! ### A stored block past its header (43_inflate.md R260, R271) -/

theorem storedByte_lt (s : State) (k : Nat) : storedByte s k < 256 := by
  refine Nat.lt_pow_two_of_testBit (n := 8) _ fun j hj => ?_
  rw [storedByte, lowFirst_testBit, decide_eq_false (Nat.not_lt.mpr hj), Bool.false_and]

section

variable {s : State} {len nlen : Nat}

theorem storedRest_badLength (hlen : len ≤ 65535) (h : nlen + len ≠ 65535) :
    storedRest len nlen (Run.whole s) =
      .error (.raised .eNlen (Word.ofNat (nlen * 65536 + len))) (Run.whole s) := by
  rw [storedRest, if_pos (by rw [xor_ones hlen]; omega)]
  rfl

theorem storedRest_short (h : nlen + len = 65535) (hleft : inputLeft s < len) :
    storedRest len nlen (Run.whole s) = .error (.raised .eEof s.rd.cur) (Run.whole s) := by
  rw [storedRest, if_neg (by rw [xor_ones (by omega)]; omega)]
  refine (look_bind_whole _ _).trans ?_
  rw [if_pos (show s.rd.inLen.toNat - s.rd.cur.toNat < len from hleft)]
  rfl

theorem storedRest_full (h : nlen + len = 65535) (hleft : len ≤ inputLeft s)
    (hfull : s.out.outCap.toNat - s.out.outLen.toNat < len) :
    storedRest len nlen (Run.whole s) =
      .error (.raised .eOutfull (Word.ofNat (s.out.outLen.toNat + len))) (Run.whole s) := by
  rw [inputLeft] at hleft
  rw [storedRest, if_neg (by rw [xor_ones (by omega)]; omega)]
  refine (look_bind_whole _ _).trans ?_
  rw [if_neg (show ¬ s.rd.inLen.toNat - s.rd.cur.toNat < len by omega), if_pos hfull]
  rfl

end

/-! ### The first block (43_inflate.md R258, R259) -/

section

variable {s : State} {stepMode : Bool}

theorem begins_kindBits {b : Nat → Bool} {x y : Bool} (h1 : b 1 = x) (h2 : b 2 = y) :
    Begins b [b 0, x, y] := by
  intro j hj
  match j, hj with
  | 0, _ => rfl
  | 1, _ => exact h1
  | 2, _ => exact h2

/-- A block of type 3. -/
theorem inflate_badType (hready : readyToInflate s = true) (h3 : 3 ≤ realBits s)
    (h1 : lsbStream s 1 = true) (h2 : lsbStream s 2 = true) :
    ∃ r, exec (.inflate stepMode) s = .next (faulted 0x0C r.cur
        { s with rd := r, out := { s.out with zfinal := false, zbtype := 3 } }) ∧
      lsbAdvanced 3 s r ∧ r.ovr = s.rd.ovr := by
  have hb : Begins (lsbStream s) (kindBits (lsbStream s 0) 3) := begins_kindBits h1 h2
  obtain ⟨r, -, hreach, hrun⟩ := (inflateBlock_noted (at_of_ready hready).lsb (by omega) hb).1 h3
  have hbody : (blockBody 3 >>= fun _ => pure (lsbStream s 0))
      (Run.whole (noteBlock 3 { s with rd := r })) =
      .error (.raised .eBtype r.cur) (Run.whole (noteBlock 3 { s with rd := r })) := rfl
  exact ⟨r, exec_inflate_error hready (hrun.trans hbody), hreach.advanced, hreach.ovr_real h3⟩

/-- A stored block whose header is not all real. -/
theorem inflate_storedShort (hready : readyToInflate s = true) (h3 : 3 ≤ realBits s)
    (h1 : lsbStream s 1 = false) (h2 : lsbStream s 2 = false) (hshort : realBits s < storedAt s + 32) :
    ∃ r, exec (.inflate stepMode) s = .next (faulted 0x07 r.cur
        { s with rd := r, out := { s.out with zfinal := false, zbtype := 0 } }) ∧
      r.ovr = true ∧ r.eof = true ∧ s.rd.inLen.toNat ≤ r.cur.toNat := by
  have hb : Begins (lsbStream s) (kindBits (lsbStream s 0) 0) := begins_kindBits h1 h2
  have hlsb := (at_of_ready hready).lsb
  obtain ⟨r, hkind, hreach, hrun⟩ := (inflateBlock_noted hlsb (by omega) hb).1 h3
  have hcnt : (r.bitcnt + 3) % 8 = s.rd.bitcnt % 8 := blockKind_bitcnt hlsb hkind
  have hleft := hreach.realLeft
  rw [storedAt] at hshort
  obtain ⟨q, hbody, hovr, heof, hcur⟩ := storedBlock_short hreach.ready (by
    change _ < r.bitcnt % 8 + 32
    omega)
  have hlen : r.inLen = s.rd.inLen := hreach.advanced.2.2.1
  exact ⟨q, exec_inflate_error hready (hrun.trans (bind_error hbody)), hovr, heof, hlen ▸ hcur⟩

/-- A stored block through its header, all of it real. -/
theorem inflate_storedHead (hready : readyToInflate s = true) (h1 : lsbStream s 1 = false)
    (h2 : lsbStream s 2 = false) (hreal : storedAt s + 32 ≤ realBits s) {read : State}
    (hread : read = { s with
      rd := storedReader s 4, out := { s.out with zfinal := false, zbtype := 0 } }) :
    inflateBlock (Run.whole s) =
      (storedRest (storedByte s 0 + storedByte s 1 * 256) (storedByte s 2 + storedByte s 3 * 256) >>=
        fun _ => pure (lsbStream s 0)) (Run.whole read) ∧
    realBits s = 8 * inputLeft read + storedAt s + 32 := by
  have hreader := realReader_of_ready hready (by rw [storedAt] at hreal; omega)
  obtain ⟨u, hu, hcnt, hrun⟩ := inflateBlock_of_stored hreader hreal (begins_kindBits h1 h2)
  obtain ⟨t, hhead, ht, hempty⟩ := storedBlock_head hu hcnt hreal
  have hst : t = read := by
    rw [hread, ht.readerOnly.1, ht.rd_eq_storedReader hempty]
    rfl
  have hbits := ht.realBits_eq
  rw [ht.reader.realBits_eq, hempty] at hbits
  subst hst
  refine ⟨?_, ?_⟩
  · have hbyte : ∀ k, storedByte (noteBlock 0 s) k = storedByte s k := fun _ => rfl
    simp only [hbyte] at hhead
    rw [hrun, bind_run, hhead, bind_run]
  · change realBits s = 0 + 8 * inputLeft t + (storedAt s + 8 * 4) at hbits
    omega

/-- Settles O46: the three bits are real; then the header bytes run out, or each check after them fails
in turn. -/
theorem malformedBlocksFault : Obligations.MalformedBlocksFault := by
  unfold Obligations.MalformedBlocksFault
  intro stepMode s len nlen hready h3 hlen hnlen
  refine ⟨fun h1 h2 => inflate_badType hready h3 h1 h2, fun h1 h2 =>
    ⟨fun hshort => inflate_storedShort hready h3 h1 h2 hshort, fun hreal read hread => ?_⟩⟩
  obtain ⟨hrun, hbits⟩ := inflate_storedHead hready h1 h2 hreal hread
  rw [Nat.mul_comm _ 256, Nat.mul_comm _ 256, ← hlen, ← hnlen] at hrun
  have hout : read.out.outCap = s.out.outCap ∧ read.out.outLen = s.out.outLen := by
    rw [hread]
    exact ⟨rfl, rfl⟩
  obtain ⟨hcap, houtLen⟩ := hout
  have hfits := (at_of_ready hready).out.fits
  have hb0 := storedByte_lt s 0
  have hb1 := storedByte_lt s 1
  refine ⟨fun hne => ?_, fun heq => ⟨fun hshort => ?_, fun henough hfull => ?_⟩⟩
  · exact exec_inflate_error hready (hrun.trans (bind_error (storedRest_badLength (by omega) hne)))
  · exact exec_inflate_error hready (hrun.trans (bind_error (storedRest_short heq (by omega))))
  · have hrest := storedRest_full (s := read) heq (by omega) (by rw [hcap, houtLen]; omega)
    rw [houtLen] at hrest
    exact exec_inflate_error hready (hrun.trans (bind_error hrest))

end

end Sys2Proof.Machine

end

-- INFLATE does not look at the control registers.
section

namespace Sys2Proof.Machine

open Sys2Proof

/-! ### The reader's pieces, and INFLATE's, from the assignments they are made of -/

section

variable {S : State → Prop} {P : ∀ α : Type, Engine α → Prop} (hP : Steady S P)

include hP

theorem steady_fetchByte (hr : AllowsReader P) : P _ fetchByte :=
  hP.look fun _ _ => closed_ite
    (steady_seq hP (steady_memRead hP _) fun _ => steady_seq hP hr.advanceCur fun _ => hP.pure _)
    (steady_seq hP hr.markEof fun _ => hP.pure _)

theorem steady_skipFill (hr : AllowsReader P) (n : Nat) : P _ (skipFill n) := by
  induction n with
  | zero => exact steady_fetchByte hP hr
  | succ n ih =>
    refine steady_seq hP (steady_fetchByte hP hr) fun x => ?_
    obtain ⟨c, k⟩ := x
    cases k with
    | pad => exact hP.pure _
    | real => exact closed_ite ih (hP.pure _)

theorem steady_afterFF (hr : AllowsReader P) : P _ afterFF := by
  refine hP.look fun _ _ => steady_seq hP (steady_skipFill hP hr _) fun x => ?_
  obtain ⟨c, k⟩ := x
  cases k with
  | pad => exact hP.pure _
  | real => exact closed_ite (hP.pure _) (steady_seq hP (hr.cacheMarker c) fun _ => hP.pure _)

theorem steady_nextMsbByte (hr : AllowsReader P) : P _ nextMsbByte := by
  refine hP.look fun _ _ => closed_ite (hP.pure _)
    (steady_seq hP (steady_fetchByte hP hr) fun x => ?_)
  obtain ⟨c, k⟩ := x
  cases k with
  | pad => exact hP.pure _
  | real => exact closed_ite (steady_afterFF hP hr) (hP.pure _)

theorem steady_nextByte (hr : AllowsReader P) : P _ nextByte :=
  hP.look fun s _ => by
    cases s.rd.mode with
    | lsb => exact steady_fetchByte hP hr
    | msb => exact steady_nextMsbByte hP hr

theorem steady_fillLoop (hr : AllowsReader P) (n : Nat) : P _ (fillLoop n) := by
  induction n with
  | zero => exact hP.pure _
  | succ n ih =>
    exact hP.look fun _ _ => closed_ite
      (steady_seq hP (steady_nextByte hP hr) fun x => steady_seq hP (hr.enterByte x.1 x.2) fun _ => ih)
      (hP.pure _)

theorem steady_need (hr : AllowsReader P) (n : Nat) : P _ (need n) :=
  hP.look fun _ _ => closed_ite (steady_fillLoop hP hr 4) (hP.pure _)

theorem steady_consume (hr : AllowsReader P) (n : Nat) : P _ (consume n) :=
  hP.look fun _ _ => steady_seq hP (hr.dropBits n _) fun _ => hP.pure _

theorem steady_readAlignedByte (hr : AllowsReader P) : P _ readAlignedByte :=
  hP.look fun _ _ => closed_ite (steady_consume hP hr 8) <|
    steady_seq hP (steady_fetchByte hP hr) fun x => by
      obtain ⟨c, k⟩ := x
      cases k with
      | real => exact hP.pure _
      | pad => exact steady_seq hP hr.markOvr fun _ => hP.pure _

theorem steady_zDecode (hr : AllowsReader P) (t : Fin 3) : P _ (zDecode t) :=
  steady_seq hP (steady_need hP hr 16) fun _ => hP.look fun s _ => by
    split
    · exact hP.raise _ _
    · split
      · exact hP.raise _ _
      · exact steady_seq hP (steady_consume hP hr _) fun _ => hP.pure _

theorem steady_jDecode (hr : AllowsReader P) (c : JClass) (i : Fin 4) : P _ (jDecode c i) :=
  steady_seq hP (steady_need hP hr 16) fun _ => hP.look fun s _ => by
    split
    · exact hP.raise _ _
    · split
      · exact hP.raise _ _
      · exact steady_seq hP (steady_consume hP hr _) fun _ => hP.pure _

theorem steady_readerParts (hr : AllowsReader P) : ReaderParts S P where
  need := steady_need hP hr
  fill := steady_fillLoop hP hr 4
  take n _ := steady_seq hP (steady_need hP hr n) fun _ => steady_consume hP hr n
  align hg hu := hP.look
    (fun s hs => steady_seq hP (steady_consume hP hr _) fun x => hg s x hs) (align_unseen hu)
  alignedByte := steady_readAlignedByte hP hr
  zDecode := steady_zDecode hP hr
  jDecode := steady_jDecode hP hr

section

variable (hwrite : ∀ a v, P _ (assign (landWrite a v))) (hgrow : P _ (assign growOutput))

include hwrite hgrow

theorem steady_appendByte (v : Byte) : P _ (appendByte v) :=
  hP.look fun _ _ => steady_seq hP
    (steady_seq hP (steady_needBus hP _) fun _ => hwrite _ v) fun _ => hgrow

theorem steady_copyMatch (dist n : Nat) : P _ (copyMatch dist n) := by
  induction n with
  | zero => exact hP.pure _
  | succ n ih =>
    exact hP.look fun _ _ => steady_seq hP (steady_memRead hP _) fun v =>
      steady_seq hP (steady_appendByte hP hwrite hgrow v) fun _ => ih

theorem steady_copyStored (hcur : P _ (assign advanceCur)) (n : Nat) : P _ (copyStored n) := by
  induction n with
  | zero => exact hP.pure _
  | succ n ih =>
    exact hP.look fun _ _ => steady_seq hP (steady_memRead hP _) fun v =>
      steady_seq hP hcur fun _ => steady_seq hP (steady_appendByte hP hwrite hgrow v) fun _ => ih

theorem steady_inflateParts (hr : AllowsReader P) (hzt : ∀ t tbl, P _ (assign (setZTable t tbl)))
    (hnote : ∀ b, P _ (assign (noteBlock b))) : InflateParts S P where
  reader := steady_readerParts hP hr
  dropZTable t := hzt t none
  installZTable t lens _ := by
    rw [installZTable]
    split
    · exact hP.raise _ _
    · exact hzt t _
  outByte v := hP.look fun _ _ =>
    closed_ite (hP.raise _ _) (steady_appendByte hP hwrite hgrow v)
  checkedCopy dist len := hP.look fun _ _ => steady_guard hP fun _ => steady_guard hP fun _ =>
    steady_copyMatch hP hwrite hgrow dist len
  storedRest len nlen := by
    rw [storedRest]
    exact steady_guard hP fun _ => hP.look fun _ _ => steady_guardEof hP
      (steady_guard hP fun _ => steady_copyStored hP hwrite hgrow hr.advanceCur len)
  noteBlock := hnote

end

end

/-! ### Pseudocode that neither sees nor changes the control registers -/

/-- The run with other control registers. -/
def Run.withCtl (c : Control) (r : Run) : Run := { r with st := Machine.withCtl c r.st }

/-- The end of a run with other control registers. -/
def endWithCtl {α : Type} (c : Control) : EStateM.Result Stop Run α → EStateM.Result Stop Run α
  | .ok x r => .ok x (r.withCtl c)
  | .error e r => .error e (r.withCtl c)

/-- The run at its end. -/
def endOf {α : Type} : EStateM.Result Stop Run α → Run
  | .ok _ r => r
  | .error _ r => r

/-- With another set of control registers that has the same latched word, the pseudocode ends in the
same way and with that set. -/
def Blind (α : Type) (act : Engine α) : Prop :=
  ∀ (c : Control) (r : Run), c.cmd = r.st.ctl.cmd →
    act (r.withCtl c) = endWithCtl c (act r) ∧ (endOf (act r)).st.ctl = r.st.ctl

/-- An assignment that neither sees nor changes the control registers. -/
def CtlFree (f : State → State) : Prop :=
  ∀ c s, f (withCtl c s) = withCtl c (f s) ∧ (f s).ctl = s.ctl

section

variable {α β : Type}

theorem blind_steady : Steady (fun _ => True) Blind where
  pure _ _ _ _ := ⟨rfl, rfl⟩
  raise _ _ _ _ _ := ⟨rfl, rfl⟩
  bind {_ _ act f} ha hf c r hc := by
    obtain ⟨hrun, hctl⟩ := ha c r hc
    rw [bind_run, bind_run, hrun]
    cases hr : act r with
    | ok x q =>
      rw [hr] at hctl
      obtain ⟨hrun', hctl'⟩ := hf x ⟨r, q, hr⟩ c q (hc.trans (congrArg Control.cmd hctl.symm))
      exact ⟨hrun', hctl'.trans hctl⟩
    | error e q =>
      rw [hr] at hctl
      exact ⟨rfl, hctl⟩
  look {_ f} h unseen c r hc := by
    rw [look_bind_run, look_bind_run]
    have hsame : f (r.withCtl c).st = f r.st := unseen c r.st hc
    rw [hsame]
    exact h r.st trivial c r hc

theorem blind_outran : Blind α outran := fun _ _ _ => ⟨rfl, rfl⟩

theorem blind_assign {f : State → State} (h : CtlFree f) : Blind Unit (assign f) := by
  rintro c ⟨s, _ | _ | n⟩ -
  · obtain ⟨hf, hctl⟩ := h c s
    exact ⟨congrArg (fun t => EStateM.Result.ok () (Run.whole t)) hf, hctl⟩
  · exact ⟨rfl, rfl⟩
  · obtain ⟨hf, hctl⟩ := h c s
    exact ⟨congrArg (fun t => EStateM.Result.ok () (Run.mk t (some n))) hf, hctl⟩

theorem blind_assignAll {fs : List (State → State)} (h : ∀ f ∈ fs, CtlFree f) :
    Blind Unit (assignAll fs) := by
  induction fs with
  | nil => exact fun _ _ _ => ⟨rfl, rfl⟩
  | cons f fs ih =>
    rw [assignAll_cons]
    exact steady_seq blind_steady (blind_assign (h f List.mem_cons_self)) fun _ =>
      ih fun g hg => h g (List.mem_cons_of_mem f hg)

theorem blind_allowsReader : AllowsReader Blind where
  advanceCur := blind_assign fun _ _ => ⟨rfl, rfl⟩
  markEof := blind_assign fun _ _ => ⟨rfl, rfl⟩
  markOvr := blind_assign fun _ _ => ⟨rfl, rfl⟩
  cacheMarker c := blind_assignAll (by
    simp only [markerSteps, List.mem_cons, List.not_mem_nil, or_false]
    rintro f (rfl | rfl) c s <;> exact ⟨rfl, rfl⟩)
  enterByte b k := blind_assignAll (by
    simp only [enterSteps, List.mem_cons, List.not_mem_nil, or_false]
    rintro f (rfl | rfl | rfl) c s <;> exact ⟨rfl, rfl⟩)
  dropBits n ovr := blind_assignAll (by
    simp only [dropSteps, List.mem_cons, List.not_mem_nil, or_false]
    rintro f (rfl | rfl | rfl | rfl) c s <;> exact ⟨rfl, rfl⟩)

theorem blind_inflateParts : InflateParts (fun _ => True) Blind :=
  steady_inflateParts blind_steady (fun _ _ => blind_assign fun _ _ => ⟨rfl, rfl⟩)
    (blind_assign fun _ _ => ⟨rfl, rfl⟩) blind_allowsReader
    (fun _ _ => blind_assign fun _ _ => ⟨rfl, rfl⟩) fun _ => blind_assign fun _ _ => ⟨rfl, rfl⟩

theorem blind_inflateBlocks (stepMode : Bool) (bound nblk : Nat) :
    Blind _ (inflateBlocks stepMode bound nblk) :=
  steady_inflateBlocks blind_steady (fun _ => blind_outran) blind_inflateParts
    (blind_assign fun _ _ => ⟨rfl, rfl⟩) stepMode bound nblk

/-! ### A block's body leaves ZFINAL as it is -/

theorem zfinal_assign {f : State → State} (h : ∀ s, (f s).out.zfinal = s.out.zfinal) :
    Stays (fun r => r.st.out.zfinal = false) Unit (assign f) :=
  stays_assign (J := fun s => s.out.zfinal = false) fun s hs => (h s).trans hs

theorem zfinal_allowsReader : AllowsReader (Stays fun r => r.st.out.zfinal = false) := by
  have hkeep : ∀ {fs : List (State → State)}, (∀ f ∈ fs, ∀ s, (f s).out.zfinal = s.out.zfinal) →
      Stays (fun r => r.st.out.zfinal = false) Unit (assignAll fs) := fun h =>
    stays_assignAll (J := fun s => s.out.zfinal = false) fun f hf s hs => (h f hf s).trans hs
  exact
    { advanceCur := zfinal_assign fun _ => rfl
      markEof := zfinal_assign fun _ => rfl
      markOvr := zfinal_assign fun _ => rfl
      cacheMarker := fun c => hkeep (by
        simp only [markerSteps, List.mem_cons, List.not_mem_nil, or_false]
        rintro f (rfl | rfl) s <;> rfl)
      enterByte := fun b k => hkeep (by
        simp only [enterSteps, List.mem_cons, List.not_mem_nil, or_false]
        rintro f (rfl | rfl | rfl) s <;> rfl)
      dropBits := fun n ovr => hkeep (by
        simp only [dropSteps, List.mem_cons, List.not_mem_nil, or_false]
        rintro f (rfl | rfl | rfl | rfl) s <;> rfl) }

theorem zfinal_blockBody (btype : Nat) :
    Stays (fun r => r.st.out.zfinal = false) Unit (blockBody btype) :=
  steady_blockBody (stays_steady (J := fun s => s.out.zfinal = false))
    (fun _ => stays_outran (J := fun s => s.out.zfinal = false))
    (steady_inflateParts stays_steady (fun _ _ => zfinal_assign fun _ => rfl)
      (zfinal_assign fun _ => rfl) zfinal_allowsReader (fun _ _ => zfinal_assign fun _ => rfl)
      fun _ => stays_assign (J := fun s => s.out.zfinal = false) fun _ _ => rfl) btype

end

end Sys2Proof.Machine

end

-- INFLATE over several blocks.
section

namespace Sys2Proof.Machine

open Sys2Proof

/-! ### INFLATE's checks (43_inflate.md R258) -/

/-- INFLATE's checks, in order. -/
def inflateChecks (s : State) : Engine Unit := do
  needMode .lsb
  needInput
  needRange (outputRegion s)
  needOutLen
  needApart (outputRegion s) (inputRegion s)

/-- INFLATE passes its checks. -/
structure CanInflate (s : State) : Prop where
  mode : s.rd.mode = .lsb
  input : regionFits (inputRegion s) = true
  output : regionFits (outputRegion s) = true
  fits : s.out.outLen.toNat ≤ s.out.outCap.toNat
  apart : regionsMeet (outputRegion s) (inputRegion s) = false

section

variable {s t : State} {q : Run} {final stepMode : Bool} {n n' nblk : Nat} {r : Run}

theorem inflate_eq (stepMode : Bool) (s : State) :
    inflate stepMode (Run.whole s) =
      (inflateChecks s >>= fun _ => inflateBlocks stepMode (bitBound s) 0 >>= fun nblk =>
        pure (Word.ofNat nblk)) (Run.whole s) := by
  rw [inflate, look_bind_whole]
  simp only [inflateChecks, bind_assoc_run]

theorem inflateChecks_ok (h : CanInflate s) :
    inflateChecks s (Run.whole s) = .ok () (Run.whole s) := by
  obtain ⟨hmode, hin, hout, hfits, hapart⟩ := h
  simp only [inflateChecks, bind_run, needMode_run, needInput_run, needRange_run, needOutLen_run,
    needApart_run, hmode, hin, hout, hfits, hapart, if_true, Bool.false_eq_true, if_false]

theorem of_ite_ok {c : Prop} [Decidable c] {e : Stop} {x : Unit}
    (h : (if c then .ok () r else .error e r : EStateM.Result Stop Run Unit) = .ok x q) :
    c ∧ r = q := by
  split at h
  · cases h
    exact ⟨‹c›, rfl⟩
  · cases h

theorem canInflate_of_ok {x : Unit} (h : inflateChecks s (Run.whole s) = .ok x q) :
    CanInflate s := by
  obtain ⟨_, q1, h1, h⟩ := bind_eq_ok h
  obtain ⟨_, q2, h2, h⟩ := bind_eq_ok h
  obtain ⟨_, q3, h3, h⟩ := bind_eq_ok h
  obtain ⟨_, q4, h4, h5⟩ := bind_eq_ok h
  rw [needMode_run] at h1
  obtain ⟨hmode, rfl⟩ := of_ite_ok h1
  rw [needInput_run] at h2
  obtain ⟨hin, rfl⟩ := of_ite_ok h2
  rw [needRange_run] at h3
  obtain ⟨hout, rfl⟩ := of_ite_ok h3
  rw [needOutLen_run] at h4
  obtain ⟨hfits, rfl⟩ := of_ite_ok h4
  rw [needApart_run, ← ite_not] at h5
  obtain ⟨hapart, -⟩ := of_ite_ok h5
  exact ⟨hmode, hin, hout, hfits, Bool.eq_false_iff.mpr hapart⟩

/-! ### The block loop (43_inflate.md R258) -/

theorem inflateBlocks_error {e : Stop} (h : inflateBlock r = .error e q) :
    inflateBlocks stepMode (n + 1) nblk r = .error e q := by
  rw [inflateBlocks, bind_error h]

theorem inflateBlocks_final (h : inflateBlock r = .ok true q) :
    inflateBlocks stepMode (n + 1) nblk r = .ok (nblk + 1) (q.after markFinal) := by
  rw [inflateBlocks, bind_ok h]
  rfl

theorem inflateBlocks_step (h : inflateBlock r = .ok false q) :
    inflateBlocks true (n + 1) nblk r = .ok (nblk + 1) q := by
  rw [inflateBlocks, bind_ok h]
  rfl

theorem inflateBlocks_next (h : inflateBlock r = .ok false q) :
    inflateBlocks false (n + 1) nblk r = inflateBlocks false n (nblk + 1) q := by
  rw [inflateBlocks, bind_ok h]
  rfl

/-- The bound is no matter where it is not met. -/
theorem inflateBlocks_bound (h : ∀ q, inflateBlocks false n nblk r ≠ .error .bound q)
    (h' : ∀ q, inflateBlocks false n' nblk r ≠ .error .bound q) :
    inflateBlocks false n nblk r = inflateBlocks false n' nblk r := by
  induction n generalizing n' nblk r with
  | zero => exact absurd rfl (h r)
  | succ n ih =>
    cases n' with
    | zero => exact absurd rfl (h' r)
    | succ n' =>
      cases hb : inflateBlock r with
      | error e q => rw [inflateBlocks_error hb, inflateBlocks_error hb]
      | ok final q =>
        cases final with
        | true => rw [inflateBlocks_final hb, inflateBlocks_final hb]
        | false =>
          rw [inflateBlocks_next hb] at h h' ⊢
          rw [inflateBlocks_next hb]
          exact ih h h'

/-- The blocks are counted from the number of those done. -/
theorem inflateBlocks_count (n nblk : Nat) :
    inflateBlocks stepMode n (nblk + 1) =
      inflateBlocks stepMode n nblk >>= fun k => pure (k + 1) := by
  induction n generalizing nblk with
  | zero => rfl
  | succ n ih =>
    rw [inflateBlocks, inflateBlocks, bind_assoc_run]
    congr 1
    funext final
    split
    · rw [bind_assoc_run]
      rfl
    · split
      · rfl
      · exact ih _

theorem inflateBlocks_live (hb : realBits s < n) (q : Run) :
    inflateBlocks stepMode n nblk (Run.whole s) ≠ .error .bound q :=
  (ends_inflateBlocks stepMode n (realBits s) hb nblk).live ⟨rfl, Nat.le_refl _⟩

/-! ### What a block leaves for the next one -/

/-- A block leaves all that the next one's checks look at, and fewer bits. -/
structure BlockDone (s t : State) : Prop where
  ctl : t.ctl = s.ctl
  checks : CanInflate s → CanInflate t
  bits : realBits t < realBits s
  zfinal : t.out.zfinal = false

theorem frugal_blockKind : Frugal _ blockKind :=
  steady_seq frugal_steady (steady_bits frugal_steady frugal_readerParts (by decide)) fun _ =>
    steady_seq frugal_steady (steady_bits frugal_steady frugal_readerParts (by decide)) fun _ =>
      frugal_steady.pure _

theorem blockDone_of_ok (h : inflateBlock (Run.whole s) = .ok final q) :
    q = Run.whole q.st ∧ BlockDone s q.st := by
  have hspent := ends_inflateBlock.ok ⟨rfl, Nat.le_refl (realBits s)⟩ h
  obtain ⟨hpos, hwhole, hbits⟩ := hspent
  have hframe : Frame (.inflate true) s q.st :=
    (steady_inflateBlock (stays_steady (J := Frame (.inflate true) s)) (fun _ => stays_outran)
      frame_inflateParts).ok (.refl _ s) h
  have hzfinal : q.st.out.zfinal = false := by
    rw [inflateBlock_eq] at h
    obtain ⟨k, q1, hkind, h1⟩ := bind_eq_ok h
    obtain ⟨hwhole1, -⟩ := (frugal_blockKind _).ok ⟨rfl, Nat.le_refl (realBits s)⟩ hkind
    obtain ⟨_, q2, hnote, h2⟩ := bind_eq_ok h1
    obtain ⟨_, q3, hbody, h3⟩ := bind_eq_ok h2
    rw [assign_run, Run.after, hwhole1] at hnote
    cases hnote
    cases h3
    exact (zfinal_blockBody k.2).ok rfl hbody
  obtain ⟨hmode, -, -⟩ := hframe.mode (by simp [opcode])
  have hin : inputRegion q.st = inputRegion s := by
    rw [inputRegion, hframe.host.inBase, hframe.host.inLen]
    rfl
  have hout : outputRegion q.st = outputRegion s := by
    rw [outputRegion, hframe.host.outBase, hframe.host.outCap]
    rfl
  refine ⟨WholeOf.eq_whole (J := fun _ => True) ⟨hwhole, trivial⟩, hframe.host.ctl, fun hs => ?_, by omega, hzfinal⟩
  exact ⟨hmode.trans hs.mode, hin ▸ hs.input, hout ▸ hs.output, hframe.fits hs.fits,
    by rw [hin, hout]; exact hs.apart⟩

/-! ### INFLATE with STEP and without (43_inflate.md R258) -/

/-- INFLATE's outcome from that of its block loop. -/
def blocksOutcome : EStateM.Result Stop Run Nat → Host.Outcome State Fault Refusal
  | .ok k r => .next (complete (Word.ofNat k) r.st)
  | .error (.raised code info) r => .next (faultEntry code info r.st)
  | .error .bound _ => .fault .boundExceeded

/-- The end of a block loop, with one more block counted. -/
def oneMore : EStateM.Result Stop Run Nat → EStateM.Result Stop Run Nat
  | .ok k r => .ok (k + 1) r
  | .error e r => .error e r

theorem exec_inflate (h : CanInflate s) :
    exec (.inflate stepMode) s =
      blocksOutcome (inflateBlocks stepMode (realBits s + 1) 0 (Run.whole s)) := by
  have hbound : bitBound s = realBits s + 1 := rfl
  rw [exec_eq, pseudocode, runCommand, inflate_eq, bind_ok (inflateChecks_ok h), hbound, bind_run]
  cases inflateBlocks stepMode (realBits s + 1) 0 (Run.whole s) with
  | ok k q => rfl
  | error e q => cases e <;> rfl

/-- Checks that fail do so in either form. -/
theorem exec_inflate_same (h : ¬ CanInflate s) :
    exec (.inflate true) s = exec (.inflate false) s ∧
      ∀ t, exec (.inflate true) s = .next t → t.ctl.estate = .fault := by
  cases hc : inflateChecks s (Run.whole s) with
  | ok x q => exact absurd (canInflate_of_ok hc) h
  | error e q =>
    have hrun : ∀ stepMode, inflate stepMode (Run.whole s) = .error e q := fun stepMode =>
      (inflate_eq stepMode s).trans (bind_error hc)
    have hexec : ∀ stepMode, exec (.inflate stepMode) s = blocksOutcome (.error e q) :=
      fun stepMode => by
        rw [exec_eq, pseudocode, runCommand, hrun]
        cases e <;> rfl
    refine ⟨(hexec true).trans (hexec false).symm, fun t ht => ?_⟩
    rw [hexec] at ht
    cases e with
    | raised code info =>
      cases ht
      rfl
    | bound => cases ht

/-- What a further INFLATE without STEP makes of a completed block, and what one INFLATE makes of
it. -/
theorem exec_inflate_next (hcan : CanInflate s) (h : BlockDone s t)
    (hblock : inflateBlock (Run.whole s) = .ok false (Run.whole t)) {c : Control}
    (hc : c.cmd = s.ctl.cmd) :
    ∃ res, exec (.inflate false) (withCtl c t) = blocksOutcome (endWithCtl c res) ∧
      exec (.inflate false) s = blocksOutcome (oneMore res) ∧
      (endOf res).st.ctl = s.ctl := by
  have hbits := h.bits
  have hcan' : CanInflate (withCtl c t) := by
    obtain ⟨hmode, hin, hout, hfits, hapart⟩ := h.checks hcan
    exact ⟨hmode, hin, hout, hfits, hapart⟩
  obtain ⟨hrun, hctl⟩ := blind_inflateBlocks false (realBits t + 1) 0 c (Run.whole t)
    (hc.trans (congrArg Control.cmd h.ctl.symm))
  refine ⟨inflateBlocks false (realBits t + 1) 0 (Run.whole t), ?_, ?_, hctl.trans h.ctl⟩
  · rw [exec_inflate hcan']
    exact congrArg blocksOutcome hrun
  · have hsame := inflateBlocks_bound (n := realBits s) (n' := realBits t + 1) (nblk := 0)
      (fun q => inflateBlocks_live hbits q) (fun q => inflateBlocks_live (Nat.lt_succ_self _) q)
    rw [exec_inflate hcan, inflateBlocks_next hblock, inflateBlocks_count, bind_run, hsame]
    cases inflateBlocks false (realBits t + 1) 0 (Run.whole t) <;> rfl

end

/-- One completion with all the blocks counted, from two. -/
theorem complete_after_block {s q p : State} (hq : q.ctl = s.ctl) (hp : p.ctl = s.ctl) (k : Nat) :
    complete (Word.ofNat (k + 1)) p =
      { complete (Word.ofNat k) (withCtl (complete 1 q).ctl p) with
        ctl :=
          { (complete (Word.ofNat k) (withCtl (complete 1 q).ctl p)).ctl with
            res := (complete (Word.ofNat k) (withCtl (complete 1 q).ctl p)).ctl.res + 1
            cmdcnt := s.ctl.cmdcnt + 1 } } := by
  simp only [complete, withCtl, hq, hp, Word.ofNat, BitVec.ofNat_add]
  rfl

/-- The fault of a further INFLATE, with what the completion before it wrote undone. -/
theorem faultEntry_after_block {s q p : State} (hq : q.ctl = s.ctl) (hp : p.ctl = s.ctl)
    (code : FaultCode) (info : Word) :
    faultEntry code info p =
      { faultEntry code info (withCtl (complete 1 q).ctl p) with
        ctl :=
          { (faultEntry code info (withCtl (complete 1 q).ctl p)).ctl with
            res := s.ctl.res, irqDone := s.ctl.irqDone, cmdcnt := s.ctl.cmdcnt } } := by
  simp only [faultEntry, withCtl, complete, hq, hp]

/-- Settles O45: a block that faults or is final ends either form in the same way; after another one
the loop goes on as a new INFLATE would, which sees neither the registers that the completion wrote nor
the larger bound. -/
theorem inflateRunsOn : Obligations.InflateRunsOn := by
  unfold Obligations.InflateRunsOn
  intro s t hexec
  by_cases hcan : CanInflate s
  · cases hb : inflateBlock (Run.whole s) with
    | error e q =>
      rw [exec_inflate hcan, inflateBlocks_error hb] at hexec
      have hfault : t.ctl.estate = .fault := by
        cases e with
        | raised code info =>
          cases hexec
          rfl
        | bound => cases hexec
      refine ⟨fun _ => ?_, fun hidle => ?_⟩
      · rw [exec_inflate hcan, inflateBlocks_error hb, hexec]
      · rw [hfault] at hidle
        cases hidle
    | ok final q =>
      obtain ⟨hwhole, hdone⟩ := blockDone_of_ok hb
      cases final with
      | true =>
        rw [exec_inflate hcan, inflateBlocks_final hb] at hexec
        refine ⟨fun _ => ?_, fun _ hmore => ?_⟩
        · rw [exec_inflate hcan, inflateBlocks_final hb, hexec]
        · rw [hwhole] at hexec
          cases hexec
          cases hmore
      | false =>
        rw [exec_inflate hcan, inflateBlocks_step hb] at hexec
        cases hexec
        rw [hwhole] at hb
        refine ⟨fun hend => ?_, fun _ _ u hu => ?_⟩
        · rcases hend with hfault | hfinal
          · cases hfault
          · exact absurd (hdone.zfinal.symm.trans hfinal) (by decide)
        · obtain ⟨res, hnext, hwhole, hctl⟩ := exec_inflate_next hcan hdone hb
            (c := (complete 1 q.st).ctl)
            (show q.st.ctl.cmd = s.ctl.cmd by rw [hdone.ctl])
          have hu := hnext.symm.trans hu
          rw [hwhole]
          cases res with
          | ok k p =>
            cases hu
            refine ⟨fun _ => ?_, nofun⟩
            exact congrArg Host.Outcome.next (complete_after_block hdone.ctl hctl k)
          | error e p =>
            cases e with
            | bound => cases hu
            | raised code info =>
              cases hu
              refine ⟨nofun, fun _ => ?_⟩
              exact congrArg Host.Outcome.next (faultEntry_after_block hdone.ctl hctl code info)
  · obtain ⟨hsame, hfault⟩ := exec_inflate_same hcan
    refine ⟨fun _ => hsame ▸ hexec, fun hidle => ?_⟩
    rw [hfault t hexec] at hidle
    cases hidle

end Sys2Proof.Machine

end
